-- ==== Sys2Proof/Word.lean ====
section
/-! DEFINITION. The two word types of the block: the 32-bit register or command word and the byte. -/

namespace Sys2Proof

/-- A 32-bit register, memory word or command word (R20, R90). -/
abbrev Word := BitVec 32

/-- A byte of MEM, RING or SLOT memory (R60). -/
abbrev Byte := BitVec 8

end Sys2Proof
end

