-- ==== Sys2Proof/Syntax.lean ====
section
/-! DEFINITION. The command set: one constructor per row of the opcode map (30_encoding.md R93), with the
immediate fields of its format (R91). Register operands are not part of a command word (R90). -/

namespace Sys2Proof

/-- A command of the block (R93). -/
inductive Instr where
  /-- 0x10, R124 -/
  | bwInit
  /-- 0x11, R125: `v = imm[0]` -/
  | bwBit (v : Bool)
  /-- 0x12, R126: `n = imm[5:0]` -/
  | bwFixed (n : BitVec 6)
  /-- 0x13, R128 -/
  | bwUe
  /-- 0x14, R129 -/
  | bwSe
  /-- 0x15, R130 -/
  | bwAlign
  /-- 0x16, R131 -/
  | bwBytes
  /-- 0x17, R132 -/
  | bwStat
  /-- 0x20, R153 -/
  | nsEscape
  /-- 0x21, R156: `type = imm[4:0]` -/
  | nsNal (nalType : BitVec 5)
  /-- 0x22, R163 -/
  | nsSps
  /-- 0x23, R175 -/
  | nsPps
  /-- 0x30, R191: `mode = imm[1:0]`, `get_head = imm[8]` -/
  | frInit (mode : BitVec 2) (getHead : Bool)
  /-- 0x31, R193 -/
  | frPush
  /-- 0x32, R195 -/
  | frExtract
  /-- 0x33, R197 -/
  | frStat
  /-- 0x40, R270 -/
  | seOpen
  /-- 0x41, R272 -/
  | seDecode
  /-- 0x42, R280 -/
  | seGetpic
  /-- 0x43, R288 -/
  | seClose
  deriving DecidableEq, Repr

end Sys2Proof
end

