-- ==== Sys2Proof/Decode.lean ====
section
/-! DEFINITION. The decoder, total on any command word and rejecting by name (30_encoding.md R90 to R95), and
after it the encoder. -/

namespace Sys2Proof

/-- Why a word is no command (R95). -/
inductive DecodeError where
  /-- `op` is not in the opcode map -/
  | unassignedOpcode
  /-- a listed `op` with a non-zero bit where `imm` must be zero -/
  | reservedBits
  deriving DecidableEq, Repr

/-- A row of the opcode map: a word selects it when its bits under `mask` are `pattern` (R93). -/
structure OpRow where
  pattern : Word
  mask    : Word
  build   : Word → Instr

/-- `imm[5:0]` of format F (R91). -/
def immWidth (w : Word) : BitVec 6 := w.extractLsb' 0 6

/-- `imm[4:0]` of format T (R91). -/
def immType (w : Word) : BitVec 5 := w.extractLsb' 0 5

/-- `imm[1:0]` of format M (R91). -/
def immMode (w : Word) : BitVec 2 := w.extractLsb' 0 2

/-- `imm[8]` of format M (R91). -/
def immGetHead (w : Word) : Bool := w.getLsbD 8

/-- `imm[0]` of format B (R91). -/
def immBit (w : Word) : Bool := w.getLsbD 0

/-- The opcode map (R93), row by row. -/
def opcodeMap : List OpRow :=
  [ ⟨0x10000000#32, 0xFFFFFFFF#32, fun _ => .bwInit⟩,
    ⟨0x11000000#32, 0xFFFFFFFE#32, fun w => .bwBit (immBit w)⟩,
    ⟨0x12000000#32, 0xFFFFFFC0#32, fun w => .bwFixed (immWidth w)⟩,
    ⟨0x13000000#32, 0xFFFFFFFF#32, fun _ => .bwUe⟩,
    ⟨0x14000000#32, 0xFFFFFFFF#32, fun _ => .bwSe⟩,
    ⟨0x15000000#32, 0xFFFFFFFF#32, fun _ => .bwAlign⟩,
    ⟨0x16000000#32, 0xFFFFFFFF#32, fun _ => .bwBytes⟩,
    ⟨0x17000000#32, 0xFFFFFFFF#32, fun _ => .bwStat⟩,
    ⟨0x20000000#32, 0xFFFFFFFF#32, fun _ => .nsEscape⟩,
    ⟨0x21000000#32, 0xFFFFFFE0#32, fun w => .nsNal (immType w)⟩,
    ⟨0x22000000#32, 0xFFFFFFFF#32, fun _ => .nsSps⟩,
    ⟨0x23000000#32, 0xFFFFFFFF#32, fun _ => .nsPps⟩,
    ⟨0x30000000#32, 0xFFFFFEFC#32, fun w => .frInit (immMode w) (immGetHead w)⟩,
    ⟨0x31000000#32, 0xFFFFFFFF#32, fun _ => .frPush⟩,
    ⟨0x32000000#32, 0xFFFFFFFF#32, fun _ => .frExtract⟩,
    ⟨0x33000000#32, 0xFFFFFFFF#32, fun _ => .frStat⟩,
    ⟨0x40000000#32, 0xFFFFFFFF#32, fun _ => .seOpen⟩,
    ⟨0x41000000#32, 0xFFFFFFFF#32, fun _ => .seDecode⟩,
    ⟨0x42000000#32, 0xFFFFFFFF#32, fun _ => .seGetpic⟩,
    ⟨0x43000000#32, 0xFFFFFFFF#32, fun _ => .seClose⟩ ]

/-- `w` selects the row (R93). -/
def OpRow.selects (w : Word) (r : OpRow) : Bool := w &&& r.mask == r.pattern

/-- The `op` field of `w`, bits 31:24, is that of the row (R90). -/
def OpRow.sameOp (w : Word) (r : OpRow) : Bool := w.extractLsb' 24 8 == r.pattern.extractLsb' 24 8

/-- Decoding (R94): the one row the word selects, else a named rejection (R95). It reads no state. -/
def decode (w : Word) : Except DecodeError Instr :=
  match opcodeMap.find? (OpRow.selects w) with
  | some r => .ok (r.build w)
  | none => .error (if opcodeMap.any (OpRow.sameOp w) then .reservedBits else .unassignedOpcode)

/-- A command word from its `op` and `imm` fields (R90): `op << 24 | imm`. -/
def commandWord (op : BitVec 8) (imm : BitVec 24) : Word := op.setWidth 32 <<< 24 ||| imm.setWidth 32

/-- The command word of a command, from the opcode column and the formats (R91, R93). -/
def encode : Instr → Word
  | .bwInit => commandWord 0x10#8 0#24
  | .bwBit v => commandWord 0x11#8 (BitVec.setWidth 24 (BitVec.ofBool v))
  | .bwFixed n => commandWord 0x12#8 (n.setWidth 24)
  | .bwUe => commandWord 0x13#8 0#24
  | .bwSe => commandWord 0x14#8 0#24
  | .bwAlign => commandWord 0x15#8 0#24
  | .bwBytes => commandWord 0x16#8 0#24
  | .bwStat => commandWord 0x17#8 0#24
  | .nsEscape => commandWord 0x20#8 0#24
  | .nsNal t => commandWord 0x21#8 (t.setWidth 24)
  | .nsSps => commandWord 0x22#8 0#24
  | .nsPps => commandWord 0x23#8 0#24
  | .frInit m g => commandWord 0x30#8 (m.setWidth 24 ||| (BitVec.setWidth 24 (BitVec.ofBool g) <<< 8))
  | .frPush => commandWord 0x31#8 0#24
  | .frExtract => commandWord 0x32#8 0#24
  | .frStat => commandWord 0x33#8 0#24
  | .seOpen => commandWord 0x40#8 0#24
  | .seDecode => commandWord 0x41#8 0#24
  | .seGetpic => commandWord 0x42#8 0#24
  | .seClose => commandWord 0x43#8 0#24

/-- What the decoder reads from a command whose bits are the low `nbits` bits of `w`, all higher bits zero. A
command is one 32-bit word with no byte order of its own (R90); bits beyond 32 would be no command word. -/
def decodeTableWord (nbits w : Nat) : Option Instr :=
  if w % 2 ^ nbits < 2 ^ 32 then (decode (BitVec.ofNat 32 (w % 2 ^ nbits))).toOption else none

end Sys2Proof
end

