-- ==== Sys2Proof/Config.lean ====
section
/-! DEFINITION. What an implementation fixes (the parameters of 00_scope.md R13 to R19), the answers the
external device may give (R241 to R249), and the free values: opaque constants without a body, of which
nothing can be proved (93_implementation_defined.md U1 to U5). -/

namespace Sys2Proof

/-- The negotiated format: an opaque record that no rule inspects (R37, R243). Only its identity is kept. -/
structure Fmt where
  token : Nat
  deriving DecidableEq, Repr, Inhabited

/-- The "mapped pointer" of a plane: an opaque handle (R35, R244). -/
structure Handle where
  token : Nat
  deriving DecidableEq, Repr, Inhabited

/-- What `Dev.map` tells of one plane: size, offset cookie, handle (R35, R244). -/
structure PlaneInfo where
  size   : Word
  offset : Word
  ptr    : Handle
  deriving DecidableEq, Repr, Inhabited

/-- Everything Dev can answer to a transaction (R242 to R249). Which of them a transaction accepts is
said where the transaction is issued. An answer outside its alphabet counts as `fail` (U5). -/
inductive DevAnswer where
  /-- `OK` of negotiate_input, alloc, enqueue and chain -/
  | ok
  /-- `FAIL` of every transaction that answers -/
  | fail
  /-- `NOT_READY` of query_capture and dequeue -/
  | notReady
  /-- `READY` of poll -/
  | ready
  /-- `TIMEOUT` of poll -/
  | timeout
  /-- `OK(fmt, min_capture, consumable)` of query_capture -/
  | capture (fmt : Fmt) (minCapture : Nat) (consumable : Bool)
  /-- `OK(nplanes, [...])` of map -/
  | mapped (planes : List PlaneInfo)
  /-- `OK(i)` of dequeue -/
  | slot (i : Nat)
  deriving DecidableEq, Repr, Inhabited

namespace Config

/-- `FIXED_MAX`, the widest field of `write_fixed` (R13). -/
def fixedMax : Nat := 32

/-- `POLL_TIMEOUT_MS` (R18). -/
def pollTimeoutMs : Nat := 1000

/-- The OPEN parameters (R14 to R19), held so that every value of the type is a legal choice:
`RING_CAP - 1` below `2^32 - 1` (R14, R190), `N_IN` two or three (R15), `N_COUT - 1` (R17). -/
structure Params where
  /-- `RING_CAP - 1` -/
  ringCapPred      : Fin 4294967295
  /-- whether `N_IN` is 3 rather than 2 -/
  thirdInSlot      : Bool
  /-- `PIPELINE_DEPTH` -/
  pipelineDepth    : Nat
  /-- `N_COUT - 1` -/
  nCoutPred        : Nat
  /-- `HDR_RETRY_MAX`, finite as R259 asks of a total model -/
  hdrRetryMax      : Nat
  /-- `LEVEL_IDC` -/
  levelIdc         : Byte
  /-- `MPEG4_HEADER_CODES` -/
  mpeg4HeaderCodes : List Byte
  deriving DecidableEq, Repr, Inhabited

/-- `RING_CAP`, from 1 to `2^32 - 1` (R14, R190). -/
def Params.ringCap (p : Params) : Nat := p.ringCapPred.val + 1

/-- `N_IN`, 2 or 3 (R15). -/
def Params.nIn (p : Params) : Nat := if p.thirdInSlot then 3 else 2

/-- `N_COUT`, at least 1 (R17). -/
def Params.nCout (p : Params) : Nat := p.nCoutPred + 1

/-- The default of `MPEG4_HEADER_CODES` (R206): `0x00 .. 0x2F`, `0xB0`, `0xB3`, `0xB5`. -/
def mpeg4DefaultCodes : List Byte :=
  (List.range 0x30).map (BitVec.ofNat 8) ++ [0xB0#8, 0xB3#8, 0xB5#8]

/-- The parameters of the implementation: free (U10). -/
opaque params : Params

/-- The byte MEM holds at an address nothing has written: free (U1, R340). -/
opaque memByte : Nat → Byte

/-- The byte RING holds at an index nothing has written: free (U1, R340). -/
opaque ringByte : Nat → Byte

/-- The byte at an offset of a plane, for the given draw of a slot's contents: free (U3). -/
opaque slotByte : (draw plane offset : Nat) → Byte

/-- The byte an aborted escape leaves in its destination, for the given draw: free (U2, R154). -/
opaque abortByte : (draw offset : Nat) → Byte

/-- What `r1` of `SE_GETPIC` holds for a slot index of `2^32` or more, which no rule says: free (R280). -/
opaque wideIndex : Nat → Word

/-- What Dev answers to its n-th transaction when no script says it: free (U5, R241). -/
opaque devAnswer : Nat → DevAnswer

end Config

end Sys2Proof
end

