-- ==== Sys2Proof/Machine/State.lean ====
section
/-! DEFINITION. The state of the block as plain data (10_state.md, 20_memory.md), the reasons a step can stop,
and the state after reset (70_reset_and_hazards.md R340). -/

namespace Sys2Proof.Machine

/-- Bytes by address, in one canonical form: addresses strictly rising (`Memory.wf`). An address that is not
listed holds nothing that was written: it reads as no value (`Memory.peek`), and a command that reads it sees
the free byte of the space it lies in. -/
abbrev Memory := List Host.Cell

/-- The argument registers `a0 .. a7` (R20). -/
structure ArgRegs where
  a0 : Word
  a1 : Word
  a2 : Word
  a3 : Word
  a4 : Word
  a5 : Word
  a6 : Word
  a7 : Word
  deriving DecidableEq, Repr

/-- The result registers `r0 .. r3` (R20). -/
structure ResRegs where
  r0 : Word
  r1 : Word
  r2 : Word
  r3 : Word
  deriving DecidableEq, Repr

/-- The BitCursor (R25). -/
structure BitCursor where
  /-- MEM address of byte 0 of the destination buffer -/
  base : Word
  /-- size of the destination buffer in bytes -/
  cap  : Word
  /-- bits written so far -/
  pos  : Word
  /-- the only condition flag (R28) -/
  ovf  : Bool
  deriving DecidableEq, Repr

/-- Stream grammar, `FR.mode` (R31). The value 3 is never held. -/
inductive Mode where
  | h264
  | mpeg4
  | mpeg12
  deriving DecidableEq, Repr

/-- Scanner state, `FR.st` (R31). -/
inductive ScanState where
  | idle
  | saw0x1
  | saw0x2
  | saw0x3
  | sawStartCode
  | inSliceLookahead
  deriving DecidableEq, Repr

/-- Tags of events and units (R31). -/
inductive Tag where
  | none
  | header
  | picture
  deriving DecidableEq, Repr

/-- The ParserContext (R29 to R33). The byte counters are naturals, as R30 allows. -/
structure Framer where
  valid     : Bool
  /-- bytes pushed -/
  head      : Nat
  /-- bytes released -/
  tail      : Nat
  /-- bytes the scanner has stepped over -/
  read      : Nat
  mode      : Mode
  st        : ScanState
  getHead   : Bool
  shLead    : Bool
  lastTag   : Tag
  hdrCnt    : Word
  picCnt    : Word
  unitStart : Nat
  scStart   : Nat
  pending   : Bool
  pendEnd   : Nat
  pendTag   : Tag
  /-- the ring-buffer storage, by index (R60, R62) -/
  ring      : Memory
  deriving DecidableEq, Repr

/-- Ownership of a slot (R35). -/
inductive Own where
  | free
  | queued
  | done
  deriving DecidableEq, Repr

/-- Which device queue holds a `DOUT` slot while it is queued (R35). -/
inductive Holder where
  | dec
  | conv
  deriving DecidableEq, Repr

/-- One mapped plane of a slot (R35) and the bytes the block has written into it (R63). -/
structure Plane where
  size   : Word
  offset : Word
  ptr    : Handle
  mem    : Memory
  deriving DecidableEq, Repr

/-- A BufferSlot (R35). `nplanes` is the length of `planes`. `holder` is used in pool `DOUT` only and `used`
in pool `IN` only. `gen` is the model's own: the draw that says what the unlisted bytes of the slot's planes
hold (U3). -/
structure Slot where
  own    : Own
  holder : Holder
  planes : List Plane
  used   : Word
  gen    : Nat
  deriving DecidableEq, Repr

/-- The three pools (R34). -/
inductive PoolId where
  | inp
  | dout
  | cout
  deriving DecidableEq, Repr

/-- The four device queues (R241). -/
inductive QueueId where
  | inp
  | dout
  | cin
  | cout
  deriving DecidableEq, Repr

/-- The DecoderPipelineState (R37) with its slot tables (R34). -/
structure Pipeline where
  fmt      : Fmt
  nIn      : Nat
  nDout    : Nat
  nCout    : Nat
  conv     : Bool
  hdrDone  : Bool
  inPool   : List Slot
  doutPool : List Slot
  coutPool : List Slot
  deriving DecidableEq, Repr

/-- Session lifecycle (R38, R320). -/
inductive Life where
  | closed
  | opened
  | failed
  deriving DecidableEq, Repr

/-- Session registers (R38). -/
structure Session where
  life    : Life
  profile : Byte
  width   : Word
  height  : Word
  deriving DecidableEq, Repr

/-- The output event `Present(pool, i, planes, fmt)`, with pointer and size of each plane (R262). -/
structure Present where
  pool   : PoolId
  slot   : Nat
  planes : List (Handle × Word)
  fmt    : Fmt
  deriving DecidableEq, Repr

/-- A transaction the block issues on the device port (R242 to R249). -/
inductive DevCall where
  | negotiateInput (mode : Mode) (width height : Word)
  | queryCapture
  | map (queue : QueueId) (i : Nat)
  | alloc (queue : QueueId) (n : Nat)
  | poll (timeoutMs : Nat)
  | dequeue (queue : QueueId)
  | enqueue (queue : QueueId) (i : Nat) (bytes : Nat)
  | chain (fmt : Fmt) (nDout : Nat)
  | teardown
  deriving DecidableEq, Repr

/-- A transaction that was issued, with its answer. `teardown` has none (R249). -/
structure DevTxn where
  call   : DevCall
  answer : Option DevAnswer
  deriving DecidableEq, Repr

/-- The device port. `script` is the trace of answers supplied with the commands and `asked` the counter into
the free answers that follow it (R241: "an oracle, or a trace supplied with the command"). `log` is every
transaction issued, oldest first. -/
structure DevPort where
  script : List DevAnswer
  asked  : Nat
  log    : List DevTxn
  deriving DecidableEq, Repr

/-- What the host does at the block's interface: it writes an argument register or a byte of MEM between
commands, issues a command word (R20, R73, R90), or resets the block (R340). -/
inductive HostInput where
  | setArg (i : Fin 8) (v : Word)
  | poke (addr : Word) (b : Byte)
  | command (w : Word)
  | reset
  deriving DecidableEq, Repr

/-- The whole state. `params`, `port` and `draws` are the model's own fields: the parameters of this block
(U10), what the host still does, oldest first, and the counter that indexes free values. -/
structure State where
  params : Config.Params
  args   : ArgRegs
  res    : ResRegs
  mem    : Memory
  bw     : BitCursor
  fr     : Framer
  pl     : Pipeline
  se     : Session
  events : List Present
  dev    : DevPort
  port   : List HostInput
  draws  : Nat
  deriving DecidableEq, Repr

/-- The reasons a step can stop with a fault. There is none: every command of the block ends with a status in
`r0` (R300), every MEM address is formed in 32 bits, and MEM is total (R60, U11). -/
inductive Fault where
  deriving DecidableEq, Repr

/-- The reasons a step can be refused. -/
inductive Refusal where
  /-- Raised by `exec` for a command that has no meaning yet, with the mnemonic of its row. No arm raises it:
  every command has its meaning. Safe: the model stops where the block goes on. -/
  | notModelled (mnemonic : String)
  deriving DecidableEq, Repr

/-- The completion statuses (R300). -/
inductive Status where
  | ok
  | frameReady
  | outTooSmall
  | bufferFull
  | bufferTooSmall
  | bitOverflow
  | notReady
  | protocolError
  | decodeError
  | illegalCommand
  | illegalOperand
  | illegalState
  deriving DecidableEq, Repr

/-- The state after reset (R340). DESIGN CHOICE, unsafe: the registers that R340 leaves unspecified hold zero,
`FR.mode` holds H264 (log 4). -/
def State.reset : State where
  params := Config.params
  args   := ⟨0, 0, 0, 0, 0, 0, 0, 0⟩
  res    := ⟨0, 0, 0, 0⟩
  mem    := []
  bw     := ⟨0, 0, 0, false⟩
  fr     :=
    { valid := false, head := 0, tail := 0, read := 0, mode := .h264, st := .idle, getHead := false,
      shLead := false, lastTag := .none, hdrCnt := 0, picCnt := 0, unitStart := 0, scStart := 0,
      pending := false, pendEnd := 0, pendTag := .none, ring := [] }
  pl     :=
    { fmt := ⟨0⟩, nIn := 0, nDout := 0, nCout := 0, conv := false, hdrDone := false, inPool := [],
      doutPool := [], coutPool := [] }
  se     := ⟨.closed, 0, 0, 0⟩
  events := []
  dev    := ⟨[], 0, []⟩
  port   := []
  draws  := 0

end Sys2Proof.Machine
end

