-- ==== Sys2Proof/Machine/Memory.lean ====
section
/-! DEFINITION. The operations on sparse byte memories and the four storages made of them (20_memory.md R60). -/

namespace Sys2Proof.Machine

/-- What was written at an address, if anything was. -/
def Memory.peek : Memory → Nat → Option Byte
  | [], _ => none
  | (a, b) :: m, k => if k = a then some b else Memory.peek m k

/-- Write one byte, keeping the addresses in rising order. -/
def Memory.put : Memory → Nat → Byte → Memory
  | [], k, v => [(k, v)]
  | (a, b) :: m, k, v =>
    if k < a then (k, v) :: (a, b) :: m
    else if k = a then (k, v) :: m
    else (a, b) :: Memory.put m k v

/-- The canonical form of the memory of a space whose addresses are below `bound`: addresses strictly rising
and inside the space. An unlisted address reads as no value, which no entry holds, so equal memories are
equal lists. -/
def Memory.wf (bound : Nat) (m : Memory) : Bool :=
  decide (m.Pairwise fun x y => x.1 < y.1) && m.all fun c => decide (c.1 < bound)

/-- Write the byte sequence `bs` from address `a` upward: `MemWrite` (00_scope.md section 6). -/
def Memory.putBytes (m : Memory) (a : Nat) : List Byte → Memory
  | [] => m
  | b :: bs => (m.put a b).putBytes (a + 1) bs

/-- The size of MEM in bytes (R60). -/
def memSize : Nat := 2 ^ 32

/-- The byte of MEM at an address: what was written, else the free byte (R60, R340; log 5). -/
def memByte (m : Memory) (a : Nat) : Byte := (m.peek a).getD (Config.memByte a)

/-- `MemRead(MEM, a, n)`, lowest address first (00_scope.md section 6, R65). -/
def memRead (m : Memory) (a : Nat) : Nat → List Byte
  | 0 => []
  | n + 1 => memByte m a :: memRead m (a + 1) n

/-- Assemble a `u32` from four bytes, least significant first (R66). -/
def wordOfBytes (b0 b1 b2 b3 : Byte) : Word := b3 ++ b2 ++ b1 ++ b0

/-- `Word(MEM, a)`, little-endian at any address (R66, R67). -/
def memWord (m : Memory) (a : Nat) : Word :=
  wordOfBytes (memByte m a) (memByte m (a + 1)) (memByte m (a + 2)) (memByte m (a + 3))

/-- The byte of RING whose monotonic count is `c`: index `c mod RING_CAP` (R62; log 6). -/
def ringByte (cap : Nat) (ring : Memory) (c : Nat) : Byte :=
  (ring.peek (c % cap)).getD (Config.ringByte (c % cap))

/-- `RingBytes(c, c + n)`, each byte at its own index (R62). -/
def ringBytes (cap : Nat) (ring : Memory) (c : Nat) : Nat → List Byte
  | 0 => []
  | n + 1 => ringByte cap ring c :: ringBytes cap ring (c + 1) n

/-- Store a byte sequence into RING from count `c` upward (R192). -/
def ringPut (cap : Nat) (ring : Memory) (c : Nat) : List Byte → Memory
  | [] => ring
  | b :: bs => ringPut cap (ring.put (c % cap) b) (c + 1) bs

/-- The byte of `SLOT(P, i, p)` at an offset (R63): what the block wrote since it last owned unknown contents,
else the free byte of the slot's draw (U3; log 7). -/
def slotByte (sl : Slot) (p off : Nat) : Byte :=
  ((sl.planes[p]?).bind fun pl => pl.mem.peek off).getD (Config.slotByte sl.gen p off)

end Sys2Proof.Machine
end

