-- ==== Sys2Proof/Machine/Ops.lean ====
section
/-! DEFINITION. The named updates of State, the registers of the command interface, completing a command with a
status (the block's whole trap entry, 60_exceptions.md R301), the range checks every command shares
(20_memory.md R69), and reset (70_reset_and_hazards.md R340). -/

namespace Sys2Proof.Machine

/-! ### One named update per field of State -/

def State.withArgs (s : State) (x : ArgRegs) : State := { s with args := x }
def State.withRes (s : State) (x : ResRegs) : State := { s with res := x }
def State.withMem (s : State) (x : Memory) : State := { s with mem := x }
def State.withBw (s : State) (x : BitCursor) : State := { s with bw := x }
def State.withFr (s : State) (x : Framer) : State := { s with fr := x }
def State.withPl (s : State) (x : Pipeline) : State := { s with pl := x }
def State.withSe (s : State) (x : Session) : State := { s with se := x }
def State.withEvents (s : State) (x : List Present) : State := { s with events := x }
def State.withDev (s : State) (x : DevPort) : State := { s with dev := x }
def State.withPort (s : State) (x : List HostInput) : State := { s with port := x }
def State.withDraws (s : State) (x : Nat) : State := { s with draws := x }

/-! ### Registers -/

/-- The host's write of argument register `i` (R20). -/
def ArgRegs.set (a : ArgRegs) (i : Fin 8) (v : Word) : ArgRegs :=
  match i with
  | 0 => { a with a0 := v }
  | 1 => { a with a1 := v }
  | 2 => { a with a2 := v }
  | 3 => { a with a3 := v }
  | 4 => { a with a4 := v }
  | 5 => { a with a5 := v }
  | 6 => { a with a6 := v }
  | 7 => { a with a7 := v }

def State.setR0 (s : State) (v : Word) : State := s.withRes { s.res with r0 := v }
def State.setR1 (s : State) (v : Word) : State := s.withRes { s.res with r1 := v }
def State.setR2 (s : State) (v : Word) : State := s.withRes { s.res with r2 := v }
def State.setR3 (s : State) (v : Word) : State := s.withRes { s.res with r3 := v }

/-! ### Completion -/

/-- The `s32` code of a status (R300). -/
def Status.code : Status → Int
  | .ok => 0
  | .frameReady => 1
  | .outTooSmall => -1
  | .bufferFull => -2
  | .bufferTooSmall => -3
  | .bitOverflow => -4
  | .notReady => -5
  | .protocolError => -6
  | .decodeError => -7
  | .illegalCommand => -8
  | .illegalOperand => -9
  | .illegalState => -10

/-- The bits of a status in `r0` (R21). -/
def Status.word (st : Status) : Word := BitVec.ofInt 32 st.code

/-- Complete a command, or raise, with a status (R301): `r0` is written and nothing else; the port takes the
next command. There is nothing to save, no vector, and nothing to return from. -/
def State.finish (st : Status) (s : State) : Host.Outcome State Fault Refusal :=
  .next (s.setR0 st.word)

/-! ### Range checks -/

/-- The range `[a, a + len)` leaves the address space (R69). -/
def rangeWraps (a : Word) (len : Nat) : Bool := decide (memSize < a.toNat + len)

/-- `[a, a + la)` and `[b, b + lb)` are both non-empty and intersect (R69). -/
def rangesMeet (a : Word) (la : Nat) (b : Word) (lb : Nat) : Bool :=
  decide (0 < la ∧ 0 < lb ∧ a.toNat < b.toNat + lb ∧ b.toNat < a.toNat + la)

/-- A source range that leaves the address space or meets the whole BitWriter buffer (R69). -/
def State.badBwSource (s : State) (a : Word) (len : Nat) : Bool :=
  rangeWraps a len || rangesMeet a len s.bw.base s.bw.cap.toNat

/-! ### Reset -/

/-- The hardware reset as an event (R340): every register at its reset value, the event trace empty, MEM not
changed. No transaction is issued (R360). The host's remaining inputs, Dev's answers, the transactions
already issued, the parameters and the counters of free values are not the block's and stay (log 14). -/
def State.hardReset (s : State) : State :=
  { State.reset with params := s.params, mem := s.mem, dev := s.dev, port := s.port, draws := s.draws }

end Sys2Proof.Machine
end

