-- ==== Sys2Proof/Machine/Operands.lean ====
section
/-! DEFINITION. The operand forms: signed views, numeric codes of the enumerations (10_state.md R31), operand
blocks in MEM (30_encoding.md R104 to R106) and the profile word (R107). -/

namespace Sys2Proof.Machine

/-- `as_s32` (00_scope.md section 6, R21). -/
def asS32 (w : Word) : Int := w.toInt

/-- The mode that a 2-bit code names. Code 3 names none (R31, R96). -/
def modeOfCode (c : BitVec 2) : Option Mode :=
  if c = 0#2 then some .h264 else if c = 1#2 then some .mpeg4 else if c = 2#2 then some .mpeg12 else none

/-- The code of a mode (R31). -/
def Mode.code : Mode → Nat
  | .h264 => 0
  | .mpeg4 => 1
  | .mpeg12 => 2

/-- The code of a scanner state (R31). -/
def ScanState.code : ScanState → Nat
  | .idle => 0
  | .saw0x1 => 1
  | .saw0x2 => 2
  | .saw0x3 => 3
  | .sawStartCode => 4
  | .inSliceLookahead => 5

/-- The code of a tag (R31). -/
def Tag.code : Tag → Nat
  | .none => 0
  | .header => 1
  | .picture => 2

/-- The code of a pool in `r3` of `SE_GETPIC` (R280): 1 `DOUT`, 2 `COUT`. -/
def PoolId.code : PoolId → Nat
  | .inp => 0
  | .dout => 1
  | .cout => 2

/-- A slot index as `r1` of `SE_GETPIC` shows it (R280). DESIGN CHOICE, safe: R280 is silent on an index of
`2^32` or more, whose word is a free value (log 23). -/
def indexWord (i : Nat) : Word := if i < 2 ^ 32 then BitVec.ofNat 32 i else Config.wideIndex i

/-- The address of word `k` of an operand block at `base` (30_encoding.md section 5). -/
def blockAddr (base : Word) (k : Nat) : Nat := base.toNat + 4 * k

/-- Word `k` of an operand block. -/
def blockWord (m : Memory) (base : Word) (k : Nat) : Word := memWord m (blockAddr base k)

/-- The bytes of `SPS_PARAMS` (R104): 12 words. -/
def spsBlockLen : Nat := 48

/-- The bytes of `PPS_PARAMS` (R105): 13 words. -/
def ppsBlockLen : Nat := 52

/-- The bytes of the scaling-list array (R104): six lists of 16 and two of 64. -/
def scalingLen : Nat := 224

/-- The words of the array of `n` words at `a`. -/
def wordArray (m : Memory) (a : Word) (n : Nat) : List Word := (List.range n).map (blockWord m a)

/-- The `BUF_LIST` at `a` with `n` entries (R106): address and length of each buffer, in order. -/
def bufList (m : Memory) (a : Word) (n : Nat) : List (Word × Word) :=
  (List.range n).map fun j => (blockWord m a (2 * j), blockWord m a (2 * j + 1))

/-- The concatenation of the buffers of a list, in order (R106, R272 D1). -/
def bufBytes (m : Memory) : List (Word × Word) → List Byte
  | [] => []
  | (a, len) :: bs => memRead m a.toNat len.toNat ++ bufBytes m bs

/-- Bits 1:0 of a profile word: the codec mode (R107). -/
def profileMode (w : Word) : BitVec 2 := w.extractLsb' 0 2

/-- Bits 15:8 of a profile word: `profile_idc` (R107). -/
def profileIdc (w : Word) : Byte := w.extractLsb' 8 8

/-- A bit that must be zero is set in a profile word (R107, R270). -/
def profileReserved (w : Word) : Bool := w &&& 0xFFFF00FC#32 != 0#32

end Sys2Proof.Machine
end

