-- ==== Sys2Proof/Machine/Flags.lean ====
section
/-! DEFINITION. The flag computations: the one condition flag `BW.ovf` (10_state.md R28), the state word of
`FR_STAT` (42_framer.md R197), the step mask of `SE_DECODE` (43_pipeline.md R272). -/

namespace Sys2Proof.Machine

/-- A bit as a register value. -/
def bit (b : Bool) : Nat := if b then 1 else 0

/-- `n` more bits fit into the BitWriter buffer (R122). -/
def State.bwFits (s : State) (n : Nat) : Bool := decide (s.bw.pos.toNat + n ≤ 8 * s.bw.cap.toNat)

/-- A write found insufficient room: `BW.ovf` is set and nothing else changes (R28, R122). -/
def State.setOvf (s : State) : State := s.withBw { s.bw with ovf := true }

/-- The RBSP starts at the buffer's first bit with the flag clear (R163, R175). -/
def State.bwRestart (s : State) : State := s.withBw { s.bw with pos := 0, ovf := false }

/-- The state word of `FR_STAT` (R197). -/
def Framer.stateWord (f : Framer) : Word :=
  BitVec.ofNat 32
    (f.st.code + f.mode.code * 2 ^ 3 + bit f.getHead * 2 ^ 5 + bit f.shLead * 2 ^ 6
      + f.lastTag.code * 2 ^ 7 + bit f.pending * 2 ^ 9 + f.pendTag.code * 2 ^ 10
      + bit (f.hdrCnt != 0) * 2 ^ 12 + bit (f.picCnt != 0) * 2 ^ 13)

/-- What `SE_DECODE` has to report so far: the status and bits 4:0 of the step mask (R272). -/
structure StepNote where
  st        : Status
  pushed    : Bool
  setupRan  : Bool
  submitted : Bool
  reclaimed : Bool
  errored   : Bool
  deriving DecidableEq, Repr

/-- Nothing to report yet. -/
def stepNoteInit : StepNote := ⟨.ok, false, false, false, false, false⟩

/-- `note(x)`: the first status that is not `OK` wins (R272). -/
def StepNote.note (n : StepNote) (x : Status) : StepNote := if n.st = .ok then { n with st := x } else n

/-- A step reports `DecodeError`: the status is noted and bit 4 set (R272). -/
def StepNote.decodeError (n : StepNote) : StepNote := { n.note .decodeError with errored := true }

/-- The step mask of `SE_DECODE` (R272). -/
def StepNote.mask (n : StepNote) : Word :=
  BitVec.ofNat 32
    (bit n.pushed + bit n.setupRan * 2 + bit n.submitted * 4 + bit n.reclaimed * 8 + bit n.errored * 16)

end Sys2Proof.Machine
end

