-- ==== Sys2Proof/Machine/Scanner.lean ====
section
/-! DEFINITION. The framer's µ-operations and its scanner (42_framer.md R190 to R212), as functions of the
ParserContext. -/

namespace Sys2Proof.Machine

/-! ### Initialisation and push -/

/-- `FrInit(mode, get_head)` (R191). The ring storage is not cleared. -/
def frInit (mode : Mode) (getHead : Bool) (f : Framer) : Framer :=
  { valid := true, head := 0, tail := 0, read := 0, mode := mode, st := .idle, getHead := getHead,
    shLead := false, lastTag := .none, hdrCnt := 0, picCnt := 0, unitStart := 0, scStart := 0,
    pending := false, pendEnd := 0, pendTag := .none, ring := f.ring }

/-- The ring has room for `n` more bytes (R192). -/
def Framer.hasRoom (cap : Nat) (f : Framer) (n : Nat) : Bool := decide (f.head - f.tail + n ≤ cap)

/-- The effect of a `FrPush` that fits (R192). -/
def frPush (cap : Nat) (bs : List Byte) (f : Framer) : Framer :=
  { f with ring := ringPut cap f.ring f.head bs, head := f.head + bs.length }

/-! ### Events and boundaries -/

/-- A counter increment that saturates at `2^32 - 1` (R32, R209). -/
def satInc (c : Word) : Word := if c = BitVec.allOnes 32 then c else c + 1

/-- The unit starts at `off` if no HEADER has been counted toward it (R209). -/
def Framer.startUnit (f : Framer) (off : Nat) : Framer := if f.hdrCnt = 0 then { f with unitStart := off } else f

/-- A boundary is found: the unit ends at `off` (R209). -/
def Framer.endUnit (f : Framer) (off : Nat) (tag : Tag) : Framer :=
  { f with pending := true, pendEnd := off, pendTag := tag }

/-- `OnEvent` in the head variant (R209, R212). -/
def onEventHead (off : Nat) (tag : Tag) (f : Framer) : Framer :=
  if tag = .header then { f.startUnit off with hdrCnt := satInc f.hdrCnt }
  else if f.hdrCnt ≠ 0 then { f.endUnit off .header with hdrCnt := 0, picCnt := 1 }
  else f

/-- `OnEvent` in normal mode (R209). -/
def onEventNormal (off : Nat) (tag : Tag) (f : Framer) : Framer :=
  if f.picCnt ≠ 0 then
    if tag = .header then { f.endUnit off .picture with hdrCnt := 1, picCnt := 0 }
    else { f.endUnit off .picture with hdrCnt := 0, picCnt := 1 }
  else if tag = .header then { f.startUnit off with hdrCnt := satInc f.hdrCnt }
  else { f.startUnit off with picCnt := 1 }

/-- `OnEvent(off, tag)`, the boundary rule (R209). -/
def onEvent (off : Nat) (tag : Tag) (f : Framer) : Framer :=
  if f.getHead then onEventHead off tag { f with lastTag := tag }
  else onEventNormal off tag { f with lastTag := tag }

/-- `ShortHeader(off)` (R211). -/
def shortHeader (off : Nat) (f : Framer) : Framer :=
  onEvent off (if f.shLead then .picture else .header) { f with shLead := true }

/-! ### Classification -/

/-- What a classifier byte says (R204). -/
inductive ScClass where
  | header
  | picture
  | slice
  | other
  deriving DecidableEq, Repr

/-- `Classify(H264, b)` by the low five bits (R205). -/
def classifyH264 (b : Byte) : ScClass :=
  let t := b.toNat % 32
  if t = 6 ∨ t = 7 ∨ t = 8 then .header else if t = 1 ∨ t = 5 then .slice else .other

/-- `Classify(MPEG4, b)` (R206). -/
def classifyMpeg4 (codes : List Byte) (b : Byte) : ScClass :=
  if b = 0xB6#8 then .picture else if b ∈ codes then .header else .other

/-- `Classify(MPEG12, b)` (R207). -/
def classifyMpeg12 (b : Byte) : ScClass :=
  if b = 0xB3#8 ∨ b = 0xB8#8 then .header else if b = 0x00#8 then .picture else .other

/-- `Classify(mode, b)` (R205 to R207). -/
def classify (p : Config.Params) (mode : Mode) (b : Byte) : ScClass :=
  match mode with
  | .h264 => classifyH264 b
  | .mpeg4 => classifyMpeg4 p.mpeg4HeaderCodes b
  | .mpeg12 => classifyMpeg12 b

/-! ### One scanner step -/

/-- `Rescan(b)`: the byte may itself begin a zero run (R199). -/
def rescan (b : Byte) : ScanState := if b = 0#8 then .saw0x1 else .idle

/-- The scanner has consumed one byte and is in state `st` (R199). -/
def Framer.stepTo (f : Framer) (st : ScanState) : Framer := { f with st := st, read := f.read + 1 }

/-- The 6-bit short-header mark of MPEG-4, `b[7:2] = 100000` (R202, R211). -/
def isShortMark (b : Byte) : Bool := b.toNat / 4 = 0b100000

/-- State `Saw0x2` (R202). -/
def stepSaw2 (b : Byte) (f : Framer) : Framer :=
  if b = 1#8 then { f.stepTo .sawStartCode with scStart := f.read - 2 }
  else if b = 0#8 then f.stepTo (if f.mode = .h264 then .saw0x3 else .saw0x2)
  else if f.mode = .mpeg4 ∧ isShortMark b = true then shortHeader (f.read - 2) (f.stepTo .idle)
  else f.stepTo .idle

/-- State `Saw0x3`, H264 only (R203). In another mode, where it is unreachable, it behaves as `Saw0x2`. -/
def stepSaw3 (b : Byte) (f : Framer) : Framer :=
  if f.mode = .h264 then
    if b = 1#8 then { f.stepTo .sawStartCode with scStart := f.read - 3 }
    else if b = 0#8 then f.stepTo .saw0x3
    else f.stepTo .idle
  else stepSaw2 b f

/-- A normal header of MPEG-4 forgets the short-header lead (R204, R211). -/
def Framer.normalHeader (f : Framer) : Framer := if f.mode = .mpeg4 then { f with shLead := false } else f

/-- State `SawStartCode`: `b` classifies the start code (R204). -/
def stepClassify (p : Config.Params) (b : Byte) (f : Framer) : Framer :=
  match classify p f.mode b with
  | .slice => f.stepTo .inSliceLookahead
  | .header => onEvent f.scStart .header (f.stepTo (rescan b)).normalHeader
  | .picture => onEvent f.scStart .picture (f.stepTo (rescan b))
  | .other => f.stepTo (rescan b)

/-- State `InSliceLookahead`: bit 7 of the slice header's first byte marks a new picture (R210). -/
def stepLookahead (b : Byte) (f : Framer) : Framer :=
  if b.getLsbD 7 then onEvent f.scStart .picture (f.stepTo (rescan b)) else f.stepTo (rescan b)

/-- `Step(b)` (R199 to R204, R210). -/
def scanStep (p : Config.Params) (b : Byte) (f : Framer) : Framer :=
  match f.st with
  | .idle => f.stepTo (rescan b)
  | .saw0x1 => f.stepTo (if b = 0#8 then .saw0x2 else .idle)
  | .saw0x2 => stepSaw2 b f
  | .saw0x3 => stepSaw3 b f
  | .sawStartCode => stepClassify p b f
  | .inSliceLookahead => stepLookahead b f

/-! ### FrScan and FrTake -/

/-- At most `n` scanner steps, stopping at a boundary or at the last byte pushed (R194). -/
def scanN (p : Config.Params) : Nat → Framer → Framer
  | 0, f => f
  | n + 1, f =>
    if f.pending = false ∧ f.read < f.head then scanN p n (scanStep p (ringByte p.ringCap f.ring f.read) f)
    else f

/-- `FrScan` (R194): every step consumes one byte, so `head - read` steps suffice. -/
def frScan (p : Config.Params) (f : Framer) : Framer := scanN p (f.head - f.read) f

/-- The length of the pending unit (R194). -/
def Framer.unitLen (f : Framer) : Nat := f.pendEnd - f.unitStart

/-- The bytes of the pending unit (R194, R62). -/
def Framer.unitBytes (p : Config.Params) (f : Framer) : List Byte := ringBytes p.ringCap f.ring f.unitStart f.unitLen

/-- The effect of a `FrTake` that has room (R194): the unit leaves the ring. -/
def Framer.take (f : Framer) : Framer :=
  { f with tail := f.pendEnd, unitStart := f.pendEnd, pending := false, getHead := false }

end Sys2Proof.Machine
end

