-- ==== Sys2Proof/Machine/FramerCmds.lean ====
section
/-! DEFINITION. The meanings of the FR commands (42_framer.md R191 to R197). -/

namespace Sys2Proof.Machine

/-- The host may not drive the framer now: it is not initialised, or a session owns it (R29, R320, R321). -/
def State.framerBarred (s : State) : Bool := !s.fr.valid || decide (s.se.life ≠ .closed)

/-- `FR_INIT` (R191). -/
def execFrInit (mode : BitVec 2) (getHead : Bool) (s : State) : Host.Outcome State Fault Refusal :=
  if s.se.life ≠ .closed then s.finish .illegalState
  else
    match modeOfCode mode with
    | none => s.finish .illegalOperand
    | some md => (s.withFr (frInit md getHead s.fr)).finish .ok

/-- `FR_PUSH` (R193). -/
def execFrPush (s : State) : Host.Outcome State Fault Refusal :=
  if s.framerBarred then s.finish .illegalState
  else if rangeWraps s.args.a0 s.args.a1.toNat then s.finish .illegalOperand
  else if s.fr.hasRoom s.params.ringCap s.args.a1.toNat then
    (s.withFr (frPush s.params.ringCap (memRead s.mem s.args.a0.toNat s.args.a1.toNat) s.fr)).finish .ok
  else s.finish .bufferFull

/-- What `FR_EXTRACT` does when the scan has left the framer as `f` (R195). -/
def extractScanned (f : Framer) (s : State) : Host.Outcome State Fault Refusal :=
  if f.pending then
    if s.args.a1.toNat < f.unitLen then
      (((s.withFr f).setR1 (BitVec.ofNat 32 f.unitLen)).setR2 0).finish .outTooSmall
    else
      ((((s.withMem (s.mem.putBytes s.args.a0.toNat (f.unitBytes s.params))).withFr f.take).setR1
        (BitVec.ofNat 32 f.unitLen)).setR2 (BitVec.ofNat 32 f.pendTag.code)).finish .frameReady
  else (((s.withFr f).setR1 0).setR2 0).finish .ok

/-- `FR_EXTRACT` (R195). -/
def execFrExtract (s : State) : Host.Outcome State Fault Refusal :=
  if s.framerBarred then s.finish .illegalState
  else if rangeWraps s.args.a0 s.args.a1.toNat then s.finish .illegalOperand
  else extractScanned (frScan s.params s.fr) s

/-- `FR_STAT` (R197). -/
def execFrStat (s : State) : Host.Outcome State Fault Refusal :=
  if s.fr.valid then
    (((s.setR1 (BitVec.ofNat 32 (s.fr.head - s.fr.tail))).setR2 s.fr.stateWord).setR3
      (if s.fr.pending then BitVec.ofNat 32 s.fr.unitLen else 0)).finish .ok
  else s.finish .illegalState

end Sys2Proof.Machine
end

