-- ==== Sys2Proof/Machine/BitWriter.lean ====
section
/-! DEFINITION. The BitWriter (40_bitwriter.md): the Exponential-Golomb codes, `PutBits`, the writers, and the
meanings of the BW commands. -/

namespace Sys2Proof.Machine

/-! ### Bit strings -/

/-- `bin(v, n)`: the low `n` bits of `v`, most significant first (00_scope.md section 6). -/
def bin (v : Nat) : Nat → List Bool
  | 0 => []
  | n + 1 => v.testBit n :: bin v n

/-- `UeCode(v)` (R120): `k` zeros, then the `(k+1)`-bit binary form of `v + 1`, `k = floor(log2(v + 1))`. -/
def ueCode (v : Nat) : List Bool :=
  List.replicate (v + 1).log2 false ++ bin (v + 1) ((v + 1).log2 + 1)

/-- `SeMap(v)` (R121), on unbounded integers. -/
def seMap (v : Int) : Nat := if v ≤ 0 then (-2 * v).toNat else (2 * v - 1).toNat

/-! ### PutBits -/

/-- `x[j] <- b` (00_scope.md section 6). -/
def setBit (x : Byte) (j : Nat) (b : Bool) : Byte :=
  if b then x ||| BitVec.twoPow 8 j else x &&& ~~~(BitVec.twoPow 8 j)

/-- The MEM address of the byte that holds bit `p` of the buffer (R26), formed in 32 bits (log 13). -/
def bitAddr (base : Word) (p : Nat) : Nat := (base + BitVec.ofNat 32 (p / 8)).toNat

/-- Write bit `p` of the buffer, most significant bit of a byte first; the other bits of the byte keep their
value (R26, R68, R122). -/
def writeBit (m : Memory) (base : Word) (p : Nat) (b : Bool) : Memory :=
  m.put (bitAddr base p) (setBit (memByte m (bitAddr base p)) (7 - p % 8) b)

/-- Write a bit string from bit `p` upward (R122). -/
def writeBits (m : Memory) (base : Word) (p : Nat) : List Bool → Memory
  | [] => m
  | b :: bs => writeBits (writeBit m base p b) base (p + 1) bs

/-- `PutBits(n, val)` (R122), all or nothing: whether the field was written, and the state after. -/
def putBits (n val : Nat) (s : State) : Bool × State :=
  if s.bwFits n then
    (true, (s.withMem (writeBits s.mem s.bw.base s.bw.pos.toNat (bin val n))).withBw
      { s.bw with pos := s.bw.pos + BitVec.ofNat 32 n })
  else (false, s.setOvf)

/-- Completion of a BitWriter write (R123). -/
def finishWrite (r : Bool × State) : Host.Outcome State Fault Refusal :=
  r.2.finish (if r.1 then .ok else .bitOverflow)

/-! ### Writers -/

/-- The writers that make up commands and parameter sets (R160). -/
inductive Writer where
  /-- `U(n, v)`: `PutBits(n, v mod 2^n)` -/
  | u (n v : Nat)
  /-- `UE(v)` -/
  | ue (v : Nat)
  /-- `SE(v)` -/
  | se (v : Int)
  /-- `TRAIL()`: the stop bit and zeros up to the next byte (R130) -/
  | trail
  deriving DecidableEq, Repr

/-- Width and value of `UE(v)` (R128): `PutBits(2k + 1, v + 1)`. -/
def ueField (v : Nat) : Nat × Nat := (2 * (v + 1).log2 + 1, v + 1)

/-- Width and value of the stop bit and its zeros at bit position `pos` (R130). -/
def trailField (pos : Nat) : Nat × Nat := (8 - pos % 8, 2 ^ (8 - pos % 8 - 1))

/-- Width and value that a writer hands to `PutBits` at bit position `pos` (R126 to R130, R160). -/
def Writer.field (pos : Nat) : Writer → Nat × Nat
  | .u n v => (n, v % 2 ^ n)
  | .ue v => ueField v
  | .se v => ueField (seMap v)
  | .trail => trailField pos

/-- Run one writer. -/
def putWriter (w : Writer) (s : State) : Bool × State :=
  putBits (w.field s.bw.pos.toNat).1 (w.field s.bw.pos.toNat).2 s

/-- Run writers in order, stopping at the first whose `PutBits` fails (R160). -/
def putWriters : List Writer → State → Bool × State
  | [], s => (true, s)
  | w :: ws, s => if (putWriter w s).1 then putWriters ws (putWriter w s).2 else putWriter w s

/-- Write each byte of a sequence as eight bits (R131). -/
def putByteSeq : List Byte → State → State
  | [], s => s
  | b :: bs, s => putByteSeq bs (putBits 8 b.toNat s).2

/-! ### The BW commands -/

/-- `BW.cap` may be at most this (R25, R124). -/
def maxCap : Nat := 0x1FFFFFFF

/-- `BW_INIT` (R124). -/
def execBwInit (s : State) : Host.Outcome State Fault Refusal :=
  if decide (maxCap < s.args.a1.toNat) || rangeWraps s.args.a0 s.args.a1.toNat then s.finish .illegalOperand
  else (s.withBw ⟨s.args.a0, s.args.a1, 0, false⟩).finish .ok

/-- `BW_BIT` (R125). -/
def execBwBit (v : Bool) (s : State) : Host.Outcome State Fault Refusal :=
  finishWrite (putWriter (.u 1 (bit v)) s)

/-- `BW_FIXED` (R126, R127). -/
def execBwFixed (n : BitVec 6) (s : State) : Host.Outcome State Fault Refusal :=
  if Config.fixedMax < n.toNat then s.finish .illegalOperand
  else finishWrite (putWriter (.u n.toNat s.args.a0.toNat) s)

/-- `BW_UE` (R128). -/
def execBwUe (s : State) : Host.Outcome State Fault Refusal :=
  finishWrite (putWriter (.ue s.args.a0.toNat) s)

/-- `BW_SE` (R129). -/
def execBwSe (s : State) : Host.Outcome State Fault Refusal :=
  finishWrite (putWriter (.se (asS32 s.args.a0)) s)

/-- `BW_ALIGN` (R130). -/
def execBwAlign (s : State) : Host.Outcome State Fault Refusal :=
  finishWrite (putWriter .trail s)

/-- `BW_BYTES` (R131). -/
def execBwBytes (s : State) : Host.Outcome State Fault Refusal :=
  if s.badBwSource s.args.a0 s.args.a1.toNat then s.finish .illegalOperand
  else if s.bwFits (8 * s.args.a1.toNat) then
    ((putByteSeq (memRead s.mem s.args.a0.toNat s.args.a1.toNat) s).setR1 s.args.a1).finish .ok
  else (s.setOvf.setR1 0).finish .bitOverflow

/-- `BW_STAT` (R132). -/
def execBwStat (s : State) : Host.Outcome State Fault Refusal :=
  (((s.setR1 s.bw.pos).setR2 (BitVec.ofNat 32 (bit s.bw.ovf))).setR3 s.bw.cap).finish .ok

end Sys2Proof.Machine
end

