-- ==== Sys2Proof/Machine/NalSynth.lean ====
section
/-! DEFINITION. The NalUnitSynthesizer (41_nal_synth.md): the escaper, the NAL wrapper, the SPS and PPS
sequencers, and the meanings of the NS commands. -/

namespace Sys2Proof.Machine

/-! ### The escaper -/

/-- The loop of `Escape` (R150); `zc` counts the consecutive zero bytes copied since the last reset. -/
def escapeFrom : Nat → List Byte → List Byte
  | _, [] => []
  | zc, b :: bs =>
    if zc = 2 ∧ b.toNat < 4 then 0x03#8 :: b :: escapeFrom (if b = 0#8 then 1 else 0) bs
    else b :: escapeFrom (if b = 0#8 then zc + 1 else 0) bs

/-- `Escape(x)` (R150), with the trailing `03` of a sequence that ends in a zero byte. -/
def escape (x : List Byte) : List Byte :=
  escapeFrom 0 x ++ (if x.getLast? = some 0#8 then [0x03#8] else [])

/-- `NalHeader(type)` (R155): `forbidden_zero_bit = 0`, `nal_ref_idc = 3`, `nal_unit_type = type`. -/
def nalHeader (t : BitVec 5) : Byte := 0b011#3 ++ t

/-- The 4-byte start code and the header byte that `NS_NAL` puts first (R156). -/
def nalLead (t : BitVec 5) : List Byte := [0x00#8, 0x00#8, 0x00#8, 0x01#8, nalHeader t]

/-- The destination range holds unspecified bytes after an aborted escape (R154, U2): each byte is a free
value of a fresh draw. No byte outside the range changes. -/
def State.abortDest (s : State) (a : Word) (len : Nat) : State :=
  (s.withMem (s.mem.putBytes a.toNat ((List.range len).map (Config.abortByte s.draws)))).withDraws (s.draws + 1)

/-- What `NS_ESCAPE` and `NS_NAL` share (R153, R156): the checks, the copy of `lead ++ Escape(x)` into the
destination, or the abort. -/
def escapeInto (lead : List Byte) (s : State) : Host.Outcome State Fault Refusal :=
  if rangeWraps s.args.a0 s.args.a1.toNat || rangeWraps s.args.a2 s.args.a3.toNat
      || rangesMeet s.args.a0 s.args.a1.toNat s.args.a2 s.args.a3.toNat then s.finish .illegalOperand
  else
    let out := lead ++ escape (memRead s.mem s.args.a0.toNat s.args.a1.toNat)
    if s.args.a3.toNat < out.length then
      ((s.abortDest s.args.a2 s.args.a3.toNat).setR1 0).finish .bufferTooSmall
    else
      ((s.withMem (s.mem.putBytes s.args.a2.toNat out)).setR1 (BitVec.ofNat 32 out.length)).finish .ok

/-! ### The SPS sequencer -/

/-- `ScalingList(i)` (R162): every entry as its plain difference from the one before. -/
def scalingDeltas (last : Int) : List Byte → List Writer
  | [] => []
  | b :: bs => .se ((b.toNat : Int) - last) :: scalingDeltas (b.toNat : Int) bs

/-- Offset and length of scaling list `i` in the array (R162). -/
def scalingSpan (i : Nat) : Nat × Nat := if i < 6 then (16 * i, 16) else (96 + 64 * (i - 6), 64)

/-- Row 10 for list `i`: the present flag, then the list (R161, R162). -/
def scalingList (m : Memory) (a : Word) (i : Nat) : List Writer :=
  .u 1 1 :: scalingDeltas 8 (memRead m (a.toNat + (scalingSpan i).1) (scalingSpan i).2)

/-- The `profile_idc` that the block takes for High profile (R161). -/
def highProfile : Nat := 100

/-- Rows 5 to 10, for High profile only (R161). -/
def spsHigh (m : Memory) (prof : Nat) (lists : Word) : List Writer :=
  if prof = highProfile then
    [.ue 1, .ue 0, .ue 0, .u 1 0, .u 1 1] ++ (List.range 8).flatMap (scalingList m lists)
  else []

/-- Rows 12 to 18: `pic_order_cnt_type` and its dependents (R161). -/
def spsPoc (m : Memory) (blk : Word) : List Writer :=
  let P := blockWord m blk
  .ue (P 1).toNat ::
    (if P 1 = 0 then [.ue (P 2).toNat]
     else if P 1 = 1 then
       [.u 1 (P 3).toNat, .se (asS32 (P 4)), .se (asS32 (P 5)), .ue (P 6).toNat]
         ++ (wordArray m (P 7) (P 6).toNat).map fun w => .se (asS32 w)
     else [])

/-- Row 26: the picture size is no multiple of 16 (R161, R164). -/
def spsCropped (w h : Nat) : Bool := decide (w % 16 ≠ 0 ∨ h % 16 ≠ 0)

/-- Rows 26 to 30: the crop flag and, where it is 1, the four offsets (R161, R164). -/
def spsCrop (w h : Nat) : List Writer :=
  if spsCropped w h then [.u 1 1, .ue 0, .ue (w % 16), .ue 0, .ue (h % 16)] else [.u 1 0]

/-- Rows 23 to 25 (R161). -/
def spsFrameFlags (p9 p10 : Word) : List Writer :=
  .u 1 p9.toNat :: ((if p9.getLsbD 0 then [] else [.u 1 0]) ++ [.u 1 p10.toNat])

/-- The SPS bit sequence, rows 1 to 32 (R161). -/
def spsWriters (level : Byte) (m : Memory) (w h prof : Nat) (blk : Word) : List Writer :=
  let P := blockWord m blk
  [.u 8 prof, .u 8 0, .u 8 level.toNat, .ue 0]
    ++ spsHigh m prof (P 11)
    ++ [.ue (P 0).toNat]
    ++ spsPoc m blk
    ++ [.ue (P 8).toNat, .u 1 0, .ue ((w - 1) / 16), .ue ((h - 1) / 16)]
    ++ spsFrameFlags (P 9) (P 10)
    ++ spsCrop w h
    ++ [.u 1 0, .trail]

/-- `pic_order_cnt_type = 1`, so words 3 to 7 are used (R104). -/
def spsPocOne (m : Memory) (blk : Word) : Bool := decide (blockWord m blk 1 = 1)

/-- The operands of `NS_SPS` are illegal (R163, R69): a zero size, a profile above 255, a cycle above 255, or a
source range that leaves the address space or meets the BitWriter buffer (log 11). -/
def State.spsIllegal (s : State) : Bool :=
  let blk := s.args.a3
  let P := blockWord s.mem blk
  decide (s.args.a0 = 0) || decide (s.args.a1 = 0) || decide (255 < s.args.a2.toNat)
    || s.badBwSource blk spsBlockLen
    || (spsPocOne s.mem blk && (decide (255 < (P 6).toNat) || s.badBwSource (P 7) (4 * (P 6).toNat)))
    || (decide (s.args.a2.toNat = highProfile) && s.badBwSource (P 11) scalingLen)

/-- The PPS bit sequence, rows 1 to 19 (R174). -/
def ppsWriters (m : Memory) (blk : Word) : List Writer :=
  let Q := blockWord m blk
  [.ue 0, .ue 0, .u 1 (Q 0).toNat, .u 1 (Q 1).toNat, .ue 0, .ue (Q 2).toNat, .ue (Q 3).toNat,
   .u 1 (Q 4).toNat, .u 2 (Q 5).toNat, .se (asS32 (Q 6)), .se 0, .se (asS32 (Q 7)), .u 1 (Q 8).toNat,
   .u 1 (Q 9).toNat, .u 1 (Q 10).toNat, .u 1 (Q 11).toNat, .u 1 0, .se (asS32 (Q 12)), .trail]

/-- What `NS_SPS` and `NS_PPS` share (R160, R163, R175): restart the cursor, run the writers, and report the
RBSP's length in bytes, or `BitOverflow` with `r1 = 0`. -/
def emitRbsp (ws : List Writer) (s : State) : Host.Outcome State Fault Refusal :=
  let r := putWriters ws s.bwRestart
  (r.2.setR1 (if r.1 then BitVec.ofNat 32 (r.2.bw.pos.toNat / 8) else 0)).finish
    (if r.1 then .ok else .bitOverflow)

/-! ### The NS commands -/

/-- `NS_ESCAPE` (R153). -/
def execNsEscape (s : State) : Host.Outcome State Fault Refusal := escapeInto [] s

/-- `NS_NAL` (R156). -/
def execNsNal (t : BitVec 5) (s : State) : Host.Outcome State Fault Refusal := escapeInto (nalLead t) s

/-- `NS_SPS` (R163). -/
def execNsSps (s : State) : Host.Outcome State Fault Refusal :=
  if s.spsIllegal then s.finish .illegalOperand
  else emitRbsp (spsWriters s.params.levelIdc s.mem s.args.a0.toNat s.args.a1.toNat s.args.a2.toNat s.args.a3) s

/-- `NS_PPS` (R175). -/
def execNsPps (s : State) : Host.Outcome State Fault Refusal :=
  if s.badBwSource s.args.a3 ppsBlockLen then s.finish .illegalOperand
  else emitRbsp (ppsWriters s.mem s.args.a3) s

end Sys2Proof.Machine
end

