-- ==== Sys2Proof/Machine/Device.lean ====
section
/-! DEFINITION. The device port: issuing a transaction and reading its answer (43_pipeline.md R241 to R249).
Each reader accepts exactly the answers its transaction may give; any other counts as `FAIL` (U5). -/

namespace Sys2Proof.Machine

/-- The next answer of Dev: the script's, else a free one (R241, U5). -/
def DevPort.next (d : DevPort) : DevAnswer :=
  match d.script with
  | [] => Config.devAnswer d.asked
  | a :: _ => a

/-- The port after a transaction that has an answer: the answer is used up and the transaction on the log. -/
def DevPort.issue (d : DevPort) (c : DevCall) : DevPort :=
  ⟨d.script.tail, d.asked + 1, d.log ++ [⟨c, some d.next⟩]⟩

/-- Issue a transaction that has an answer (R241). -/
def ask (c : DevCall) (s : State) : DevAnswer × State := (s.dev.next, s.withDev (s.dev.issue c))

/-- Issue `Dev.teardown`, which has no answer (R249). -/
def tellTeardown (s : State) : State :=
  s.withDev { s.dev with log := s.dev.log ++ [⟨.teardown, none⟩] }

/-- `OK` or `FAIL` of negotiate_input, alloc, enqueue and chain (R242, R245, R248, R249). -/
def answerIsOk (a : DevAnswer) : Bool := decide (a = .ok)

/-- The answers of `poll` (R246). -/
inductive PollAnswer where
  | ready
  | timeout
  | fail
  deriving DecidableEq, Repr

/-- Read an answer to `poll` (R246). -/
def readPoll : DevAnswer → PollAnswer
  | .ready => .ready
  | .timeout => .timeout
  | .ok => .fail
  | .fail => .fail
  | .notReady => .fail
  | .capture _ _ _ => .fail
  | .mapped _ => .fail
  | .slot _ => .fail

/-- The answers of `dequeue` (R247). -/
inductive DequeueAnswer where
  | slot (i : Nat)
  | notReady
  | fail
  deriving DecidableEq, Repr

/-- Read an answer to `dequeue` (R247). -/
def readDequeue : DevAnswer → DequeueAnswer
  | .slot i => .slot i
  | .notReady => .notReady
  | .ok => .fail
  | .fail => .fail
  | .ready => .fail
  | .timeout => .fail
  | .capture _ _ _ => .fail
  | .mapped _ => .fail

/-- The answers of `query_capture` (R243). -/
inductive CaptureAnswer where
  | ok (fmt : Fmt) (minCapture : Nat) (consumable : Bool)
  | notReady
  | fail
  deriving DecidableEq, Repr

/-- Read an answer to `query_capture` (R243). -/
def readCapture : DevAnswer → CaptureAnswer
  | .capture f m c => .ok f m c
  | .notReady => .notReady
  | .ok => .fail
  | .fail => .fail
  | .ready => .fail
  | .timeout => .fail
  | .mapped _ => .fail
  | .slot _ => .fail

/-- Read an answer to `map` (R244): the planes, at least one, or `FAIL` (log 16). -/
def readMap : DevAnswer → Option (List PlaneInfo)
  | .mapped ps => if ps = [] then none else some ps
  | .ok => none
  | .fail => none
  | .notReady => none
  | .ready => none
  | .timeout => none
  | .capture _ _ _ => none
  | .slot _ => none

end Sys2Proof.Machine
end

