-- ==== Sys2Proof/Machine/Pipeline.lean ====
section
/-! DEFINITION. The DecoderPipeline (43_pipeline.md): slots and pools, the hand-shakes `µENQ` and `µDEQ`,
`SubmitUnit`, `Setup` and its failure, and the steps of `SE_GETPIC`. -/

namespace Sys2Proof.Machine

/-! ### Slots and pools -/

/-- The slots of a pool (R34). -/
def Pipeline.pool (pl : Pipeline) : PoolId → List Slot
  | .inp => pl.inPool
  | .dout => pl.doutPool
  | .cout => pl.coutPool

/-- Replace the slots of a pool. -/
def Pipeline.setPool (pl : Pipeline) (P : PoolId) (xs : List Slot) : Pipeline :=
  match P with
  | .inp => { pl with inPool := xs }
  | .dout => { pl with doutPool := xs }
  | .cout => { pl with coutPool := xs }

/-- Change slot `i` of pool `P`. -/
def State.onSlot (s : State) (P : PoolId) (i : Nat) (g : Slot → Slot) : State :=
  s.withPl (s.pl.setPool P ((s.pl.pool P).modify i g))

/-- The number of slots of a pool in an ownership state (R36). -/
def countOwn (o : Own) (xs : List Slot) : Nat := xs.countP fun sl => decide (sl.own = o)

/-- The slots of the pool whose index is `i` are in ownership state `o`. -/
def ownIs (o : Own) (xs : List Slot) (i : Nat) : Bool :=
  match xs[i]? with
  | some sl => decide (sl.own = o)
  | none => false

/-- The least index with `own = Free` (R272 D3). -/
def firstFree (xs : List Slot) : Option Nat := xs.findIdx? fun sl => decide (sl.own = .free)

/-- Which device queue holds a slot that is handed to queue `q` (R250). -/
def holderFor (q : QueueId) : Holder := if q = .cin then .conv else .dec

/-- The queue a pool's slots are handed to by default (R241). -/
def PoolId.queue : PoolId → QueueId
  | .inp => .inp
  | .dout => .dout
  | .cout => .cout

/-- The size of plane 0, the limit of a copy into the slot (R256, R257, R272). -/
def Slot.room (sl : Slot) : Nat :=
  match sl.planes with
  | [] => 0
  | pl :: _ => pl.size.toNat

/-- The room of input slot `i`. -/
def State.inRoom (s : State) (i : Nat) : Nat :=
  match s.pl.inPool[i]? with
  | some sl => sl.room
  | none => 0

/-! ### Hand-shakes -/

/-- A slot after a successful enqueue on `q` (R250). -/
def Slot.queuedOn (P : PoolId) (q : QueueId) (sl : Slot) : Slot :=
  if P = .dout then { sl with own := .queued, holder := holderFor q } else { sl with own := .queued }

/-- `µENQ(P, q, i, bytes)` (R250): whether Dev took the slot. A failed enqueue leaves the slot as it was. -/
def enq (P : PoolId) (q : QueueId) (i bytes : Nat) (s : State) : Bool × State :=
  let r := ask (.enqueue q i bytes) s
  if answerIsOk r.1 then (true, r.2.onSlot P i (Slot.queuedOn P q)) else (false, r.2)

/-- A dequeue answer names a slot the table holds as queued there (R247, R251). -/
def dequeueOk (P : PoolId) (q : QueueId) (xs : List Slot) (i : Nat) : Bool :=
  match xs[i]? with
  | some sl => decide (sl.own = .queued) && (decide (P ≠ .dout) || decide (sl.holder = holderFor q))
  | none => false

/-- Results of `µDEQ` (R251). -/
inductive Deq where
  | notReady
  | fail
  | got (i : Nat)
  deriving DecidableEq, Repr

/-- A slot whose memory Dev may have written: what its planes hold is a free value of draw `g` (R70, U3;
log 7). -/
def Slot.freshContents (g : Nat) (sl : Slot) : Slot :=
  { sl with planes := sl.planes.map fun p => { p with mem := [] }, gen := g }

/-- `µDEQ(P, q)` (R251). With `got i`, slot `i` comes back with the bytes Dev wrote (R70); the caller sets its
new ownership state. -/
def deq (P : PoolId) (q : QueueId) (s : State) : Deq × State :=
  let t := (ask (.dequeue q) s).2
  match readDequeue (ask (.dequeue q) s).1 with
  | .notReady => (.notReady, t)
  | .fail => (.fail, t)
  | .slot i =>
    if dequeueOk P q (s.pl.pool P) i then
      (.got i, (t.onSlot P i (Slot.freshContents s.draws)).withDraws (s.draws + 1))
    else (.fail, t)

/-- `P[i].own <- o`. -/
def State.setOwn (s : State) (P : PoolId) (i : Nat) (o : Own) : State := s.onSlot P i fun sl => { sl with own := o }

/-! ### SubmitUnit -/

/-- Write a byte sequence into plane 0 of a slot from offset 0 and note its length (R257). -/
def Slot.fill (bs : List Byte) (sl : Slot) : Slot :=
  { sl with
    planes := sl.planes.modify 0 fun p => { p with mem := p.mem.putBytes 0 bs }
    used := BitVec.ofNat 32 bs.length }

/-- `SubmitUnit(i)` (R257): the unit leaves the ring for input slot `i`, which is then enqueued. -/
def submitUnit (i : Nat) (s : State) : Bool × State :=
  let s1 := (s.onSlot .inp i (Slot.fill (s.fr.unitBytes s.params))).withFr s.fr.take
  enq .inp .inp i s.fr.unitLen s1

/-! ### Setup -/

/-- Continue after a step that succeeded; a failed step ends setup (R256). -/
def thenStep (r : Bool × State) (k : State → Bool × State) : Bool × State := if r.1 then k r.2 else r

/-- Issue a transaction whose answer is `OK` or `FAIL`. -/
def askOk (c : DevCall) (s : State) : Bool × State := (answerIsOk (ask c s).1, (ask c s).2)

/-- A slot as mapped: free, with the planes Dev answered and unknown contents of draw `g` (R35, R63, R256). -/
def mappedSlot (ps : List PlaneInfo) (g : Nat) : Slot :=
  { own := .free, holder := .dec, planes := ps.map fun p => ⟨p.size, p.offset, p.ptr, []⟩, used := 0, gen := g }

/-- Map `n` slots of a pool in increasing index order, the first with index `i` (R244, R256). -/
def mapSlots (P : PoolId) : Nat → Nat → State → Bool × State
  | _, 0, s => (true, s)
  | i, n + 1, s =>
    match readMap (ask (.map P.queue i) s).1 with
    | none => (false, (ask (.map P.queue i) s).2)
    | some ps =>
      let t := (ask (.map P.queue i) s).2
      mapSlots P (i + 1) n
        ((t.withPl (t.pl.setPool P (t.pl.pool P ++ [mappedSlot ps t.draws]))).withDraws (t.draws + 1))

/-- Enqueue slots `i .. i + n - 1` of a pool on its own queue; the first failure ends it (R256 S7). -/
def enqAll (P : PoolId) : Nat → Nat → State → Bool × State
  | _, 0, s => (true, s)
  | i, n + 1, s => thenStep (enq P P.queue i 0 s) (enqAll P (i + 1) n)

/-- S1: negotiate the input format (R256). -/
def setupNegotiate (s : State) : Bool × State := askOk (.negotiateInput s.fr.mode s.se.width s.se.height) s

/-- S2: the input pool (R256). -/
def setupInput (s : State) : Bool × State :=
  thenStep (askOk (.alloc .inp s.params.nIn) s) fun t =>
    mapSlots .inp 0 t.params.nIn (t.withPl { t.pl with nIn := t.params.nIn, inPool := [] })

/-- S3: the head cluster goes to input slot 0 (R256). -/
def setupHeader (s : State) : Bool × State :=
  if s.inRoom 0 < s.fr.unitLen then (false, s) else submitUnit 0 s

/-- S4: the capture query, with at most `k` more `NOT_READY` answers tolerated (R256, R259). -/
def queryLoop : Nat → State → Option (Fmt × Nat × Bool) × State
  | 0, s =>
    match readCapture (ask .queryCapture s).1 with
    | .ok f m c => (some (f, m, c), (ask .queryCapture s).2)
    | .notReady => (none, (ask .queryCapture s).2)
    | .fail => (none, (ask .queryCapture s).2)
  | k + 1, s =>
    match readCapture (ask .queryCapture s).1 with
    | .ok f m c => (some (f, m, c), (ask .queryCapture s).2)
    | .notReady => queryLoop k (ask .queryCapture s).2
    | .fail => (none, (ask .queryCapture s).2)

/-- S5: the decoder-output pool (R256, R16). -/
def setupOutput (m : Nat) (s : State) : Bool × State :=
  let n := m + s.params.pipelineDepth
  thenStep (askOk (.alloc .dout n) (s.withPl { s.pl with nDout := n, doutPool := [] })) (mapSlots .dout 0 n)

/-- S6: the conversion stage, if the native layout is not consumable (R256). -/
def setupConvert (consumable : Bool) (s : State) : Bool × State :=
  if consumable then (true, s)
  else
    thenStep (askOk (.chain s.pl.fmt s.pl.nDout) (s.withPl { s.pl with conv := true })) fun t =>
      thenStep (askOk (.alloc .cout t.params.nCout)
          (t.withPl { t.pl with nCout := t.params.nCout, coutPool := [] }))
        (mapSlots .cout 0 t.params.nCout)

/-- S7: every output slot goes to Dev (R256). -/
def setupQueueAll (s : State) : Bool × State :=
  thenStep (enqAll .dout 0 s.pl.nDout s) fun t =>
    if t.pl.conv then enqAll .cout 0 t.pl.nCout t else (true, t)

/-- S4 to S7, ending with `PL.hdr_done <- 1` (R256). -/
def setupRest (s : State) : Bool × State :=
  match (queryLoop s.params.hdrRetryMax s).1 with
  | none => (false, (queryLoop s.params.hdrRetryMax s).2)
  | some (f, m, c) =>
    let t := (queryLoop s.params.hdrRetryMax s).2
    thenStep (setupOutput m (t.withPl { t.pl with fmt := f })) fun t2 =>
      thenStep (setupConvert c t2) fun t3 =>
        thenStep (setupQueueAll t3) fun t4 => (true, t4.withPl { t4.pl with hdrDone := true })

/-- `Setup` (R256), run with the head cluster pending. -/
def setup (s : State) : Bool × State :=
  thenStep (setupNegotiate s) fun t =>
    thenStep (setupInput t) fun t2 =>
      thenStep (setupHeader t2) setupRest

/-- No slot exists: the pools are empty and the phase bits clear (R35, R258, R270, R288). -/
def Pipeline.emptied (pl : Pipeline) : Pipeline :=
  { pl with nIn := 0, nDout := 0, nCout := 0, conv := false, hdrDone := false, inPool := [], doutPool := [],
            coutPool := [] }

/-- Setup failure (R258): Dev is torn down, the pools cease to exist, the session is `Failed`. -/
def setupFailed (s : State) : State :=
  let t := tellTeardown s
  (t.withPl t.pl.emptied).withSe { t.se with life := .failed }

/-! ### The steps of SE_GETPIC -/

/-- What `SE_GETPIC` has to report so far (R280). -/
structure PicNote where
  err   : Bool
  shown : Bool
  deriving DecidableEq, Repr

/-- Enqueue a slot, noting a failure as `err` (R281, R282). -/
def enqNote (P : PoolId) (q : QueueId) (i : Nat) (r : PicNote × State) : PicNote × State :=
  let e := enq P q i 0 r.2
  (if e.1 then r.1 else { r.1 with err := true }, e.2)

/-- For `n` slots from index `i` in increasing order, enqueue on `q` those in ownership state `o` (G0 of R281,
R282). -/
def resubmit (P : PoolId) (o : Own) (q : QueueId) : Nat → Nat → PicNote × State → PicNote × State
  | _, 0, r => r
  | i, n + 1, r =>
    resubmit P o q (i + 1) n (if ownIs o (r.2.pl.pool P) i then enqNote P q i r else r)

/-- The planes a `Present` event hands over (R262). -/
def presentPlanes (xs : List Slot) (i : Nat) : List (Handle × Word) :=
  match xs[i]? with
  | some sl => sl.planes.map fun p => (p.ptr, p.size)
  | none => []

/-- `emit Present(P, i, planes of P[i], PL.fmt)` with the result registers of a presented picture (R262,
R280 to R282). The index of a slot may be wider than `r1`; what `r1` then holds is free (log 23). -/
def present (P : PoolId) (i : Nat) (s : State) : State :=
  (((s.withEvents (s.events ++ [⟨P, i, presentPlanes (s.pl.pool P) i, s.pl.fmt⟩])).setR1
    (indexWord i)).setR2 1).setR3 (BitVec.ofNat 32 P.code)

/-- Take a completed picture from its queue, present it, and re-queue the slot (G2 of R281, G3 of R282). -/
def showNext (P : PoolId) (r : PicNote × State) : PicNote × State :=
  match (deq P P.queue r.2).1 with
  | .notReady => (r.1, (deq P P.queue r.2).2)
  | .fail => ({ r.1 with err := true }, (deq P P.queue r.2).2)
  | .got i =>
    enqNote P P.queue i
      ({ r.1 with shown := true }, (present P i ((deq P P.queue r.2).2.setOwn P i .done)).setOwn P i .free)

/-- Move a slot of `DOUT` from queue `q` to queue `q2`, through ownership state `o` (G1 and G2 of R282). -/
def passOn (q : QueueId) (o : Own) (q2 : QueueId) (r : PicNote × State) : PicNote × State :=
  match (deq .dout q r.2).1 with
  | .notReady => (r.1, (deq .dout q r.2).2)
  | .fail => ({ r.1 with err := true }, (deq .dout q r.2).2)
  | .got i => enqNote .dout q2 i (r.1, (deq .dout q r.2).2.setOwn .dout i o)

/-- `GetPicDirect` (R281). -/
def getPicDirect (r : PicNote × State) : PicNote × State :=
  showNext .dout (resubmit .dout .free .dout 0 r.2.pl.nDout r)

/-- G0 of `GetPicConv` (R282). -/
def getPicConvRetry (r : PicNote × State) : PicNote × State :=
  let r1 := resubmit .dout .free .dout 0 r.2.pl.nDout r
  let r2 := resubmit .dout .done .cin 0 r1.2.pl.nDout r1
  resubmit .cout .free .cout 0 r2.2.pl.nCout r2

/-- `GetPicConv` (R282): G0, then G1, G2 and G3. -/
def getPicConv (r : PicNote × State) : PicNote × State :=
  showNext .cout (passOn .dout .done .cin (passOn .cin .free .dout (getPicConvRetry r)))

end Sys2Proof.Machine
end

