-- ==== Sys2Proof/Machine/SessionCmds.lean ====
section
/-! DEFINITION. The meanings of the SE commands (43_pipeline.md R270 to R288). -/

namespace Sys2Proof.Machine

/-! ### SE_OPEN -/

/-- `SE_OPEN` (R270, R107). -/
def execSeOpen (s : State) : Host.Outcome State Fault Refusal :=
  if s.se.life ≠ .closed then s.finish .illegalState
  else
    match modeOfCode (profileMode s.args.a0) with
    | none => s.finish .illegalOperand
    | some md =>
      if profileReserved s.args.a0 then s.finish .illegalOperand
      else
        (((s.withSe ⟨.opened, profileIdc s.args.a0, s.args.a1, s.args.a2⟩).withFr
          (frInit md true s.fr)).withPl s.pl.emptied).finish .ok

/-! ### SE_DECODE -/

/-- The list or a buffer it names leaves the address space (R272, R69). -/
def State.listIllegal (s : State) : Bool :=
  rangeWraps s.args.a0 (8 * s.args.a1.toNat)
    || (bufList s.mem s.args.a0 s.args.a1.toNat).any fun e => rangeWraps e.1 e.2.toNat

/-- D1: push all the buffers, or nothing of any (R272). -/
def decodePush (s : State) : StepNote × State :=
  let bs := bufBytes s.mem (bufList s.mem s.args.a0 s.args.a1.toNat)
  if s.fr.hasRoom s.params.ringCap bs.length then
    ({ stepNoteInit with pushed := true }, s.withFr (frPush s.params.ringCap bs s.fr))
  else (stepNoteInit.note .bufferFull, s)

/-- The body of D3, with a unit pending and input slot `i` free (R272). -/
def decodeSubmitAt (i : Nat) (r : StepNote × State) : StepNote × State :=
  if r.2.inRoom i < r.2.fr.unitLen then (r.1.decodeError, r.2)
  else
    let e := submitUnit i r.2
    (if e.1 then { r.1 with submitted := true } else r.1.decodeError, e.2)

/-- D3: scan, and submit one unit if one is pending and an input slot is free (R272, R273). -/
def decodeSubmit (r : StepNote × State) : StepNote × State :=
  let f := frScan r.2.params r.2.fr
  if f.pending then
    match firstFree r.2.pl.inPool with
    | some i => decodeSubmitAt i (r.1, r.2.withFr f)
    | none => (r.1, r.2.withFr f)
  else (r.1, r.2.withFr f)

/-- The poll timeout of D4 (R274). -/
def pollTimeout (xs : List Slot) : Nat :=
  if xs.any fun sl => decide (sl.own = .free) then 0 else Config.pollTimeoutMs

/-- Dequeue and recycle an input slot (R272 D4). -/
def reclaimInput (r : StepNote × State) : StepNote × State :=
  match (deq .inp .inp r.2).1 with
  | .notReady => (r.1, (deq .inp .inp r.2).2)
  | .fail => (r.1.decodeError, (deq .inp .inp r.2).2)
  | .got j => ({ r.1 with reclaimed := true }, (deq .inp .inp r.2).2.setOwn .inp j .free)

/-- D4: poll if an input slot is queued, and reclaim one (R272, R274). -/
def decodePoll (r : StepNote × State) : StepNote × State :=
  if r.2.pl.inPool.any fun sl => decide (sl.own = .queued) then
    let p := ask (.poll (pollTimeout r.2.pl.inPool)) r.2
    match readPoll p.1 with
    | .timeout => (r.1, p.2)
    | .fail => (r.1.decodeError, p.2)
    | .ready => reclaimInput (r.1, p.2)
  else r

/-- Report the step mask and the status (R272). -/
def decodeReport (r : StepNote × State) : Host.Outcome State Fault Refusal := (r.2.setR1 r.1.mask).finish r.1.st

/-- D2 while setup has not been done (R272): scan, and with the head cluster pending run setup; then D3 and
D4. A setup failure ends the command at once and leaves `r1` as it was (R258). -/
def decodeFirst (r : StepNote × State) : Host.Outcome State Fault Refusal :=
  let f := frScan r.2.params r.2.fr
  let t := r.2.withFr f
  if f.pending then
    if (setup t).1 then decodeReport (decodePoll (decodeSubmit ({ r.1 with setupRan := true }, (setup t).2)))
    else (setupFailed (setup t).2).finish .protocolError
  else decodeReport (r.1, t)

/-- Steps D2 to D4 (R272). -/
def decodeSteps (r : StepNote × State) : Host.Outcome State Fault Refusal :=
  if r.2.pl.hdrDone then decodeReport (decodePoll (decodeSubmit r)) else decodeFirst r

/-- `SE_DECODE` (R272). -/
def execSeDecode (s : State) : Host.Outcome State Fault Refusal :=
  match s.se.life with
  | .closed => s.finish .illegalState
  | .failed => s.finish .protocolError
  | .opened => if s.listIllegal then s.finish .illegalOperand else decodeSteps (decodePush s)

/-! ### SE_GETPIC -/

/-- The status `SE_GETPIC` completes with (R280). -/
def PicNote.status (n : PicNote) : Status := if n.err then .decodeError else if n.shown then .ok else .notReady

/-- `SE_GETPIC` once setup has been done (R280). -/
def getPicture (s : State) : PicNote × State :=
  if s.pl.conv then getPicConv (⟨false, false⟩, s) else getPicDirect (⟨false, false⟩, s)

/-- `SE_GETPIC` (R280). -/
def execSeGetpic (s : State) : Host.Outcome State Fault Refusal :=
  match s.se.life with
  | .closed => s.finish .illegalState
  | .failed => s.finish .protocolError
  | .opened =>
    let t := ((s.setR1 0).setR2 0).setR3 0
    if s.pl.hdrDone then (getPicture t).2.finish (getPicture t).1.status else t.finish .notReady

/-! ### SE_CLOSE -/

/-- `SE_CLOSE` (R288). -/
def execSeClose (s : State) : Host.Outcome State Fault Refusal :=
  if s.se.life = .closed then s.finish .illegalState
  else
    let t := if s.pl.hdrDone then tellTeardown s else s
    (((t.withPl t.pl.emptied).withFr { t.fr with valid := false }).withSe { t.se with life := .closed }).finish .ok

end Sys2Proof.Machine
end

