-- ==== Sys2Proof/Machine/Dispatch.lean ====
section
/-! DEFINITION. One arm per command of the opcode map (30_encoding.md R93). -/

namespace Sys2Proof.Machine

def exec (i : Instr) (s : State) : Host.Outcome State Fault Refusal :=
  match i with
  | .bwInit => Sys2Proof.Machine.execBwInit s
  | .bwBit v => Sys2Proof.Machine.execBwBit v s
  | .bwFixed n => Sys2Proof.Machine.execBwFixed n s
  | .bwUe => Sys2Proof.Machine.execBwUe s
  | .bwSe => Sys2Proof.Machine.execBwSe s
  | .bwAlign => Sys2Proof.Machine.execBwAlign s
  | .bwBytes => Sys2Proof.Machine.execBwBytes s
  | .bwStat => Sys2Proof.Machine.execBwStat s
  | .nsEscape => Sys2Proof.Machine.execNsEscape s
  | .nsNal t => Sys2Proof.Machine.execNsNal t s
  | .nsSps => Sys2Proof.Machine.execNsSps s
  | .nsPps => Sys2Proof.Machine.execNsPps s
  | .frInit m g => Sys2Proof.Machine.execFrInit m g s
  | .frPush => Sys2Proof.Machine.execFrPush s
  | .frExtract => Sys2Proof.Machine.execFrExtract s
  | .frStat => Sys2Proof.Machine.execFrStat s
  | .seOpen => Sys2Proof.Machine.execSeOpen s
  | .seDecode => Sys2Proof.Machine.execSeDecode s
  | .seGetpic => Sys2Proof.Machine.execSeGetpic s
  | .seClose => Sys2Proof.Machine.execSeClose s

end Sys2Proof.Machine
end

