-- ==== Sys2Proof/Machine/CommandPort.lean ====
section
/-! DEFINITION. The command port: what the block does with the host's next input (00_scope.md R10,
30_encoding.md R90, R94, R95). -/

namespace Sys2Proof.Machine

/-- Run a command word: decode it, without looking at any state (R94, R309), and run the command; a word that
is no command raises `IllegalCommand` and changes nothing but `r0` (R95). -/
def runWord (w : Word) (s : State) : Host.Outcome State Fault Refusal :=
  match decode w with
  | .ok i => exec i s
  | .error _ => s.finish .illegalCommand

/-- Do one input of the host (R20, R73, R340). -/
def runInput (h : HostInput) (s : State) : Host.Outcome State Fault Refusal :=
  match h with
  | .setArg i v => .next (s.withArgs (s.args.set i v))
  | .poke a b => .next (s.withMem (s.mem.put a.toNat b))
  | .command w => runWord w s
  | .reset => .next s.hardReset

/-- The host's next input leaves the port and is done. With none left the block is idle (R328). -/
def runPort (s : State) : Host.Outcome State Fault Refusal :=
  match s.port with
  | [] => .next s
  | h :: rest => runInput h (s.withPort rest)

/-- Put a command word before the host's other inputs. -/
def State.withCommand (s : State) (w : Word) : State := s.withPort (.command w :: s.port)

end Sys2Proof.Machine
end

