-- ==== Sys2Proof/Machine/Step.lean ====
section
/-! DEFINITION. One step of the block, and placing a command where the next step takes it. -/

namespace Sys2Proof.Machine

/-- One step: the host's next input is done to completion (R10). -/
def step (s : State) : Host.Outcome State Fault Refusal := runPort s

/-- `s` with the command whose bits are the low `nbits` bits of `w` at the front of the command port (log 1). -/
def State.withFetchWord (s : State) (nbits w : Nat) : State := s.withCommand (BitVec.ofNat 32 (w % 2 ^ nbits))

end Sys2Proof.Machine
end

