-- ==== Sys2Proof/Safety.lean ====
section
/-! DEFINITION. What counts as a sound state, and the words claims are made in: bits of the BitWriter buffer,
the strings writers append, parameter sets as bit strings, the scanner's tables, the test instruments of
95_test_vectors.md, lifecycle moves, the status matrix. -/

namespace Sys2Proof.Machine

/-! ### Completion -/

/-- `s` with a status code in `r0` and nothing else changed (R300, R301). -/
def State.withStatus (s : State) (code : Int) : State := { s with res := { s.res with r0 := BitVec.ofInt 32 code } }

/-! ### Bits of the BitWriter buffer -/

/-- Bit `p` of the BitWriter buffer at `base` (R26). -/
def bufBit (m : Memory) (base : Word) (p : Nat) : Bool := (memByte m (bitAddr base p)).getLsbD (7 - p % 8)

/-- Bit `j` of the byte at `a` is bit `p` of the buffer. -/
def isBufBit (base : Word) (p a j : Nat) : Prop := a = bitAddr base p ∧ j = 7 - p % 8

/-- `m'` is `m` with the bit string `bs` written from bit `p` of the buffer upward, and every other bit of
every byte of MEM as before (R122, R68). -/
def wroteBits (m : Memory) (base : Word) (p : Nat) (bs : List Bool) (m' : Memory) : Prop :=
  (∀ k, k < bs.length → bufBit m' base (p + k) = bs.getD k false) ∧
  (∀ a j, j < 8 → (∀ k, k < bs.length → ¬ isBufBit base (p + k) a j) →
    (memByte m' a).getLsbD j = (memByte m a).getLsbD j)

/-- The bit strings of writers run one after another from bit position `pos` (R160, R161). -/
def writerBits (pos : Nat) : List Writer → List Bool
  | [] => []
  | w :: ws =>
    bin (w.field pos).2 (w.field pos).1 ++ writerBits (pos + (w.field pos).1) ws

/-- A byte as its eight bits, most significant first (R131). -/
def byteBits (b : Byte) : List Bool := bin b.toNat 8

/-- The stop bit and the zeros up to the next byte boundary after bit position `pos` (R130). -/
def stopBits (pos : Nat) : List Bool := true :: List.replicate (7 - pos % 8) false

/-- How a command ends that hands the bit string `bs` to the BitWriter (R122, R123): when the string fits it is
appended, and nothing outside the buffer changes; when it does not, only the flag and `r0` do. -/
def writeEnds (s : State) (bs : List Bool) (o : Host.Outcome State Fault Refusal) : Prop :=
  (s.bw.pos.toNat + bs.length ≤ 8 * s.bw.cap.toNat → ∃ m',
    o = .next (State.withStatus
      { s with mem := m', bw := { s.bw with pos := BitVec.ofNat 32 (s.bw.pos.toNat + bs.length) } } 0) ∧
    wroteBits s.mem s.bw.base s.bw.pos.toNat bs m' ∧
    ∀ a, (a < s.bw.base.toNat ∨ s.bw.base.toNat + s.bw.cap.toNat ≤ a) → memByte m' a = memByte s.mem a) ∧
  (8 * s.bw.cap.toNat < s.bw.pos.toNat + bs.length →
    o = .next (State.withStatus { s with bw := { s.bw with ovf := true } } (-4)))

/-- A command that writes to the BitWriter buffer where the last one stopped (R135). -/
def isWrite : Instr → Bool
  | .bwInit => false
  | .bwBit _ => true
  | .bwFixed _ => true
  | .bwUe => true
  | .bwSe => true
  | .bwAlign => true
  | .bwBytes => true
  | .bwStat => false
  | .nsEscape => false
  | .nsNal _ => false
  | .nsSps => false
  | .nsPps => false
  | .frInit _ _ => false
  | .frPush => false
  | .frExtract => false
  | .frStat => false
  | .seOpen => false
  | .seDecode => false
  | .seGetpic => false
  | .seClose => false

/-- The bit string such a command writes when it succeeds (R125, R126, R128 to R131); none for the others. -/
def writeString (i : Instr) (s : State) : List Bool :=
  match i with
  | .bwInit => []
  | .bwBit v => [v]
  | .bwFixed n => bin s.args.a0.toNat n.toNat
  | .bwUe => ueCode s.args.a0.toNat
  | .bwSe => ueCode (seMap s.args.a0.toInt)
  | .bwAlign => stopBits s.bw.pos.toNat
  | .bwBytes => (memRead s.mem s.args.a0.toNat s.args.a1.toNat).flatMap byteBits
  | .bwStat => []
  | .nsEscape => []
  | .nsNal _ => []
  | .nsSps => []
  | .nsPps => []
  | .frInit _ _ => []
  | .frPush => []
  | .frExtract => []
  | .frStat => []
  | .seOpen => []
  | .seDecode => []
  | .seGetpic => []
  | .seClose => []

/-- A run of commands: the state, the strings of the successful writes, whether one ended in `BitOverflow`. -/
structure WriteRun where
  state : State
  bits  : List Bool
  lost  : Bool

/-- The host loads the argument registers and issues one command. -/
def WriteRun.add (r : WriteRun) (c : ArgRegs × Instr) : WriteRun :=
  match exec c.2 (r.state.withArgs c.1) with
  | .next t =>
    ⟨t, if t.res.r0 = 0#32 then r.bits ++ writeString c.2 (r.state.withArgs c.1) else r.bits,
      r.lost || decide (t.res.r0 = BitVec.ofInt 32 (-4))⟩
  | .fault _ => r
  | .refused _ => r

/-- Issue commands one after another. -/
def WriteRun.addAll (r : WriteRun) (cs : List (ArgRegs × Instr)) : WriteRun := cs.foldl WriteRun.add r

/-! ### Parameter sets as bit strings, row by row (R161, R162, R174) -/

/-- `SE(v)` as a bit string (R121). -/
def seCode (v : Int) : List Bool := ueCode (seMap v)

/-- `ScalingList(i)` as a bit string (R162): the entries' plain differences. -/
def scalingString (last : Int) : List Byte → List Bool
  | [] => []
  | b :: bs => seCode (b.toNat - last) ++ scalingString b.toNat bs

/-- Row 10 for the list of `n` entries at address `a` (R161, R162). -/
def scalingRow (m : Memory) (a n : Nat) : List Bool := [true] ++ scalingString 8 (memRead m a n)

/-- Rows 5 to 10, with the scaling lists at `a` (R161). -/
def spsHighString (m : Memory) (a : Nat) : List Bool :=
  ueCode 1 ++ ueCode 0 ++ ueCode 0 ++ [false] ++ [true]
    ++ scalingRow m a 16 ++ scalingRow m (a + 16) 16 ++ scalingRow m (a + 32) 16
    ++ scalingRow m (a + 48) 16 ++ scalingRow m (a + 64) 16 ++ scalingRow m (a + 80) 16
    ++ scalingRow m (a + 96) 64 ++ scalingRow m (a + 160) 64

/-- Row 18: the `n` offsets at `a` (R161). -/
def refOffsets (m : Memory) (a : Nat) : Nat → List Bool
  | 0 => []
  | n + 1 => seCode (memWord m a).toInt ++ refOffsets m (a + 4) n

/-- Rows 1 to 31 of the SPS (R161) for parameter words `P`. -/
def spsString (level : Byte) (m : Memory) (w h prof : Nat) (P : Nat → Word) : List Bool :=
  bin prof 8 ++ bin 0 8 ++ bin level.toNat 8 ++ ueCode 0
    ++ (if prof = 100 then spsHighString m (P 11).toNat else [])
    ++ ueCode (P 0).toNat ++ ueCode (P 1).toNat
    ++ (if P 1 = 0 then ueCode (P 2).toNat else [])
    ++ (if P 1 = 1 then bin (P 3).toNat 1 ++ seCode (P 4).toInt ++ seCode (P 5).toInt ++ ueCode (P 6).toNat
          ++ refOffsets m (P 7).toNat (P 6).toNat else [])
    ++ ueCode (P 8).toNat ++ [false] ++ ueCode ((w - 1) / 16) ++ ueCode ((h - 1) / 16)
    ++ bin (P 9).toNat 1 ++ (if (P 9).getLsbD 0 = false then [false] else []) ++ bin (P 10).toNat 1
    ++ (if w % 16 ≠ 0 ∨ h % 16 ≠ 0 then
          [true] ++ ueCode 0 ++ ueCode (w % 16) ++ ueCode 0 ++ ueCode (h % 16) else [false])
    ++ [false]

/-- Rows 1 to 18 of the PPS (R174) for parameter words `Q`. -/
def ppsString (Q : Nat → Word) : List Bool :=
  ueCode 0 ++ ueCode 0 ++ bin (Q 0).toNat 1 ++ bin (Q 1).toNat 1 ++ ueCode 0 ++ ueCode (Q 2).toNat
    ++ ueCode (Q 3).toNat ++ bin (Q 4).toNat 1 ++ bin (Q 5).toNat 2 ++ seCode (Q 6).toInt ++ seCode 0
    ++ seCode (Q 7).toInt ++ bin (Q 8).toNat 1 ++ bin (Q 9).toNat 1 ++ bin (Q 10).toNat 1
    ++ bin (Q 11).toNat 1 ++ [false] ++ seCode (Q 12).toInt

/-- A bit string with the RBSP trailing bits (R161 row 32, R174 row 19). -/
def withTrailing (bs : List Bool) : List Bool := bs ++ stopBits bs.length

/-- The RBSP that `NS_SPS` writes for the operands of `s` (R161, R163). -/
def State.spsRbsp (s : State) : List Bool :=
  withTrailing (spsString s.params.levelIdc s.mem s.args.a0.toNat s.args.a1.toNat s.args.a2.toNat
    fun k => memWord s.mem (s.args.a3.toNat + 4 * k))

/-- The RBSP that `NS_PPS` writes for the operands of `s` (R174, R175). -/
def State.ppsRbsp (s : State) : List Bool :=
  withTrailing (ppsString fun k => memWord s.mem (s.args.a3.toNat + 4 * k))

/-- A source range stays inside the address space and does not meet the BitWriter buffer (R69). -/
def State.sourceLegal (s : State) (a : Word) (len : Nat) : Prop :=
  a.toNat + len ≤ 2 ^ 32 ∧
    (len = 0 ∨ s.bw.cap.toNat = 0 ∨ a.toNat + len ≤ s.bw.base.toNat ∨ s.bw.base.toNat + s.bw.cap.toNat ≤ a.toNat)

/-- The operands of `NS_SPS` are legal (R163, R69; log 11). -/
def State.spsLegal (s : State) : Prop :=
  let P := fun k => memWord s.mem (s.args.a3.toNat + 4 * k)
  s.args.a0 ≠ 0 ∧ s.args.a1 ≠ 0 ∧ s.args.a2.toNat ≤ 255 ∧ s.sourceLegal s.args.a3 48 ∧
    (P 1 = 1 → (P 6).toNat ≤ 255 ∧ s.sourceLegal (P 7) (4 * (P 6).toNat)) ∧
    (s.args.a2.toNat = 100 → s.sourceLegal (P 11) 224)

/-- How `NS_SPS` and `NS_PPS` end when their operands are legal and the RBSP is `rbsp`, made of the fields
`fields` (R160, R163, R175): the whole RBSP from the buffer's first bit, or the fields before the first one that
does not fit. -/
def rbspEnds (s : State) (rbsp : List Bool) (fields : List Writer) (o : Host.Outcome State Fault Refusal) : Prop :=
  (rbsp.length ≤ 8 * s.bw.cap.toNat → rbsp.length % 8 = 0 ∧ ∃ m',
    o = .next (State.withStatus (State.setR1
      { s with mem := m', bw := { s.bw with pos := BitVec.ofNat 32 rbsp.length, ovf := false } }
      (BitVec.ofNat 32 (rbsp.length / 8))) 0) ∧
    wroteBits s.mem s.bw.base 0 rbsp m') ∧
  (8 * s.bw.cap.toNat < rbsp.length → ∃ m' done next rest, fields = done ++ next :: rest ∧
    (writerBits 0 done).length ≤ 8 * s.bw.cap.toNat ∧
    8 * s.bw.cap.toNat < (writerBits 0 (done ++ [next])).length ∧
    o = .next (State.withStatus (State.setR1
      { s with mem := m', bw := { s.bw with pos := BitVec.ofNat 32 (writerBits 0 done).length, ovf := true } } 0)
      (-4)) ∧
    wroteBits s.mem s.bw.base 0 (rbsp.take (writerBits 0 done).length) m')

/-! ### Copies -/

/-- `[a, a + la)` and `[b, b + lb)` may not be source and destination of one command (R69). -/
def rangesIllegal (a : Word) (la : Nat) (b : Word) (lb : Nat) : Prop :=
  2 ^ 32 < a.toNat + la ∨ 2 ^ 32 < b.toNat + lb ∨
    (0 < la ∧ 0 < lb ∧ a.toNat < b.toNat + lb ∧ b.toNat < a.toNat + la)

/-- How `NS_ESCAPE` and `NS_NAL` end when the bytes to deliver are `out` (R153, R154, R156). After
`BufferTooSmall` nothing is said of the destination range, nor of the model's counter of free values. -/
def copyEnds (s : State) (out : List Byte) (o : Host.Outcome State Fault Refusal) : Prop :=
  let illegal := rangesIllegal s.args.a0 s.args.a1.toNat s.args.a2 s.args.a3.toNat
  (illegal → o = .next (s.withStatus (-9))) ∧
  (¬ illegal → out.length ≤ s.args.a3.toNat → ∃ m',
    o = .next (State.withStatus (State.setR1 { s with mem := m' } (BitVec.ofNat 32 out.length)) 0) ∧
    memRead m' s.args.a2.toNat out.length = out ∧
    ∀ a, (a < s.args.a2.toNat ∨ s.args.a2.toNat + out.length ≤ a) → memByte m' a = memByte s.mem a) ∧
  (¬ illegal → s.args.a3.toNat < out.length → ∃ m' d,
    o = .next (State.withStatus (State.setR1 { s with mem := m', draws := d } 0) (-3)) ∧
    ∀ a, (a < s.args.a2.toNat ∨ s.args.a2.toNat + s.args.a3.toNat ≤ a) → memByte m' a = memByte s.mem a)

/-! ### The companion reader (95_test_vectors.md section 2), a test instrument -/

/-- `ReadFixed(n)` from bit `c` of a bit sequence, onto the value `acc` read so far. -/
def readFixed (bitAt : Nat → Bool) : (n c acc : Nat) → Nat
  | 0, _, acc => acc
  | n + 1, c, acc => readFixed bitAt n (c + 1) (2 * acc + bit (bitAt c))

/-- The zeros from bit `c` before the first one, at most `fuel` of them. -/
def leadingZeros (bitAt : Nat → Bool) : (fuel c : Nat) → Nat
  | 0, _ => 0
  | fuel + 1, c => if bitAt c then 0 else leadingZeros bitAt fuel (c + 1) + 1

/-- `ReadUE()` from bit `c`, for codewords of at most `fuel` leading zeros. -/
def readUe (bitAt : Nat → Bool) (fuel c : Nat) : Nat :=
  let z := leadingZeros bitAt fuel c
  2 ^ z - 1 + readFixed bitAt z (c + z + 1) 0

/-- The integer whose `SeMap` is `m` (95_test_vectors.md section 2, `ReadSE`). -/
def seUnmap (m : Nat) : Int := if m % 2 = 1 then ((m : Int) + 1) / 2 else -((m : Int) / 2)

/-- `ReadSE()` from bit `c`. -/
def readSe (bitAt : Nat → Bool) (fuel c : Nat) : Int := seUnmap (readUe bitAt fuel c)

/-! ### The de-escaper (95_test_vectors.md section 3), a test instrument -/

/-- `Unescape` after the bytes already read: `zc` counts zeros, `prev` is the byte before. -/
def unescapeFrom (zc : Nat) (prev : Option Byte) : List Byte → List Byte
  | [] => []
  | b :: bs =>
    if zc = 2 ∧ b = 3#8 then unescapeFrom 0 (some b) bs
    else if bs = [] ∧ b = 3#8 ∧ prev = some 0#8 then []
    else b :: unescapeFrom (if b = 0#8 then zc + 1 else 0) (some b) bs

/-- `Unescape(y)`. -/
def unescape (y : List Byte) : List Byte := unescapeFrom 0 none y

/-- No two zero bytes of `x` are followed by a byte below 4 (R150). -/
def nothingToEscape (x : List Byte) : Prop :=
  ∀ (k : Nat) (b : Byte), x[k]? = some 0#8 → x[k + 1]? = some 0#8 → x[k + 2]? = some b → 4 ≤ b.toNat

/-! ### Soundness of the units -/

/-- The invariant of the BitCursor (R25, R27). -/
def BitCursor.ok (b : BitCursor) : Prop :=
  b.base.toNat + b.cap.toNat ≤ memSize ∧ b.cap.toNat ≤ maxCap ∧ b.pos.toNat ≤ 8 * b.cap.toNat

/-- The bytes the scanner has stepped over that may belong to the start code it is recognising. -/
def Framer.held (f : Framer) : Nat :=
  match f.st with
  | .idle => 0
  | .saw0x1 => 1
  | .saw0x2 => 2
  | .saw0x3 => 3
  | .sawStartCode => f.read - f.scStart
  | .inSliceLookahead => f.read - f.scStart

/-- `FR.unit_start` means something (R32). -/
def Framer.unitKnown (f : Framer) : Prop := f.hdrCnt ≠ 0 ∨ f.picCnt ≠ 0 ∨ f.pending = true

/-- The byte counters are in order (R30) and a start code under recognition lies between them. -/
def Framer.countersOk (cap : Nat) (f : Framer) : Prop :=
  f.read ≤ f.head ∧ f.head - f.tail ≤ cap ∧ f.tail + f.held ≤ f.read ∧
  ((f.st = .sawStartCode ∨ f.st = .inSliceLookahead) → f.scStart ≤ f.read)

/-- The unit being assembled and the pending unit lie in the ring (R32). -/
def Framer.unitOk (f : Framer) : Prop :=
  (f.unitKnown → f.tail ≤ f.unitStart) ∧
  (f.unitKnown → f.pending = false → f.unitStart + f.held ≤ f.read) ∧
  (f.pending = true → f.unitStart ≤ f.pendEnd ∧ f.pendEnd + f.held ≤ f.read)

/-- What the mode and the head variant allow (R31, R202, R203, R210, R212). -/
def Framer.modeOk (f : Framer) : Prop :=
  (f.mode ≠ .h264 → f.st ≠ .saw0x3 ∧ f.st ≠ .inSliceLookahead) ∧
  (f.pending = true → f.pendTag = (if f.getHead then .header else .picture))

/-- The invariant of the ParserContext. -/
def Framer.ok (cap : Nat) (f : Framer) : Prop := f.countersOk cap ∧ f.unitOk ∧ f.modeOk

/-! ### The scanner, as tables -/

/-- `Rescan(b)` (R199). -/
def rescanTo (b : Byte) : ScanState := if b = 0#8 then .saw0x1 else .idle

/-- The next-state table of the scanner (R215), for the states each mode reaches. -/
def nextScan (mode : Mode) (st : ScanState) (b : Byte) : ScanState :=
  match st with
  | .idle => if b = 0#8 then .saw0x1 else .idle
  | .saw0x1 => if b = 0#8 then .saw0x2 else .idle
  | .saw0x2 =>
    if b = 1#8 then .sawStartCode
    else if b = 0#8 then
      match mode with
      | .h264 => .saw0x3
      | .mpeg4 => .saw0x2
      | .mpeg12 => .saw0x2
    else .idle
  | .saw0x3 => if b = 1#8 then .sawStartCode else if b = 0#8 then .saw0x3 else .idle
  | .sawStartCode =>
    match mode with
    | .h264 => if b.toNat % 32 = 1 ∨ b.toNat % 32 = 5 then .inSliceLookahead else rescanTo b
    | .mpeg4 => rescanTo b
    | .mpeg12 => rescanTo b
  | .inSliceLookahead => rescanTo b

/-- The event a scanner step raises on byte `b`, its offset and its tag (R202, R204 to R207, R210, R211). -/
def stepEvent (codes : List Byte) (b : Byte) (f : Framer) : Option (Nat × Tag) :=
  match f.st, f.mode with
  | .saw0x2, .mpeg4 =>
    if 0x80 ≤ b.toNat ∧ b.toNat ≤ 0x83 then some (f.read - 2, if f.shLead then .picture else .header) else none
  | .sawStartCode, .h264 =>
    if b.toNat % 32 = 6 ∨ b.toNat % 32 = 7 ∨ b.toNat % 32 = 8 then some (f.scStart, .header) else none
  | .sawStartCode, .mpeg4 =>
    if b = 0xB6#8 then some (f.scStart, .picture) else if b ∈ codes then some (f.scStart, .header) else none
  | .sawStartCode, .mpeg12 =>
    if b = 0xB3#8 ∨ b = 0xB8#8 then some (f.scStart, .header)
    else if b = 0x00#8 then some (f.scStart, .picture) else none
  | .inSliceLookahead, .h264 => if 0x80 ≤ b.toNat then some (f.scStart, .picture) else none
  | _, _ => none

/-- What a scanner step leaves in `FR.sc_start` (R202, R203): the start of a start code when its `01` arrives, else
what was there. -/
def stepScStart (b : Byte) (f : Framer) : Nat :=
  match f.st with
  | .idle => f.scStart
  | .saw0x1 => f.scStart
  | .saw0x2 => if b = 1#8 then f.read - 2 else f.scStart
  | .saw0x3 => if b = 1#8 then f.read - 3 else f.scStart
  | .sawStartCode => f.scStart
  | .inSliceLookahead => f.scStart

/-- What a scanner step leaves in `FR.sh_lead` (R204, R211): an MPEG-4 short header sets it, an MPEG-4 start code of
a normal header clears it. -/
def stepShLead (codes : List Byte) (b : Byte) (f : Framer) : Bool :=
  match f.st, f.mode with
  | .saw0x2, .mpeg4 => if 0x80 ≤ b.toNat ∧ b.toNat ≤ 0x83 then true else f.shLead
  | .sawStartCode, .mpeg4 => if b ≠ 0xB6#8 ∧ b ∈ codes then false else f.shLead
  | _, _ => f.shLead

/-- Feed bytes to the scanner one after another. -/
def feed (p : Config.Params) (bs : List Byte) (f : Framer) : Framer := bs.foldl (fun g b => scanStep p b g) f

/-- The ring holds the bytes of the stream `S` at every count from `tail` to `head` (R62). -/
def Framer.carries (cap : Nat) (S : Nat → Byte) (f : Framer) : Prop :=
  ∀ c, f.tail ≤ c → c < f.head → ringByte cap f.ring c = S c

/-! ### Soundness of the pipeline -/

/-- What every slot satisfies at a command boundary: at least one plane (R35), each plane's memory canonical
and inside the plane (R63), and a payload that fits plane 0 (R257). -/
def Slot.ok (sl : Slot) : Prop :=
  sl.planes ≠ [] ∧ (∀ p ∈ sl.planes, p.mem.wf p.size.toNat = true) ∧ sl.used.toNat ≤ sl.room

/-- The pool sizes are those fixed at setup (R34, R36). -/
def Pipeline.sizesOk (pl : Pipeline) : Prop :=
  pl.inPool.length = pl.nIn ∧ pl.doutPool.length = pl.nDout ∧ pl.coutPool.length = pl.nCout

/-- Pool sizes against the phase and the parameters (R15, R16, R17, R37). -/
def Pipeline.phaseOk (p : Config.Params) (pl : Pipeline) : Prop :=
  (pl.hdrDone = false → pl.nIn = 0 ∧ pl.nDout = 0 ∧ pl.nCout = 0 ∧ pl.conv = false) ∧
  (pl.hdrDone = true → pl.nIn = p.nIn ∧ p.pipelineDepth ≤ pl.nDout ∧
    pl.nCout = (if pl.conv then p.nCout else 0))

/-- The ownership states a slot may have at a command boundary (R36, R252 to R254). -/
def Pipeline.ownersOk (pl : Pipeline) : Prop :=
  (∀ sl ∈ pl.inPool, sl.own ≠ .done ∧ sl.ok) ∧
  (∀ sl ∈ pl.doutPool, (pl.conv = false → sl.own ≠ .done ∧ sl.holder = .dec) ∧ sl.ok) ∧
  (∀ sl ∈ pl.coutPool, sl.own ≠ .done ∧ sl.ok)

/-- The invariant of the DecoderPipelineState. -/
def Pipeline.ok (p : Config.Params) (pl : Pipeline) : Prop := pl.sizesOk ∧ pl.phaseOk p ∧ pl.ownersOk

/-- The lifecycle against the units it gates (R29, R258, R270, R288, R320). -/
def State.lifeOk (s : State) : Prop :=
  (s.se.life ≠ .opened → s.pl.hdrDone = false) ∧ (s.se.life ≠ .closed → s.fr.valid = true)

/-- The memories are in canonical form, inside their spaces (R60). -/
def State.memOk (s : State) : Prop := s.mem.wf memSize = true ∧ s.fr.ring.wf s.params.ringCap = true

/-- The state is sound: what holds at reset and at every command boundary after it. -/
def State.Inv (s : State) : Prop :=
  s.memOk ∧ s.bw.ok ∧ s.fr.ok s.params.ringCap ∧ s.pl.ok s.params ∧ s.lifeOk

/-! ### The pipeline, as claims speak of it -/

/-- The `BUF_LIST` and every buffer it names lie in the address space (R272, R69). -/
def State.listLegal (s : State) : Prop :=
  s.args.a0.toNat + 8 * s.args.a1.toNat ≤ 2 ^ 32 ∧
    ∀ e ∈ bufList s.mem s.args.a0 s.args.a1.toNat, e.1.toNat + e.2.toNat ≤ 2 ^ 32

/-- The bytes that `SE_DECODE` pushes (R272 D1). -/
def State.codedBytes (s : State) : List Byte := bufBytes s.mem (bufList s.mem s.args.a0 s.args.a1.toNat)

/-- The framer after a push of those bytes and a scan (R272 D1, D3). -/
def State.pushedScanned (s : State) : Framer := frScan s.params (frPush s.params.ringCap s.codedBytes s.fr)

/-- What of a slot is fixed at mapping (R34, R35). -/
def Slot.shape (sl : Slot) : List (Word × Word × Handle) := sl.planes.map fun p => (p.size, p.offset, p.ptr)

/-- The poll timeout of D4 (R274). -/
def pollMs (xs : List Slot) : Nat := if ∃ sl ∈ xs, sl.own = .free then 0 else 1000

/-- The device port after the answers `as` were taken for the calls `cs`, the script continuing with `rest`. -/
def DevPort.after (d : DevPort) (l : List (DevCall × DevAnswer)) (rest : List DevAnswer) : DevPort :=
  ⟨rest, d.asked + l.length, d.log ++ l.map fun x => ⟨x.1, some x.2⟩⟩

/-- Slots `0 .. n - 1` of queue `q` are mapped in increasing order, slot `i` with the planes `ps i` (R244, R256). -/
def mapTxns (q : QueueId) (n : Nat) (ps : Nat → List PlaneInfo) : List (DevCall × DevAnswer) :=
  (List.range n).map fun i => (.map q i, .mapped (ps i))

/-- Slots `0 .. n - 1` are enqueued on `q` in increasing order (R256 S7). -/
def enqueueTxns (q : QueueId) (n : Nat) : List (DevCall × DevAnswer) :=
  (List.range n).map fun i => (.enqueue q i 0, .ok)

/-- The transactions of setup from `s`, with Dev's answers, up to the loop of S4 and into it (R256 S1 to S4, R259):
slot `i` of pool `P` is mapped as `ps P i`, and the capture query is answered `k` times with `NOT_READY`. -/
def State.headerTxns (s : State) (ps : PoolId → Nat → List PlaneInfo) (k : Nat) : List (DevCall × DevAnswer) :=
  [(.negotiateInput s.fr.mode s.se.width s.se.height, .ok), (.alloc .inp s.params.nIn, .ok)]
    ++ mapTxns .inp s.params.nIn (ps .inp) ++ [(.enqueue .inp 0 s.fr.unitLen, .ok)]
    ++ List.replicate k (.queryCapture, .notReady)

/-- All the transactions of a setup from `s` that succeeds, with Dev's answers, in their order (R256). -/
def State.setupTxns (s : State) (ps : PoolId → Nat → List PlaneInfo) (k : Nat) (fmt : Fmt) (m : Nat)
    (consumable : Bool) : List (DevCall × DevAnswer) :=
  let n := m + s.params.pipelineDepth
  s.headerTxns ps k ++ [(.queryCapture, .capture fmt m consumable), (.alloc .dout n, .ok)]
    ++ mapTxns .dout n (ps .dout)
    ++ (if consumable then []
        else [(.chain fmt n, .ok), (.alloc .cout s.params.nCout, .ok)] ++ mapTxns .cout s.params.nCout (ps .cout))
    ++ enqueueTxns .dout n ++ (if consumable then [] else enqueueTxns .cout s.params.nCout)

/-- The answers in a list of transactions. -/
def answersOf (l : List (DevCall × DevAnswer)) : List DevAnswer := l.map Prod.snd

/-- The slot has the planes of Dev's map answer `ps`: their sizes, offsets and pointers (R35, R244). -/
def Slot.mappedAs (sl : Slot) (ps : List PlaneInfo) : Prop := sl.shape = ps.map fun q => (q.size, q.offset, q.ptr)

/-! ### The hand-shakes of SE_GETPIC, as relations between states -/

/-- `s` after the transaction `c`, which takes Dev's next answer (R241); nothing else changes. -/
def State.answered (s : State) (c : DevCall) : State :=
  { s with dev := ⟨s.dev.script.tail, s.dev.asked + 1, s.dev.log ++ [⟨c, some s.dev.next⟩]⟩ }

/-- Queue `q` may hand back slot `i` of pool `P`, which is `sl`: the table holds it as queued there (R247, R251). -/
def State.mayReturn (s : State) (P : PoolId) (q : QueueId) (i : Nat) (sl : Slot) : Prop :=
  (s.pl.pool P)[i]? = some sl ∧ sl.own = .queued ∧ (P = .dout → sl.holder = (if q = .cin then .conv else .dec))

/-- Slot `i` of `P` is enqueued on `q` (R250): with `OK` it is queued there; otherwise no slot changes and `err`
holds. -/
def enqueues (P : PoolId) (q : QueueId) (i : Nat) (s t : State) (err : Bool) : Prop :=
  (s.dev.next = .ok ∧ err = false ∧ t = { s.answered (.enqueue q i 0) with
    pl := s.pl.setPool P ((s.pl.pool P).modify i fun sl =>
      { sl with own := .queued, holder := if P = .dout then (if q = .cin then .conv else .dec) else sl.holder }) }) ∨
  (s.dev.next ≠ .ok ∧ err = true ∧ t = s.answered (.enqueue q i 0))

/-- Queue `q` hands back slot `i` of `P`, which gets the owner `o` (R251). Nothing is said of the bytes of its planes
(R70), nor of the model's counter of free values. -/
def dequeues (P : PoolId) (q : QueueId) (i : Nat) (o : Own) (s t : State) : Prop :=
  ∃ sl sl' d, s.dev.next = .slot i ∧ s.mayReturn P q i sl ∧ sl'.own = o ∧ sl'.holder = sl.holder ∧
    sl'.used = sl.used ∧ sl'.shape = sl.shape ∧
    t = { s.answered (.dequeue q) with pl := s.pl.setPool P ((s.pl.pool P).set i sl'), draws := d }

/-- A dequeue on `q` hands back no slot (R251): no slot changes, and `err` holds unless the answer is `NOT_READY`. -/
def noSlot (P : PoolId) (q : QueueId) (s t : State) (err : Bool) : Prop :=
  t = s.answered (.dequeue q) ∧ (∀ i sl, s.dev.next = .slot i → ¬ s.mayReturn P q i sl) ∧
    err = decide (s.dev.next ≠ .notReady)

/-- The hand-off of G1 and G2 (R282): a `DOUT` slot that `q` hands back gets the owner `o` and is enqueued on
`q2`. -/
def passesOn (q : QueueId) (o : Own) (q2 : QueueId) (s t : State) (err : Bool) : Prop :=
  noSlot .dout q s t err ∨ ∃ i u, dequeues .dout q i o s u ∧ enqueues .dout q2 i u t err

/-- The last step of `SE_GETPIC` (R281 G2, R282 G3): a slot that its queue hands back is presented, free again, and
enqueued again. The result registers name it; of `r1` nothing is said for an index it cannot hold (log 23). -/
def shows (P : PoolId) (s t : State) (err shown : Bool) : Prop :=
  (noSlot P P.queue s t err ∧ shown = false) ∨
  ∃ i sl u r1, dequeues P P.queue i .free s u ∧ (s.pl.pool P)[i]? = some sl ∧
    (i < 2 ^ 32 → r1 = BitVec.ofNat 32 i) ∧ shown = true ∧
    enqueues P P.queue i
      { u with
        events := s.events ++ [⟨P, i, sl.planes.map fun p => (p.ptr, p.size), s.pl.fmt⟩]
        res := ⟨s.res.r0, r1, 1, if P = .dout then 1 else 2⟩ } t err

/-- The slots of a list of indices are enqueued one after another (G0 of R281, R282); `err` holds if one of the
enqueues failed. -/
def resubmits (P : PoolId) (q : QueueId) : List Nat → State → State → Bool → Prop
  | [], s, t, err => t = s ∧ err = false
  | i :: is, s, t, err => ∃ u e e', enqueues P q i s u e ∧ resubmits P q is u t e' ∧ err = (e || e')

/-- The indices below `n` of the slots with owner `o`, in increasing order. -/
def indicesOf (o : Own) (n : Nat) (xs : List Slot) : List Nat :=
  (List.range n).filter fun i => decide (xs[i]?.map Slot.own = some o)

/-! ### The steps of SE_DECODE, as relations between states -/

/-- The ring has no room for the buffers (R192, R272 D1). -/
def State.noRoom (s : State) : Bool := decide (s.params.ringCap < s.fr.head - s.fr.tail + s.codedBytes.length)

/-- The framer after D1: all the bytes pushed or, without room, none (R272). -/
def State.accepted (s : State) : Framer := if s.noRoom then s.fr else frPush s.params.ringCap s.codedBytes s.fr

/-- The framer after D1 and a scan. -/
def State.acceptedScanned (s : State) : Framer := frScan s.params s.accepted

/-- D3 (R272, R273, R257): a scan; with a unit pending and an input slot free, the free slot with the least index
is too small and the unit stays (`err`), or the unit is copied into its plane 0 and enqueued, and `sub` holds if Dev
takes the slot, else `err`. -/
def submits (s t : State) (sub err : Bool) : Prop :=
  let f := frScan s.params s.fr
  ((f.pending = false ∨ ∀ sl ∈ s.pl.inPool, sl.own ≠ .free) ∧ t = { s with fr := f } ∧ sub = false ∧ err = false) ∨
  (f.pending = true ∧ ∃ i sl, s.pl.inPool[i]? = some sl ∧ sl.own = .free ∧
    (∀ (k : Nat) (x : Slot), k < i → s.pl.inPool[k]? = some x → x.own ≠ .free) ∧
    ((sl.room < f.unitLen ∧ t = { s with fr := f } ∧ sub = false ∧ err = true) ∨
     (f.unitLen ≤ sl.room ∧ sub = decide (s.dev.next = .ok) ∧ err = !sub ∧
      ∃ sl', sl'.own = (if s.dev.next = .ok then .queued else .free) ∧ sl'.used = BitVec.ofNat 32 f.unitLen ∧
        sl'.shape = sl.shape ∧
        (∀ k, k < f.unitLen → slotByte sl' 0 k = ringByte s.params.ringCap f.ring (f.unitStart + k)) ∧
        (∀ q k, q ≠ 0 ∨ f.unitLen ≤ k → slotByte sl' q k = slotByte sl q k) ∧
        t = { s.answered (.enqueue .inp i f.unitLen) with
          fr := f.take, pl := { s.pl with inPool := s.pl.inPool.set i sl' } })))

/-- D4 (R272, R274): with an input slot queued, a poll; on `READY` a dequeue, and `got` holds if it hands back a
slot, which is then free. `err` holds if the poll or the dequeue failed. -/
def reclaims (s t : State) (got err : Bool) : Prop :=
  ((∀ sl ∈ s.pl.inPool, sl.own ≠ .queued) ∧ t = s ∧ got = false ∧ err = false) ∨
  ((∃ sl ∈ s.pl.inPool, sl.own = .queued) ∧
    let u := s.answered (.poll (pollMs s.pl.inPool))
    ((s.dev.next ≠ .ready ∧ t = u ∧ got = false ∧ err = decide (s.dev.next ≠ .timeout)) ∨
     (s.dev.next = .ready ∧
      ((noSlot .inp .inp u t err ∧ got = false) ∨
       ∃ j, dequeues .inp .inp j .free u t ∧ got = true ∧ err = false))))

/-- How `SE_DECODE` completes in state `t` (R272): the step mask, and `BufferFull` of D1 before `DecodeError`, since
the first status that is not `OK` wins. -/
def State.decodeEnds (t : State) (full ran sub got err : Bool) : State :=
  { t with res := { t.res with
      r0 := BitVec.ofInt 32 (if full then -2 else if err then -7 else 0)
      r1 := BitVec.ofNat 32 ((if full then 0 else 1) + (if ran then 2 else 0) + (if sub then 4 else 0)
        + (if got then 8 else 0) + (if err then 16 else 0)) } }

/-- `t` issued at most `n` transactions more than `s`, after those of `s` (R241, R365). -/
def issuedAtMost (n : Nat) (s t : State) : Prop := ∃ l, t.dev.log = s.dev.log ++ l ∧ l.length ≤ n

/-! ### Lifecycle, units, statuses -/

/-- The lifecycle moves of R320, for the command that makes them. -/
def lifeMove (i : Instr) (a b : Life) : Prop :=
  a = b ∨ (i = .seOpen ∧ a = .closed ∧ b = .opened) ∨ (i = .seDecode ∧ a = .opened ∧ b = .failed) ∨
    (i = .seClose ∧ a ≠ .closed ∧ b = .closed)

/-- The four units (R1). -/
inductive UnitId where
  | bw
  | ns
  | fr
  | se
  deriving DecidableEq, Repr

/-- The unit a command belongs to, bits 31:28 of its word (R90, R93). -/
def unitOf : Instr → UnitId
  | .bwInit => .bw
  | .bwBit _ => .bw
  | .bwFixed _ => .bw
  | .bwUe => .bw
  | .bwSe => .bw
  | .bwAlign => .bw
  | .bwBytes => .bw
  | .bwStat => .bw
  | .nsEscape => .ns
  | .nsNal _ => .ns
  | .nsSps => .ns
  | .nsPps => .ns
  | .frInit _ _ => .fr
  | .frPush => .fr
  | .frExtract => .fr
  | .frStat => .fr
  | .seOpen => .se
  | .seDecode => .se
  | .seGetpic => .se
  | .seClose => .se

/-- The statuses a command can end with (R308). -/
def mayEnd : Instr → List Int
  | .bwInit => [0, -9]
  | .bwBit _ => [0, -4]
  | .bwFixed _ => [0, -9, -4]
  | .bwUe => [0, -4]
  | .bwSe => [0, -4]
  | .bwAlign => [0, -4]
  | .bwBytes => [0, -9, -4]
  | .bwStat => [0]
  | .nsEscape => [0, -9, -3]
  | .nsNal _ => [0, -9, -3]
  | .nsSps => [0, -9, -4]
  | .nsPps => [0, -9, -4]
  | .frInit _ _ => [0, -10, -9]
  | .frPush => [0, -10, -9, -2]
  | .frExtract => [0, 1, -10, -9, -1]
  | .frStat => [0, -10]
  | .seOpen => [0, -10, -9]
  | .seDecode => [0, -10, -9, -6, -2, -7]
  | .seGetpic => [0, -10, -6, -5, -7]
  | .seClose => [0, -10]

end Sys2Proof.Machine
end

