-- ==== Sys2Proof/Certificates/Slice0/Obligations.lean ====
section
/-! DEFINITION. The statements for the provers. Each names the rules of spec/ it formalises. A statement about a
write to MEM speaks of reads of single bytes; an explicit record update says that every field it does not name
is unchanged. -/

open Sys2Proof Sys2Proof.Machine

/-! ### Encoding -/

/-- R90, R91, R93: decoding the word of a command gives that command back, with every immediate at every value
its format admits. -/
def Obligations.DecodeEncode : Prop := ∀ i : Instr, decode (encode i) = .ok i

/-- R94, R95: a word that decodes at all is the word of the command it decodes to, so no bit of it is dropped. -/
def Obligations.DecodeOnlyEncodings : Prop := ∀ (w : Word) (i : Instr), decode w = .ok i → w = encode i

/-- R94, R95: decoding is total. A word that matches a row is that row's command. A word that matches no row raises
`IllegalCommand` and changes nothing but `r0`; so does every word with an unlisted `op`, and every word of a listed
`op` with a non-zero bit where the row's immediate must be zero. -/
def Obligations.DecodingTotal : Prop :=
  ∀ (w : Word) (s : State),
    (∀ r ∈ opcodeMap, w &&& r.mask = r.pattern → runWord w s = exec (r.build w) s) ∧
    ((∀ r ∈ opcodeMap, w &&& r.mask ≠ r.pattern) → runWord w s = .next (s.withStatus (-8))) ∧
    ((w.extractLsb' 24 8).toNat ∉ [0x10, 0x11, 0x12, 0x13, 0x14, 0x15, 0x16, 0x17, 0x20, 0x21, 0x22, 0x23,
        0x30, 0x31, 0x32, 0x33, 0x40, 0x41, 0x42, 0x43] → runWord w s = .next (s.withStatus (-8))) ∧
    (∀ r ∈ opcodeMap, w.extractLsb' 24 8 = r.pattern.extractLsb' 24 8 →
      w.extractLsb' 0 24 &&& r.mask.extractLsb' 0 24 ≠ 0#24 → runWord w s = .next (s.withStatus (-8)))

/-- R91, R93: words written out from the opcode column and the formats decode to what they stand for. -/
def Obligations.DecodeWords : Prop :=
  decode 0x10000000#32 = .ok .bwInit ∧ decode 0x11000001#32 = .ok (.bwBit true) ∧
  decode 0x12000020#32 = .ok (.bwFixed 32#6) ∧ decode 0x20000000#32 = .ok .nsEscape ∧
  decode 0x21000007#32 = .ok (.nsNal 7#5) ∧ decode 0x30000102#32 = .ok (.frInit 2#2 true) ∧
  decode 0x32000000#32 = .ok .frExtract ∧ decode 0x41000000#32 = .ok .seDecode ∧
  decode 0x43000000#32 = .ok .seClose

/-! ### The step -/

/-- R10, R90, R94, R95, through the command port of log 1 (the model's choice): when the host's next input is a
command word that decodes to a command, the step takes that input off the port and is `exec` of the command, with
nothing else around it; when the word decodes to none, the step takes it off the port, raises `IllegalCommand` and
changes nothing else; with no input left it is idle. -/
def Obligations.StepRunsDecoded : Prop :=
  (∀ (s : State) (w : Word) (i : Instr) (rest : List HostInput), s.port = .command w :: rest → decode w = .ok i →
    step s = exec i { s with port := rest }) ∧
  (∀ (s : State) (w : Word) (rest : List HostInput), s.port = .command w :: rest → (∀ i, decode w ≠ .ok i) →
    step s = .next (State.withStatus { s with port := rest } (-8))) ∧
  (∀ s : State, s.port = [] → step s = .next s)

/-- R20, R73, through the host inputs of log 1 (the model's choice): the host's write of an argument register sets
that register, its write of a byte of MEM sets that byte, and neither changes anything else. -/
def Obligations.HostWrites : Prop :=
  (∀ (s : State) (i : Fin 8) (v : Word) (rest : List HostInput), s.port = .setArg i v :: rest →
    ∃ a : ArgRegs, step s = .next { s with port := rest, args := a } ∧
      [a.a0, a.a1, a.a2, a.a3, a.a4, a.a5, a.a6, a.a7] =
        [s.args.a0, s.args.a1, s.args.a2, s.args.a3, s.args.a4, s.args.a5, s.args.a6, s.args.a7].set i.val v) ∧
  (∀ (s : State) (addr : Word) (b : Byte) (rest : List HostInput), s.port = .poke addr b :: rest →
    ∃ m : Memory, step s = .next { s with port := rest, mem := m } ∧ memByte m addr.toNat = b ∧
      ∀ k, k ≠ addr.toNat → memByte m k = memByte s.mem k)

/-- R340, reset being a host input (log 14): what reset leaves in every register it specifies, that MEM is not
changed, and that no transaction is issued. Nothing is said of the registers R340 leaves unspecified. -/
def Obligations.ResetLeaves : Prop :=
  ∀ (s : State) (rest : List HostInput), s.port = .reset :: rest → ∃ t : State, step s = .next t ∧
    t.res = ⟨0, 0, 0, 0⟩ ∧ t.bw.cap = 0 ∧ t.bw.pos = 0 ∧ t.bw.ovf = false ∧ t.fr.valid = false ∧
    t.fr.head = 0 ∧ t.fr.tail = 0 ∧ t.fr.read = 0 ∧ t.fr.st = .idle ∧ t.fr.getHead = false ∧
    t.fr.shLead = false ∧ t.fr.lastTag = .none ∧ t.fr.hdrCnt = 0 ∧ t.fr.picCnt = 0 ∧ t.fr.unitStart = 0 ∧
    t.fr.scStart = 0 ∧ t.fr.pending = false ∧ t.fr.pendEnd = 0 ∧ t.fr.pendTag = .none ∧
    t.pl.nIn = 0 ∧ t.pl.nDout = 0 ∧ t.pl.nCout = 0 ∧ t.pl.inPool = [] ∧ t.pl.doutPool = [] ∧
    t.pl.coutPool = [] ∧ t.pl.conv = false ∧ t.pl.hdrDone = false ∧ t.se.life = .closed ∧ t.events = [] ∧
    t.mem = s.mem ∧ t.dev = s.dev

/-! ### BitWriter -/

/-- R124: `BW_INIT` binds and clears the BitCursor, or raises `IllegalOperand`; it writes no memory. -/
def Obligations.BwInitBinds : Prop :=
  ∀ s : State,
    (0x1FFFFFFF < s.args.a1.toNat ∨ 2 ^ 32 < s.args.a0.toNat + s.args.a1.toNat →
      exec .bwInit s = .next (s.withStatus (-9))) ∧
    (s.args.a1.toNat ≤ 0x1FFFFFFF → s.args.a0.toNat + s.args.a1.toNat ≤ 2 ^ 32 →
      exec .bwInit s = .next (State.withStatus { s with bw := ⟨s.args.a0, s.args.a1, 0, false⟩ } 0))

/-- R125, R26: `BW_BIT v` appends the bit `v`, or overflows; bit `k` of the buffer is bit `7 - k mod 8` of its byte
`k / 8`. -/
def Obligations.BwBitAppends : Prop :=
  ∀ (s : State) (v : Bool), s.bw.ok → writeEnds s [v] (exec (.bwBit v) s) ∧
    ∀ (m : Memory) (k : Nat), k < 8 * s.bw.cap.toNat →
      bufBit m s.bw.base k = (memByte m (s.bw.base.toNat + k / 8)).getLsbD (7 - k % 8)

/-- R126, R127: `BW_FIXED n` raises `IllegalOperand` for `n > 32`; otherwise it appends the low `n` bits of `a0`,
most significant first, or overflows. -/
def Obligations.BwFixedAppends : Prop :=
  ∀ (s : State) (n : BitVec 6),
    (32 < n.toNat → exec (.bwFixed n) s = .next (s.withStatus (-9))) ∧
    (s.bw.ok → n.toNat ≤ 32 →
      writeEnds s ((List.range n.toNat).map fun k => s.args.a0.getLsbD (n.toNat - 1 - k)) (exec (.bwFixed n) s))

/-- R128, R120: `BW_UE` appends `k` zeros and the `(k+1)`-bit binary form of `a0 + 1`, in unbounded integers, or
overflows. -/
def Obligations.BwUeAppends : Prop :=
  ∀ s : State, s.bw.ok →
    writeEnds s
      (List.replicate (s.args.a0.toNat + 1).log2 false
        ++ bin (s.args.a0.toNat + 1) ((s.args.a0.toNat + 1).log2 + 1))
      (exec .bwUe s)

/-- R129, R121: `BW_SE` appends the codeword of `-2v` for `v ≤ 0` and of `2v - 1` for `v > 0`, `v` being `a0` read
as a signed number, or overflows. -/
def Obligations.BwSeAppends : Prop :=
  ∀ s : State, s.bw.ok →
    writeEnds s
      (ueCode (if s.args.a0.toInt ≤ 0 then -2 * s.args.a0.toInt else 2 * s.args.a0.toInt - 1).toNat)
      (exec .bwSe s)

/-- R130: `BW_ALIGN` appends the stop bit and zeros up to the next byte boundary, or overflows, which happens
exactly when the cursor stands at the end of the buffer; after success the cursor is byte-aligned. -/
def Obligations.BwAlignAppends : Prop :=
  ∀ s : State, s.bw.ok →
    writeEnds s (stopBits s.bw.pos.toNat) (exec .bwAlign s) ∧
    (s.bw.pos.toNat + (stopBits s.bw.pos.toNat).length) % 8 = 0 ∧
    (8 * s.bw.cap.toNat < s.bw.pos.toNat + (stopBits s.bw.pos.toNat).length ↔
      s.bw.pos.toNat = 8 * s.bw.cap.toNat)

/-- R131: `BW_BYTES` raises `IllegalOperand` for an illegal source; when the bytes fit it appends each as eight
bits and returns their number; otherwise it sets the flag, writes nothing and returns 0. -/
def Obligations.BwBytesAppends : Prop :=
  ∀ s : State, s.bw.ok →
    (¬ s.sourceLegal s.args.a0 s.args.a1.toNat → exec .bwBytes s = .next (s.withStatus (-9))) ∧
    (s.sourceLegal s.args.a0 s.args.a1.toNat →
      s.bw.pos.toNat + 8 * s.args.a1.toNat ≤ 8 * s.bw.cap.toNat → ∃ m',
        exec .bwBytes s = .next (State.withStatus (State.setR1
          { s with mem := m', bw := { s.bw with pos := BitVec.ofNat 32 (s.bw.pos.toNat + 8 * s.args.a1.toNat) } }
          s.args.a1) 0) ∧
        wroteBits s.mem s.bw.base s.bw.pos.toNat
          ((memRead s.mem s.args.a0.toNat s.args.a1.toNat).flatMap byteBits) m' ∧
        ∀ a, (a < s.bw.base.toNat ∨ s.bw.base.toNat + s.bw.cap.toNat ≤ a) → memByte m' a = memByte s.mem a) ∧
    (s.sourceLegal s.args.a0 s.args.a1.toNat →
      8 * s.bw.cap.toNat < s.bw.pos.toNat + 8 * s.args.a1.toNat →
        exec .bwBytes s = .next (State.withStatus (State.setR1 { s with bw := { s.bw with ovf := true } } 0) (-4)))

/-- R132: `BW_STAT` returns the BitCursor and changes nothing but the result registers. -/
def Obligations.BwStatReads : Prop :=
  ∀ s : State, exec .bwStat s = .next { s with res := ⟨0, s.bw.pos, if s.bw.ovf then 1 else 0, s.bw.cap⟩ }

/-- R120, R121, and the laws R133 and R134 derive from them (the spec's own inference): `UeCode(v)` is the
`(2k+1)`-bit binary form of `v + 1` with `k = floor(log2(v + 1))`; its length is `2j + 1` for `v` from `2^j - 1`
to `2^(j+1) - 2`; no codeword begins another. `SeMap` maps `v ≤ 0` to `-2v` and `v > 0` to `2v - 1`, and is a
bijection from the integers onto the naturals. -/
def Obligations.ExpGolombCodes : Prop :=
  (∀ v : Nat, ueCode v = bin (v + 1) (2 * (v + 1).log2 + 1) ∧ (ueCode v).length = 2 * (v + 1).log2 + 1) ∧
  (∀ v j : Nat, 2 ^ j - 1 ≤ v → v ≤ 2 ^ (j + 1) - 2 → (ueCode v).length = 2 * j + 1) ∧
  (∀ v w : Nat, ueCode v <+: ueCode w → v = w) ∧
  (∀ v : Int, v ≤ 0 → (seMap v : Int) = -2 * v) ∧ (∀ v : Int, 0 < v → (seMap v : Int) = 2 * v - 1) ∧
  Function.Bijective seMap

/-- R134, the spec's own inference from R120 and R121 (its clause for every `u32` and `s32`): what `BW_UE` and
`BW_SE` write when the codeword fits, the companion reader reads back, for every `u32` and every `s32`. -/
def Obligations.ExpGolombRoundTrip : Prop :=
  ∀ s : State, s.bw.ok →
    (s.bw.pos.toNat + (ueCode s.args.a0.toNat).length ≤ 8 * s.bw.cap.toNat → ∃ t, exec .bwUe s = .next t ∧
      readUe (bufBit t.mem t.bw.base) 32 s.bw.pos.toNat = s.args.a0.toNat) ∧
    (s.bw.pos.toNat + (ueCode (seMap s.args.a0.toInt)).length ≤ 8 * s.bw.cap.toNat →
      ∃ t, exec .bwSe s = .next t ∧
      readSe (bufBit t.mem t.bw.base) 32 s.bw.pos.toNat = s.args.a0.toInt)

/-- R135, the spec's own inference from R122: after a successful `BW_INIT` and any sequence of write commands,
with any argument registers before each, the first `BW.pos` bits of the buffer are the strings of the successful
writes in order, no byte outside the buffer has changed, and `BW.ovf` is 1 exactly when a write ended in
`BitOverflow`. -/
def Obligations.PrefixLaw : Prop :=
  ∀ (s0 s : State) (cs : List (ArgRegs × Instr)), exec .bwInit s0 = .next s → s.res.r0 = 0 →
    (∀ c ∈ cs, isWrite c.2 = true) →
    let r := WriteRun.addAll ⟨s, [], false⟩ cs
    r.state.bw.base = s.bw.base ∧ r.state.bw.cap = s.bw.cap ∧ r.state.bw.pos.toNat = r.bits.length ∧
    (∀ k, k < r.bits.length → bufBit r.state.mem s.bw.base k = r.bits.getD k false) ∧
    (∀ a, (a < s.bw.base.toNat ∨ s.bw.base.toNat + s.bw.cap.toNat ≤ a) →
      memByte r.state.mem a = memByte s.mem a) ∧
    r.state.bw.ovf = r.lost

/-- R27, R28: every command keeps `BW.pos` within the buffer; only `BW_INIT`, `NS_SPS` and `NS_PPS` can lower it or
clear `BW.ovf`; and only a command that ends in `BitOverflow` sets the flag. -/
def Obligations.CursorMoves : Prop :=
  ∀ (i : Instr) (s t : State), s.bw.ok → exec i s = .next t →
    t.bw.ok ∧
    (i ≠ .bwInit → i ≠ .nsSps → i ≠ .nsPps →
      s.bw.pos.toNat ≤ t.bw.pos.toNat ∧ (s.bw.ovf = true → t.bw.ovf = true)) ∧
    (s.bw.ovf = false → t.bw.ovf = true → t.res.r0 = BitVec.ofInt 32 (-4))

/-! ### NalUnitSynthesizer -/

/-- R151, the spec's own inference from R150: the length law of `Escape`, with its upper bound reached by all-zero
inputs of odd length. -/
def Obligations.EscapeLength : Prop :=
  (∀ x : List Byte, x.length ≤ (escape x).length ∧ (escape x).length ≤ x.length + x.length / 2 + 1) ∧
  (∀ k : Nat, (escape (List.replicate (2 * k + 1) 0#8)).length = (2 * k + 1) + (2 * k + 1) / 2 + 1)

/-- R152, the spec's own inference from R150: `Unescape` undoes `Escape` on every sequence whose last byte is not
`03`, and `Escape` is not injective on the others. -/
def Obligations.EscapeInverse : Prop :=
  (∀ x : List Byte, x.getLast? ≠ some 0x03#8 → unescape (escape x) = x) ∧
  escape [0xAA#8, 0x00#8] = escape [0xAA#8, 0x00#8, 0x03#8]

/-- R150: what `Escape` delivers holds no two zero bytes followed by a byte below 3 and does not end in a zero byte,
so no start code can appear in it. `Escape` inserts a byte nowhere else than R150 says: a sequence in which no two
zeros are followed by a byte below 4 is delivered unchanged, but for a `03` after a last byte that is zero; and at the
first such place one `03` is inserted, the rest being escaped from there with no zero counted. -/
def Obligations.EscapeHidesStartCodes : Prop :=
  (∀ x : List Byte, (escape x).getLast? ≠ some 0#8 ∧
    ∀ (k : Nat) (b : Byte), (escape x)[k]? = some 0#8 → (escape x)[k + 1]? = some 0#8 →
      (escape x)[k + 2]? = some b → 3 ≤ b.toNat) ∧
  (∀ x : List Byte, nothingToEscape x →
    escape x = x ++ (if x.getLast? = some 0#8 then [0x03#8] else [])) ∧
  (∀ (u v : List Byte) (b : Byte), nothingToEscape (u ++ [0#8, 0#8]) → b.toNat < 4 →
    escape (u ++ [0#8, 0#8] ++ b :: v) = u ++ [0#8, 0#8, 0x03#8] ++ escape (b :: v))

/-- R153, R154: `NS_ESCAPE` delivers `Escape` of the source bytes, the lowest address first, or leaves the
destination range open, or raises `IllegalOperand`. -/
def Obligations.NsEscapeDelivers : Prop :=
  ∀ s : State, copyEnds s (escape (memRead s.mem s.args.a0.toNat s.args.a1.toNat)) (exec .nsEscape s) ∧
    ∀ (m : Memory) (a n : Nat), memRead m a n = (List.range n).map fun k => memByte m (a + k)

/-- R155, R156: `NS_NAL` delivers the 4-byte start code, the header byte `0x60 + type` and `Escape` of the payload,
or leaves the destination range open, or raises `IllegalOperand`. -/
def Obligations.NsNalDelivers : Prop :=
  ∀ (s : State) (t : BitVec 5),
    copyEnds s ([0x00#8, 0x00#8, 0x00#8, 0x01#8, BitVec.ofNat 8 (0x60 + t.toNat)]
      ++ escape (memRead s.mem s.args.a0.toNat s.args.a1.toNat)) (exec (.nsNal t) s)

/-- R160 to R163, the ranges read being those of log 11 (DEDUCED): `NS_SPS` raises `IllegalOperand` for illegal
operands; otherwise it writes the SPS bit sequence
from the buffer's first bit and returns its length in bytes, or stops before the first field that does not
fit. The words of its parameter block are little-endian (R66). -/
def Obligations.NsSpsWrites : Prop :=
  (∀ (m : Memory) (a : Nat), (memWord m a).toNat = (memByte m a).toNat + 256 * (memByte m (a + 1)).toNat
    + 65536 * (memByte m (a + 2)).toNat + 16777216 * (memByte m (a + 3)).toNat) ∧
  ∀ s : State, (¬ s.spsLegal → exec .nsSps s = .next (s.withStatus (-9))) ∧
    (s.bw.ok → s.spsLegal → rbspEnds s s.spsRbsp
      (spsWriters s.params.levelIdc s.mem s.args.a0.toNat s.args.a1.toNat s.args.a2.toNat s.args.a3)
      (exec .nsSps s))

/-- R160, R174, R175: `NS_PPS` raises `IllegalOperand` for an illegal parameter block; otherwise it writes the PPS
bit sequence from the buffer's first bit and returns its length in bytes, or stops before the first field that
does not fit. -/
def Obligations.NsPpsWrites : Prop :=
  ∀ s : State, (¬ s.sourceLegal s.args.a3 52 → exec .nsPps s = .next (s.withStatus (-9))) ∧
    (s.bw.ok → s.sourceLegal s.args.a3 52 → rbspEnds s s.ppsRbsp (ppsWriters s.mem s.args.a3) (exec .nsPps s))

/-! ### StreamFramer -/

/-- R191: `FR_INIT` raises `IllegalState` while a session is open, `IllegalOperand` for mode 3, and otherwise
creates the ParserContext, leaving the ring storage as it was; `FR.mode` changes only here and in `SE_OPEN`. -/
def Obligations.FrInitCreates : Prop :=
  (∀ (i : Instr) (s t : State), exec i s = .next t → (∀ m g, i ≠ .frInit m g) → i ≠ .seOpen →
    t.fr.mode = s.fr.mode) ∧
  ∀ (s : State) (m : BitVec 2) (g : Bool),
    (s.se.life ≠ .closed → exec (.frInit m g) s = .next (s.withStatus (-10))) ∧
    (s.se.life = .closed → m = 3#2 → exec (.frInit m g) s = .next (s.withStatus (-9))) ∧
    (s.se.life = .closed → ∀ md : Mode, BitVec.ofNat 2 md.code = m →
      exec (.frInit m g) s = .next (State.withStatus
        { s with fr :=
          { valid := true, head := 0, tail := 0, read := 0, mode := md, st := .idle, getHead := g,
            shLead := false, lastTag := .none, hdrCnt := 0, picCnt := 0, unitStart := 0, scStart := 0,
            pending := false, pendEnd := 0, pendTag := .none, ring := s.fr.ring } } 0))

/-- R192, R193: `FR_PUSH` stores the bytes at the counts from `head` upward and keeps every byte between `tail` and
`head`; without room, or not allowed, it changes nothing but `r0`. -/
def Obligations.FrPushStores : Prop :=
  ∀ s : State,
    (s.fr.valid = false ∨ s.se.life ≠ .closed → exec .frPush s = .next (s.withStatus (-10))) ∧
    (s.fr.valid = true → s.se.life = .closed →
      (2 ^ 32 < s.args.a0.toNat + s.args.a1.toNat → exec .frPush s = .next (s.withStatus (-9))) ∧
      (s.args.a0.toNat + s.args.a1.toNat ≤ 2 ^ 32 →
        (s.params.ringCap < s.fr.head - s.fr.tail + s.args.a1.toNat →
          exec .frPush s = .next (s.withStatus (-2))) ∧
        (s.fr.head - s.fr.tail + s.args.a1.toNat ≤ s.params.ringCap → ∃ ring',
          exec .frPush s = .next (State.withStatus
            { s with fr := { s.fr with ring := ring', head := s.fr.head + s.args.a1.toNat } } 0) ∧
          (∀ k, k < s.args.a1.toNat →
            ringByte s.params.ringCap ring' (s.fr.head + k) = memByte s.mem (s.args.a0.toNat + k)) ∧
          ∀ c, s.fr.tail ≤ c → c < s.fr.head →
            ringByte s.params.ringCap ring' c = ringByte s.params.ringCap s.fr.ring c)))

/-- R194, R195: `FR_EXTRACT` scans, unless a unit is pending already; with no boundary it returns 0; with a unit
that does not fit it returns -1 and the length needed, the unit staying; with one that fits it delivers the
unit's bytes, returns its length and tag, and releases it. The scan gives the scanner the ring's bytes one after
another from `read` on; it stops at the first boundary or at `head`, and never before. -/
def Obligations.FrExtractReturns : Prop :=
  ∀ s : State,
    (let f := frScan s.params s.fr
      let bytes := fun n => (List.range n).map fun k => ringByte s.params.ringCap s.fr.ring (s.fr.read + k)
      let n := f.read - s.fr.read
      f = feed s.params (bytes n) s.fr ∧ (∀ k, k < n → (feed s.params (bytes k) s.fr).pending = false) ∧
      f.read ≤ max s.fr.read s.fr.head ∧ (f.pending = true ∨ s.fr.head ≤ f.read)) ∧
    (s.fr.valid = false ∨ s.se.life ≠ .closed → exec .frExtract s = .next (s.withStatus (-10))) ∧
    (s.fr.valid = true → s.se.life = .closed →
      (2 ^ 32 < s.args.a0.toNat + s.args.a1.toNat → exec .frExtract s = .next (s.withStatus (-9))) ∧
      (s.args.a0.toNat + s.args.a1.toNat ≤ 2 ^ 32 →
        let f := frScan s.params s.fr
        let n := f.pendEnd - f.unitStart
        (f.pending = true ∨ f.head ≤ f.read) ∧ (s.fr.pending = true → f = s.fr) ∧
        (f.pending = false → exec .frExtract s = .next { s with fr := f, res := ⟨0, 0, 0, s.res.r3⟩ }) ∧
        (f.pending = true → s.args.a1.toNat < n →
          exec .frExtract s = .next
            { s with fr := f, res := ⟨BitVec.ofInt 32 (-1), BitVec.ofNat 32 n, 0, s.res.r3⟩ }) ∧
        (f.pending = true → n ≤ s.args.a1.toNat → ∃ m',
          exec .frExtract s = .next
            { s with
              mem := m'
              fr := { f with tail := f.pendEnd, unitStart := f.pendEnd, pending := false, getHead := false }
              res := ⟨1, BitVec.ofNat 32 n, BitVec.ofNat 32 f.pendTag.code, s.res.r3⟩ } ∧
          (∀ k, k < n → memByte m' (s.args.a0.toNat + k) =
            ringByte s.params.ringCap s.fr.ring (f.unitStart + k)) ∧
          ∀ a, (a < s.args.a0.toNat ∨ s.args.a0.toNat + n ≤ a) → memByte m' a = memByte s.mem a)))

/-- R197: `FR_STAT` raises `IllegalState` while the framer is not valid; otherwise it returns the available bytes,
the state word field by field, and the pending length, and changes nothing but the result registers. -/
def Obligations.FrStatReads : Prop :=
  ∀ s : State,
    (s.fr.valid = false → exec .frStat s = .next (s.withStatus (-10))) ∧
    (s.fr.valid = true → ∃ w : Word,
      exec .frStat s = .next { s with res := ⟨0, BitVec.ofNat 32 (s.fr.head - s.fr.tail), w,
        if s.fr.pending then BitVec.ofNat 32 (s.fr.pendEnd - s.fr.unitStart) else 0⟩ } ∧
      w.extractLsb' 0 3 = BitVec.ofNat 3 s.fr.st.code ∧ w.extractLsb' 3 2 = BitVec.ofNat 2 s.fr.mode.code ∧
      w.getLsbD 5 = s.fr.getHead ∧ w.getLsbD 6 = s.fr.shLead ∧
      w.extractLsb' 7 2 = BitVec.ofNat 2 s.fr.lastTag.code ∧ w.getLsbD 9 = s.fr.pending ∧
      w.extractLsb' 10 2 = BitVec.ofNat 2 s.fr.pendTag.code ∧ w.getLsbD 12 = decide (s.fr.hdrCnt ≠ 0) ∧
      w.getLsbD 13 = decide (s.fr.picCnt ≠ 0) ∧ w.extractLsb' 14 18 = 0#18)

/-- R199 to R207, R210, R211, in the table that R215 derives (the spec's own inference): a scanner step consumes
exactly one byte, moves to the state of the table, keeps the start of the start code under recognition, sets
`FR.sh_lead` at a short header and clears it at an MPEG-4 normal header, raises exactly the event the rules name,
under `OnEvent`, and changes nothing else. -/
def Obligations.ScannerTable : Prop :=
  ∀ (p : Config.Params) (b : Byte) (f : Framer),
    (f.mode ≠ .h264 → f.st ≠ .saw0x3 ∧ f.st ≠ .inSliceLookahead) →
    let g := scanStep p b f
    g.st = nextScan f.mode f.st b ∧ g.read = f.read + 1 ∧
    g.head = f.head ∧ g.tail = f.tail ∧ g.mode = f.mode ∧ g.ring = f.ring ∧ g.valid = f.valid ∧
    g.getHead = f.getHead ∧ g.scStart = stepScStart b f ∧ g.shLead = stepShLead p.mpeg4HeaderCodes b f ∧
    (stepEvent p.mpeg4HeaderCodes b f = none →
      g = { f with st := nextScan f.mode f.st b, read := f.read + 1, scStart := stepScStart b f,
                   shLead := stepShLead p.mpeg4HeaderCodes b f }) ∧
    (∀ off tag, stepEvent p.mpeg4HeaderCodes b f = some (off, tag) →
      g = { onEvent off tag f with
              st := nextScan f.mode f.st b, read := f.read + 1, scStart := stepScStart b f,
              shLead := stepShLead p.mpeg4HeaderCodes b f })

/-- R209, R212: `OnEvent`, the boundary rule, case by case. Counters are compared with zero only; they saturate. -/
def Obligations.BoundaryRule : Prop :=
  ∀ (off : Nat) (f : Framer),
    (∀ tag, f.getHead = true → tag = Tag.picture → f.hdrCnt = 0 →
      onEvent off tag f = { f with lastTag := tag }) ∧
    (f.getHead = true → f.hdrCnt ≠ 0 →
      onEvent off .picture f =
        { f with lastTag := .picture, pending := true, pendEnd := off, pendTag := .header, hdrCnt := 0,
                 picCnt := 1 }) ∧
    (f.getHead = true ∨ f.picCnt = 0 →
      onEvent off .header f =
        { f with lastTag := .header, unitStart := if f.hdrCnt = 0 then off else f.unitStart,
                 hdrCnt := if f.hdrCnt = 0xFFFFFFFF#32 then 0xFFFFFFFF#32 else f.hdrCnt + 1 }) ∧
    (f.getHead = false → f.picCnt = 0 →
      onEvent off .picture f =
        { f with lastTag := .picture, unitStart := if f.hdrCnt = 0 then off else f.unitStart, picCnt := 1 }) ∧
    (f.getHead = false → f.picCnt ≠ 0 →
      onEvent off .header f =
        { f with lastTag := .header, pending := true, pendEnd := off, pendTag := .picture, hdrCnt := 1,
                 picCnt := 0 } ∧
      onEvent off .picture f =
        { f with lastTag := .picture, pending := true, pendEnd := off, pendTag := .picture, hdrCnt := 0,
                 picCnt := 1 })

/-- R198: from `Idle`, any run of two or more zero bytes and a byte 1 is recognised as a start code; it starts two
bytes before the 1, or three bytes before it in H264 mode when three or more zeros precede it. -/
def Obligations.StartCodeRecognised : Prop :=
  ∀ (p : Config.Params) (f : Framer) (n : Nat), f.st = .idle → 2 ≤ n →
    let g := feed p (List.replicate n 0x00#8 ++ [0x01#8]) f
    g.st = .sawStartCode ∧ g.read = f.read + n + 1 ∧
    g.scStart = f.read + n - (if f.mode = .h264 ∧ 3 ≤ n then 3 else 2)

/-- R194, R198, R190: from any sound framer, scanning between two pushes or only after both leaves the framer exactly
the same, so no boundary depends on how the stream was cut into pushes. -/
def Obligations.ChunkIndependence : Prop :=
  ∀ (p : Config.Params) (f : Framer) (xs ys : List Byte), f.ok p.ringCap →
    f.hasRoom p.ringCap (xs.length + ys.length) = true →
    frScan p (frPush p.ringCap ys (frScan p (frPush p.ringCap xs f))) = frScan p (frPush p.ringCap (xs ++ ys) f)

/-- R62, R192, R194: when the ring holds the bytes of a stream, a push of the stream's next bytes, a scan and a
take keep that so, and the pending unit is exactly the stream's bytes from `unit_start` to `pend_end`. -/
def Obligations.UnitsAreStreamBytes : Prop :=
  ∀ (p : Config.Params) (f : Framer) (S : Nat → Byte), f.ok p.ringCap → f.carries p.ringCap S →
    (∀ bs : List Byte, f.hasRoom p.ringCap bs.length = true →
      (∀ k, k < bs.length → bs.getD k 0 = S (f.head + k)) →
      (frPush p.ringCap bs f).carries p.ringCap S) ∧
    (frScan p f).carries p.ringCap S ∧
    (f.pending = true → f.take.carries p.ringCap S ∧
      f.unitBytes p = (List.range (f.pendEnd - f.unitStart)).map fun k => S (f.unitStart + k))

/-- R209: units are contiguous. After a boundary was found and its unit taken, whatever is pushed, the next unit
that becomes pending starts where that one ended. -/
def Obligations.UnitsContiguous : Prop :=
  ∀ (p : Config.Params) (f : Framer) (bs : List Byte), f.pending = false → (frScan p f).pending = true →
    let g := frScan p (frPush p.ringCap bs (frScan p f).take)
    g.pending = true → g.unitStart = (frScan p f).pendEnd

/-- R194, R212: `FR.get_head` is set only by `FR_INIT` and `SE_OPEN`; while it is 1 a scan can end with a unit
tagged `HEADER` only, and taking that unit clears it. -/
def Obligations.HeadVariant : Prop :=
  (∀ (i : Instr) (s t : State), exec i s = .next t → (∀ m g, i ≠ .frInit m g) → i ≠ .seOpen →
    t.fr.getHead = true → s.fr.getHead = true) ∧
  (∀ (p : Config.Params) (f : Framer), f.getHead = true → f.pending = false → (frScan p f).pending = true →
    (frScan p f).pendTag = .header ∧ (frScan p f).getHead = true ∧ (frScan p f).take.getHead = false)

/-- R30: in a sound state no command but `FR_INIT` and `SE_OPEN` decreases `FR.head`, `FR.tail` or `FR.read`, and
after every command `tail ≤ read ≤ head` and the occupancy is within `RING_CAP`. -/
def Obligations.CountersMonotone : Prop :=
  ∀ (i : Instr) (s t : State), s.Inv → exec i s = .next t →
    (t.fr.tail ≤ t.fr.read ∧ t.fr.read ≤ t.fr.head ∧ t.fr.head - t.fr.tail ≤ s.params.ringCap) ∧
    ((∀ m g, i ≠ .frInit m g) → i ≠ .seOpen →
      s.fr.head ≤ t.fr.head ∧ s.fr.tail ≤ t.fr.tail ∧ s.fr.read ≤ t.fr.read)

/-! ### Session and pipeline -/

/-- R270, R107: `SE_OPEN` raises `IllegalState` unless the session is closed, `IllegalOperand` for a bad profile
word, and otherwise opens the session with a new ParserContext and no slots. -/
def Obligations.SeOpenOpens : Prop :=
  ∀ s : State,
    (s.se.life ≠ .closed → exec .seOpen s = .next (s.withStatus (-10))) ∧
    (s.se.life = .closed → s.args.a0.extractLsb' 0 2 = 3#2 ∨ s.args.a0 &&& 0xFFFF00FC#32 ≠ 0#32 →
      exec .seOpen s = .next (s.withStatus (-9))) ∧
    (s.se.life = .closed → s.args.a0 &&& 0xFFFF00FC#32 = 0#32 →
      ∀ md : Mode, BitVec.ofNat 2 md.code = s.args.a0.extractLsb' 0 2 →
      exec .seOpen s = .next (State.withStatus
        { s with
          se := ⟨.opened, s.args.a0.extractLsb' 8 8, s.args.a1, s.args.a2⟩
          fr :=
            { valid := true, head := 0, tail := 0, read := 0, mode := md, st := .idle, getHead := true,
              shLead := false, lastTag := .none, hdrCnt := 0, picCnt := 0, unitStart := 0, scStart := 0,
              pending := false, pendEnd := 0, pendTag := .none, ring := s.fr.ring }
          pl := { s.pl with nIn := 0, nDout := 0, nCout := 0, conv := false, hdrDone := false, inPool := [],
                            doutPool := [], coutPool := [] } } 0))

/-- R288: `SE_CLOSE` raises `IllegalState` when the session is closed; otherwise it tears Dev down if setup was
done, and destroys the slots, the ParserContext and the session. -/
def Obligations.SeCloseCloses : Prop :=
  ∀ s : State,
    (s.se.life = .closed → exec .seClose s = .next (s.withStatus (-10))) ∧
    (s.se.life ≠ .closed →
      exec .seClose s = .next (State.withStatus
        { s with
          se := { s.se with life := .closed }
          fr := { s.fr with valid := false }
          pl := { s.pl with nIn := 0, nDout := 0, nCout := 0, conv := false, hdrDone := false, inPool := [],
                            doutPool := [], coutPool := [] }
          dev := if s.pl.hdrDone then { s.dev with log := s.dev.log ++ [⟨.teardown, none⟩] } else s.dev } 0))

/-- R272, R280, R302, R309: `SE_DECODE` and `SE_GETPIC` raise `IllegalState` when the session is closed and
`ProtocolError` when it has failed, before they look at operands; `SE_DECODE` raises `IllegalOperand` for an illegal
list; all these change nothing but `r0`. Before setup `SE_GETPIC` clears `r1` to `r3` and completes `NotReady`
without a transaction. -/
def Obligations.SessionRefuses : Prop :=
  ∀ s : State,
    (s.se.life = .closed → exec .seDecode s = .next (s.withStatus (-10)) ∧
      exec .seGetpic s = .next (s.withStatus (-10))) ∧
    (s.se.life = .failed → exec .seDecode s = .next (s.withStatus (-6)) ∧
      exec .seGetpic s = .next (s.withStatus (-6))) ∧
    (s.se.life = .opened → ¬ s.listLegal → exec .seDecode s = .next (s.withStatus (-9))) ∧
    (s.se.life = .opened → s.pl.hdrDone = false →
      exec .seGetpic s = .next { s with res := ⟨BitVec.ofInt 32 (-5), 0, 0, 0⟩ })

/-- R272, R106, R66: `SE_DECODE` before setup. The bytes it pushes are those of the buffers of the `BUF_LIST`, word
`2j` the address and word `2j + 1` the length of buffer `j`; the list is legal when it and every buffer stay inside
the address space. When the scan finds no head cluster, nothing more happens: with room all the buffers are pushed,
without room nothing of any, and `BufferFull` is reported; no transaction is issued. With a head cluster setup is run,
though D1 noted `BufferFull`; when it succeeds D3 and D4 follow in the same call (when it fails: SetupFails). The
port's record and the counter of free values are the model's (logs 7, 9, 10). -/
def Obligations.SeDecodeAccumulates : Prop :=
  (∀ s : State,
    let word := fun j => (memWord s.mem (s.args.a0.toNat + 4 * j)).toNat
    s.codedBytes = ((List.range s.args.a1.toNat).flatMap fun j =>
      (List.range (word (2 * j + 1))).map fun k => memByte s.mem (word (2 * j) + k)) ∧
    (s.listLegal ↔ s.args.a0.toNat + 8 * s.args.a1.toNat ≤ 2 ^ 32 ∧
      ∀ j, j < s.args.a1.toNat → word (2 * j) + word (2 * j + 1) ≤ 2 ^ 32)) ∧
  ∀ s : State, s.se.life = .opened → s.listLegal → s.pl.hdrDone = false →
    (s.fr.hasRoom s.params.ringCap s.codedBytes.length = true → s.pushedScanned.pending = false →
      exec .seDecode s = .next { s with fr := s.pushedScanned, res := { s.res with r0 := 0, r1 := 1 } }) ∧
    (s.fr.hasRoom s.params.ringCap s.codedBytes.length = false → (frScan s.params s.fr).pending = false →
      exec .seDecode s = .next
        { s with fr := frScan s.params s.fr, res := { s.res with r0 := BitVec.ofInt 32 (-2), r1 := 0 } }) ∧
    (s.acceptedScanned.pending = true →
      let w := { s with fr := s.acceptedScanned }
      (setup w).1 = true → ∃ u t sub got e e', submits (setup w).2 u sub e ∧ reclaims u t got e' ∧
        exec .seDecode s = .next (t.decodeEnds s.noRoom true sub got (e || e')))

/-- R256, R259: what setup leaves when it succeeds: the pools at their sizes, input slot 0 queued with the head
cluster in plane 0, the other input slots free, every output slot queued, and the head cluster gone from the ring.
The capture query was answered at most `HDR_RETRY_MAX` times with `NOT_READY` and then once with the format, the
`min_capture` that sizes pool DOUT and whether the layout is consumable (read from the record of log 10). -/
def Obligations.SetupEstablishes : Prop :=
  ∀ s : State, s.pl.conv = false → s.pl.coutPool = [] → s.pl.nCout = 0 → (setup s).1 = true →
    let t := (setup s).2
    t.pl.hdrDone = true ∧ t.fr = s.fr.take ∧ t.mem = s.mem ∧ t.bw = s.bw ∧ t.se = s.se ∧ t.res = s.res ∧
    t.events = s.events ∧
    t.pl.nIn = s.params.nIn ∧ t.pl.inPool.length = t.pl.nIn ∧
    (∃ l k m c, t.dev.log = s.dev.log ++ l ∧ k ≤ s.params.hdrRetryMax ∧
      (l.filter fun x => decide (x.call = .queryCapture)) =
        List.replicate k ⟨.queryCapture, some .notReady⟩ ++ [⟨.queryCapture, some (.capture t.pl.fmt m c)⟩] ∧
      t.pl.nDout = m + s.params.pipelineDepth ∧ t.pl.conv = !c) ∧ t.pl.doutPool.length = t.pl.nDout ∧
    t.pl.nCout = (if t.pl.conv then s.params.nCout else 0) ∧ t.pl.coutPool.length = t.pl.nCout ∧
    (∃ sl rest, t.pl.inPool = sl :: rest ∧ sl.own = .queued ∧ sl.used = BitVec.ofNat 32 s.fr.unitLen ∧
      s.fr.unitLen ≤ sl.room ∧
      (∀ k, k < s.fr.unitLen → slotByte sl 0 k = ringByte s.params.ringCap s.fr.ring (s.fr.unitStart + k)) ∧
      ∀ x ∈ rest, x.own = .free ∧ x.used = 0) ∧
    (∀ sl ∈ t.pl.doutPool, sl.own = .queued ∧ sl.holder = .dec) ∧ (∀ sl ∈ t.pl.coutPool, sl.own = .queued)

/-- R256, R241, R259, R272, R35, R244, the answers coming from the script of log 9 and the record being that of log 10
(the model's choices): with a head cluster pending after the push and the scan, whether or not the ring had room for
the buffers, Dev answering `NOT_READY` to the capture query `k` times, at most `HDR_RETRY_MAX`, and `OK` to every
transaction of setup otherwise, `SE_DECODE` completes setup. It issues exactly the transactions of R256, in their
order and with their arguments, and then the poll; it reports bit 1 of the step mask, and bit 0 with `OK` or, without
room, `BufferFull`. Every slot has the planes that Dev answered when it was mapped; input slot 0 is queued with the
head cluster, the others are free, and every output slot is queued. Nothing else changes but the counter of free
values (log 7). -/
def Obligations.SetupCompletes : Prop :=
  ∀ (s : State) (ps : PoolId → Nat → List PlaneInfo) (p0 : PlaneInfo) (k : Nat) (fmt : Fmt) (m : Nat) (c : Bool)
    (rest : List DevAnswer), k ≤ s.params.hdrRetryMax →
    s.se.life = .opened → s.listLegal → s.pl.hdrDone = false → s.pl.conv = false →
    s.acceptedScanned.pending = true → (frScan s.params s.acceptedScanned.take).pending = false →
    (∀ P i, ps P i ≠ []) → (ps .inp 0).head? = some p0 → s.acceptedScanned.unitLen ≤ p0.size.toNat →
    let f := s.acceptedScanned
    let txns := State.setupTxns { s with fr := f } ps k fmt m c
    let n := m + s.params.pipelineDepth
    s.dev.script = answersOf txns ++ .timeout :: rest →
    ∃ (ins douts couts : List Slot) (d : Nat),
      exec .seDecode s = .next
        { s with
          fr := frScan s.params f.take
          res := { s.res with
            r0 := if s.noRoom then BitVec.ofInt 32 (-2) else 0
            r1 := if s.noRoom then 0b00010#32 else 0b00011#32 }
          pl := ⟨fmt, s.params.nIn, n, if c then s.pl.nCout else s.params.nCout, !c, true, ins, douts,
                 if c then s.pl.coutPool else couts⟩
          dev := s.dev.after (txns ++ [(.poll 0, .timeout)]) rest
          draws := d } ∧
      ins.length = s.params.nIn ∧ douts.length = n ∧ couts.length = s.params.nCout ∧
      (∀ (i : Nat) (sl : Slot), ins[i]? = some sl → sl.mappedAs (ps .inp i) ∧ sl.own = (if i = 0 then .queued else .free) ∧
        sl.used = (if i = 0 then BitVec.ofNat 32 f.unitLen else 0) ∧
        (i = 0 → ∀ b, b < f.unitLen → slotByte sl 0 b = ringByte s.params.ringCap f.ring (f.unitStart + b))) ∧
      (∀ (i : Nat) (sl : Slot), douts[i]? = some sl → sl.mappedAs (ps .dout i) ∧ sl.own = .queued ∧ sl.holder = .dec) ∧
      (c = false → ∀ (i : Nat) (sl : Slot), couts[i]? = some sl → sl.mappedAs (ps .cout i) ∧ sl.own = .queued)

/-- R256, R258, R259: when setup fails, room for the buffers or not, `SE_DECODE` raises `ProtocolError`, tears Dev
down, leaves no slot, moves the session to `Failed` and writes no other result register. Setup fails with any `FAIL`
among its answers, at the first transaction or later, and with more than `HDR_RETRY_MAX` times `NOT_READY` (log 19):
the one after the last that is tolerated ends it. It fails at S3 when the head cluster is larger than plane 0 of
input slot 0. The transactions before the failure are those of R256 in their order, none is issued after it, and no
later answer is used. Dev's answers and their record are those of logs 9 and 10. -/
def Obligations.SetupFails : Prop :=
  ∀ s : State, s.se.life = .opened → s.listLegal → s.pl.hdrDone = false → s.acceptedScanned.pending = true →
    let w := { s with fr := s.acceptedScanned }
    ((setup w).1 = false →
      let u := (setup w).2
      ∃ f, (f = s.acceptedScanned ∨ f = s.acceptedScanned.take) ∧
        exec .seDecode s = .next (State.withStatus
          { s with
            fr := f
            pl := { u.pl with nIn := 0, nDout := 0, nCout := 0, conv := false, hdrDone := false, inPool := [],
                              doutPool := [], coutPool := [] }
            se := { s.se with life := .failed }
            dev := { u.dev with log := u.dev.log ++ [⟨.teardown, none⟩] }
            draws := u.draws } (-6))) ∧
    (s.dev.next = .fail → (setup w).1 = false) ∧
    (∀ l, (setup w).2.dev.log = s.dev.log ++ l →
      ((∃ x ∈ l, x.answer = some .fail) ∨
        s.params.hdrRetryMax < (l.filter fun x => decide (x.answer = some .notReady)).length) →
      (setup w).1 = false) ∧
    (∀ (ps : PoolId → Nat → List PlaneInfo) (p0 : PlaneInfo) (k : Nat) (fmt : Fmt) (m : Nat) (c : Bool)
      (rest : List DevAnswer), s.pl.conv = false → (∀ P i, ps P i ≠ []) → (ps .inp 0).head? = some p0 →
      let fails := fun l => (setup w).1 = false ∧ (setup w).2.dev = s.dev.after l rest
      let head := (w.headerTxns ps 0).take (2 + s.params.nIn)
      let tired := w.headerTxns ps (s.params.hdrRetryMax + 1)
      let txns := w.setupTxns ps k fmt m c
      (p0.size.toNat < w.fr.unitLen → s.dev.script = answersOf head ++ rest → fails head) ∧
      (w.fr.unitLen ≤ p0.size.toNat → s.dev.script = answersOf tired ++ rest → fails tired) ∧
      (w.fr.unitLen ≤ p0.size.toNat → k ≤ s.params.hdrRetryMax → ∀ n call a, txns[n]? = some (call, a) →
        s.dev.script = answersOf (txns.take n) ++ .fail :: rest → fails (txns.take n ++ [(call, .fail)])))

/-- R272 D3 and D4, R273, R274: in the steady state, with no unit to submit, `SE_DECODE` polls only when an input
slot is queued, with timeout 0 when another is free and 1000 otherwise; on `READY` it dequeues and recycles the
slot Dev names; nothing happens when the dequeue answers `NOT_READY`, and any other answer that names no slot queued
there is a `DecodeError`. The record of the port and the counter of free values are the model's (logs 7, 9, 10). -/
def Obligations.SeDecodeReclaims : Prop :=
  ∀ (s : State) (rest : List DevAnswer), s.se.life = .opened → s.listLegal → s.pl.hdrDone = true →
    s.fr.hasRoom s.params.ringCap s.codedBytes.length = true → s.pushedScanned.pending = false →
    let poll := (DevCall.poll (pollMs s.pl.inPool))
    ((∀ sl ∈ s.pl.inPool, sl.own ≠ .queued) →
      exec .seDecode s = .next { s with fr := s.pushedScanned, res := { s.res with r0 := 0, r1 := 1 } }) ∧
    ((∃ sl ∈ s.pl.inPool, sl.own = .queued) → s.dev.script = .timeout :: rest →
      exec .seDecode s = .next
        { s with fr := s.pushedScanned, res := { s.res with r0 := 0, r1 := 1 },
                 dev := s.dev.after [(poll, .timeout)] rest }) ∧
    ((∃ sl ∈ s.pl.inPool, sl.own = .queued) → s.dev.script = .fail :: rest →
      exec .seDecode s = .next
        { s with fr := s.pushedScanned, res := { s.res with r0 := BitVec.ofInt 32 (-7), r1 := 0b10001#32 },
                 dev := s.dev.after [(poll, .fail)] rest }) ∧
    (∀ (j : Nat) (sl : Slot), s.pl.inPool[j]? = some sl → sl.own = .queued →
      s.dev.script = .ready :: .slot j :: rest →
      ∃ sl', sl'.own = .free ∧ sl'.used = sl.used ∧ sl'.shape = sl.shape ∧
        exec .seDecode s = .next
          { s with fr := s.pushedScanned, res := { s.res with r0 := 0, r1 := 0b01001#32 },
                   pl := { s.pl with inPool := s.pl.inPool.set j sl' }, draws := s.draws + 1,
                   dev := s.dev.after [(poll, .ready), (.dequeue .inp, .slot j)] rest }) ∧
    ((∃ sl ∈ s.pl.inPool, sl.own = .queued) → s.dev.script = .ready :: .notReady :: rest →
      exec .seDecode s = .next
        { s with fr := s.pushedScanned, res := { s.res with r0 := 0, r1 := 1 },
                 dev := s.dev.after [(poll, .ready), (.dequeue .inp, .notReady)] rest }) ∧
    (∀ a : DevAnswer, (∃ sl ∈ s.pl.inPool, sl.own = .queued) → a ≠ .notReady →
      (∀ j sl, a = .slot j → s.pl.inPool[j]? = some sl → sl.own ≠ .queued) →
      s.dev.script = .ready :: a :: rest →
      exec .seDecode s = .next
        { s with fr := s.pushedScanned, res := { s.res with r0 := BitVec.ofInt 32 (-7), r1 := 0b10001#32 },
                 dev := s.dev.after [(poll, .ready), (.dequeue .inp, a)] rest })

/-- R257, R272 D1, D3, D4, R273, R274, R250: `SE_DECODE` in the steady state: D1, with room or not, then D3, then D4,
and the step mask and status they give. Then, with a unit pending and a free input slot whose plane 0 holds it, the
cases written out: `SE_DECODE` copies the unit into the free slot with the least index and enqueues it. When Dev
answers `OK` the slot is queued; when it answers `FAIL` the slot stays free, the unit is gone, and `DecodeError` is
reported. The port's record and the counter of free values are the model's (logs 7, 9, 10). -/
def Obligations.SeDecodeSubmits : Prop :=
  (∀ s : State, s.se.life = .opened → s.listLegal → s.pl.hdrDone = true →
    ∃ u t sub got e e', submits { s with fr := s.accepted } u sub e ∧ reclaims u t got e' ∧
      exec .seDecode s = .next (t.decodeEnds s.noRoom false sub got (e || e'))) ∧
  ∀ (s : State) (rest : List DevAnswer) (i : Nat) (sl : Slot), s.se.life = .opened → s.listLegal →
    s.pl.hdrDone = true → s.fr.hasRoom s.params.ringCap s.codedBytes.length = true →
    s.pushedScanned.pending = true → s.pl.inPool[i]? = some sl → sl.own = .free →
    (∀ (k : Nat) (x : Slot), k < i → s.pl.inPool[k]? = some x → x.own ≠ .free) →
    sl.planes ≠ [] → s.pushedScanned.unitLen ≤ sl.room →
    let f := s.pushedScanned
    (s.dev.script = .ok :: .timeout :: rest →
      ∃ sl', sl'.own = .queued ∧ sl'.used = BitVec.ofNat 32 f.unitLen ∧ sl'.shape = sl.shape ∧
        (∀ k, k < f.unitLen → slotByte sl' 0 k = ringByte s.params.ringCap f.ring (f.unitStart + k)) ∧
        (∀ q k, q ≠ 0 ∨ f.unitLen ≤ k → slotByte sl' q k = slotByte sl q k) ∧
        exec .seDecode s = .next
          { s with fr := f.take, res := { s.res with r0 := 0, r1 := 0b00101#32 },
                   pl := { s.pl with inPool := s.pl.inPool.set i sl' },
                   dev := s.dev.after [(.enqueue .inp i f.unitLen, .ok),
                     (.poll (pollMs (s.pl.inPool.set i sl')), .timeout)] rest }) ∧
    (s.dev.script = .fail :: rest → (∀ x ∈ s.pl.inPool, x.own ≠ .queued) →
      ∃ sl', sl'.own = .free ∧ sl'.shape = sl.shape ∧
        exec .seDecode s = .next
          { s with fr := f.take, res := { s.res with r0 := BitVec.ofInt 32 (-7), r1 := 0b10001#32 },
                   pl := { s.pl with inPool := s.pl.inPool.set i sl' },
                   dev := s.dev.after [(.enqueue .inp i f.unitLen, .fail)] rest })

/-- R272, R273: without room nothing of any buffer is pushed and `BufferFull` is reported, but the later steps still
run, a unit being submitted if one is pending; a pending unit with no free input slot, or larger than plane 0 of the
free slot with the least index, stays pending. The answers come from the script of log 9 and the port's record is that
of log 10 (the model's choices). -/
def Obligations.SeDecodeRetains : Prop :=
  ∀ (s : State) (rest : List DevAnswer), s.se.life = .opened → s.listLegal → s.pl.hdrDone = true →
    let f := frScan s.params s.fr
    (s.fr.hasRoom s.params.ringCap s.codedBytes.length = false → f.pending = true →
      (∀ sl ∈ s.pl.inPool, sl.own = .queued) → s.pl.inPool ≠ [] → s.dev.script = .timeout :: rest →
      exec .seDecode s = .next
        { s with fr := f, res := { s.res with r0 := BitVec.ofInt 32 (-2), r1 := 0 },
                 dev := s.dev.after [(.poll 1000, .timeout)] rest }) ∧
    (∀ (i : Nat) (sl : Slot), s.fr.hasRoom s.params.ringCap s.codedBytes.length = false → f.pending = true →
      s.pl.inPool[i]? = some sl → sl.own = .free →
      (∀ (k : Nat) (x : Slot), k < i → s.pl.inPool[k]? = some x → x.own ≠ .free) → f.unitLen ≤ sl.room →
      s.dev.script = .ok :: .timeout :: rest →
      ∃ sl', sl'.own = .queued ∧ sl'.used = BitVec.ofNat 32 f.unitLen ∧ sl'.shape = sl.shape ∧
        (∀ k, k < f.unitLen → slotByte sl' 0 k = ringByte s.params.ringCap f.ring (f.unitStart + k)) ∧
        exec .seDecode s = .next
          { s with fr := f.take, res := { s.res with r0 := BitVec.ofInt 32 (-2), r1 := 0b00100#32 },
                   pl := { s.pl with inPool := s.pl.inPool.set i sl' },
                   dev := s.dev.after [(.enqueue .inp i f.unitLen, .ok),
                     (.poll (pollMs (s.pl.inPool.set i sl')), .timeout)] rest }) ∧
    (s.fr.hasRoom s.params.ringCap s.codedBytes.length = true → s.pushedScanned.pending = true →
      (∀ sl ∈ s.pl.inPool, sl.own = .free ∧ sl.room < s.pushedScanned.unitLen) → s.pl.inPool ≠ [] →
      exec .seDecode s = .next
        { s with fr := s.pushedScanned, res := { s.res with r0 := BitVec.ofInt 32 (-7), r1 := 0b10001#32 } }) ∧
    (∀ (i : Nat) (sl : Slot), s.acceptedScanned.pending = true → s.pl.inPool[i]? = some sl → sl.own = .free →
      (∀ (k : Nat) (x : Slot), k < i → s.pl.inPool[k]? = some x → x.own ≠ .free) →
      sl.room < s.acceptedScanned.unitLen → (∃ x ∈ s.pl.inPool, x.own = .queued) → s.dev.script = .timeout :: rest →
      exec .seDecode s = .next
        { s with fr := s.acceptedScanned,
                 res := { s.res with
                   r0 := if s.noRoom then BitVec.ofInt 32 (-2) else BitVec.ofInt 32 (-7)
                   r1 := if s.noRoom then 0b10000#32 else 0b10001#32 },
                 dev := s.dev.after [(.poll 0, .timeout)] rest })

/-- R250, R251, an answer outside the alphabet counting as `FAIL` (log 9): an enqueue marks the slot queued only
when Dev answers `OK`, and a dequeue hands out only a slot the table holds as queued on that queue; any other
answer changes no slot. -/
def Obligations.HandShakes : Prop :=
  ∀ (P : PoolId) (q : QueueId) (s : State),
    (∀ i n, s.dev.next ≠ .ok → (enq P q i n s).1 = false ∧ (enq P q i n s).2.pl = s.pl) ∧
    (∀ i n sl, s.dev.next = .ok → (s.pl.pool P)[i]? = some sl → (enq P q i n s).1 = true ∧
      ∃ sl', ((enq P q i n s).2.pl.pool P) = (s.pl.pool P).set i sl' ∧ sl'.own = .queued ∧
        sl'.planes = sl.planes ∧ sl'.used = sl.used ∧
        (P = .dout → sl'.holder = (if q = .cin then .conv else .dec)) ∧
        ∀ R, R ≠ P → (enq P q i n s).2.pl.pool R = s.pl.pool R) ∧
    (∀ i, (deq P q s).1 = .got i → ∃ sl, (s.pl.pool P)[i]? = some sl ∧ sl.own = .queued ∧
      (P = .dout → sl.holder = (if q = .cin then .conv else .dec)) ∧ s.dev.next = .slot i) ∧
    ((∀ i, (deq P q s).1 ≠ .got i) → (deq P q s).2.pl = s.pl) ∧
    (∀ i, s.dev.next = .slot i → (s.pl.pool P)[i]? = none → (deq P q s).1 = .fail)

/-- R281, R262, R280: without a conversion stage, `SE_GETPIC` first enqueues again every `DOUT` slot that is free
(G0), then dequeues one completed slot, presents its planes and re-queues it (G2), and completes with `DecodeError`
if an enqueue or the dequeue failed, though the picture may have been presented, else with `OK` if one was presented,
else with `NotReady`. Then some cases written out: no slot completed; a picture presented, the re-queue refused or
not; a dequeue that fails or is malformed; one slot left free by a failed enqueue. The port's record and the counter
of free values are the model's (logs 7, 9, 10). -/
def Obligations.SeGetpicDirect : Prop :=
  ∀ s : State, s.se.life = .opened → s.pl.hdrDone = true → s.pl.conv = false →
    (∃ u t e e' shown,
      resubmits .dout .dout (indicesOf .free s.pl.nDout s.pl.doutPool)
        { s with res := ⟨s.res.r0, 0, 0, 0⟩ } u e ∧
      shows .dout u t e' shown ∧
      exec .seGetpic s = .next (t.withStatus (if e || e' then -7 else if shown then 0 else -5))) ∧
    (∀ rest : List DevAnswer, (∀ sl ∈ s.pl.doutPool, sl.own ≠ .free) →
      (s.dev.script = .notReady :: rest →
        exec .seGetpic s = .next
          { s with res := ⟨BitVec.ofInt 32 (-5), 0, 0, 0⟩,
                   dev := s.dev.after [(.dequeue .dout, .notReady)] rest }) ∧
      (∀ (i : Nat) (sl : Slot) (a : DevAnswer), s.pl.doutPool[i]? = some sl → sl.own = .queued →
        sl.holder = .dec → (a = .ok ∨ a = .fail) → s.dev.script = .slot i :: a :: rest →
        ∃ sl' r1, sl'.own = (if a = .ok then .queued else .free) ∧ sl'.holder = .dec ∧ sl'.shape = sl.shape ∧
          (i < 2 ^ 32 → r1 = BitVec.ofNat 32 i) ∧
          exec .seGetpic s = .next
            { s with
              res := ⟨if a = .ok then 0 else BitVec.ofInt 32 (-7), r1, 1, 1⟩
              events := s.events ++ [⟨.dout, i, sl.planes.map fun p => (p.ptr, p.size), s.pl.fmt⟩]
              pl := { s.pl with doutPool := s.pl.doutPool.set i sl' }
              draws := s.draws + 1
              dev := s.dev.after [(.dequeue .dout, .slot i), (.enqueue .dout i 0, a)] rest }) ∧
      (∀ a : DevAnswer, a ≠ .notReady →
        (∀ i sl, a = .slot i → s.pl.doutPool[i]? = some sl → ¬ (sl.own = .queued ∧ sl.holder = .dec)) →
        s.dev.script = a :: rest →
        exec .seGetpic s = .next
          { s with res := ⟨BitVec.ofInt 32 (-7), 0, 0, 0⟩,
                   dev := s.dev.after [(.dequeue .dout, a)] rest })) ∧
    (∀ (rest : List DevAnswer) (i : Nat) (sl : Slot) (a : DevAnswer), i < s.pl.nDout →
      s.pl.doutPool[i]? = some sl → sl.own = .free →
      (∀ k x, k ≠ i → s.pl.doutPool[k]? = some x → x.own ≠ .free) → (a = .ok ∨ a = .fail) →
      s.dev.script = a :: .notReady :: rest →
      ∃ sl', sl'.own = (if a = .ok then .queued else .free) ∧ (a = .ok → sl'.holder = .dec) ∧
        sl'.shape = sl.shape ∧
        exec .seGetpic s = .next
          { s with
            res := ⟨if a = .ok then BitVec.ofInt 32 (-5) else BitVec.ofInt 32 (-7), 0, 0, 0⟩
            pl := { s.pl with doutPool := s.pl.doutPool.set i sl' }
            dev := s.dev.after [(.enqueue .dout i 0, a), (.dequeue .dout, .notReady)] rest })

/-- R282, R254, R280: with a conversion stage, `SE_GETPIC` first enqueues again every slot that a failed enqueue left
over, on the decoder's queue, the converter's input and the converter's output (G0); then gives a slot the converter
has read back to the decoder (G1), hands a slot the decoder has filled to the converter (G2), and presents a slot the
converter has filled and re-queues it (G3); it completes with `DecodeError` if an enqueue or a dequeue failed, else
with `OK` if a picture was presented, else with `NotReady`. Then some cases written out, with no slot left over: one
hand-off alone, and all three in one call, each re-queue refused or not. The port's record and the counter of free
values are the model's (logs 7, 9, 10). -/
def Obligations.SeGetpicConv : Prop :=
  ∀ s : State, s.se.life = .opened → s.pl.hdrDone = true → s.pl.conv = true →
    (∃ u1 u2 u3 u4 u5 t e1 e2 e3 e4 e5 e6 shown,
      resubmits .dout .dout (indicesOf .free s.pl.nDout s.pl.doutPool)
        { s with res := ⟨s.res.r0, 0, 0, 0⟩ } u1 e1 ∧
      resubmits .dout .cin (indicesOf .done s.pl.nDout s.pl.doutPool) u1 u2 e2 ∧
      resubmits .cout .cout (indicesOf .free s.pl.nCout s.pl.coutPool) u2 u3 e3 ∧
      passesOn .cin .free .dout u3 u4 e4 ∧ passesOn .dout .done .cin u4 u5 e5 ∧ shows .cout u5 t e6 shown ∧
      exec .seGetpic s = .next
        (t.withStatus (if e1 || e2 || e3 || e4 || e5 || e6 then -7 else if shown then 0 else -5))) ∧
    (∀ rest : List DevAnswer, (∀ sl ∈ s.pl.doutPool, sl.own = .queued) → (∀ sl ∈ s.pl.coutPool, sl.own = .queued) →
      (∀ (i : Nat) (sl : Slot), s.pl.doutPool[i]? = some sl → sl.holder = .conv →
        s.dev.script = .slot i :: .ok :: .notReady :: .notReady :: rest →
        ∃ sl', sl'.own = .queued ∧ sl'.holder = .dec ∧ sl'.shape = sl.shape ∧
          exec .seGetpic s = .next
            { s with
              res := ⟨BitVec.ofInt 32 (-5), 0, 0, 0⟩
              pl := { s.pl with doutPool := s.pl.doutPool.set i sl' }
              draws := s.draws + 1
              dev := s.dev.after [(.dequeue .cin, .slot i), (.enqueue .dout i 0, .ok),
                (.dequeue .dout, .notReady), (.dequeue .cout, .notReady)] rest }) ∧
      (∀ (i : Nat) (sl : Slot) (a : DevAnswer), s.pl.doutPool[i]? = some sl → sl.holder = .dec →
        (a = .ok ∨ a = .fail) → s.dev.script = .notReady :: .slot i :: a :: .notReady :: rest →
        ∃ sl', sl'.own = (if a = .ok then .queued else .done) ∧ (a = .ok → sl'.holder = .conv) ∧
          sl'.shape = sl.shape ∧
          exec .seGetpic s = .next
            { s with
              res := ⟨if a = .ok then BitVec.ofInt 32 (-5) else BitVec.ofInt 32 (-7), 0, 0, 0⟩
              pl := { s.pl with doutPool := s.pl.doutPool.set i sl' }
              draws := s.draws + 1
              dev := s.dev.after [(.dequeue .cin, .notReady), (.dequeue .dout, .slot i),
                (.enqueue .cin i 0, a), (.dequeue .cout, .notReady)] rest }) ∧
      (∀ (j : Nat) (sl : Slot), s.pl.coutPool[j]? = some sl →
        s.dev.script = .notReady :: .notReady :: .slot j :: .ok :: rest →
        ∃ sl' r1, sl'.own = .queued ∧ sl'.shape = sl.shape ∧ (j < 2 ^ 32 → r1 = BitVec.ofNat 32 j) ∧
          exec .seGetpic s = .next
            { s with
              res := ⟨0, r1, 1, 2⟩
              events := s.events ++ [⟨.cout, j, sl.planes.map fun p => (p.ptr, p.size), s.pl.fmt⟩]
              pl := { s.pl with coutPool := s.pl.coutPool.set j sl' }
              draws := s.draws + 1
              dev := s.dev.after [(.dequeue .cin, .notReady), (.dequeue .dout, .notReady),
                (.dequeue .cout, .slot j), (.enqueue .cout j 0, .ok)] rest }) ∧
      (∀ (i k j : Nat) (x y z : Slot) (a b c : DevAnswer), s.pl.doutPool[i]? = some x → x.holder = .conv →
        s.pl.doutPool[k]? = some y → y.holder = .dec → s.pl.coutPool[j]? = some z →
        (a = .ok ∨ a = .fail) → (b = .ok ∨ b = .fail) → (c = .ok ∨ c = .fail) →
        s.dev.script = .slot i :: a :: .slot k :: b :: .slot j :: c :: rest →
        ∃ x' y' z' r1, x'.own = (if a = .ok then .queued else .free) ∧ (a = .ok → x'.holder = .dec) ∧
          y'.own = (if b = .ok then .queued else .done) ∧ (b = .ok → y'.holder = .conv) ∧
          z'.own = (if c = .ok then .queued else .free) ∧
          x'.shape = x.shape ∧ y'.shape = y.shape ∧ z'.shape = z.shape ∧ (j < 2 ^ 32 → r1 = BitVec.ofNat 32 j) ∧
          exec .seGetpic s = .next
            { s with
              res := ⟨if a = .ok ∧ b = .ok ∧ c = .ok then 0 else BitVec.ofInt 32 (-7), r1, 1, 2⟩
              events := s.events ++ [⟨.cout, j, z.planes.map fun p => (p.ptr, p.size), s.pl.fmt⟩]
              pl := { s.pl with doutPool := (s.pl.doutPool.set i x').set k y', coutPool := s.pl.coutPool.set j z' }
              draws := s.draws + 3
              dev := s.dev.after [(.dequeue .cin, .slot i), (.enqueue .dout i 0, a), (.dequeue .dout, .slot k),
                (.enqueue .cin k 0, b), (.dequeue .cout, .slot j), (.enqueue .cout j 0, c)] rest }))

/-- R34, R35, R36: from setup to teardown the format, the pool sizes, and the planes of every slot stay what they
were at mapping, whatever Dev answers; a slot is only ever free, queued or done. -/
def Obligations.SlotTablesPersist : Prop :=
  ∀ (i : Instr) (s t : State), exec i s = .next t → s.pl.hdrDone = true → t.pl.hdrDone = true →
    t.pl.fmt = s.pl.fmt ∧ t.pl.conv = s.pl.conv ∧ t.pl.nIn = s.pl.nIn ∧ t.pl.nDout = s.pl.nDout ∧
    t.pl.nCout = s.pl.nCout ∧
    ∀ P : PoolId, (t.pl.pool P).map Slot.shape = (s.pl.pool P).map Slot.shape ∧
      countOwn .free (t.pl.pool P) + countOwn .queued (t.pl.pool P) + countOwn .done (t.pl.pool P) =
        (s.pl.pool P).length

/-- R365, R280, R340: how many transactions a command issues. Only the SE commands issue any; `SE_DECODE` at most
three outside setup, and with a setup that succeeds at most
`10 + HDR_RETRY_MAX + N_IN + 2 N_DOUT + 2 N_COUT`; `SE_GETPIC` at most `6 + N_DOUT + N_COUT`. -/
def Obligations.TransactionBounds : Prop :=
  ∀ (i : Instr) (s t : State), exec i s = .next t →
    (i ≠ .seDecode → i ≠ .seGetpic → i ≠ .seClose → t.dev = s.dev) ∧
    (i = .seClose → issuedAtMost 1 s t) ∧
    (i = .seGetpic → issuedAtMost (6 + s.pl.nDout + s.pl.nCout) s t) ∧
    (i = .seDecode → s.pl.hdrDone = true → issuedAtMost 3 s t) ∧
    (i = .seDecode → s.pl.hdrDone = false → s.pl.conv = false → s.pl.nCout = 0 → t.pl.hdrDone = true →
      issuedAtMost (10 + s.params.hdrRetryMax + t.pl.nIn + 2 * t.pl.nDout + 2 * t.pl.nCout) s t)

/-- R262, R280: only `SE_GETPIC` presents, at most one picture per call, only after setup, from `COUT` when there is a
conversion stage and from `DOUT` otherwise; the result registers name what was presented (of an index that `r1` cannot
hold nothing is said: log 23). -/
def Obligations.OnlyGetpicPresents : Prop :=
  ∀ (i : Instr) (s t : State), exec i s = .next t →
    t.events = s.events ∨
    (i = .seGetpic ∧ s.se.life = .opened ∧ s.pl.hdrDone = true ∧ ∃ e : Present,
      t.events = s.events ++ [e] ∧ e.fmt = s.pl.fmt ∧ e.pool = (if s.pl.conv then .cout else .dout) ∧
      (e.slot < 2 ^ 32 → t.res.r1 = BitVec.ofNat 32 e.slot) ∧ t.res.r2 = 1 ∧ t.res.r3 = (if s.pl.conv then 2 else 1))

/-! ### The whole machine -/

/-- R340: the state after reset is sound, with the reset values of log 4 where R340 gives none. -/
def Obligations.ResetSound : Prop := State.reset.Inv

/-- R27, R30, R32, R36, R37, R60, R320: every step from a sound state leads to a sound state: the memories keep their
canonical form, the cursors stay inside their buffers, the slot tables agree with the phase and the lifecycle. -/
def Obligations.StepKeepsSound : Prop := ∀ s t : State, s.Inv → step s = .next t → t.Inv

/-- R20, R61, R72, R341: what the commands of each unit leave alone: no command writes an argument register; BW and NS
commands touch neither the framer nor the session, and outside the BitWriter buffer or the destination range no
byte of MEM; FR commands touch neither the BitCursor nor the session; SE commands touch neither MEM nor the
BitCursor. -/
def Obligations.UnitFrames : Prop :=
  ∀ (i : Instr) (s t : State), exec i s = .next t →
    t.args = s.args ∧ t.params = s.params ∧ t.port = s.port ∧
    (unitOf i = .bw ∨ unitOf i = .ns →
      t.fr = s.fr ∧ t.pl = s.pl ∧ t.se = s.se ∧ t.events = s.events ∧ t.dev = s.dev ∧
      (i ≠ .bwInit → t.bw.base = s.bw.base ∧ t.bw.cap = s.bw.cap)) ∧
    (unitOf i = .fr → t.bw = s.bw ∧ t.pl = s.pl ∧ t.se = s.se ∧ t.events = s.events ∧ t.dev = s.dev ∧
      t.draws = s.draws) ∧
    (unitOf i = .se → t.mem = s.mem ∧ t.bw = s.bw) ∧
    (i = .bwInit ∨ i = .bwStat ∨ (∃ m g, i = .frInit m g) ∨ i = .frPush ∨ i = .frStat → t.mem = s.mem) ∧
    (i = .nsEscape ∨ (∃ y, i = .nsNal y) → t.bw = s.bw ∧
      ∀ a, (a < s.args.a2.toNat ∨ s.args.a2.toNat + s.args.a3.toNat ≤ a) → memByte t.mem a = memByte s.mem a) ∧
    (i = .frExtract →
      ∀ a, (a < s.args.a0.toNat ∨ s.args.a0.toNat + s.args.a1.toNat ≤ a) → memByte t.mem a = memByte s.mem a) ∧
    (isWrite i = true ∨ i = .nsSps ∨ i = .nsPps → s.bw.ok →
      ∀ a, (a < s.bw.base.toNat ∨ s.bw.base.toNat + s.bw.cap.toNat ≤ a) → memByte t.mem a = memByte s.mem a)

/-- R300, and the matrix of R308 and the termination of R359 (the spec's own inferences): every command completes,
with one of the statuses its row of the matrix allows. That every command completes is the model's choice of a finite
`HDR_RETRY_MAX` (log 3); R359 excepts the infinite one. -/
def Obligations.StatusMatrix : Prop :=
  ∀ (i : Instr) (s : State), ∃ t, exec i s = .next t ∧ ∃ c ∈ mayEnd i, t.res.r0 = BitVec.ofInt 32 c

/-- R301, R309, and R310 (the spec's own inference): a command that ends in `IllegalOperand` or `IllegalState`,
and an `FR_PUSH` that ends in `BufferFull`, has changed nothing but `r0`; a `BitOverflow` of a BW command has
changed nothing but `r0`, `r1` and the flag. -/
def Obligations.PreciseStatuses : Prop :=
  ∀ (i : Instr) (s t : State), exec i s = .next t →
    (t.res.r0 = BitVec.ofInt 32 (-9) → t = s.withStatus (-9)) ∧
    (t.res.r0 = BitVec.ofInt 32 (-10) → t = s.withStatus (-10)) ∧
    (i = .frPush → t.res.r0 = BitVec.ofInt 32 (-2) → t = s.withStatus (-2)) ∧
    (isWrite i = true → t.res.r0 = BitVec.ofInt 32 (-4) →
      t = { s with bw := { s.bw with ovf := true }, res := { s.res with r0 := t.res.r0, r1 := t.res.r1 } } ∧
      (i ≠ .bwBytes → t.res.r1 = s.res.r1))

/-- R320, R321: the session moves only as the lifecycle says; a command that is not legal in the current state ends
in `IllegalState` (in state `Failed`, `ProtocolError` for `SE_DECODE` and `SE_GETPIC`) and changes nothing but `r0`;
a legal one never ends in `IllegalState`. -/
def Obligations.Lifecycle : Prop :=
  ∀ (i : Instr) (s t : State), exec i s = .next t →
    lifeMove i s.se.life t.se.life ∧
    (s.se.life ≠ .closed → (∃ m g, i = .frInit m g) ∨ i = .frPush ∨ i = .frExtract ∨ i = .seOpen →
      t = s.withStatus (-10)) ∧
    (s.se.life = .closed → i = .seDecode ∨ i = .seGetpic ∨ i = .seClose → t = s.withStatus (-10)) ∧
    (s.se.life = .failed → i = .seDecode ∨ i = .seGetpic → t = s.withStatus (-6)) ∧
    (s.fr.valid = false → i = .frPush ∨ i = .frExtract ∨ i = .frStat → t = s.withStatus (-10)) ∧
    (unitOf i = .bw ∨ unitOf i = .ns ∨
      (s.se.life = .closed ∧ ((∃ m g, i = .frInit m g) ∨ i = .seOpen ∨
        (s.fr.valid = true ∧ (i = .frPush ∨ i = .frExtract)))) ∨
      (s.fr.valid = true ∧ i = .frStat) ∨
      (s.se.life ≠ .closed ∧ (i = .seDecode ∨ i = .seGetpic ∨ i = .seClose)) →
      t.res.r0 ≠ BitVec.ofInt 32 (-10))
end

