-- ==== Sys2Proof/Laws/Memory.lean ====
section
/-! SUPPORT. Read after write, and the canonical form, for sparse memories and the storages made of them. -/

namespace Sys2Proof.Machine

/-! ### peek and put -/

@[simp] theorem peek_nil (k : Nat) : Memory.peek [] k = none := rfl

theorem peek_cons (c : Host.Cell) (m : Memory) (k : Nat) :
    Memory.peek (c :: m) k = if k = c.1 then some c.2 else Memory.peek m k := rfl

/-- Reading where a byte was written gives that byte. -/
@[simp] theorem peek_put_same (m : Memory) (k : Nat) (v : Byte) : (m.put k v).peek k = some v := by
  induction m with
  | nil => simp [Memory.put, peek_cons]
  | cons c m ih => simp only [Memory.put]; split_ifs <;> simp_all [peek_cons]

/-- A write leaves every other address alone. -/
theorem peek_put_ne (m : Memory) (k j : Nat) (v : Byte) (h : j ≠ k) : (m.put k v).peek j = m.peek j := by
  induction m with
  | nil => simp [Memory.put, peek_cons, h]
  | cons c m ih => simp only [Memory.put]; split_ifs <;> simp_all [peek_cons]

/-- Everything `put` does to reads. -/
theorem peek_put (m : Memory) (k j : Nat) (v : Byte) :
    (m.put k v).peek j = if j = k then some v else m.peek j := by
  by_cases h : j = k
  · simp [h]
  · simp [h, peek_put_ne m k j v h]

/-! ### The canonical form -/

/-- The canonical form as a proposition. -/
theorem wf_iff (n : Nat) (m : Memory) :
    m.wf n = true ↔ m.Pairwise (fun x y => x.1 < y.1) ∧ ∀ c ∈ m, c.1 < n := by
  simp [Memory.wf]

@[simp] theorem wf_nil (n : Nat) : Memory.wf n [] = true := by simp [wf_iff]

/-- The cells of a memory after a write are the new one and old ones. -/
theorem mem_put {m : Memory} {k : Nat} {v : Byte} {c : Host.Cell} (h : c ∈ m.put k v) : c = (k, v) ∨ c ∈ m := by
  induction m with
  | nil => simpa [Memory.put] using h
  | cons d m ih =>
    simp only [Memory.put] at h
    split_ifs at h <;> simp only [List.mem_cons] at h ⊢ <;> tauto

/-- A write inside the space keeps the canonical form. -/
theorem wf_put {n : Nat} {m : Memory} (k : Nat) (v : Byte) (hk : k < n) (h : m.wf n = true) :
    (m.put k v).wf n = true := by
  rw [wf_iff] at *
  obtain ⟨hs, hb⟩ := h
  refine ⟨?_, fun c hc => (mem_put hc).elim (fun e => e ▸ hk) (hb c)⟩
  clear hb
  induction m with
  | nil => simp [Memory.put]
  | cons d m ih =>
    simp only [Memory.put]
    rw [List.pairwise_cons] at hs
    split_ifs with h1 h2
    · rw [List.pairwise_cons, List.pairwise_cons]
      refine ⟨fun c hc => ?_, hs⟩
      rcases List.mem_cons.1 hc with rfl | hc
      · exact h1
      · exact lt_trans h1 (hs.1 c hc)
    · rw [List.pairwise_cons]
      exact ⟨fun c hc => h2 ▸ hs.1 c hc, hs.2⟩
    · rw [List.pairwise_cons]
      refine ⟨fun c hc => ?_, ih hs.2⟩
      rcases mem_put hc with rfl | hc
      · simp only; omega
      · exact hs.1 c hc

/-- Two canonical memories that read alike everywhere are equal. -/
theorem wf_ext {n : Nat} {m m' : Memory} (h : m.wf n = true) (h' : m'.wf n = true)
    (hp : ∀ k, m.peek k = m'.peek k) : m = m' := by
  rw [wf_iff] at h h'
  replace h := h.1
  replace h' := h'.1
  have low : ∀ (x : Memory) (k : Nat), (∀ c ∈ x, k < c.1) → x.peek k = none := by
    intro x k hx
    induction x with
    | nil => rfl
    | cons c x ih =>
      have := hx c (by simp)
      rw [peek_cons, if_neg (by omega)]
      exact ih fun c hc => hx c (by simp [hc])
  induction m generalizing m' with
  | nil =>
    cases m' with
    | nil => rfl
    | cons c m' => have := hp c.1; simp [peek_cons] at this
  | cons c m ih =>
    cases m' with
    | nil => have := hp c.1; simp [peek_cons] at this
    | cons d m' =>
      rw [List.pairwise_cons] at h h'
      have hcd : c.1 = d.1 := by
        by_contra hne
        rcases Nat.lt_or_gt_of_ne hne with hl | hl
        · have := hp c.1
          rw [peek_cons, if_pos rfl, low (d :: m') c.1] at this
          · cases this
          · intro e he
            rcases List.mem_cons.1 he with rfl | he
            · exact hl
            · exact lt_trans hl (h'.1 e he)
        · have := hp d.1
          rw [peek_cons (c := d), if_pos rfl, low (c :: m) d.1] at this
          · cases this
          · intro e he
            rcases List.mem_cons.1 he with rfl | he
            · exact hl
            · exact lt_trans hl (h.1 e he)
      have hv : c.2 = d.2 := by
        have := hp c.1
        rw [peek_cons, if_pos rfl, peek_cons, if_pos hcd] at this
        exact Option.some.inj this
      have : m = m' := by
        refine ih (fun k => ?_) h.2 h'.2
        have hk := hp k
        rw [peek_cons, peek_cons, hcd] at hk
        by_cases hkc : k = d.1
        · rw [low m k fun e he => by rw [hkc, ← hcd]; exact h.1 e he,
            low m' k fun e he => by rw [hkc]; exact h'.1 e he]
        · simpa [hkc] using hk
      exact congrArg₂ _ (Prod.ext hcd hv) this

/-! ### putBytes -/

@[simp] theorem putBytes_nil (m : Memory) (a : Nat) : m.putBytes a [] = m := rfl

/-- Everything `MemWrite` does to reads: the bytes written, and every other address as before. -/
theorem peek_putBytes (m : Memory) (a : Nat) (bs : List Byte) (k : Nat) :
    (m.putBytes a bs).peek k = if a ≤ k ∧ k < a + bs.length then bs[k - a]? else m.peek k := by
  induction bs generalizing m a with
  | nil => simp [show ¬ (a ≤ k ∧ k < a) by omega]
  | cons b bs ih =>
    rw [Memory.putBytes, ih, peek_put]
    simp only [List.length_cons]
    by_cases h1 : k = a
    · subst h1; simp
    · by_cases h2 : a ≤ k ∧ k < a + (bs.length + 1)
      · rw [if_pos (by omega), if_pos h2, show k - a = (k - (a + 1)) + 1 by omega]; simp
      · rw [if_neg (by omega), if_neg h2, if_neg h1]

/-- `MemWrite` inside the space keeps the canonical form. -/
theorem wf_putBytes {n : Nat} {m : Memory} (a : Nat) (bs : List Byte) (hb : a + bs.length ≤ n)
    (h : m.wf n = true) : (m.putBytes a bs).wf n = true := by
  induction bs generalizing m a with
  | nil => exact h
  | cons b bs ih =>
    simp only [List.length_cons] at hb
    exact ih (a + 1) (by omega) (wf_put a b (by omega) h)

/-! ### MEM -/

@[simp] theorem memByte_put_same (m : Memory) (k : Nat) (v : Byte) : memByte (m.put k v) k = v := by
  simp [memByte]

theorem memByte_put_ne (m : Memory) (k j : Nat) (v : Byte) (h : j ≠ k) : memByte (m.put k v) j = memByte m j := by
  simp [memByte, peek_put_ne m k j v h]

/-- What MEM reads after `MemWrite`. -/
theorem memByte_putBytes (m : Memory) (a : Nat) (bs : List Byte) (k : Nat) :
    memByte (m.putBytes a bs) k = if a ≤ k ∧ k < a + bs.length then bs.getD (k - a) 0 else memByte m k := by
  rw [memByte, peek_putBytes]
  split_ifs with h
  · rw [List.getElem?_eq_getElem (by omega), List.getD_eq_getElem?_getD, List.getElem?_eq_getElem (by omega)]
    rfl
  · rfl

@[simp] theorem memRead_length (m : Memory) (a n : Nat) : (memRead m a n).length = n := by
  induction n generalizing a with
  | zero => rfl
  | succ n ih => simp [memRead, ih]

theorem memRead_getElem (m : Memory) (a n i : Nat) (h : i < (memRead m a n).length) :
    (memRead m a n)[i] = memByte m (a + i) := by
  induction n generalizing a i with
  | zero => simp at h
  | succ n ih =>
    cases i with
    | zero => rfl
    | succ i =>
      have : i < (memRead m (a + 1) n).length := by simpa [memRead] using h
      simp only [memRead, List.getElem_cons_succ]
      rw [ih (a + 1) i this]; congr 1; omega

/-- Reading depends only on the bytes of the range. -/
theorem memRead_congr {m m' : Memory} {a n : Nat} (h : ∀ k, a ≤ k → k < a + n → memByte m k = memByte m' k) :
    memRead m a n = memRead m' a n := by
  induction n generalizing a with
  | zero => rfl
  | succ n ih =>
    simp only [memRead]
    rw [h a (by omega) (by omega), ih fun k h1 h2 => h k (by omega) (by omega)]

/-- Reading back what was written. -/
theorem memRead_putBytes (m : Memory) (a : Nat) (bs : List Byte) :
    memRead (m.putBytes a bs) a bs.length = bs := by
  refine List.ext_getElem (by simp) fun i h1 h2 => ?_
  rw [memRead_getElem, memByte_putBytes, if_pos (by omega)]
  simp [List.getD_eq_getElem?_getD, h2]

/-! ### RING -/

@[simp] theorem ringBytes_length (cap : Nat) (r : Memory) (c n : Nat) : (ringBytes cap r c n).length = n := by
  induction n generalizing c with
  | zero => rfl
  | succ n ih => simp [ringBytes, ih]

theorem ringBytes_getElem (cap : Nat) (r : Memory) (c n i : Nat) (h : i < (ringBytes cap r c n).length) :
    (ringBytes cap r c n)[i] = ringByte cap r (c + i) := by
  induction n generalizing c i with
  | zero => simp at h
  | succ n ih =>
    cases i with
    | zero => rfl
    | succ i =>
      have : i < (ringBytes cap r (c + 1) n).length := by simpa [ringBytes] using h
      simp only [ringBytes, List.getElem_cons_succ]
      rw [ih (c + 1) i this]; congr 1; omega

/-- Bytes at counts that do not share an index with a pushed byte stay (R62). -/
theorem ringByte_ringPut_ne (cap : Nat) (r : Memory) (c : Nat) (bs : List Byte) (k : Nat)
    (h : ∀ i, i < bs.length → k % cap ≠ (c + i) % cap) : ringByte cap (ringPut cap r c bs) k = ringByte cap r k := by
  induction bs generalizing r c with
  | nil => rfl
  | cons b bs ih =>
    rw [ringPut, ih]
    · have := h 0 (by simp)
      simp only [ringByte]
      rw [peek_put_ne _ _ _ _ (by simpa using this)]
    · intro i hi
      have := h (i + 1) (by simpa using hi)
      rwa [show c + (i + 1) = c + 1 + i by omega] at this

/-- Distinct counts less than `cap` apart have distinct indices. -/
theorem mod_ne_of_lt {cap a b : Nat} (h1 : a < b) (h2 : b < a + cap) : a % cap ≠ b % cap := by
  intro h
  have hc : 0 < cap := by omega
  obtain ⟨d, rfl⟩ : ∃ d, b = a + d := ⟨b - a, by omega⟩
  have h3 := (Nat.modEq_iff_dvd' (show a ≤ a + d by omega)).1 (show a ≡ a + d [MOD cap] from h)
  rw [Nat.add_sub_cancel_left] at h3
  have := Nat.le_of_dvd (by omega) h3
  omega

/-- Reading a pushed byte, when no more than `cap` bytes were pushed (R62, R192). -/
theorem ringByte_ringPut (cap : Nat) (r : Memory) (c : Nat) (bs : List Byte) (i : Nat) (hi : i < bs.length)
    (hc : bs.length ≤ cap) : ringByte cap (ringPut cap r c bs) (c + i) = bs[i] := by
  induction bs generalizing r c i with
  | nil => simp at hi
  | cons b bs ih =>
    rw [ringPut]
    cases i with
    | zero =>
      rw [Nat.add_zero, ringByte_ringPut_ne]
      · simp [ringByte]
      · intro j hj
        simp only [List.length_cons] at hc
        exact mod_ne_of_lt (by omega) (by omega)
    | succ i =>
      simp only [List.length_cons] at hi hc
      rw [show c + (i + 1) = c + 1 + i by omega, ih (r.put (c % cap) b) (c + 1) i (by omega) (by omega)]
      rfl

/-- Pushing keeps the ring's canonical form. -/
theorem wf_ringPut {cap : Nat} {r : Memory} (c : Nat) (bs : List Byte) (hc : 0 < cap) (h : r.wf cap = true) :
    (ringPut cap r c bs).wf cap = true := by
  induction bs generalizing r c with
  | nil => exact h
  | cons b bs ih => exact ih (c + 1) (wf_put _ _ (Nat.mod_lt _ hc) h)

/-- Pushing two sequences one after the other is pushing both. -/
theorem ringPut_append (cap : Nat) (r : Memory) (c : Nat) (xs ys : List Byte) :
    ringPut cap r c (xs ++ ys) = ringPut cap (ringPut cap r c xs) (c + xs.length) ys := by
  induction xs generalizing r c with
  | nil => rfl
  | cons x xs ih => simp only [List.cons_append, ringPut, List.length_cons]; rw [ih]; congr 1; omega

/-- `RING_CAP` is positive (R14). -/
theorem ringCap_pos (p : Config.Params) : 0 < p.ringCap := by simp [Config.Params.ringCap]

end Sys2Proof.Machine
end

