-- ==== Sys2Proof/Laws/State.lean ====
section
/-! SUPPORT. The small lemmas of State: one per field per named update, so that no proof unfolds a record
update. -/

namespace Sys2Proof.Machine

/-! ### `State.withArgs` -/

@[simp] theorem withArgs_params (s : State) (x : ArgRegs) : (s.withArgs x).params = s.params := rfl
@[simp] theorem withArgs_args (s : State) (x : ArgRegs) : (s.withArgs x).args = x := rfl
@[simp] theorem withArgs_res (s : State) (x : ArgRegs) : (s.withArgs x).res = s.res := rfl
@[simp] theorem withArgs_mem (s : State) (x : ArgRegs) : (s.withArgs x).mem = s.mem := rfl
@[simp] theorem withArgs_bw (s : State) (x : ArgRegs) : (s.withArgs x).bw = s.bw := rfl
@[simp] theorem withArgs_fr (s : State) (x : ArgRegs) : (s.withArgs x).fr = s.fr := rfl
@[simp] theorem withArgs_pl (s : State) (x : ArgRegs) : (s.withArgs x).pl = s.pl := rfl
@[simp] theorem withArgs_se (s : State) (x : ArgRegs) : (s.withArgs x).se = s.se := rfl
@[simp] theorem withArgs_events (s : State) (x : ArgRegs) : (s.withArgs x).events = s.events := rfl
@[simp] theorem withArgs_dev (s : State) (x : ArgRegs) : (s.withArgs x).dev = s.dev := rfl
@[simp] theorem withArgs_port (s : State) (x : ArgRegs) : (s.withArgs x).port = s.port := rfl
@[simp] theorem withArgs_draws (s : State) (x : ArgRegs) : (s.withArgs x).draws = s.draws := rfl

/-! ### `State.withRes` -/

@[simp] theorem withRes_params (s : State) (x : ResRegs) : (s.withRes x).params = s.params := rfl
@[simp] theorem withRes_args (s : State) (x : ResRegs) : (s.withRes x).args = s.args := rfl
@[simp] theorem withRes_res (s : State) (x : ResRegs) : (s.withRes x).res = x := rfl
@[simp] theorem withRes_mem (s : State) (x : ResRegs) : (s.withRes x).mem = s.mem := rfl
@[simp] theorem withRes_bw (s : State) (x : ResRegs) : (s.withRes x).bw = s.bw := rfl
@[simp] theorem withRes_fr (s : State) (x : ResRegs) : (s.withRes x).fr = s.fr := rfl
@[simp] theorem withRes_pl (s : State) (x : ResRegs) : (s.withRes x).pl = s.pl := rfl
@[simp] theorem withRes_se (s : State) (x : ResRegs) : (s.withRes x).se = s.se := rfl
@[simp] theorem withRes_events (s : State) (x : ResRegs) : (s.withRes x).events = s.events := rfl
@[simp] theorem withRes_dev (s : State) (x : ResRegs) : (s.withRes x).dev = s.dev := rfl
@[simp] theorem withRes_port (s : State) (x : ResRegs) : (s.withRes x).port = s.port := rfl
@[simp] theorem withRes_draws (s : State) (x : ResRegs) : (s.withRes x).draws = s.draws := rfl

/-! ### `State.withMem` -/

@[simp] theorem withMem_params (s : State) (x : Memory) : (s.withMem x).params = s.params := rfl
@[simp] theorem withMem_args (s : State) (x : Memory) : (s.withMem x).args = s.args := rfl
@[simp] theorem withMem_res (s : State) (x : Memory) : (s.withMem x).res = s.res := rfl
@[simp] theorem withMem_mem (s : State) (x : Memory) : (s.withMem x).mem = x := rfl
@[simp] theorem withMem_bw (s : State) (x : Memory) : (s.withMem x).bw = s.bw := rfl
@[simp] theorem withMem_fr (s : State) (x : Memory) : (s.withMem x).fr = s.fr := rfl
@[simp] theorem withMem_pl (s : State) (x : Memory) : (s.withMem x).pl = s.pl := rfl
@[simp] theorem withMem_se (s : State) (x : Memory) : (s.withMem x).se = s.se := rfl
@[simp] theorem withMem_events (s : State) (x : Memory) : (s.withMem x).events = s.events := rfl
@[simp] theorem withMem_dev (s : State) (x : Memory) : (s.withMem x).dev = s.dev := rfl
@[simp] theorem withMem_port (s : State) (x : Memory) : (s.withMem x).port = s.port := rfl
@[simp] theorem withMem_draws (s : State) (x : Memory) : (s.withMem x).draws = s.draws := rfl

/-! ### `State.withBw` -/

@[simp] theorem withBw_params (s : State) (x : BitCursor) : (s.withBw x).params = s.params := rfl
@[simp] theorem withBw_args (s : State) (x : BitCursor) : (s.withBw x).args = s.args := rfl
@[simp] theorem withBw_res (s : State) (x : BitCursor) : (s.withBw x).res = s.res := rfl
@[simp] theorem withBw_mem (s : State) (x : BitCursor) : (s.withBw x).mem = s.mem := rfl
@[simp] theorem withBw_bw (s : State) (x : BitCursor) : (s.withBw x).bw = x := rfl
@[simp] theorem withBw_fr (s : State) (x : BitCursor) : (s.withBw x).fr = s.fr := rfl
@[simp] theorem withBw_pl (s : State) (x : BitCursor) : (s.withBw x).pl = s.pl := rfl
@[simp] theorem withBw_se (s : State) (x : BitCursor) : (s.withBw x).se = s.se := rfl
@[simp] theorem withBw_events (s : State) (x : BitCursor) : (s.withBw x).events = s.events := rfl
@[simp] theorem withBw_dev (s : State) (x : BitCursor) : (s.withBw x).dev = s.dev := rfl
@[simp] theorem withBw_port (s : State) (x : BitCursor) : (s.withBw x).port = s.port := rfl
@[simp] theorem withBw_draws (s : State) (x : BitCursor) : (s.withBw x).draws = s.draws := rfl

/-! ### `State.withFr` -/

@[simp] theorem withFr_params (s : State) (x : Framer) : (s.withFr x).params = s.params := rfl
@[simp] theorem withFr_args (s : State) (x : Framer) : (s.withFr x).args = s.args := rfl
@[simp] theorem withFr_res (s : State) (x : Framer) : (s.withFr x).res = s.res := rfl
@[simp] theorem withFr_mem (s : State) (x : Framer) : (s.withFr x).mem = s.mem := rfl
@[simp] theorem withFr_bw (s : State) (x : Framer) : (s.withFr x).bw = s.bw := rfl
@[simp] theorem withFr_fr (s : State) (x : Framer) : (s.withFr x).fr = x := rfl
@[simp] theorem withFr_pl (s : State) (x : Framer) : (s.withFr x).pl = s.pl := rfl
@[simp] theorem withFr_se (s : State) (x : Framer) : (s.withFr x).se = s.se := rfl
@[simp] theorem withFr_events (s : State) (x : Framer) : (s.withFr x).events = s.events := rfl
@[simp] theorem withFr_dev (s : State) (x : Framer) : (s.withFr x).dev = s.dev := rfl
@[simp] theorem withFr_port (s : State) (x : Framer) : (s.withFr x).port = s.port := rfl
@[simp] theorem withFr_draws (s : State) (x : Framer) : (s.withFr x).draws = s.draws := rfl

/-! ### `State.withPl` -/

@[simp] theorem withPl_params (s : State) (x : Pipeline) : (s.withPl x).params = s.params := rfl
@[simp] theorem withPl_args (s : State) (x : Pipeline) : (s.withPl x).args = s.args := rfl
@[simp] theorem withPl_res (s : State) (x : Pipeline) : (s.withPl x).res = s.res := rfl
@[simp] theorem withPl_mem (s : State) (x : Pipeline) : (s.withPl x).mem = s.mem := rfl
@[simp] theorem withPl_bw (s : State) (x : Pipeline) : (s.withPl x).bw = s.bw := rfl
@[simp] theorem withPl_fr (s : State) (x : Pipeline) : (s.withPl x).fr = s.fr := rfl
@[simp] theorem withPl_pl (s : State) (x : Pipeline) : (s.withPl x).pl = x := rfl
@[simp] theorem withPl_se (s : State) (x : Pipeline) : (s.withPl x).se = s.se := rfl
@[simp] theorem withPl_events (s : State) (x : Pipeline) : (s.withPl x).events = s.events := rfl
@[simp] theorem withPl_dev (s : State) (x : Pipeline) : (s.withPl x).dev = s.dev := rfl
@[simp] theorem withPl_port (s : State) (x : Pipeline) : (s.withPl x).port = s.port := rfl
@[simp] theorem withPl_draws (s : State) (x : Pipeline) : (s.withPl x).draws = s.draws := rfl

/-! ### `State.withSe` -/

@[simp] theorem withSe_params (s : State) (x : Session) : (s.withSe x).params = s.params := rfl
@[simp] theorem withSe_args (s : State) (x : Session) : (s.withSe x).args = s.args := rfl
@[simp] theorem withSe_res (s : State) (x : Session) : (s.withSe x).res = s.res := rfl
@[simp] theorem withSe_mem (s : State) (x : Session) : (s.withSe x).mem = s.mem := rfl
@[simp] theorem withSe_bw (s : State) (x : Session) : (s.withSe x).bw = s.bw := rfl
@[simp] theorem withSe_fr (s : State) (x : Session) : (s.withSe x).fr = s.fr := rfl
@[simp] theorem withSe_pl (s : State) (x : Session) : (s.withSe x).pl = s.pl := rfl
@[simp] theorem withSe_se (s : State) (x : Session) : (s.withSe x).se = x := rfl
@[simp] theorem withSe_events (s : State) (x : Session) : (s.withSe x).events = s.events := rfl
@[simp] theorem withSe_dev (s : State) (x : Session) : (s.withSe x).dev = s.dev := rfl
@[simp] theorem withSe_port (s : State) (x : Session) : (s.withSe x).port = s.port := rfl
@[simp] theorem withSe_draws (s : State) (x : Session) : (s.withSe x).draws = s.draws := rfl

/-! ### `State.withEvents` -/

@[simp] theorem withEvents_params (s : State) (x : List Present) : (s.withEvents x).params = s.params := rfl
@[simp] theorem withEvents_args (s : State) (x : List Present) : (s.withEvents x).args = s.args := rfl
@[simp] theorem withEvents_res (s : State) (x : List Present) : (s.withEvents x).res = s.res := rfl
@[simp] theorem withEvents_mem (s : State) (x : List Present) : (s.withEvents x).mem = s.mem := rfl
@[simp] theorem withEvents_bw (s : State) (x : List Present) : (s.withEvents x).bw = s.bw := rfl
@[simp] theorem withEvents_fr (s : State) (x : List Present) : (s.withEvents x).fr = s.fr := rfl
@[simp] theorem withEvents_pl (s : State) (x : List Present) : (s.withEvents x).pl = s.pl := rfl
@[simp] theorem withEvents_se (s : State) (x : List Present) : (s.withEvents x).se = s.se := rfl
@[simp] theorem withEvents_events (s : State) (x : List Present) : (s.withEvents x).events = x := rfl
@[simp] theorem withEvents_dev (s : State) (x : List Present) : (s.withEvents x).dev = s.dev := rfl
@[simp] theorem withEvents_port (s : State) (x : List Present) : (s.withEvents x).port = s.port := rfl
@[simp] theorem withEvents_draws (s : State) (x : List Present) : (s.withEvents x).draws = s.draws := rfl

/-! ### `State.withDev` -/

@[simp] theorem withDev_params (s : State) (x : DevPort) : (s.withDev x).params = s.params := rfl
@[simp] theorem withDev_args (s : State) (x : DevPort) : (s.withDev x).args = s.args := rfl
@[simp] theorem withDev_res (s : State) (x : DevPort) : (s.withDev x).res = s.res := rfl
@[simp] theorem withDev_mem (s : State) (x : DevPort) : (s.withDev x).mem = s.mem := rfl
@[simp] theorem withDev_bw (s : State) (x : DevPort) : (s.withDev x).bw = s.bw := rfl
@[simp] theorem withDev_fr (s : State) (x : DevPort) : (s.withDev x).fr = s.fr := rfl
@[simp] theorem withDev_pl (s : State) (x : DevPort) : (s.withDev x).pl = s.pl := rfl
@[simp] theorem withDev_se (s : State) (x : DevPort) : (s.withDev x).se = s.se := rfl
@[simp] theorem withDev_events (s : State) (x : DevPort) : (s.withDev x).events = s.events := rfl
@[simp] theorem withDev_dev (s : State) (x : DevPort) : (s.withDev x).dev = x := rfl
@[simp] theorem withDev_port (s : State) (x : DevPort) : (s.withDev x).port = s.port := rfl
@[simp] theorem withDev_draws (s : State) (x : DevPort) : (s.withDev x).draws = s.draws := rfl

/-! ### `State.withPort` -/

@[simp] theorem withPort_params (s : State) (x : List HostInput) : (s.withPort x).params = s.params := rfl
@[simp] theorem withPort_args (s : State) (x : List HostInput) : (s.withPort x).args = s.args := rfl
@[simp] theorem withPort_res (s : State) (x : List HostInput) : (s.withPort x).res = s.res := rfl
@[simp] theorem withPort_mem (s : State) (x : List HostInput) : (s.withPort x).mem = s.mem := rfl
@[simp] theorem withPort_bw (s : State) (x : List HostInput) : (s.withPort x).bw = s.bw := rfl
@[simp] theorem withPort_fr (s : State) (x : List HostInput) : (s.withPort x).fr = s.fr := rfl
@[simp] theorem withPort_pl (s : State) (x : List HostInput) : (s.withPort x).pl = s.pl := rfl
@[simp] theorem withPort_se (s : State) (x : List HostInput) : (s.withPort x).se = s.se := rfl
@[simp] theorem withPort_events (s : State) (x : List HostInput) : (s.withPort x).events = s.events := rfl
@[simp] theorem withPort_dev (s : State) (x : List HostInput) : (s.withPort x).dev = s.dev := rfl
@[simp] theorem withPort_port (s : State) (x : List HostInput) : (s.withPort x).port = x := rfl
@[simp] theorem withPort_draws (s : State) (x : List HostInput) : (s.withPort x).draws = s.draws := rfl

/-! ### `State.withDraws` -/

@[simp] theorem withDraws_params (s : State) (x : Nat) : (s.withDraws x).params = s.params := rfl
@[simp] theorem withDraws_args (s : State) (x : Nat) : (s.withDraws x).args = s.args := rfl
@[simp] theorem withDraws_res (s : State) (x : Nat) : (s.withDraws x).res = s.res := rfl
@[simp] theorem withDraws_mem (s : State) (x : Nat) : (s.withDraws x).mem = s.mem := rfl
@[simp] theorem withDraws_bw (s : State) (x : Nat) : (s.withDraws x).bw = s.bw := rfl
@[simp] theorem withDraws_fr (s : State) (x : Nat) : (s.withDraws x).fr = s.fr := rfl
@[simp] theorem withDraws_pl (s : State) (x : Nat) : (s.withDraws x).pl = s.pl := rfl
@[simp] theorem withDraws_se (s : State) (x : Nat) : (s.withDraws x).se = s.se := rfl
@[simp] theorem withDraws_events (s : State) (x : Nat) : (s.withDraws x).events = s.events := rfl
@[simp] theorem withDraws_dev (s : State) (x : Nat) : (s.withDraws x).dev = s.dev := rfl
@[simp] theorem withDraws_port (s : State) (x : Nat) : (s.withDraws x).port = s.port := rfl
@[simp] theorem withDraws_draws (s : State) (x : Nat) : (s.withDraws x).draws = x := rfl

/-! ### `State.setR0` -/

@[simp] theorem setR0_params (s : State) (v : Word) : (s.setR0 v).params = s.params := rfl
@[simp] theorem setR0_args (s : State) (v : Word) : (s.setR0 v).args = s.args := rfl
@[simp] theorem setR0_mem (s : State) (v : Word) : (s.setR0 v).mem = s.mem := rfl
@[simp] theorem setR0_bw (s : State) (v : Word) : (s.setR0 v).bw = s.bw := rfl
@[simp] theorem setR0_fr (s : State) (v : Word) : (s.setR0 v).fr = s.fr := rfl
@[simp] theorem setR0_pl (s : State) (v : Word) : (s.setR0 v).pl = s.pl := rfl
@[simp] theorem setR0_se (s : State) (v : Word) : (s.setR0 v).se = s.se := rfl
@[simp] theorem setR0_events (s : State) (v : Word) : (s.setR0 v).events = s.events := rfl
@[simp] theorem setR0_dev (s : State) (v : Word) : (s.setR0 v).dev = s.dev := rfl
@[simp] theorem setR0_port (s : State) (v : Word) : (s.setR0 v).port = s.port := rfl
@[simp] theorem setR0_draws (s : State) (v : Word) : (s.setR0 v).draws = s.draws := rfl
@[simp] theorem setR0_res_r0 (s : State) (v : Word) : (s.setR0 v).res.r0 = v := rfl
@[simp] theorem setR0_res_r1 (s : State) (v : Word) : (s.setR0 v).res.r1 = s.res.r1 := rfl
@[simp] theorem setR0_res_r2 (s : State) (v : Word) : (s.setR0 v).res.r2 = s.res.r2 := rfl
@[simp] theorem setR0_res_r3 (s : State) (v : Word) : (s.setR0 v).res.r3 = s.res.r3 := rfl

/-! ### `State.setR1` -/

@[simp] theorem setR1_params (s : State) (v : Word) : (s.setR1 v).params = s.params := rfl
@[simp] theorem setR1_args (s : State) (v : Word) : (s.setR1 v).args = s.args := rfl
@[simp] theorem setR1_mem (s : State) (v : Word) : (s.setR1 v).mem = s.mem := rfl
@[simp] theorem setR1_bw (s : State) (v : Word) : (s.setR1 v).bw = s.bw := rfl
@[simp] theorem setR1_fr (s : State) (v : Word) : (s.setR1 v).fr = s.fr := rfl
@[simp] theorem setR1_pl (s : State) (v : Word) : (s.setR1 v).pl = s.pl := rfl
@[simp] theorem setR1_se (s : State) (v : Word) : (s.setR1 v).se = s.se := rfl
@[simp] theorem setR1_events (s : State) (v : Word) : (s.setR1 v).events = s.events := rfl
@[simp] theorem setR1_dev (s : State) (v : Word) : (s.setR1 v).dev = s.dev := rfl
@[simp] theorem setR1_port (s : State) (v : Word) : (s.setR1 v).port = s.port := rfl
@[simp] theorem setR1_draws (s : State) (v : Word) : (s.setR1 v).draws = s.draws := rfl
@[simp] theorem setR1_res_r0 (s : State) (v : Word) : (s.setR1 v).res.r0 = s.res.r0 := rfl
@[simp] theorem setR1_res_r1 (s : State) (v : Word) : (s.setR1 v).res.r1 = v := rfl
@[simp] theorem setR1_res_r2 (s : State) (v : Word) : (s.setR1 v).res.r2 = s.res.r2 := rfl
@[simp] theorem setR1_res_r3 (s : State) (v : Word) : (s.setR1 v).res.r3 = s.res.r3 := rfl

/-! ### `State.setR2` -/

@[simp] theorem setR2_params (s : State) (v : Word) : (s.setR2 v).params = s.params := rfl
@[simp] theorem setR2_args (s : State) (v : Word) : (s.setR2 v).args = s.args := rfl
@[simp] theorem setR2_mem (s : State) (v : Word) : (s.setR2 v).mem = s.mem := rfl
@[simp] theorem setR2_bw (s : State) (v : Word) : (s.setR2 v).bw = s.bw := rfl
@[simp] theorem setR2_fr (s : State) (v : Word) : (s.setR2 v).fr = s.fr := rfl
@[simp] theorem setR2_pl (s : State) (v : Word) : (s.setR2 v).pl = s.pl := rfl
@[simp] theorem setR2_se (s : State) (v : Word) : (s.setR2 v).se = s.se := rfl
@[simp] theorem setR2_events (s : State) (v : Word) : (s.setR2 v).events = s.events := rfl
@[simp] theorem setR2_dev (s : State) (v : Word) : (s.setR2 v).dev = s.dev := rfl
@[simp] theorem setR2_port (s : State) (v : Word) : (s.setR2 v).port = s.port := rfl
@[simp] theorem setR2_draws (s : State) (v : Word) : (s.setR2 v).draws = s.draws := rfl
@[simp] theorem setR2_res_r0 (s : State) (v : Word) : (s.setR2 v).res.r0 = s.res.r0 := rfl
@[simp] theorem setR2_res_r1 (s : State) (v : Word) : (s.setR2 v).res.r1 = s.res.r1 := rfl
@[simp] theorem setR2_res_r2 (s : State) (v : Word) : (s.setR2 v).res.r2 = v := rfl
@[simp] theorem setR2_res_r3 (s : State) (v : Word) : (s.setR2 v).res.r3 = s.res.r3 := rfl

/-! ### `State.setR3` -/

@[simp] theorem setR3_params (s : State) (v : Word) : (s.setR3 v).params = s.params := rfl
@[simp] theorem setR3_args (s : State) (v : Word) : (s.setR3 v).args = s.args := rfl
@[simp] theorem setR3_mem (s : State) (v : Word) : (s.setR3 v).mem = s.mem := rfl
@[simp] theorem setR3_bw (s : State) (v : Word) : (s.setR3 v).bw = s.bw := rfl
@[simp] theorem setR3_fr (s : State) (v : Word) : (s.setR3 v).fr = s.fr := rfl
@[simp] theorem setR3_pl (s : State) (v : Word) : (s.setR3 v).pl = s.pl := rfl
@[simp] theorem setR3_se (s : State) (v : Word) : (s.setR3 v).se = s.se := rfl
@[simp] theorem setR3_events (s : State) (v : Word) : (s.setR3 v).events = s.events := rfl
@[simp] theorem setR3_dev (s : State) (v : Word) : (s.setR3 v).dev = s.dev := rfl
@[simp] theorem setR3_port (s : State) (v : Word) : (s.setR3 v).port = s.port := rfl
@[simp] theorem setR3_draws (s : State) (v : Word) : (s.setR3 v).draws = s.draws := rfl
@[simp] theorem setR3_res_r0 (s : State) (v : Word) : (s.setR3 v).res.r0 = s.res.r0 := rfl
@[simp] theorem setR3_res_r1 (s : State) (v : Word) : (s.setR3 v).res.r1 = s.res.r1 := rfl
@[simp] theorem setR3_res_r2 (s : State) (v : Word) : (s.setR3 v).res.r2 = s.res.r2 := rfl
@[simp] theorem setR3_res_r3 (s : State) (v : Word) : (s.setR3 v).res.r3 = v := rfl

/-! ### Flags -/

@[simp] theorem setOvf_params (s : State) : s.setOvf.params = s.params := rfl
@[simp] theorem setOvf_args (s : State) : s.setOvf.args = s.args := rfl
@[simp] theorem setOvf_res (s : State) : s.setOvf.res = s.res := rfl
@[simp] theorem setOvf_mem (s : State) : s.setOvf.mem = s.mem := rfl
@[simp] theorem setOvf_bw (s : State) : s.setOvf.bw = { s.bw with ovf := true } := rfl
@[simp] theorem setOvf_fr (s : State) : s.setOvf.fr = s.fr := rfl
@[simp] theorem setOvf_pl (s : State) : s.setOvf.pl = s.pl := rfl
@[simp] theorem setOvf_se (s : State) : s.setOvf.se = s.se := rfl
@[simp] theorem setOvf_events (s : State) : s.setOvf.events = s.events := rfl
@[simp] theorem setOvf_dev (s : State) : s.setOvf.dev = s.dev := rfl
@[simp] theorem setOvf_port (s : State) : s.setOvf.port = s.port := rfl
@[simp] theorem setOvf_draws (s : State) : s.setOvf.draws = s.draws := rfl

@[simp] theorem bwRestart_params (s : State) : s.bwRestart.params = s.params := rfl
@[simp] theorem bwRestart_args (s : State) : s.bwRestart.args = s.args := rfl
@[simp] theorem bwRestart_res (s : State) : s.bwRestart.res = s.res := rfl
@[simp] theorem bwRestart_mem (s : State) : s.bwRestart.mem = s.mem := rfl
@[simp] theorem bwRestart_bw (s : State) : s.bwRestart.bw = { s.bw with pos := 0, ovf := false } := rfl
@[simp] theorem bwRestart_fr (s : State) : s.bwRestart.fr = s.fr := rfl
@[simp] theorem bwRestart_pl (s : State) : s.bwRestart.pl = s.pl := rfl
@[simp] theorem bwRestart_se (s : State) : s.bwRestart.se = s.se := rfl
@[simp] theorem bwRestart_events (s : State) : s.bwRestart.events = s.events := rfl
@[simp] theorem bwRestart_dev (s : State) : s.bwRestart.dev = s.dev := rfl
@[simp] theorem bwRestart_port (s : State) : s.bwRestart.port = s.port := rfl
@[simp] theorem bwRestart_draws (s : State) : s.bwRestart.draws = s.draws := rfl

/-! ### `State.finish` -/

/-- Completing a command answers a next state: the one it is given, with the status in `r0` (R301). -/
theorem finish_eq (st : Status) (s : State) : s.finish st = .next (s.setR0 st.word) := rfl

/-- The only next state of a completion. -/
theorem finish_next {st : Status} {s t : State} (h : s.finish st = .next t) : t = s.setR0 st.word := by
  simpa [finish_eq] using h.symm

end Sys2Proof.Machine
end

