-- ==== Sys2Proof/Laws/BitWriter.lean ====
section
/-! SUPPORT. What the BitWriter's shared operations can do, each said once: bit strings, bits of the buffer,
`PutBits`, writers, sequences of writers. -/

namespace Sys2Proof.Machine

/-! ### Bit strings -/

@[simp] theorem bin_length (v n : Nat) : (bin v n).length = n := by
  induction n with
  | zero => rfl
  | succ n ih => simp [bin, ih]

/-- Element `i` of `bin v n` is bit `n - 1 - i` of `v`. -/
theorem bin_getD (v n i : Nat) (h : i < n) : (bin v n).getD i false = v.testBit (n - 1 - i) := by
  induction n generalizing i with
  | zero => omega
  | succ n ih =>
    cases i with
    | zero => simp [bin]
    | succ i =>
      simp only [bin, List.getD_cons_succ]
      rw [ih i (by omega)]; congr 1; omega

/-- The bit string of a value below `2^k`, widened, begins with zeros. -/
theorem bin_widen (v k : Nat) (hv : v < 2 ^ k) (z : Nat) : bin v (z + k) = List.replicate z false ++ bin v k := by
  induction z with
  | zero => simp
  | succ z ih =>
    rw [show z + 1 + k = (z + k) + 1 by omega, bin, ih, List.replicate_succ, List.cons_append]
    congr 1
    exact Nat.testBit_lt_two_pow (lt_of_lt_of_le hv (Nat.pow_le_pow_right (by omega) (by omega)))

/-- The `(2k+1)`-bit form of `v + 1` is `UeCode(v)` (R120, R128). -/
theorem bin_ueField (v : Nat) : bin (ueField v).2 (ueField v).1 = ueCode v := by
  simp only [ueField, ueCode]
  rw [show 2 * (v + 1).log2 + 1 = (v + 1).log2 + ((v + 1).log2 + 1) by omega]
  exact bin_widen _ _ (Nat.lt_log2_self) _

/-! ### One bit -/

/-- `x[j] <- b` sets bit `j` and keeps the others. -/
theorem setBit_getLsbD (x : Byte) (j k : Nat) (b : Bool) (hk : k < 8) :
    (setBit x j b).getLsbD k = if k = j then b else x.getLsbD k := by
  unfold setBit
  by_cases h : k = j
  · subst h; cases b <;> simp [hk]
  · cases b <;> simp [h, hk]

/-- Inside a buffer that lies in the address space, bit `p` is in byte `base + p / 8` (R26). -/
theorem bitAddr_eq {base : Word} {p cap : Nat} (hp : p < 8 * cap) (hb : base.toNat + cap ≤ memSize) :
    bitAddr base p = base.toNat + p / 8 := by
  unfold memSize at hb
  simp only [bitAddr, BitVec.toNat_add, BitVec.toNat_ofNat]
  omega

/-- Two bits of such a buffer at one place are one bit. -/
theorem bitAddr_inj {base : Word} {p q cap : Nat} (hp : p < 8 * cap) (hq : q < 8 * cap)
    (hb : base.toNat + cap ≤ memSize) (ha : bitAddr base p = bitAddr base q) (hj : 7 - p % 8 = 7 - q % 8) : p = q := by
  rw [bitAddr_eq hp hb, bitAddr_eq hq hb] at ha
  omega

/-- MEM addresses formed in 32 bits lie in the address space. -/
theorem bitAddr_lt (base : Word) (p : Nat) : bitAddr base p < memSize := (base + BitVec.ofNat 32 (p / 8)).isLt

/-- A bit of MEM after one buffer bit is written. -/
theorem writeBit_getLsbD (m : Memory) (base : Word) (p : Nat) (b : Bool) (a j : Nat) (hj : j < 8) :
    (memByte (writeBit m base p b) a).getLsbD j =
      if a = bitAddr base p ∧ j = 7 - p % 8 then b else (memByte m a).getLsbD j := by
  unfold writeBit
  by_cases ha : a = bitAddr base p
  · subst ha; rw [memByte_put_same, setBit_getLsbD _ _ _ _ hj]; simp
  · rw [memByte_put_ne _ _ _ _ ha]; simp [ha]

/-- Writing bits keeps MEM's canonical form. -/
theorem wf_writeBits {m : Memory} (base : Word) (p : Nat) (bs : List Bool) (h : m.wf memSize = true) :
    (writeBits m base p bs).wf memSize = true := by
  induction bs generalizing m p with
  | nil => exact h
  | cons b bs ih => exact ih (p + 1) (wf_put _ _ (bitAddr_lt base p) h)

/-- Everything `writeBits` does, for a bit string that fits into a buffer inside the address space (R122). -/
theorem writeBits_wrote (m : Memory) (base : Word) (cap p : Nat) (bs : List Bool)
    (hp : p + bs.length ≤ 8 * cap) (hb : base.toNat + cap ≤ memSize) :
    wroteBits m base p bs (writeBits m base p bs) := by
  induction bs generalizing m p with
  | nil => exact ⟨fun k hk => by simp at hk, fun a j _ _ => rfl⟩
  | cons b bs ih =>
    simp only [List.length_cons] at hp
    obtain ⟨h1, h2⟩ := ih (writeBit m base p b) (p + 1) (by omega)
    refine ⟨fun k hk => ?_, fun a j hj hout => ?_⟩
    · simp only [List.length_cons] at hk
      cases k with
      | zero =>
        simp only [Nat.add_zero, List.getD_cons_zero, bufBit, writeBits]
        rw [h2 _ _ (by omega), writeBit_getLsbD _ _ _ _ _ _ (by omega), if_pos ⟨rfl, rfl⟩]
        rintro k hk ⟨ha, hj⟩
        have := bitAddr_inj (by omega) (by omega) hb ha hj
        omega
      | succ k =>
        simp only [List.getD_cons_succ, writeBits]
        rw [show p + (k + 1) = p + 1 + k by omega]
        exact h1 k (by omega)
    · simp only [writeBits]
      rw [h2 a j hj, writeBit_getLsbD _ _ _ _ _ _ hj, if_neg]
      · exact hout 0 (by simp)
      · intro k hk
        have := hout (k + 1) (by simpa using hk)
        rwa [show p + (k + 1) = p + 1 + k by omega] at this

/-- Two bit strings written one after the other are their concatenation written once. -/
theorem writeBits_append (m : Memory) (base : Word) (p : Nat) (xs ys : List Bool) :
    writeBits m base p (xs ++ ys) = writeBits (writeBits m base p xs) base (p + xs.length) ys := by
  induction xs generalizing m p with
  | nil => rfl
  | cons x xs ih =>
    simp only [List.cons_append, writeBits, List.length_cons, ih]
    congr 1; omega

/-! ### PutBits -/

/-- What a `PutBits` that fits leaves (R122). -/
def appended (s : State) (bs : List Bool) : State :=
  (s.withMem (writeBits s.mem s.bw.base s.bw.pos.toNat bs)).withBw
    { s.bw with pos := s.bw.pos + BitVec.ofNat 32 bs.length }

@[simp] theorem appended_bw_base (s : State) (bs : List Bool) : (appended s bs).bw.base = s.bw.base := rfl
@[simp] theorem appended_bw_cap (s : State) (bs : List Bool) : (appended s bs).bw.cap = s.bw.cap := rfl
@[simp] theorem appended_bw_ovf (s : State) (bs : List Bool) : (appended s bs).bw.ovf = s.bw.ovf := rfl
@[simp] theorem appended_bw_pos (s : State) (bs : List Bool) :
    (appended s bs).bw.pos = s.bw.pos + BitVec.ofNat 32 bs.length := rfl
@[simp] theorem appended_mem (s : State) (bs : List Bool) :
    (appended s bs).mem = writeBits s.mem s.bw.base s.bw.pos.toNat bs := rfl

/-- Everything `PutBits` can do (R122): the field is appended, or the flag is set. -/
theorem putBits_cases (n val : Nat) (s : State) :
    (s.bwFits n = true ∧ putBits n val s = (true, appended s (bin val n))) ∨
    (s.bwFits n = false ∧ putBits n val s = (false, s.setOvf)) := by
  unfold putBits
  cases h : s.bwFits n
  · exact .inr ⟨rfl, rfl⟩
  · exact .inl ⟨rfl, by simp [appended]⟩

/-- `PutBits(0, v)` always succeeds and changes nothing (R122), in a state whose cursor is inside its buffer. -/
theorem putBits_zero (v : Nat) (s : State) (h : s.bw.pos.toNat ≤ 8 * s.bw.cap.toNat) : putBits 0 v s = (true, s) := by
  rcases putBits_cases 0 v s with ⟨_, e⟩ | ⟨hf, _⟩
  · rw [e]
    simp [appended, bin, writeBits, State.withMem, State.withBw]
  · simp [State.bwFits] at hf; omega

/-- The cursor after a field that fits, as a number (R122, R27). -/
theorem appended_pos (s : State) (bs : List Bool) (hok : s.bw.ok)
    (hf : s.bw.pos.toNat + bs.length ≤ 8 * s.bw.cap.toNat) :
    (appended s bs).bw.pos.toNat = s.bw.pos.toNat + bs.length := by
  obtain ⟨_, h2, _⟩ := hok
  unfold maxCap at h2
  simp only [appended_bw_pos, BitVec.toNat_add, BitVec.toNat_ofNat]
  omega

/-- A field that fits keeps the cursor inside its buffer (R27). -/
theorem appended_ok (s : State) (bs : List Bool) (hok : s.bw.ok)
    (hf : s.bw.pos.toNat + bs.length ≤ 8 * s.bw.cap.toNat) : (appended s bs).bw.ok := by
  refine ⟨hok.1, hok.2.1, ?_⟩
  rw [appended_pos s bs hok hf]; exact hf

/-- A field that fits writes exactly its bits (R122). -/
theorem appended_wrote (s : State) (bs : List Bool) (hok : s.bw.ok)
    (hf : s.bw.pos.toNat + bs.length ≤ 8 * s.bw.cap.toNat) :
    wroteBits s.mem s.bw.base s.bw.pos.toNat bs (appended s bs).mem :=
  writeBits_wrote _ _ _ _ _ hf hok.1

/-- Two fields one after the other are one field with both strings. -/
theorem appended_append (s : State) (xs ys : List Bool) (hok : s.bw.ok)
    (hf : s.bw.pos.toNat + xs.length ≤ 8 * s.bw.cap.toNat) :
    appended (appended s xs) ys = appended s (xs ++ ys) := by
  have hp := appended_pos s xs hok hf
  rw [appended, hp]
  simp only [appended_mem, appended_bw_base, ← writeBits_append]
  simp [appended, State.withMem, State.withBw, BitVec.ofNat_add, BitVec.add_assoc]

/-- `bwFits` as an inequality. -/
theorem bwFits_iff (s : State) (n : Nat) :
    s.bwFits n = true ↔ s.bw.pos.toNat + n ≤ 8 * s.bw.cap.toNat := by simp [State.bwFits]

/-- A failed write keeps the cursor (R28). -/
theorem setOvf_ok (s : State) (h : s.bw.ok) : s.setOvf.bw.ok := h

/-- Restarting the cursor keeps it inside its buffer (R163). -/
theorem bwRestart_ok (s : State) (h : s.bw.ok) : s.bwRestart.bw.ok := ⟨h.1, h.2.1, by simp⟩

/-! ### Writers -/

/-- The bit string a writer hands over at a bit position. -/
def Writer.bits (pos : Nat) (w : Writer) : List Bool := bin (w.field pos).2 (w.field pos).1

@[simp] theorem Writer.bits_length (pos : Nat) (w : Writer) : (w.bits pos).length = (w.field pos).1 := by
  simp [Writer.bits]

/-- Everything a writer can do. -/
theorem putWriter_cases (w : Writer) (s : State) :
    (s.bwFits (w.field s.bw.pos.toNat).1 = true ∧ putWriter w s = (true, appended s (w.bits s.bw.pos.toNat))) ∨
    (s.bwFits (w.field s.bw.pos.toNat).1 = false ∧ putWriter w s = (false, s.setOvf)) :=
  putBits_cases _ _ s

theorem writerBits_cons (pos : Nat) (w : Writer) (ws : List Writer) :
    writerBits pos (w :: ws) = w.bits pos ++ writerBits (pos + (w.field pos).1) ws := rfl

/-- Writers that all fit append the concatenation of their strings (R160). -/
theorem putWriters_fit (ws : List Writer) (s : State) (hok : s.bw.ok)
    (hf : s.bw.pos.toNat + (writerBits s.bw.pos.toNat ws).length ≤ 8 * s.bw.cap.toNat) :
    putWriters ws s = (true, appended s (writerBits s.bw.pos.toNat ws)) := by
  induction ws generalizing s with
  | nil => simp [putWriters, writerBits, appended, writeBits, State.withMem, State.withBw]
  | cons w ws ih =>
    rw [writerBits_cons, List.length_append, Writer.bits_length] at hf
    rcases putWriter_cases w s with ⟨_, e⟩ | ⟨hn, _⟩
    · rw [putWriters, e]
      simp only [if_true]
      have hw : s.bw.pos.toNat + (w.bits s.bw.pos.toNat).length ≤ 8 * s.bw.cap.toNat := by simp; omega
      have hp := appended_pos s _ hok hw
      rw [Writer.bits_length] at hp
      rw [ih _ (appended_ok s _ hok hw) (by rw [hp, appended_bw_cap]; omega), appended_append s _ _ hok hw,
        writerBits_cons, hp]
    · simp [State.bwFits] at hn; omega

/-- Writers that do not all fit stop at the first that does not: the strings before it are in the buffer and the
flag is set (R160). -/
theorem putWriters_stop (ws : List Writer) (s : State) (hok : s.bw.ok)
    (hf : 8 * s.bw.cap.toNat < s.bw.pos.toNat + (writerBits s.bw.pos.toNat ws).length) :
    ∃ ws1 w ws2, ws = ws1 ++ w :: ws2 ∧
      s.bw.pos.toNat + (writerBits s.bw.pos.toNat ws1).length ≤ 8 * s.bw.cap.toNat ∧
      8 * s.bw.cap.toNat < s.bw.pos.toNat + (writerBits s.bw.pos.toNat (ws1 ++ [w])).length ∧
      putWriters ws s = (false, (appended s (writerBits s.bw.pos.toNat ws1)).setOvf) := by
  induction ws generalizing s with
  | nil => simp [writerBits] at hf; obtain ⟨_, _, h⟩ := hok; omega
  | cons w ws ih =>
    rcases putWriter_cases w s with ⟨hy, e⟩ | ⟨hn, e⟩
    · have hw : s.bw.pos.toNat + (w.bits s.bw.pos.toNat).length ≤ 8 * s.bw.cap.toNat := by
        rw [Writer.bits_length]; exact (bwFits_iff s _).1 hy
      have hp := appended_pos s _ hok hw
      rw [Writer.bits_length] at hp
      rw [writerBits_cons, List.length_append, Writer.bits_length] at hf
      obtain ⟨ws1, v, ws2, he, h1, h2, h3⟩ := ih (appended s (w.bits s.bw.pos.toNat)) (appended_ok s _ hok hw)
        (by rw [hp, appended_bw_cap]; omega)
      rw [hp] at h1 h2 h3
      refine ⟨w :: ws1, v, ws2, by simp [he], ?_, ?_, ?_⟩
      · rw [writerBits_cons, List.length_append, Writer.bits_length]; rw [appended_bw_cap] at h1; omega
      · rw [List.cons_append, writerBits_cons, List.length_append, Writer.bits_length]
        rw [appended_bw_cap] at h2; omega
      · rw [putWriters, e]
        simp only [if_true]
        rw [h3, appended_append s _ _ hok hw, writerBits_cons]
    · refine ⟨[], w, ws, rfl, ?_, ?_, ?_⟩
      · simp [writerBits]; exact hok.2.2
      · simp only [List.nil_append, writerBits, List.append_nil, bin_length]
        simpa [State.bwFits] using hn
      · rw [putWriters, e]
        simp [writerBits, appended, writeBits, State.withMem, State.withBw]

/-- A sequence of bytes that fits is appended bit by bit (R131). -/
theorem putByteSeq_fit (bs : List Byte) (s : State) (hok : s.bw.ok)
    (hf : s.bw.pos.toNat + 8 * bs.length ≤ 8 * s.bw.cap.toNat) :
    putByteSeq bs s = appended s (bs.flatMap byteBits) := by
  induction bs generalizing s with
  | nil => simp [putByteSeq, appended, writeBits, State.withMem, State.withBw]
  | cons b bs ih =>
    simp only [List.length_cons] at hf
    rcases putBits_cases 8 b.toNat s with ⟨_, e⟩ | ⟨hn, _⟩
    · have hw : s.bw.pos.toNat + (bin b.toNat 8).length ≤ 8 * s.bw.cap.toNat := by simp; omega
      have hp := appended_pos s _ hok hw
      rw [bin_length] at hp
      rw [putByteSeq, e]
      simp only
      rw [ih _ (appended_ok s _ hok hw) (by rw [hp, appended_bw_cap]; omega), appended_append s _ _ hok hw]
      rfl
    · simp [State.bwFits] at hn; omega

/-! ### Frames: what writers leave alone, whatever the state -/

/-- `t` is `s` but for MEM and the BitCursor, whose buffer is the same. -/
def bwOnly (s t : State) : Prop :=
  t = (s.withMem t.mem).withBw t.bw ∧ t.bw.base = s.bw.base ∧ t.bw.cap = s.bw.cap

theorem bwOnly_refl (s : State) : bwOnly s s := ⟨rfl, rfl, rfl⟩

theorem bwOnly_trans {s t u : State} (h : bwOnly s t) (h' : bwOnly t u) : bwOnly s u := by
  obtain ⟨a, b, c⟩ := h
  obtain ⟨a', b', c'⟩ := h'
  refine ⟨?_, b'.trans b, c'.trans c⟩
  rw [a', a]
  rfl

theorem putBits_bwOnly (n v : Nat) (s : State) : bwOnly s (putBits n v s).2 := by
  rcases putBits_cases n v s with ⟨_, e⟩ | ⟨_, e⟩ <;> rw [e] <;> exact ⟨rfl, rfl, rfl⟩

theorem putWriters_bwOnly (ws : List Writer) (s : State) : bwOnly s (putWriters ws s).2 := by
  induction ws generalizing s with
  | nil => exact bwOnly_refl s
  | cons w ws ih =>
    rw [putWriters]
    split
    · exact bwOnly_trans (putBits_bwOnly _ _ s) (ih _)
    · exact putBits_bwOnly _ _ s

theorem putByteSeq_bwOnly (bs : List Byte) (s : State) : bwOnly s (putByteSeq bs s) := by
  induction bs generalizing s with
  | nil => exact bwOnly_refl s
  | cons b bs ih => exact bwOnly_trans (putBits_bwOnly _ _ s) (ih _)

/-! ### Soundness -/

/-- The BitWriter's part of the invariant. -/
def bwSound (s : State) : Prop := s.mem.wf memSize = true ∧ s.bw.ok

theorem putBits_sound (n v : Nat) (s : State) (h : bwSound s) : bwSound (putBits n v s).2 := by
  rcases putBits_cases n v s with ⟨hf, e⟩ | ⟨_, e⟩ <;> rw [e]
  · exact ⟨wf_writeBits _ _ _ h.1, appended_ok s _ h.2 (by simpa [State.bwFits] using hf)⟩
  · exact h

theorem putWriters_sound (ws : List Writer) (s : State) (h : bwSound s) : bwSound (putWriters ws s).2 := by
  induction ws generalizing s with
  | nil => exact h
  | cons w ws ih =>
    rw [putWriters]
    split
    · exact ih _ (putBits_sound _ _ s h)
    · exact putBits_sound _ _ s h

theorem putByteSeq_sound (bs : List Byte) (s : State) (h : bwSound s) : bwSound (putByteSeq bs s) := by
  induction bs generalizing s with
  | nil => exact h
  | cons b bs ih => exact ih _ (putBits_sound _ _ s h)

/-- The flag is sticky under writers (R28). -/
theorem putBits_ovf (n v : Nat) (s : State) (h : s.bw.ovf = true) : (putBits n v s).2.bw.ovf = true := by
  rcases putBits_cases n v s with ⟨_, e⟩ | ⟨_, e⟩ <;> rw [e]
  · exact h
  · rfl

theorem putByteSeq_ovf (bs : List Byte) (s : State) (h : s.bw.ovf = true) : (putByteSeq bs s).bw.ovf = true := by
  induction bs generalizing s with
  | nil => exact h
  | cons b bs ih => exact ih _ (putBits_ovf _ _ s h)

end Sys2Proof.Machine
end

