-- ==== Sys2Proof/Laws/NalSynth.lean ====
section
/-! SUPPORT. What the NalUnitSynthesizer's shared operations can do, each said once: the escape loop, the copy
into the destination, running a parameter set's writers. -/

namespace Sys2Proof.Machine

/-! ### The escape loop -/

@[simp] theorem escapeFrom_nil (zc : Nat) : escapeFrom zc [] = [] := rfl

/-- The loop inserts `03` before a byte below 4 that follows two counted zeros (R150). -/
theorem escapeFrom_insert (b : Byte) (bs : List Byte) (h : b.toNat < 4) :
    escapeFrom 2 (b :: bs) = 0x03#8 :: b :: escapeFrom (if b = 0#8 then 1 else 0) bs := by
  rw [escapeFrom, if_pos ⟨rfl, h⟩]

/-- Otherwise the loop copies the byte and counts zeros (R150). -/
theorem escapeFrom_copy (zc : Nat) (b : Byte) (bs : List Byte) (h : ¬ (zc = 2 ∧ b.toNat < 4)) :
    escapeFrom zc (b :: bs) = b :: escapeFrom (if b = 0#8 then zc + 1 else 0) bs := by
  rw [escapeFrom, if_neg h]

/-- The zero count never exceeds 2 (R150). -/
theorem zeroCount_le {zc : Nat} {b : Byte} (hz : zc ≤ 2) (h : ¬ (zc = 2 ∧ b.toNat < 4)) :
    (if b = 0#8 then zc + 1 else 0) ≤ 2 := by
  split_ifs with hb
  · subst hb
    have : zc ≠ 2 := fun e => h ⟨e, by decide⟩
    omega
  · omega

/-- The loop never shortens, and twice its insertions are bounded by the bytes and the zeros counted so far. -/
theorem escapeFrom_length (zc : Nat) (bs : List Byte) (hz : zc ≤ 2) :
    bs.length ≤ (escapeFrom zc bs).length ∧ 2 * (escapeFrom zc bs).length ≤ 3 * bs.length + zc := by
  induction bs generalizing zc with
  | nil => simp
  | cons b bs ih =>
    by_cases h : zc = 2 ∧ b.toNat < 4
    · obtain ⟨rfl, h4⟩ := h
      rw [escapeFrom_insert b bs h4]
      simp only [List.length_cons]
      have := ih (if b = 0#8 then 1 else 0) (by split_ifs <;> omega)
      split_ifs at this ⊢ <;> omega
    · rw [escapeFrom_copy zc b bs h]
      simp only [List.length_cons]
      have := ih _ (zeroCount_le hz h)
      split_ifs at this ⊢ <;> omega

/-- `Escape` never shortens (R151). -/
theorem le_escape_length (x : List Byte) : x.length ≤ (escape x).length := by
  have := (escapeFrom_length 0 x (by omega)).1
  simp only [escape, List.length_append]; omega

/-! ### The copy -/

/-- Everything `NS_ESCAPE` and `NS_NAL` can do (R153, R154, R156). -/
theorem escapeInto_cases (lead : List Byte) (s : State) :
    let bad := rangeWraps s.args.a0 s.args.a1.toNat || rangeWraps s.args.a2 s.args.a3.toNat
      || rangesMeet s.args.a0 s.args.a1.toNat s.args.a2 s.args.a3.toNat
    let out := lead ++ escape (memRead s.mem s.args.a0.toNat s.args.a1.toNat)
    (bad = true ∧ escapeInto lead s = s.finish .illegalOperand) ∨
    (bad = false ∧ s.args.a3.toNat < out.length ∧
      escapeInto lead s = ((s.abortDest s.args.a2 s.args.a3.toNat).setR1 0).finish .bufferTooSmall) ∨
    (bad = false ∧ out.length ≤ s.args.a3.toNat ∧
      escapeInto lead s =
        ((s.withMem (s.mem.putBytes s.args.a2.toNat out)).setR1 (BitVec.ofNat 32 out.length)).finish .ok) := by
  intro bad out
  unfold escapeInto
  cases h : bad
  · rw [if_neg (by simpa [bad] using h)]
    by_cases h2 : s.args.a3.toNat < out.length
    · exact .inr (.inl ⟨rfl, h2, by rw [if_pos h2]⟩)
    · exact .inr (.inr ⟨rfl, by omega, by rw [if_neg h2]⟩)
  · exact .inl ⟨rfl, by rw [if_pos h]⟩

/-- No byte outside the destination range changes when an escape is aborted (R154). -/
theorem memByte_abortDest (s : State) (a : Word) (len k : Nat) (h : ¬ (a.toNat ≤ k ∧ k < a.toNat + len)) :
    memByte (s.abortDest a len).mem k = memByte s.mem k := by
  simp only [State.abortDest, withDraws_mem, withMem_mem]
  rw [memByte_putBytes, if_neg (by simpa using h)]

/-- The range does not wrap, as an inequality. -/
theorem rangeWraps_false {a : Word} {len : Nat} : rangeWraps a len = false ↔ a.toNat + len ≤ memSize := by
  simp [rangeWraps]

theorem rangeWraps_true {a : Word} {len : Nat} : rangeWraps a len = true ↔ memSize < a.toNat + len := by
  simp [rangeWraps]

/-- Two ranges that do not meet share no address. -/
theorem rangesMeet_false {a b : Word} {la lb : Nat} :
    rangesMeet a la b lb = false ↔
      la = 0 ∨ lb = 0 ∨ b.toNat + lb ≤ a.toNat ∨ a.toNat + la ≤ b.toNat := by
  simp only [rangesMeet, decide_eq_false_iff_not]; omega

/-! ### Parameter sets -/

/-- Everything `NS_SPS` and `NS_PPS` can do once their operands are legal (R160, R163, R175). -/
theorem emitRbsp_cases (ws : List Writer) (s : State) :
    ((putWriters ws s.bwRestart).1 = true ∧
      emitRbsp ws s = ((putWriters ws s.bwRestart).2.setR1
        (BitVec.ofNat 32 ((putWriters ws s.bwRestart).2.bw.pos.toNat / 8))).finish .ok) ∨
    ((putWriters ws s.bwRestart).1 = false ∧
      emitRbsp ws s = ((putWriters ws s.bwRestart).2.setR1 0).finish .bitOverflow) := by
  unfold emitRbsp
  cases h : (putWriters ws s.bwRestart).1
  · exact .inr ⟨rfl, by simp only [h]; rfl⟩
  · exact .inl ⟨rfl, by simp only [h]; rfl⟩

/-- The strings of writers run one after another, split at any point. -/
theorem writerBits_append (pos : Nat) (ws vs : List Writer) :
    writerBits pos (ws ++ vs) = writerBits pos ws ++ writerBits (pos + (writerBits pos ws).length) vs := by
  induction ws generalizing pos with
  | nil => simp [writerBits]
  | cons w ws ih =>
    simp only [List.cons_append, writerBits_cons, ih, List.append_assoc, List.length_append, Writer.bits_length]
    rw [Nat.add_assoc]

/-- The trailing bits end on a byte boundary (R130). -/
theorem writerBits_trail_aligned (ws : List Writer) (pos : Nat) :
    (pos + (writerBits pos (ws ++ [.trail])).length) % 8 = 0 := by
  rw [writerBits_append]
  simp only [writerBits, List.append_nil, List.length_append, bin_length, Writer.field, trailField]
  omega

end Sys2Proof.Machine
end

