-- ==== Sys2Proof/Laws/Framer.lean ====
section
/-! SUPPORT. What the framer's µ-operations can do, each said once: what they leave alone, and that the
invariant of the ParserContext is kept. -/

namespace Sys2Proof.Machine

/-! ### Events -/

/-- Everything `OnEvent` can do (R209, R212): nothing but the last tag; the event joins the unit being
assembled; or it ends that unit. -/
theorem onEvent_cases (off : Nat) (tag : Tag) (f : Framer) (htag : tag = .header ∨ tag = .picture) :
    (f.getHead = true ∧ tag = .picture ∧ f.hdrCnt = 0 ∧ onEvent off tag f = { f with lastTag := tag }) ∨
    (tag = .header ∧ (f.getHead = true ∨ f.picCnt = 0) ∧
      onEvent off tag f = { f with lastTag := tag, hdrCnt := satInc f.hdrCnt,
                                   unitStart := if f.hdrCnt = 0 then off else f.unitStart }) ∨
    (tag = .picture ∧ f.getHead = false ∧ f.picCnt = 0 ∧
      onEvent off tag f = { f with lastTag := tag, picCnt := 1,
                                   unitStart := if f.hdrCnt = 0 then off else f.unitStart }) ∨
    ((f.hdrCnt ≠ 0 ∨ f.picCnt ≠ 0) ∧ ∃ h c, (h ≠ 0 ∨ c ≠ 0) ∧
      onEvent off tag f = { f with lastTag := tag, pending := true, pendEnd := off,
                                   pendTag := (if f.getHead then Tag.header else .picture),
                                   hdrCnt := h, picCnt := c }) := by
  unfold onEvent
  cases hg : f.getHead
  · rw [if_neg (by simp)]
    unfold onEventNormal Framer.startUnit Framer.endUnit
    by_cases hp : f.picCnt = 0
    · rw [if_neg (by simp [hp])]
      rcases htag with rfl | rfl
      · refine .inr (.inl ⟨rfl, .inr hp, ?_⟩)
        rw [if_pos rfl]
        by_cases hh : f.hdrCnt = 0 <;> simp only [hh, if_true, if_false]
      · refine .inr (.inr (.inl ⟨rfl, rfl, hp, ?_⟩))
        rw [if_neg (by simp)]
        by_cases hh : f.hdrCnt = 0 <;> simp only [hh, if_true, if_false]
    · rw [if_pos (by simpa using hp)]
      refine .inr (.inr (.inr ⟨.inr hp, ?_⟩))
      rcases htag with rfl | rfl
      · exact ⟨1, 0, .inl (by decide), by simp⟩
      · exact ⟨0, 1, .inr (by decide), by simp⟩
  · rw [if_pos (by simp)]
    unfold onEventHead Framer.startUnit Framer.endUnit
    rcases htag with rfl | rfl
    · refine .inr (.inl ⟨rfl, .inl rfl, ?_⟩)
      rw [if_pos rfl]
      by_cases hh : f.hdrCnt = 0 <;> simp only [hh, if_true, if_false]
    · rw [if_neg (by simp)]
      by_cases hh : f.hdrCnt = 0
      · refine .inl ⟨rfl, rfl, hh, ?_⟩
        rw [if_neg (by simp [hh])]
      · refine .inr (.inr (.inr ⟨.inl hh, 0, 1, .inr (by decide), ?_⟩))
        rw [if_pos (by simpa using hh)]
        simp

theorem satInc_ne (c : Word) : satInc c ≠ 0 := by
  unfold satInc
  split
  · next h => rw [h]; decide
  · next h =>
    intro h0
    apply h
    have : c = 0 - 1 := by rw [← h0]; simp
    rw [this]; rfl

/-- What an event leaves alone. -/
structure SameFlow (f g : Framer) : Prop where
  valid : g.valid = f.valid
  head : g.head = f.head
  tail : g.tail = f.tail
  mode : g.mode = f.mode
  getHead : g.getHead = f.getHead
  ring : g.ring = f.ring

theorem SameFlow.refl (f : Framer) : SameFlow f f := ⟨rfl, rfl, rfl, rfl, rfl, rfl⟩

theorem SameFlow.trans {f g h : Framer} (a : SameFlow f g) (b : SameFlow g h) : SameFlow f h :=
  ⟨b.valid.trans a.valid, b.head.trans a.head, b.tail.trans a.tail, b.mode.trans a.mode,
    b.getHead.trans a.getHead, b.ring.trans a.ring⟩

theorem onEvent_flow (off : Nat) (tag : Tag) (f : Framer) :
    SameFlow f (onEvent off tag f) ∧ (onEvent off tag f).st = f.st ∧ (onEvent off tag f).read = f.read ∧
      (onEvent off tag f).scStart = f.scStart := by
  unfold onEvent onEventHead onEventNormal Framer.startUnit Framer.endUnit
  split_ifs <;> exact ⟨⟨rfl, rfl, rfl, rfl, rfl, rfl⟩, rfl, rfl, rfl⟩

/-- Everything one scanner step can do (R199 to R204, R210, R211): it consumes the byte and moves to the state
the table says, remembering where a start code begins, and then raises at most one event. -/
theorem scanStep_cases (p : Config.Params) (b : Byte) (f : Framer) :
    ∃ st sc sh, scanStep p b f = { f.stepTo st with scStart := sc, shLead := sh } ∨
      ∃ off tag, (tag = .header ∨ tag = .picture) ∧
        scanStep p b f = onEvent off tag { f.stepTo st with scStart := sc, shLead := sh } := by
  have shut : ∀ st, ∃ st' sc sh, f.stepTo st = { f.stepTo st' with scStart := sc, shLead := sh } ∨
      ∃ off tag, (tag = .header ∨ tag = .picture) ∧
        f.stepTo st = onEvent off tag { f.stepTo st' with scStart := sc, shLead := sh } :=
    fun st => ⟨st, f.scStart, f.shLead, .inl rfl⟩
  have saw2 : ∃ st sc sh, stepSaw2 b f = { f.stepTo st with scStart := sc, shLead := sh } ∨
      ∃ off tag, (tag = .header ∨ tag = .picture) ∧
        stepSaw2 b f = onEvent off tag { f.stepTo st with scStart := sc, shLead := sh } := by
    unfold stepSaw2
    split_ifs
    · exact ⟨.sawStartCode, f.read - 2, f.shLead, .inl rfl⟩
    · exact shut _
    · exact shut _
    · refine ⟨.idle, f.scStart, true, .inr ⟨f.read - 2, if f.shLead then .picture else .header, ?_, rfl⟩⟩
      cases f.shLead <;> simp
    · exact shut _
  unfold scanStep
  split
  · exact shut _
  · exact shut _
  · exact saw2
  · unfold stepSaw3
    split_ifs
    · exact ⟨.sawStartCode, f.read - 3, f.shLead, .inl rfl⟩
    · exact shut _
    · exact shut _
    · exact saw2
  · unfold stepClassify
    split
    · exact shut _
    · refine ⟨rescan b, f.scStart, if f.mode = .mpeg4 then false else f.shLead,
        .inr ⟨f.scStart, .header, .inl rfl, ?_⟩⟩
      unfold Framer.normalHeader
      by_cases h : (f.stepTo (rescan b)).mode = .mpeg4
      · rw [if_pos h]; congr 1; simp [show f.mode = .mpeg4 from h, Framer.stepTo]
      · rw [if_neg h]; congr 1; simp [show ¬ f.mode = .mpeg4 from h, Framer.stepTo]
    · exact ⟨rescan b, f.scStart, f.shLead, .inr ⟨f.scStart, .picture, .inr rfl, rfl⟩⟩
    · exact shut _
  · unfold stepLookahead
    split_ifs
    · exact ⟨rescan b, f.scStart, f.shLead, .inr ⟨f.scStart, .picture, .inr rfl, rfl⟩⟩
    · exact shut _

/-- A step consumes exactly one byte and leaves the ring, the mode and the other counters alone (R199). -/
theorem scanStep_flow (p : Config.Params) (b : Byte) (f : Framer) :
    SameFlow f (scanStep p b f) ∧ (scanStep p b f).read = f.read + 1 := by
  obtain ⟨st, sc, sh, h | ⟨off, tag, _, h⟩⟩ := scanStep_cases p b f
  · rw [h]; exact ⟨⟨rfl, rfl, rfl, rfl, rfl, rfl⟩, rfl⟩
  · rw [h]
    obtain ⟨a, _, c, _⟩ := onEvent_flow off tag { f.stepTo st with scStart := sc, shLead := sh }
    have e0 : SameFlow f { f.stepTo st with scStart := sc, shLead := sh } := ⟨rfl, rfl, rfl, rfl, rfl, rfl⟩
    exact ⟨e0.trans a, c⟩

/-! ### The invariant -/

theorem rescan_held (b : Byte) (f : Framer) (h : f.st = rescan b) : f.held ≤ 1 ∧
    f.st ≠ .saw0x3 ∧ f.st ≠ .inSliceLookahead ∧ f.st ≠ .sawStartCode := by
  rw [Framer.held, h]; unfold rescan; split_ifs <;> simp

/-- An event whose offset lies where it must keeps the invariant: the unit known so far ends no later than the
event, the event lies between the released bytes and the bytes held by the scanner. -/
theorem onEvent_ok (cap off : Nat) (tag : Tag) (f : Framer) (htag : tag = .header ∨ tag = .picture)
    (hok : f.ok cap) (hpend : f.pending = false) (h1 : f.tail ≤ off) (h2 : off + f.held ≤ f.read)
    (h3 : f.unitKnown → f.unitStart ≤ off) : (onEvent off tag f).ok cap := by
  obtain ⟨⟨c1, c2, c3, c4⟩, ⟨u1, u2, u3⟩, ⟨m1, m2⟩⟩ := hok
  have key : ∀ g : Framer, SameFlow f g → g.st = f.st → g.read = f.read → g.scStart = f.scStart →
      (g.unitKnown → g.tail ≤ g.unitStart) → (g.unitKnown → g.pending = false → g.unitStart + g.held ≤ g.read) →
      (g.pending = true → g.unitStart ≤ g.pendEnd ∧ g.pendEnd + g.held ≤ g.read) →
      (g.pending = true → g.pendTag = (if g.getHead then .header else .picture)) → g.ok cap := by
    intro g hs hst hr hsc a b c d
    have hheld : g.held = f.held := by simp only [Framer.held, hst, hr, hsc]
    refine ⟨⟨by rw [hr, hs.head]; exact c1, by rw [hs.head, hs.tail]; exact c2, by rw [hs.tail, hheld, hr]; exact c3,
      by rw [hst, hsc, hr]; exact c4⟩, ⟨a, b, c⟩, ⟨by rw [hs.mode, hst]; exact m1, d⟩⟩
  obtain ⟨hs, hst, hr, hsc⟩ := onEvent_flow off tag f
  have hheld : (onEvent off tag f).held = f.held := by simp only [Framer.held, hst, hr, hsc]
  have known : (f.hdrCnt ≠ 0 ∨ f.picCnt ≠ 0) → f.unitKnown := fun h => by
    rcases h with h | h
    · exact .inl h
    · exact .inr (.inl h)
  rcases onEvent_cases off tag f htag with ⟨_, _, _, e⟩ | ⟨_, _, e⟩ | ⟨_, _, _, e⟩ | ⟨hk, hh, c, hhc, e⟩
  · apply key _ hs hst hr hsc <;> (try rw [hheld]) <;> rw [e]
    · exact u1
    · exact u2
    · exact u3
    · exact m2
  · apply key _ hs hst hr hsc <;> (try rw [hheld]) <;> rw [e] <;> simp only [hpend, Framer.unitKnown]
    · intro _; split_ifs with h0
      · exact h1
      · exact u1 (.inl h0)
    · intro _ _; split_ifs with h0
      · exact h2
      · exact u2 (.inl h0) hpend
    · simp
    · simp
  · apply key _ hs hst hr hsc <;> (try rw [hheld]) <;> rw [e] <;> simp only [hpend, Framer.unitKnown]
    · intro _; split_ifs with h0
      · exact h1
      · exact u1 (.inl h0)
    · intro _ _; split_ifs with h0
      · exact h2
      · exact u2 (.inl h0) hpend
    · simp
    · simp
  · apply key _ hs hst hr hsc <;> (try rw [hheld]) <;> rw [e] <;> simp only
    · exact fun _ => u1 (known hk)
    · simp
    · exact fun _ => ⟨h3 (known hk), h2⟩
    · exact fun _ => trivial

/-- Moving to a state that holds no more than it may keeps the invariant. -/
theorem stepTo_ok (cap : Nat) (f : Framer) (st : ScanState) (sc : Nat) (sh : Bool) (hok : f.ok cap)
    (hpend : f.pending = false) (hread : f.read < f.head)
    (hheld : Framer.held { f.stepTo st with scStart := sc, shLead := sh } ≤ f.held + 1)
    (hsc : (st = .sawStartCode ∨ st = .inSliceLookahead) → sc ≤ f.read)
    (hm : f.mode ≠ .h264 → st ≠ .saw0x3 ∧ st ≠ .inSliceLookahead) :
    Framer.ok cap { f.stepTo st with scStart := sc, shLead := sh } := by
  obtain ⟨⟨c1, c2, c3, c4⟩, ⟨u1, u2, u3⟩, ⟨m1, m2⟩⟩ := hok
  set g : Framer := { f.stepTo st with scStart := sc, shLead := sh } with hg
  have hr : g.read = f.read + 1 := rfl
  refine ⟨⟨?_, c2, ?_, fun h => ?_⟩, ⟨u1, fun hk hp => ?_, fun hp => ?_⟩, ⟨hm, m2⟩⟩
  · rw [hr]; exact hread
  · rw [hr]; have : g.tail = f.tail := rfl; omega
  · have := hsc h; rw [hr]; show sc ≤ _; omega
  · have := u2 hk hpend; rw [hr]; have : g.unitStart = f.unitStart := rfl; omega
  · have : g.pending = f.pending := rfl; rw [this, hpend] at hp; cases hp

/-- One scanner step keeps the invariant (R199). -/
theorem scanStep_ok (p : Config.Params) (cap : Nat) (b : Byte) (f : Framer) (hok : f.ok cap)
    (hpend : f.pending = false) (hread : f.read < f.head) : (scanStep p b f).ok cap := by
  have hok' := hok
  obtain ⟨⟨c1, c2, c3, c4⟩, ⟨u1, u2, u3⟩, ⟨m1, m2⟩⟩ := hok'
  have go : ∀ st, (Framer.held (f.stepTo st) ≤ f.held + 1) →
      ((st = .sawStartCode ∨ st = .inSliceLookahead) → f.scStart ≤ f.read) →
      (f.mode ≠ .h264 → st ≠ .saw0x3 ∧ st ≠ .inSliceLookahead) → (f.stepTo st).ok cap :=
    fun st a b c => stepTo_ok cap f st f.scStart f.shLead hok hpend hread a b c
  have resc : (f.stepTo (rescan b)).ok cap := by
    obtain ⟨a, b, c, d⟩ := rescan_held b (f.stepTo (rescan b)) rfl
    refine go _ (by omega) (fun h => ?_) fun _ => ⟨b, c⟩
    rcases h with h | h
    · exact absurd h d
    · exact absurd h c
  have shut : (f.stepTo .idle).ok cap := go _ (by simp [Framer.held, Framer.stepTo]) (by simp) (by simp)
  -- an event at the start of a recognised start code
  have ev : ∀ (tag : Tag) (g : Framer), (tag = .header ∨ tag = .picture) →
      (f.st = .sawStartCode ∨ f.st = .inSliceLookahead) →
      (∃ sh, g = { f.stepTo (rescan b) with shLead := sh }) → (onEvent f.scStart tag g).ok cap := by
    rintro tag g ht hst ⟨sh, rfl⟩
    have hsc := c4 hst
    have hheld : f.held = f.read - f.scStart := by
      rcases hst with h | h <;> simp [Framer.held, h]
    obtain ⟨a, a1, a2, a3⟩ := rescan_held b { f.stepTo (rescan b) with shLead := sh } rfl
    refine onEvent_ok cap _ tag _ ht ?_ hpend ?_ ?_ ?_
    · exact stepTo_ok cap f (rescan b) f.scStart sh hok hpend hread (by
        have : Framer.held { f.stepTo (rescan b) with scStart := f.scStart, shLead := sh } ≤ 1 := a
        omega) (fun h => h.elim (fun h => absurd h a3) (fun h => absurd h a2)) fun _ => ⟨a1, a2⟩
    · show f.tail ≤ f.scStart; omega
    · show f.scStart + _ ≤ f.read + 1; omega
    · intro hk
      have : f.unitStart + f.held ≤ f.read := u2 hk hpend
      show f.unitStart ≤ f.scStart; omega
  have saw2 : (f.held = 2 ∨ f.st = .saw0x2) → (stepSaw2 b f).ok cap := by
    intro hst
    have h2 : f.held = 2 := by exact hst.elim id fun h => by simp [Framer.held, h]
    unfold stepSaw2
    split_ifs with h h' h'' h''
    · exact stepTo_ok cap f .sawStartCode (f.read - 2) f.shLead hok hpend hread
        (by simp only [Framer.held, Framer.stepTo] at *; omega) (fun _ => by omega) (by simp)
    · exact go _ (by rw [h2]; simp [Framer.held, Framer.stepTo]) (by simp) (fun h => absurd h'' h)
    · exact go _ (by rw [h2]; simp [Framer.held, Framer.stepTo]) (by simp) (by simp)
    · unfold shortHeader
      refine onEvent_ok cap _ _ _ ?_ ?_ hpend ?_ ?_ ?_
      · cases (f.stepTo .idle).shLead <;> simp
      · exact stepTo_ok cap f .idle f.scStart true hok hpend hread (by simp [Framer.held, Framer.stepTo]) (by simp)
          (by simp)
      · show f.tail ≤ f.read - 2; omega
      · show f.read - 2 + 0 ≤ f.read + 1; omega
      · intro hk
        have : f.unitStart + f.held ≤ f.read := u2 hk hpend
        show f.unitStart ≤ f.read - 2; omega
    · exact shut
  unfold scanStep
  split
  · exact resc
  · next hst =>
    have h1 : f.held = 1 := by simp [Framer.held, hst]
    split_ifs
    · exact go _ (by rw [h1]; simp [Framer.held, Framer.stepTo]) (by simp) (by simp)
    · exact shut
  · next hst => exact saw2 (.inr hst)
  · next hst =>
    have h3 : f.held = 3 := by simp [Framer.held, hst]
    unfold stepSaw3
    split_ifs with hm h h'
    · exact stepTo_ok cap f .sawStartCode (f.read - 3) f.shLead hok hpend hread
        (by simp only [Framer.held, Framer.stepTo] at *; omega) (fun _ => by omega) (by simp)
    · exact go _ (by rw [h3]; simp [Framer.held, Framer.stepTo]) (by simp) (fun h => absurd hm h)
    · exact shut
    · exact absurd hst (m1 hm).1
  · next hst =>
    have hsc := c4 (.inl hst)
    have hheld : f.held = f.read - f.scStart := by simp [Framer.held, hst]
    unfold stepClassify
    split
    · next hc =>
      refine go _ ?_ (fun _ => hsc) ?_
      · rw [hheld]; show f.read + 1 - f.scStart ≤ _; omega
      · intro hm
        cases hmd : f.mode with
        | h264 => exact absurd hmd hm
        | mpeg4 => rw [hmd] at hc; simp only [classify, classifyMpeg4] at hc; split_ifs at hc
        | mpeg12 => rw [hmd] at hc; simp only [classify, classifyMpeg12] at hc; split_ifs at hc
    · refine ev .header _ (.inl rfl) (.inl hst) ?_
      unfold Framer.normalHeader
      split_ifs
      · exact ⟨false, rfl⟩
      · exact ⟨f.shLead, rfl⟩
    · exact ev .picture _ (.inr rfl) (.inl hst) ⟨f.shLead, rfl⟩
    · exact resc
  · next hst =>
    unfold stepLookahead
    split_ifs
    · exact ev .picture _ (.inr rfl) (.inr hst) ⟨f.shLead, rfl⟩
    · exact resc

/-! ### FrScan -/

/-- An inversion of the scan: it does nothing, or takes one step and scans on (R194). -/
theorem scanN_succ (p : Config.Params) (n : Nat) (f : Framer) :
    (f.pending = false ∧ f.read < f.head ∧
      scanN p (n + 1) f = scanN p n (scanStep p (ringByte p.ringCap f.ring f.read) f)) ∨
    ((f.pending = true ∨ f.head ≤ f.read) ∧ scanN p (n + 1) f = f) := by
  rw [scanN]
  by_cases h : f.pending = false ∧ f.read < f.head
  · rw [if_pos h]; exact .inl ⟨h.1, h.2, rfl⟩
  · rw [if_neg h]
    refine .inr ⟨?_, rfl⟩
    cases hp : f.pending
    · simp [hp] at h; exact .inr h
    · exact .inl rfl

/-- Whatever every step keeps, the scan keeps. -/
theorem scanN_induct (p : Config.Params) (Q : Framer → Prop)
    (hstep : ∀ f b, f.pending = false → f.read < f.head → Q f → Q (scanStep p b f)) (n : Nat) (f : Framer)
    (h : Q f) : Q (scanN p n f) := by
  induction n generalizing f with
  | zero => exact h
  | succ n ih =>
    rcases scanN_succ p n f with ⟨a, b, e⟩ | ⟨_, e⟩ <;> rw [e]
    · exact ih _ (hstep f _ a b h)
    · exact h

theorem frScan_induct (p : Config.Params) (Q : Framer → Prop)
    (hstep : ∀ f b, f.pending = false → f.read < f.head → Q f → Q (scanStep p b f)) (f : Framer)
    (h : Q f) : Q (frScan p f) := scanN_induct p Q hstep _ f h

/-- The scan keeps the invariant. -/
theorem frScan_ok (p : Config.Params) (cap : Nat) (f : Framer) (h : f.ok cap) : (frScan p f).ok cap :=
  frScan_induct p (fun f => f.ok cap) (fun f b a c h => scanStep_ok p cap b f h a c) f h

/-- The scan moves no counter but `read`, and that only upward to at most `head`. -/
theorem frScan_flow (p : Config.Params) (f : Framer) (h : f.read ≤ f.head) :
    SameFlow f (frScan p f) ∧ f.read ≤ (frScan p f).read ∧ (frScan p f).read ≤ (frScan p f).head := by
  refine frScan_induct p (fun g => SameFlow f g ∧ f.read ≤ g.read ∧ g.read ≤ g.head) ?_ f
    ⟨SameFlow.refl f, le_refl _, h⟩
  rintro g b hp hr ⟨a, b', c⟩
  obtain ⟨hs, hrd⟩ := scanStep_flow p b g
  exact ⟨a.trans hs, by omega, by rw [hs.head, hrd]; omega⟩

theorem frScan_same (p : Config.Params) (f : Framer) : SameFlow f (frScan p f) :=
  frScan_induct p (fun g => SameFlow f g) (fun _ b _ _ h => h.trans (scanStep_flow p b _).1) f (SameFlow.refl f)

theorem scanN_ends (p : Config.Params) (n : Nat) (f : Framer) (h : f.head - f.read ≤ n) :
    (scanN p n f).pending = true ∨ (scanN p n f).head ≤ (scanN p n f).read := by
  induction n generalizing f with
  | zero => exact .inr (by simp only [scanN]; omega)
  | succ n ih =>
    rcases scanN_succ p n f with ⟨a, b, e⟩ | ⟨a, e⟩ <;> rw [e]
    · obtain ⟨hs, hr⟩ := scanStep_flow p (ringByte p.ringCap f.ring f.read) f
      exact ih _ (by rw [hs.head, hr]; omega)
    · exact a

/-- The scan stops at a boundary or at the last byte pushed (R194). -/
theorem frScan_ends (p : Config.Params) (f : Framer) :
    (frScan p f).pending = true ∨ (frScan p f).head ≤ (frScan p f).read := scanN_ends p _ f (le_refl _)

/-- With a unit pending, or nothing left to read, the scan does nothing (R194). -/
theorem frScan_stays (p : Config.Params) (f : Framer) (h : f.pending = true ∨ f.head ≤ f.read) : frScan p f = f := by
  unfold frScan
  cases hn : f.head - f.read with
  | zero => rfl
  | succ n =>
    rcases scanN_succ p n f with ⟨a, b, _⟩ | ⟨_, e⟩
    · rcases h with h | h
      · rw [h] at a; cases a
      · omega
    · exact e

/-- Extra fuel changes nothing. -/
theorem scanN_fuel (p : Config.Params) (n m : Nat) (f : Framer) (h : f.head - f.read ≤ n) :
    scanN p (n + m) f = scanN p n f := by
  induction n generalizing f with
  | zero =>
    simp only [scanN, Nat.zero_add]
    cases m with
    | zero => rfl
    | succ m =>
      rcases scanN_succ p m f with ⟨_, b, _⟩ | ⟨_, e⟩
      · omega
      · exact e
  | succ n ih =>
    rw [show n + 1 + m = (n + m) + 1 by omega]
    rcases scanN_succ p (n + m) f with ⟨a, b, e⟩ | ⟨a, e⟩
    · rcases scanN_succ p n f with ⟨a', b', e'⟩ | ⟨a', e'⟩
      · obtain ⟨hs, hr⟩ := scanStep_flow p (ringByte p.ringCap f.ring f.read) f
        rw [e, e', ih _ (by rw [hs.head, hr]; omega)]
      · rw [a] at a'; simp at a'; omega
    · rcases scanN_succ p n f with ⟨a', b', e'⟩ | ⟨a', e'⟩
      · rw [a'] at a; simp at a; omega
      · rw [e, e']

/-! ### FrPush and FrTake -/

/-- A push that fits keeps the invariant (R192). -/
theorem frPush_ok (cap : Nat) (bs : List Byte) (f : Framer) (h : f.ok cap) (hr : f.hasRoom cap bs.length = true) :
    (frPush cap bs f).ok cap := by
  obtain ⟨⟨c1, c2, c3, c4⟩, u, m⟩ := h
  simp only [Framer.hasRoom, decide_eq_true_eq] at hr
  refine ⟨⟨?_, ?_, c3, c4⟩, u, m⟩
  · show f.read ≤ f.head + bs.length; omega
  · show f.head + bs.length - f.tail ≤ cap; omega

/-- Taking the pending unit keeps the invariant (R194). -/
theorem take_ok (cap : Nat) (f : Framer) (h : f.ok cap) (hp : f.pending = true) : f.take.ok cap := by
  obtain ⟨⟨c1, c2, c3, c4⟩, ⟨u1, u2, u3⟩, ⟨m1, m2⟩⟩ := h
  obtain ⟨p1, p2⟩ := u3 hp
  have := u1 (.inr (.inr hp))
  have hheld : f.take.held = f.held := rfl
  refine ⟨⟨c1, ?_, ?_, c4⟩, ⟨fun _ => le_refl _, fun _ _ => ?_, ?_⟩, ⟨m1, ?_⟩⟩
  · show f.head - f.pendEnd ≤ cap; omega
  · rw [hheld]; exact p2
  · rw [hheld]; exact p2
  · simp [Framer.take]
  · simp [Framer.take]

/-- Initialisation establishes the invariant (R191). -/
theorem frInit_ok (cap : Nat) (md : Mode) (g : Bool) (f : Framer) : (frInit md g f).ok cap := by
  refine ⟨⟨?_, ?_, ?_, ?_⟩, ⟨?_, ?_, ?_⟩, ⟨?_, ?_⟩⟩ <;> simp [frInit, Framer.held, Framer.unitKnown]

/-- The pending unit fits the ring (R62). -/
theorem unitLen_le (cap : Nat) (f : Framer) (h : f.ok cap) (hp : f.pending = true) : f.unitLen ≤ cap := by
  obtain ⟨⟨c1, c2, c3, c4⟩, ⟨u1, u2, u3⟩, _⟩ := h
  obtain ⟨p1, p2⟩ := u3 hp
  have := u1 (.inr (.inr hp))
  unfold Framer.unitLen; omega

/-- `RING_CAP` fits a result register (R190). -/
theorem ringCap_lt (p : Config.Params) : p.ringCap < 2 ^ 32 := by
  have := p.ringCapPred.isLt
  simp only [Config.Params.ringCap]; omega

@[simp] theorem unitBytes_length (p : Config.Params) (f : Framer) : (f.unitBytes p).length = f.unitLen := by
  simp [Framer.unitBytes]

/-- Pushing keeps the bytes already in the ring (R192). -/
theorem ringByte_frPush_old (cap : Nat) (bs : List Byte) (f : Framer) (c : Nat)
    (hr : f.hasRoom cap bs.length = true) (h1 : f.tail ≤ c) (h2 : c < f.head) :
    ringByte cap (frPush cap bs f).ring c = ringByte cap f.ring c := by
  simp only [Framer.hasRoom, decide_eq_true_eq] at hr
  exact ringByte_ringPut_ne _ _ _ _ _ fun i hi => mod_ne_of_lt (by omega) (by omega)

/-- Pushing stores the new bytes from count `head` upward (R192). -/
theorem ringByte_frPush_new (cap : Nat) (bs : List Byte) (f : Framer) (i : Nat)
    (hr : f.hasRoom cap bs.length = true) (hi : i < bs.length) :
    ringByte cap (frPush cap bs f).ring (f.head + i) = bs[i] := by
  simp only [Framer.hasRoom, decide_eq_true_eq] at hr
  exact ringByte_ringPut _ _ _ _ _ hi (by omega)

/-! ### A longer stream -/

/-- The framer with more bytes pushed: a longer stream in a ring that holds it. -/
def Framer.grown (ring : Memory) (head : Nat) (f : Framer) : Framer := { f with ring := ring, head := head }

/-- The boundary rule does not look at the bytes pushed (R209). -/
theorem onEvent_grown (r : Memory) (h : Nat) (off : Nat) (tag : Tag) (f : Framer) :
    onEvent off tag (f.grown r h) = (onEvent off tag f).grown r h := by
  unfold onEvent onEventHead onEventNormal Framer.startUnit Framer.endUnit Framer.grown
  dsimp only
  split_ifs <;> rfl

theorem shortHeader_grown (r : Memory) (h : Nat) (off : Nat) (f : Framer) :
    shortHeader off (f.grown r h) = (shortHeader off f).grown r h :=
  onEvent_grown r h off (if f.shLead then .picture else .header) { f with shLead := true }

/-- One scanner step does not look at the bytes still to come (R199). -/
theorem scanStep_grown (p : Config.Params) (b : Byte) (r : Memory) (h : Nat) (f : Framer) :
    scanStep p b (f.grown r h) = (scanStep p b f).grown r h := by
  have e2 : ∀ f : Framer, stepSaw2 b (f.grown r h) = (stepSaw2 b f).grown r h := by
    intro f
    simp only [stepSaw2]
    by_cases h1 : b = 1#8
    · rw [if_pos h1, if_pos h1]; rfl
    · rw [if_neg h1, if_neg h1]
      by_cases h2 : b = 0#8
      · rw [if_pos h2, if_pos h2]; rfl
      · rw [if_neg h2, if_neg h2]
        by_cases h3 : f.mode = .mpeg4 ∧ isShortMark b = true
        · rw [if_pos h3, if_pos (show (f.grown r h).mode = .mpeg4 ∧ isShortMark b = true from h3)]
          exact shortHeader_grown r h (f.read - 2) (f.stepTo .idle)
        · rw [if_neg h3, if_neg (show ¬ ((f.grown r h).mode = .mpeg4 ∧ isShortMark b = true) from h3)]; rfl
  unfold scanStep
  show (match f.st with
    | .idle => _
    | .saw0x1 => _
    | .saw0x2 => _
    | .saw0x3 => _
    | .sawStartCode => _
    | .inSliceLookahead => _) = _
  cases f.st with
  | idle => rfl
  | saw0x1 => rfl
  | saw0x2 => exact e2 f
  | saw0x3 =>
    simp only [stepSaw3]
    by_cases hm : f.mode = .h264
    · rw [if_pos hm, if_pos (show (f.grown r h).mode = .h264 from hm)]
      by_cases h1 : b = 1#8
      · rw [if_pos h1, if_pos h1]; rfl
      · rw [if_neg h1, if_neg h1]
        by_cases h2 : b = 0#8
        · rw [if_pos h2, if_pos h2]; rfl
        · rw [if_neg h2, if_neg h2]; rfl
    · rw [if_neg hm, if_neg (show ¬ (f.grown r h).mode = .h264 from hm)]
      exact e2 f
  | sawStartCode =>
    simp only [stepClassify]
    show (match classify p f.mode b with
      | .slice => _
      | .header => _
      | .picture => _
      | .other => _) = _
    cases classify p f.mode b with
    | slice => rfl
    | other => rfl
    | picture => exact onEvent_grown r h f.scStart .picture (f.stepTo (rescan b))
    | header =>
      have e : ((f.grown r h).stepTo (rescan b)).normalHeader = ((f.stepTo (rescan b)).normalHeader).grown r h := by
        unfold Framer.normalHeader
        by_cases hm : f.mode = .mpeg4
        · rw [if_pos (show ((f.grown r h).stepTo (rescan b)).mode = .mpeg4 from hm),
            if_pos (show (f.stepTo (rescan b)).mode = .mpeg4 from hm)]; rfl
        · rw [if_neg (show ¬ ((f.grown r h).stepTo (rescan b)).mode = .mpeg4 from hm),
            if_neg (show ¬ (f.stepTo (rescan b)).mode = .mpeg4 from hm)]; rfl
      simp only [e]
      exact onEvent_grown r h f.scStart .header _
  | inSliceLookahead =>
    simp only [stepLookahead]
    cases b.getLsbD 7
    · rfl
    · exact onEvent_grown r h f.scStart .picture (f.stepTo (rescan b))

/-- Scanning the bytes pushed so far and going on with a longer stream is scanning the longer stream (R194). -/
theorem scanN_grown (p : Config.Params) (r : Memory) (h m n : Nat) (f : Framer) (hn : n = f.head - f.read)
    (hh : f.head ≤ h) (hr : ∀ c, f.read ≤ c → c < f.head → ringByte p.ringCap r c = ringByte p.ringCap f.ring c) :
    scanN p (n + m) (f.grown r h) = scanN p m ((scanN p n f).grown r h) := by
  induction n generalizing f with
  | zero => rw [Nat.zero_add]; rfl
  | succ n ih =>
    rw [show n + 1 + m = (n + m) + 1 by omega, scanN, scanN]
    by_cases hp : f.pending = false ∧ f.read < f.head
    · rw [if_pos hp, if_pos (show (f.grown r h).pending = false ∧ (f.grown r h).read < (f.grown r h).head from
        ⟨hp.1, lt_of_lt_of_le hp.2 hh⟩)]
      rw [scanStep_grown]
      have e : ringByte p.ringCap (f.grown r h).ring (f.grown r h).read = ringByte p.ringCap f.ring f.read :=
        hr f.read (le_refl _) hp.2
      rw [e]
      obtain ⟨hs, hrd⟩ := scanStep_flow p (ringByte p.ringCap f.ring f.read) f
      refine ih _ (by rw [hs.head, hrd]; omega) (by rw [hs.head]; exact hh) ?_
      intro c h1 h2
      rw [hs.head] at h2; rw [hrd] at h1; rw [hs.ring]
      exact hr c (by omega) h2
    · rw [if_neg hp]
      have hp' : f.pending = true := by
        cases hq : f.pending
        · exact absurd ⟨hq, by omega⟩ hp
        · rfl
      have hg : (f.grown r h).pending = true := hp'
      rw [if_neg (by rw [hg]; simp)]
      cases m with
      | zero => rfl
      | succ m => rw [scanN, if_neg (by rw [hg]; simp)]

/-- Scanning between two pushes or only after both is the same (R194). -/
theorem frScan_grown (p : Config.Params) (r : Memory) (h : Nat) (f : Framer) (hh : f.head ≤ h) (hf : f.read ≤ f.head)
    (hr : ∀ c, f.read ≤ c → c < f.head → ringByte p.ringCap r c = ringByte p.ringCap f.ring c) :
    frScan p ((frScan p f).grown r h) = frScan p (f.grown r h) := by
  have e := scanN_grown p r h (h - f.head) (f.head - f.read) f rfl hh hr
  rw [show f.head - f.read + (h - f.head) = h - f.read by omega] at e
  have hg : frScan p (f.grown r h) = scanN p (h - f.read) (f.grown r h) := rfl
  rw [hg, e]
  show _ = scanN p (h - f.head) ((frScan p f).grown r h)
  rcases frScan_ends p f with hp | hp
  · rw [frScan_stays p ((frScan p f).grown r h) (.inl hp)]
    cases hm : h - f.head with
    | zero => rfl
    | succ m => rw [scanN, if_neg (by rw [show ((frScan p f).grown r h).pending = true from hp]; simp)]
  · have := (frScan_flow p f hf).2.2
    have hd := (frScan_same p f).head
    rw [frScan]
    congr 1
    show h - (frScan p f).read = _
    omega

/-- An event neither reads nor writes the scan state, the read cursor, `sc_start` and `sh_lead` (R209, R212). -/
theorem onEvent_with (off : Nat) (tag : Tag) (f : Framer) (st : ScanState) (r sc : Nat) (sh : Bool) :
    onEvent off tag { f with st := st, read := r, scStart := sc, shLead := sh } =
      { onEvent off tag f with st := st, read := r, scStart := sc, shLead := sh } := by
  unfold onEvent onEventHead onEventNormal Framer.startUnit Framer.endUnit
  dsimp only
  split_ifs <;> rfl

end Sys2Proof.Machine
end

