-- ==== Sys2Proof/Laws/Pipeline.lean ====
section
/-! SUPPORT. What the DecoderPipeline's µ-operations can do, each said once: the hand-shakes, the loops of setup
and of `SE_GETPIC`, and that they keep the slot tables sound. -/

namespace Sys2Proof.Machine

/-! ### Transactions and slots -/

@[simp] theorem ask_fst (c : DevCall) (s : State) : (ask c s).1 = s.dev.next := rfl
@[simp] theorem ask_snd (c : DevCall) (s : State) : (ask c s).2 = s.withDev (s.dev.issue c) := rfl

@[simp] theorem pool_setPool_same (pl : Pipeline) (P : PoolId) (xs : List Slot) : (pl.setPool P xs).pool P = xs := by
  cases P <;> rfl

theorem pool_setPool_ne (pl : Pipeline) (P R : PoolId) (xs : List Slot) (h : R ≠ P) :
    (pl.setPool P xs).pool R = pl.pool R := by
  cases P <;> cases R <;> first | rfl | exact absurd rfl h

/-- What replacing a pool's slots leaves alone. -/
theorem setPool_rest (pl : Pipeline) (P : PoolId) (xs : List Slot) :
    (pl.setPool P xs).fmt = pl.fmt ∧ (pl.setPool P xs).nIn = pl.nIn ∧ (pl.setPool P xs).nDout = pl.nDout ∧
      (pl.setPool P xs).nCout = pl.nCout ∧ (pl.setPool P xs).conv = pl.conv ∧
      (pl.setPool P xs).hdrDone = pl.hdrDone := by
  cases P <;> exact ⟨rfl, rfl, rfl, rfl, rfl, rfl⟩

theorem setPool_setPool (pl : Pipeline) (P : PoolId) (xs ys : List Slot) :
    (pl.setPool P xs).setPool P ys = pl.setPool P ys := by cases P <;> rfl

theorem setPool_pool (pl : Pipeline) (P : PoolId) : pl.setPool P (pl.pool P) = pl := by cases P <;> rfl

/-- The slots of every pool satisfy `Q`. -/
def poolsAll (Q : PoolId → Slot → Prop) (pl : Pipeline) : Prop := ∀ P, ∀ sl ∈ pl.pool P, Q P sl

/-- Changing one slot keeps what holds of all slots, if the change keeps it of that slot. -/
theorem poolsAll_onSlot {Q : PoolId → Slot → Prop} (s : State) (P : PoolId) (i : Nat) (g : Slot → Slot)
    (h : poolsAll Q s.pl) (hg : ∀ sl, (s.pl.pool P)[i]? = some sl → Q P sl → Q P (g sl)) :
    poolsAll Q (s.onSlot P i g).pl := by
  intro R sl hsl
  simp only [State.onSlot, withPl_pl] at hsl
  by_cases hR : R = P
  · subst hR
    rw [pool_setPool_same] at hsl
    obtain ⟨j, hj, rfl⟩ := List.mem_iff_getElem.1 hsl
    rw [List.getElem_modify]
    have hj' : j < (s.pl.pool R).length := by simpa using hj
    have hq := h R _ (List.getElem_mem hj')
    split_ifs with hij
    · subst hij; exact hg _ (List.getElem?_eq_getElem hj') hq
    · exact hq
  · rw [pool_setPool_ne _ _ _ _ hR] at hsl
    exact h R sl hsl

/-! ### Hand-shakes -/

/-- Everything `µENQ` can do (R250). -/
theorem enq_cases (P : PoolId) (q : QueueId) (i n : Nat) (s : State) :
    (s.dev.next = .ok ∧ enq P q i n s =
      (true, (s.withDev (s.dev.issue (.enqueue q i n))).onSlot P i (Slot.queuedOn P q))) ∨
    (s.dev.next ≠ .ok ∧ enq P q i n s = (false, s.withDev (s.dev.issue (.enqueue q i n)))) := by
  unfold enq
  by_cases h : s.dev.next = .ok
  · exact .inl ⟨h, by simp [answerIsOk, h]⟩
  · exact .inr ⟨h, by simp [answerIsOk, h]⟩

/-- Everything `µDEQ` can do (R251). -/
theorem deq_cases (P : PoolId) (q : QueueId) (s : State) :
    (∃ i sl, s.dev.next = .slot i ∧ (s.pl.pool P)[i]? = some sl ∧ sl.own = .queued ∧
      (P = .dout → sl.holder = holderFor q) ∧
      deq P q s = (.got i, ((s.withDev (s.dev.issue (.dequeue q))).onSlot P i
        (Slot.freshContents s.draws)).withDraws (s.draws + 1))) ∨
    (s.dev.next = .notReady ∧ deq P q s = (.notReady, s.withDev (s.dev.issue (.dequeue q)))) ∨
    (s.dev.next ≠ .notReady ∧ (∀ i, s.dev.next = .slot i → dequeueOk P q (s.pl.pool P) i = false) ∧
      deq P q s = (.fail, s.withDev (s.dev.issue (.dequeue q)))) := by
  unfold deq
  simp only [ask_fst, ask_snd]
  cases hn : s.dev.next with
  | slot i =>
    simp only [readDequeue]
    by_cases hd : dequeueOk P q (s.pl.pool P) i = true
    · refine .inl ⟨i, ?_⟩
      rw [if_pos hd]
      unfold dequeueOk at hd
      cases hs : (s.pl.pool P)[i]? with
      | none => rw [hs] at hd; cases hd
      | some sl =>
        rw [hs] at hd
        simp only [Bool.and_eq_true, Bool.or_eq_true, decide_eq_true_eq] at hd
        refine ⟨sl, rfl, rfl, hd.1, fun h => ?_, rfl⟩
        rcases hd.2 with h' | h'
        · exact absurd h h'
        · exact h'
    · rw [if_neg hd]
      exact .inr (.inr ⟨by simp, fun j hj => by cases hj; exact Bool.eq_false_iff.2 hd, rfl⟩)
  | notReady => exact .inr (.inl ⟨rfl, rfl⟩)
  | ok => exact .inr (.inr ⟨by simp, by simp, rfl⟩)
  | fail => exact .inr (.inr ⟨by simp, by simp, rfl⟩)
  | ready => exact .inr (.inr ⟨by simp, by simp, rfl⟩)
  | timeout => exact .inr (.inr ⟨by simp, by simp, rfl⟩)
  | capture f m c => exact .inr (.inr ⟨by simp, by simp, rfl⟩)
  | mapped ps => exact .inr (.inr ⟨by simp, by simp, rfl⟩)

/-! ### What the steady state leaves alone -/

/-- The part of the pipeline that no step but setup and teardown changes: format, sizes, phase bits. -/
def samePlan (a b : Pipeline) : Prop :=
  b.fmt = a.fmt ∧ b.nIn = a.nIn ∧ b.nDout = a.nDout ∧ b.nCout = a.nCout ∧ b.conv = a.conv ∧ b.hdrDone = a.hdrDone ∧
    ∀ P, (b.pool P).length = (a.pool P).length

theorem samePlan_refl (a : Pipeline) : samePlan a a := ⟨rfl, rfl, rfl, rfl, rfl, rfl, fun _ => rfl⟩

theorem samePlan_trans {a b c : Pipeline} (h : samePlan a b) (h' : samePlan b c) : samePlan a c := by
  obtain ⟨x1, x2, x3, x4, x5, x6, x7⟩ := h
  obtain ⟨y1, y2, y3, y4, y5, y6, y7⟩ := h'
  exact ⟨y1.trans x1, y2.trans x2, y3.trans x3, y4.trans x4, y5.trans x5, y6.trans x6, fun P => (y7 P).trans (x7 P)⟩

theorem samePlan_onSlot (s : State) (P : PoolId) (i : Nat) (g : Slot → Slot) : samePlan s.pl (s.onSlot P i g).pl := by
  simp only [State.onSlot, withPl_pl]
  obtain ⟨a, b, c, d, e, f⟩ := setPool_rest s.pl P ((s.pl.pool P).modify i g)
  refine ⟨a, b, c, d, e, f, fun R => ?_⟩
  by_cases hR : R = P
  · subst hR; simp
  · rw [pool_setPool_ne _ _ _ _ hR]

/-- What the steps of the pipeline leave alone, but for the presented picture. -/
structure PicOnly (s t : State) : Prop where
  params : t.params = s.params
  args : t.args = s.args
  mem : t.mem = s.mem
  bw : t.bw = s.bw
  fr : t.fr = s.fr
  se : t.se = s.se
  port : t.port = s.port

/-- `t` is `s` but for the pipeline, the device port and the counter of free values. -/
structure PipeOnly (s t : State) : Prop extends PicOnly s t where
  res : t.res = s.res
  events : t.events = s.events

theorem PicOnly.refl (s : State) : PicOnly s s := ⟨rfl, rfl, rfl, rfl, rfl, rfl, rfl⟩

theorem PicOnly.trans {s t u : State} (a : PicOnly s t) (b : PicOnly t u) : PicOnly s u :=
  ⟨b.params.trans a.params, b.args.trans a.args, b.mem.trans a.mem, b.bw.trans a.bw, b.fr.trans a.fr,
    b.se.trans a.se, b.port.trans a.port⟩

theorem PipeOnly.refl (s : State) : PipeOnly s s := ⟨PicOnly.refl s, rfl, rfl⟩

theorem PipeOnly.trans {s t u : State} (a : PipeOnly s t) (b : PipeOnly t u) : PipeOnly s u :=
  ⟨a.toPicOnly.trans b.toPicOnly, b.res.trans a.res, b.events.trans a.events⟩

theorem onSlot_only (s : State) (P : PoolId) (i : Nat) (g : Slot → Slot) : PipeOnly s (s.onSlot P i g) :=
  ⟨⟨rfl, rfl, rfl, rfl, rfl, rfl, rfl⟩, rfl, rfl⟩

theorem withDev_only (s : State) (d : DevPort) : PipeOnly s (s.withDev d) :=
  ⟨⟨rfl, rfl, rfl, rfl, rfl, rfl, rfl⟩, rfl, rfl⟩

theorem withDraws_only (s : State) (n : Nat) : PipeOnly s (s.withDraws n) :=
  ⟨⟨rfl, rfl, rfl, rfl, rfl, rfl, rfl⟩, rfl, rfl⟩

theorem withPl_only (s : State) (p : Pipeline) : PipeOnly s (s.withPl p) :=
  ⟨⟨rfl, rfl, rfl, rfl, rfl, rfl, rfl⟩, rfl, rfl⟩

theorem enq_only (P : PoolId) (q : QueueId) (i n : Nat) (s : State) :
    PipeOnly s (enq P q i n s).2 ∧ samePlan s.pl (enq P q i n s).2.pl := by
  have h0 := withDev_only s (s.dev.issue (.enqueue q i n))
  rcases enq_cases P q i n s with ⟨_, e⟩ | ⟨_, e⟩ <;> rw [e]
  · exact ⟨h0.trans (onSlot_only _ P i _), samePlan_onSlot (s.withDev (s.dev.issue (.enqueue q i n))) P i _⟩
  · exact ⟨h0, samePlan_refl _⟩

theorem deq_only (P : PoolId) (q : QueueId) (s : State) :
    PipeOnly s (deq P q s).2 ∧ samePlan s.pl (deq P q s).2.pl := by
  have h0 := withDev_only s (s.dev.issue (.dequeue q))
  rcases deq_cases P q s with ⟨i, sl, _, _, _, _, e⟩ | ⟨_, e⟩ | ⟨_, _, e⟩ <;> rw [e]
  · exact ⟨(h0.trans (onSlot_only _ P i _)).trans (withDraws_only _ _),
      samePlan_onSlot (s.withDev (s.dev.issue (.dequeue q))) P i _⟩
  · exact ⟨h0, samePlan_refl _⟩
  · exact ⟨h0, samePlan_refl _⟩

/-! ### Soundness of slots -/

/-- What a slot of a pool satisfies at a command boundary (R35, R36, R252 to R254). -/
def slotGood (conv : Bool) (P : PoolId) (sl : Slot) : Prop :=
  sl.ok ∧ ((P = .dout → conv = false) → sl.own ≠ .done) ∧ (P = .dout → conv = false → sl.holder = .dec)

/-- `ownersOk` slot by slot. -/
theorem ownersOk_iff (pl : Pipeline) : pl.ownersOk ↔ poolsAll (slotGood pl.conv) pl := by
  constructor
  · rintro ⟨a, b, c⟩ P sl hsl
    cases P
    · exact ⟨(a sl hsl).2, fun _ => (a sl hsl).1, by simp⟩
    · exact ⟨(b sl hsl).2, fun h => ((b sl hsl).1 (h rfl)).1, fun _ h => ((b sl hsl).1 h).2⟩
    · exact ⟨(c sl hsl).2, fun _ => (c sl hsl).1, by simp⟩
  · intro h
    refine ⟨fun sl hsl => ?_, fun sl hsl => ?_, fun sl hsl => ?_⟩
    · obtain ⟨x, y, _⟩ := h .inp sl hsl; exact ⟨y (by simp), x⟩
    · obtain ⟨x, y, z⟩ := h .dout sl hsl; exact ⟨fun hc => ⟨y fun _ => hc, z rfl hc⟩, x⟩
    · obtain ⟨x, y, _⟩ := h .cout sl hsl; exact ⟨y (by simp), x⟩

/-- A slot after an enqueue, its fields. -/
theorem queuedOn_fields (P : PoolId) (q : QueueId) (sl : Slot) :
    (sl.queuedOn P q).own = .queued ∧ (sl.queuedOn P q).planes = sl.planes ∧ (sl.queuedOn P q).used = sl.used ∧
      (sl.queuedOn P q).gen = sl.gen ∧
      (sl.queuedOn P q).holder = (if P = .dout then holderFor q else sl.holder) := by
  unfold Slot.queuedOn; split_ifs <;> exact ⟨rfl, rfl, rfl, rfl, rfl⟩

/-- Soundness of a slot depends on its planes and its payload length only. -/
theorem slotOk_congr {a b : Slot} (hp : b.planes = a.planes) (hu : b.used = a.used) (h : a.ok) : b.ok := by
  obtain ⟨x, y, z⟩ := h
  refine ⟨by rw [hp]; exact x, by rw [hp]; exact y, ?_⟩
  rw [hu]; simpa [Slot.room, hp] using z

theorem fresh_ok (g : Nat) (sl : Slot) (h : sl.ok) : (sl.freshContents g).ok := by
  obtain ⟨x, y, z⟩ := h
  refine ⟨by simpa [Slot.freshContents] using x, ?_, ?_⟩
  · intro p hp
    simp only [Slot.freshContents, List.mem_map] at hp
    obtain ⟨p', _, rfl⟩ := hp
    simp
  · cases hpl : sl.planes with
    | nil => exact absurd hpl x
    | cons p ps => simpa [Slot.freshContents, Slot.room, hpl] using z

/-- An enqueue keeps the slots sound, whatever the slot held before (R250, R255). -/
theorem enq_good (conv : Bool) (P : PoolId) (q : QueueId) (i n : Nat) (s : State)
    (hq : P = .dout → conv = false → q ≠ .cin) (h : poolsAll (slotGood conv) s.pl) :
    poolsAll (slotGood conv) (enq P q i n s).2.pl := by
  rcases enq_cases P q i n s with ⟨_, e⟩ | ⟨_, e⟩ <;> rw [e]
  · refine poolsAll_onSlot (s.withDev (s.dev.issue (.enqueue q i n))) P i _ h fun sl _ hsl => ?_
    obtain ⟨f1, f2, f3, _, f5⟩ := queuedOn_fields P q sl
    refine ⟨slotOk_congr f2 f3 hsl.1, fun _ => by rw [f1]; simp, fun hP hc => ?_⟩
    rw [f5, if_pos hP, holderFor, if_neg (hq hP hc)]
  · exact h

/-- A dequeue and the setting of the slot's state keep the slots sound, if the state is one the pool allows. -/
theorem deq_setOwn_good (conv : Bool) (P : PoolId) (q : QueueId) (s : State) (o : Own)
    (ho : (P = .dout → conv = false) → o ≠ .done) (h : poolsAll (slotGood conv) s.pl) (i : Nat) : poolsAll (slotGood conv) ((deq P q s).2.setOwn P i o).pl := by
  have hf : poolsAll (slotGood conv) (deq P q s).2.pl := by
    rcases deq_cases P q s with ⟨j, sl, _, _, _, _, e⟩ | ⟨_, e⟩ | ⟨_, _, e⟩ <;> rw [e]
    · exact poolsAll_onSlot (s.withDev (s.dev.issue (.dequeue q))) P j _ h fun sl _ hsl =>
        ⟨fresh_ok _ _ hsl.1, hsl.2⟩
    · exact h
    · exact h
  exact poolsAll_onSlot _ P i _ hf fun sl _ hsl => ⟨slotOk_congr rfl rfl hsl.1, ho, hsl.2.2⟩

/-- A dequeue that gives nothing keeps the slots. -/
theorem deq_good (conv : Bool) (P : PoolId) (q : QueueId) (s : State) (h : poolsAll (slotGood conv) s.pl) :
    poolsAll (slotGood conv) (deq P q s).2.pl := by
  rcases deq_cases P q s with ⟨j, sl, _, _, _, _, e⟩ | ⟨_, e⟩ | ⟨_, _, e⟩ <;> rw [e]
  · exact poolsAll_onSlot (s.withDev (s.dev.issue (.dequeue q))) P j _ h fun sl _ hsl => ⟨fresh_ok _ _ hsl.1, hsl.2⟩
  · exact h
  · exact h

/-! ### SubmitUnit -/

theorem modify_zero_cons {α : Type} (f : α → α) (x : α) (xs : List α) : (x :: xs).modify 0 f = f x :: xs := rfl

/-- A slot that was filled with a payload that fits is sound. -/
theorem fill_ok (bs : List Byte) (sl : Slot) (h : sl.ok) (hb : bs.length ≤ sl.room) : (sl.fill bs).ok := by
  obtain ⟨x, y, z⟩ := h
  cases hpl : sl.planes with
  | nil => exact absurd hpl x
  | cons p ps =>
    have hroom : sl.room = p.size.toNat := by simp [Slot.room, hpl]
    refine ⟨by simp [Slot.fill, hpl], ?_, ?_⟩
    · intro r hr
      simp only [Slot.fill, hpl, modify_zero_cons, List.mem_cons] at hr
      rcases hr with rfl | hr
      · exact wf_putBytes 0 bs (show 0 + bs.length ≤ p.size.toNat by omega) (y p (by simp [hpl]))
      · exact y r (by simp [hpl, hr])
    · simp only [Slot.fill, Slot.room, hpl, modify_zero_cons, BitVec.toNat_ofNat]
      exact le_trans (Nat.mod_le _ _) (by omega)

/-- The state in which `SubmitUnit` issues its enqueue: the unit copied, and gone from the ring (R257). -/
def loaded (i : Nat) (s : State) : State :=
  (s.onSlot .inp i (Slot.fill (s.fr.unitBytes s.params))).withFr s.fr.take

theorem submitUnit_eq (i : Nat) (s : State) : submitUnit i s = enq .inp .inp i s.fr.unitLen (loaded i s) := rfl

/-- What `SubmitUnit` leaves alone, and what it does to the framer (R257). -/
theorem submitUnit_only (i : Nat) (s : State) :
    PipeOnly (s.withFr s.fr.take) (submitUnit i s).2 ∧ samePlan s.pl (submitUnit i s).2.pl := by
  rw [submitUnit_eq]
  obtain ⟨a, b⟩ := enq_only .inp .inp i s.fr.unitLen (loaded i s)
  have h1 : PipeOnly (s.withFr s.fr.take) (loaded i s) := ⟨⟨rfl, rfl, rfl, rfl, rfl, rfl, rfl⟩, rfl, rfl⟩
  exact ⟨h1.trans a,
    samePlan_trans (samePlan_onSlot s .inp i (Slot.fill (s.fr.unitBytes s.params))) b⟩

/-- `SubmitUnit` keeps the slots sound when the unit fits (R257). -/
theorem submitUnit_good (conv : Bool) (i : Nat) (s : State) (h : poolsAll (slotGood conv) s.pl)
    (hroom : s.fr.unitLen ≤ s.inRoom i) : poolsAll (slotGood conv) (submitUnit i s).2.pl := by
  rw [submitUnit_eq]
  refine enq_good conv .inp .inp i _ _ (by simp) ?_
  refine poolsAll_onSlot s .inp i (Slot.fill (s.fr.unitBytes s.params)) h fun sl hs hsl => ?_
  refine ⟨fill_ok _ _ hsl.1 ?_, hsl.2⟩
  simp only [State.inRoom] at hroom
  rw [show s.pl.inPool[i]? = some sl from hs] at hroom
  simpa using hroom

/-! ### The loops and steps of SE_GETPIC -/

theorem enqNote_snd (P : PoolId) (q : QueueId) (i : Nat) (r : PicNote × State) :
    (enqNote P q i r).2 = (enq P q i 0 r.2).2 := rfl

/-- Whatever every enqueue keeps, the loop keeps. -/
theorem resubmit_induct (P : PoolId) (o : Own) (q : QueueId) (Q : State → Prop)
    (hq : ∀ i s, Q s → Q (enq P q i 0 s).2) (n i : Nat) (r : PicNote × State) (h : Q r.2) :
    Q (resubmit P o q i n r).2 := by
  induction n generalizing i r with
  | zero => exact h
  | succ n ih =>
    rw [resubmit]
    split
    · exact ih _ _ (hq i r.2 h)
    · exact ih _ _ h

/-- Frame, plan and soundness of a step of `SE_GETPIC`, together. -/
structure PicStep (s t : State) : Prop where
  only : PicOnly s t
  plan : samePlan s.pl t.pl
  good : poolsAll (slotGood s.pl.conv) s.pl → poolsAll (slotGood s.pl.conv) t.pl

theorem PicStep.refl (s : State) : PicStep s s := ⟨PicOnly.refl s, samePlan_refl _, id⟩

theorem PicStep.trans {s t u : State} (a : PicStep s t) (b : PicStep t u) : PicStep s u := by
  refine ⟨a.only.trans b.only, samePlan_trans a.plan b.plan, fun h => ?_⟩
  have hc : t.pl.conv = s.pl.conv := a.plan.2.2.2.2.1
  have := b.good
  rw [hc] at this
  exact this (a.good h)

theorem enq_step (P : PoolId) (q : QueueId) (i n : Nat) (s : State)
    (hq : P = .dout → s.pl.conv = false → q ≠ .cin) : PicStep s (enq P q i n s).2 :=
  ⟨(enq_only P q i n s).1.toPicOnly, (enq_only P q i n s).2, fun h => enq_good _ P q i n s hq h⟩

theorem deq_step (P : PoolId) (q : QueueId) (s : State) : PicStep s (deq P q s).2 :=
  ⟨(deq_only P q s).1.toPicOnly, (deq_only P q s).2, fun h => deq_good _ P q s h⟩

theorem resubmit_step (P : PoolId) (o : Own) (q : QueueId) (n i : Nat) (r : PicNote × State)
    (hq : P = .dout → r.2.pl.conv = false → q ≠ .cin) : PicStep r.2 (resubmit P o q i n r).2 := by
  refine resubmit_induct P o q (fun t => PicStep r.2 t) (fun j t ht => ht.trans (enq_step P q j 0 t ?_)) n i r
    (PicStep.refl _)
  rw [ht.plan.2.2.2.2.1]; exact hq

/-- A presented picture changes the event trace and the result registers only (R262). -/
theorem present_fields (P : PoolId) (i : Nat) (s : State) :
    (present P i s).pl = s.pl ∧ PicOnly s (present P i s) ∧
      (present P i s).events = s.events ++ [⟨P, i, presentPlanes (s.pl.pool P) i, s.pl.fmt⟩] :=
  ⟨rfl, ⟨rfl, rfl, rfl, rfl, rfl, rfl, rfl⟩, rfl⟩

/-- Changing the owner of one slot, then another time: the last change counts for soundness. -/
theorem setOwn_good (conv : Bool) (P : PoolId) (i : Nat) (o : Own) (s : State)
    (ho : (P = .dout → conv = false) → o ≠ .done) (h : poolsAll (slotGood conv) s.pl) :
    poolsAll (slotGood conv) (s.setOwn P i o).pl :=
  poolsAll_onSlot s P i _ h fun _ _ hsl => ⟨slotOk_congr rfl rfl hsl.1, ho, hsl.2.2⟩

theorem modify_modify_same {α : Type} (f g : α → α) (i : Nat) (xs : List α) :
    (xs.modify i f).modify i g = xs.modify i (g ∘ f) := by
  apply List.ext_getElem <;> simp [List.getElem_modify]
  intro n _
  split_ifs <;> rfl

/-- Setting a slot's owner twice is setting it to the last. -/
theorem setOwn_setOwn (P : PoolId) (i : Nat) (o o' : Own) (s : State) :
    (s.setOwn P i o).setOwn P i o' = s.setOwn P i o' := by
  simp only [State.setOwn, State.onSlot, withPl_pl, pool_setPool_same, modify_modify_same]
  cases P <;> rfl

/-- Presenting does not depend on the owner of the slot, nor does it change the slots. -/
theorem present_setOwn_pl (P : PoolId) (i : Nat) (o : Own) (s : State) :
    ((present P i s).setOwn P i o).pl = (s.setOwn P i o).pl := rfl

theorem showNext_step (P : PoolId) (r : PicNote × State) (hP : P ≠ .inp) : PicStep r.2 (showNext P r).2 := by
  unfold showNext
  cases hd : (deq P P.queue r.2).1 with
  | notReady => exact deq_step P P.queue r.2
  | fail => exact deq_step P P.queue r.2
  | got i =>
    simp only [enqNote_snd]
    have h1 : PicStep r.2 ((present P i ((deq P P.queue r.2).2.setOwn P i .done)).setOwn P i .free) := by
      refine ⟨?_, ?_, fun h => ?_⟩
      · exact (((deq_only P P.queue r.2).1.toPicOnly.trans (onSlot_only _ P i _).toPicOnly).trans
          (present_fields P i _).2.1).trans (onSlot_only _ P i _).toPicOnly
      · refine samePlan_trans (deq_only P P.queue r.2).2 ?_
        rw [present_setOwn_pl, setOwn_setOwn]
        exact samePlan_onSlot _ P i _
      · rw [present_setOwn_pl, setOwn_setOwn]
        exact deq_setOwn_good _ P P.queue r.2 .free (by simp) h i
    refine h1.trans (enq_step P P.queue i 0 _ ?_)
    intro hp _
    subst hp; simp [PoolId.queue]

theorem passOn_step (q : QueueId) (o : Own) (q2 : QueueId) (r : PicNote × State) (hc : r.2.pl.conv = true) :
    PicStep r.2 (passOn q o q2 r).2 := by
  unfold passOn
  cases hd : (deq .dout q r.2).1 with
  | notReady => exact deq_step .dout q r.2
  | fail => exact deq_step .dout q r.2
  | got i =>
    simp only [enqNote_snd]
    have h1 : PicStep r.2 ((deq .dout q r.2).2.setOwn .dout i o) := by
      refine ⟨?_, ?_, fun h => ?_⟩
      · exact (deq_only .dout q r.2).1.toPicOnly.trans (onSlot_only _ .dout i _).toPicOnly
      · exact samePlan_trans (deq_only .dout q r.2).2 (samePlan_onSlot _ .dout i _)
      · exact deq_setOwn_good _ .dout q r.2 o (by simp [hc]) h i
    refine h1.trans (enq_step .dout q2 i 0 _ fun _ h => ?_)
    rw [h1.plan.2.2.2.2.1, hc] at h; cases h

theorem getPicDirect_step (r : PicNote × State) : PicStep r.2 (getPicDirect r).2 :=
  (resubmit_step .dout .free .dout _ 0 r (by simp)).trans (showNext_step .dout _ (by simp))

theorem getPicConv_step (r : PicNote × State) (hc : r.2.pl.conv = true) : PicStep r.2 (getPicConv r).2 := by
  have a1 := resubmit_step .dout .free .dout r.2.pl.nDout 0 r (by simp)
  have a2 := resubmit_step .dout .done .cin
    (resubmit .dout .free .dout 0 r.2.pl.nDout r).2.pl.nDout 0 (resubmit .dout .free .dout 0 r.2.pl.nDout r)
    (by intro _ h; rw [a1.plan.2.2.2.2.1, hc] at h; cases h)
  have a3 := resubmit_step .cout .free .cout (resubmit .dout .done .cin 0
    (resubmit .dout .free .dout 0 r.2.pl.nDout r).2.pl.nDout (resubmit .dout .free .dout 0 r.2.pl.nDout r)).2.pl.nCout 0
    (resubmit .dout .done .cin 0
      (resubmit .dout .free .dout 0 r.2.pl.nDout r).2.pl.nDout (resubmit .dout .free .dout 0 r.2.pl.nDout r)) (by simp)
  have a : PicStep r.2 (getPicConvRetry r).2 := (a1.trans a2).trans a3
  have hc1 : (getPicConvRetry r).2.pl.conv = true := a.plan.2.2.2.2.1.trans hc
  have b := passOn_step .cin .free .dout (getPicConvRetry r) hc1
  have hc2 := b.plan.2.2.2.2.1.trans hc1
  have c := passOn_step .dout .done .cin (passOn .cin .free .dout (getPicConvRetry r)) hc2
  exact ((a.trans b).trans c).trans (showNext_step .cout _ (by simp))

/-- Frame, plan and soundness of `SE_GETPIC` after setup (R280). -/
theorem getPicture_step (s : State) : PicStep s (getPicture s).2 := by
  unfold getPicture
  cases hc : s.pl.conv
  · exact getPicDirect_step (⟨false, false⟩, s)
  · exact getPicConv_step (⟨false, false⟩, s) hc

/-! ### The steps of SE_DECODE -/

theorem decodePoll_step (r : StepNote × State) : PicStep r.2 (decodePoll r).2 := by
  unfold decodePoll
  split
  · simp only [ask_fst, ask_snd]
    have h0 : PicStep r.2 (r.2.withDev (r.2.dev.issue (.poll (pollTimeout r.2.pl.inPool)))) :=
      ⟨(withDev_only _ _).toPicOnly, samePlan_refl _, id⟩
    cases readPoll r.2.dev.next with
    | timeout => exact h0
    | fail => exact h0
    | ready =>
      refine h0.trans ?_
      unfold reclaimInput
      cases hd : (deq .inp .inp (r.2.withDev (r.2.dev.issue (.poll (pollTimeout r.2.pl.inPool))))).1 with
      | notReady => exact deq_step .inp .inp _
      | fail => exact deq_step .inp .inp _
      | got j =>
        refine ⟨(deq_only .inp .inp _).1.toPicOnly.trans (onSlot_only _ .inp j _).toPicOnly,
          samePlan_trans (deq_only .inp .inp _).2 (samePlan_onSlot _ .inp j _), fun h => ?_⟩
        exact deq_setOwn_good _ .inp .inp _ .free (by simp) h j
  · exact PicStep.refl _

/-- D3 leaves the rest of the machine alone; it is sound, and so is the framer it leaves (R272). -/
theorem decodeSubmit_step (r : StepNote × State) (cap : Nat) (hf : r.2.fr.ok cap) :
    ∃ f, f.ok cap ∧ f.valid = r.2.fr.valid ∧ PicStep (r.2.withFr f) (decodeSubmit r).2 := by
  have hs := frScan_ok r.2.params cap r.2.fr hf
  have hv := (frScan_same r.2.params r.2.fr).valid
  unfold decodeSubmit
  by_cases hp : (frScan r.2.params r.2.fr).pending = true
  swap
  · rw [if_neg hp]; exact ⟨_, hs, hv, PicStep.refl _⟩
  · rw [if_pos hp]
    cases hff : firstFree r.2.pl.inPool with
    | none => exact ⟨_, hs, hv, PicStep.refl _⟩
    | some i =>
      simp only [decodeSubmitAt, withFr_fr]
      split
      · exact ⟨_, hs, hv, PicStep.refl _⟩
      · next hroom =>
        refine ⟨(frScan r.2.params r.2.fr).take, take_ok cap _ hs hp, hv, ?_⟩
        obtain ⟨a, b⟩ := submitUnit_only i (r.2.withFr (frScan r.2.params r.2.fr))
        refine ⟨a.toPicOnly, b, fun h => ?_⟩
        exact submitUnit_good _ i (r.2.withFr (frScan r.2.params r.2.fr)) h (by simpa using hroom)

end Sys2Proof.Machine
end

