-- ==== Sys2Proof/Laws/Setup.lean ====
section
/-! SUPPORT. What the steps of setup can do, each said once: the mapping and enqueuing loops, the capture query,
the steps S1 to S7, and what a setup that succeeds leaves behind. -/

namespace Sys2Proof.Machine

/-! ### The loops -/

/-- A slot just mapped (R35, R256). -/
def newSlot (sl : Slot) : Prop := sl.own = .free ∧ sl.holder = .dec ∧ sl.used = 0 ∧ sl.ok

theorem readMap_some {a : DevAnswer} {ps : List PlaneInfo} (h : readMap a = some ps) : a = .mapped ps ∧ ps ≠ [] := by
  cases a with
  | mapped qs =>
    simp only [readMap] at h
    split_ifs at h with h0
    cases h; exact ⟨rfl, h0⟩
  | _ => simp [readMap] at h

theorem mappedSlot_new (ps : List PlaneInfo) (g : Nat) (h : ps ≠ []) : newSlot (mappedSlot ps g) := by
  refine ⟨rfl, rfl, rfl, by simpa [mappedSlot] using h, fun p hp => ?_, by simp [mappedSlot]⟩
  simp only [mappedSlot, List.mem_map] at hp
  obtain ⟨_, _, rfl⟩ := hp
  simp

/-- The state after one slot is mapped. -/
def mappedOne (P : PoolId) (i : Nat) (ps : List PlaneInfo) (s : State) : State :=
  (((s.withDev (s.dev.issue (.map P.queue i))).withPl
    (s.pl.setPool P (s.pl.pool P ++ [mappedSlot ps s.draws]))).withDraws (s.draws + 1))

theorem mapSlots_succ (P : PoolId) (i n : Nat) (s : State) :
    (∃ ps, s.dev.next = .mapped ps ∧ ps ≠ [] ∧ mapSlots P i (n + 1) s = mapSlots P (i + 1) n (mappedOne P i ps s)) ∨
    (readMap s.dev.next = none ∧ mapSlots P i (n + 1) s = (false, s.withDev (s.dev.issue (.map P.queue i)))) := by
  rw [mapSlots]
  simp only [ask_fst, ask_snd]
  cases h : readMap s.dev.next with
  | none => exact .inr ⟨rfl, rfl⟩
  | some ps => exact .inl ⟨ps, (readMap_some h).1, (readMap_some h).2, rfl⟩

theorem mapSlots_only (P : PoolId) (n i : Nat) (s : State) : PipeOnly s (mapSlots P i n s).2 := by
  induction n generalizing i s with
  | zero => exact PipeOnly.refl s
  | succ n ih =>
    rcases mapSlots_succ P i n s with ⟨ps, _, _, e⟩ | ⟨_, e⟩ <;> rw [e]
    · exact PipeOnly.trans (t := mappedOne P i ps s) ⟨⟨rfl, rfl, rfl, rfl, rfl, rfl, rfl⟩, rfl, rfl⟩ (ih (i + 1) (mappedOne P i ps s))
    · exact withDev_only _ _

/-- Mapping that succeeds appends that many new slots (R244, R256). -/
theorem mapSlots_true (P : PoolId) (n i : Nat) (s : State) (h : (mapSlots P i n s).1 = true) :
    ∃ new, new.length = n ∧ (∀ sl ∈ new, newSlot sl) ∧
      (mapSlots P i n s).2.pl = s.pl.setPool P (s.pl.pool P ++ new) := by
  induction n generalizing i s with
  | zero => exact ⟨[], rfl, by simp, by simp [mapSlots, setPool_pool]⟩
  | succ n ih =>
    rcases mapSlots_succ P i n s with ⟨ps, _, hps, e⟩ | ⟨_, e⟩
    · rw [e] at h ⊢
      obtain ⟨new, h1, h2, h3⟩ := ih (i + 1) _ h
      refine ⟨mappedSlot ps s.draws :: new, by simp [h1], ?_, ?_⟩
      · intro sl hsl
        rcases List.mem_cons.1 hsl with rfl | hsl
        · exact mappedSlot_new ps _ hps
        · exact h2 sl hsl
      · rw [h3]
        simp only [mappedOne, withDraws_pl, withPl_pl, pool_setPool_same, setPool_setPool, List.append_assoc,
          List.singleton_append]
    · rw [e] at h; cases h

theorem thenStep_true {r : Bool × State} {k : State → Bool × State} (h : (thenStep r k).1 = true) :
    r.1 = true ∧ thenStep r k = k r.2 := by
  unfold thenStep at h ⊢
  cases hr : r.1
  · rw [hr] at h; simp [hr] at h
  · exact ⟨rfl, by simp⟩

/-- Continuing after a step: the frame of the whole is that of its parts. -/
theorem thenStep_induct {Q : State → Prop} (r : Bool × State) (k : State → Bool × State) (h1 : Q r.2)
    (h2 : r.1 = true → Q (k r.2).2) : Q (thenStep r k).2 := by
  unfold thenStep
  by_cases hr : r.1 = true
  · rw [if_pos hr]; exact h2 hr
  · rw [if_neg hr]; exact h1

theorem enqAll_succ (P : PoolId) (i n : Nat) (s : State) :
    enqAll P i (n + 1) s = thenStep (enq P P.queue i 0 s) (enqAll P (i + 1) n) := rfl

theorem enqAll_only (P : PoolId) (n i : Nat) (s : State) :
    PipeOnly s (enqAll P i n s).2 ∧ samePlan s.pl (enqAll P i n s).2.pl := by
  induction n generalizing i s with
  | zero => exact ⟨PipeOnly.refl s, samePlan_refl _⟩
  | succ n ih =>
    rw [enqAll_succ]
    obtain ⟨a, b⟩ := enq_only P P.queue i 0 s
    refine thenStep_induct (Q := fun t => PipeOnly s t ∧ samePlan s.pl t.pl) _ _ ⟨a, b⟩ fun _ => ?_
    obtain ⟨c, d⟩ := ih (i + 1) (enq P P.queue i 0 s).2
    exact ⟨a.trans c, samePlan_trans b d⟩

/-- Enqueuing that succeeds queues exactly those slots, and leaves the other pools alone (R250, R256 S7). -/
theorem enqAll_true (P : PoolId) (n i : Nat) (s : State) (h : (enqAll P i n s).1 = true) :
    (enqAll P i n s).2.pl = s.pl.setPool P ((s.pl.pool P).mapIdx fun k sl =>
      if i ≤ k ∧ k < i + n then sl.queuedOn P P.queue else sl) := by
  induction n generalizing i s with
  | zero =>
    have : ((s.pl.pool P).mapIdx fun k sl => if i ≤ k ∧ k < i + 0 then sl.queuedOn P P.queue else sl)
        = s.pl.pool P := by
      apply List.ext_getElem
      · simp
      · intro k _ _
        rw [List.getElem_mapIdx, if_neg (by omega)]
    rw [this, setPool_pool]; rfl
  | succ n ih =>
    rw [enqAll_succ] at h ⊢
    obtain ⟨h1, e⟩ := thenStep_true h
    rw [e] at h ⊢
    rw [ih (i + 1) _ h]
    rcases enq_cases P P.queue i 0 s with ⟨_, e2⟩ | ⟨_, e2⟩
    · rw [e2]
      simp only [State.onSlot, withPl_pl, withDev_pl, pool_setPool_same, setPool_setPool]
      congr 1
      apply List.ext_getElem
      · simp
      · intro k hk1 hk2
        simp only [List.getElem_mapIdx, List.getElem_modify]
        by_cases hik : i = k
        · subst hik; rw [if_neg (by omega), if_pos rfl, if_pos (by omega)]
        · rw [if_neg hik]
          by_cases hk : i + 1 ≤ k ∧ k < i + 1 + n
          · rw [if_pos hk, if_pos (by omega)]
          · rw [if_neg hk, if_neg (by omega)]
    · rw [e2] at h1; cases h1

theorem queryLoop_only (k : Nat) (s : State) : PipeOnly s (queryLoop k s).2 ∧ (queryLoop k s).2.pl = s.pl := by
  have h0 := withDev_only s (s.dev.issue .queryCapture)
  induction k generalizing s with
  | zero => simp only [queryLoop, ask_fst, ask_snd]; split <;> exact ⟨h0, rfl⟩
  | succ k ih =>
    simp only [queryLoop, ask_fst, ask_snd]
    split
    · exact ⟨h0, rfl⟩
    · obtain ⟨a, b⟩ := ih (s.withDev (s.dev.issue .queryCapture)) (withDev_only _ _)
      exact ⟨h0.trans a, b⟩
    · exact ⟨h0, rfl⟩

/-! ### What setup issues -/

/-- A transaction that is no capture query, and was answered neither `FAIL` nor `NOT_READY`. -/
def plainTxn (x : DevTxn) : Prop := x.call ≠ .queryCapture ∧ x.answer ≠ some .fail ∧ x.answer ≠ some .notReady

/-- From `s` to `t` only such transactions were issued. -/
def issuedPlainly (s t : State) : Prop := ∃ l, t.dev.log = s.dev.log ++ l ∧ ∀ x ∈ l, plainTxn x

theorem issuedPlainly_of_eq {s t : State} (h : t.dev = s.dev) : issuedPlainly s t :=
  ⟨[], by rw [h, List.append_nil], by simp⟩

theorem issuedPlainly_trans {s t u : State} (a : issuedPlainly s t) (b : issuedPlainly t u) : issuedPlainly s u := by
  obtain ⟨l, a1, a2⟩ := a
  obtain ⟨l', b1, b2⟩ := b
  refine ⟨l ++ l', by rw [b1, a1, List.append_assoc], fun x hx => ?_⟩
  rcases List.mem_append.1 hx with h | h
  · exact a2 x h
  · exact b2 x h

theorem issuedPlainly_one {s t : State} (c : DevCall) (hc : c ≠ .queryCapture) (hf : s.dev.next ≠ .fail)
    (hn : s.dev.next ≠ .notReady) (ht : t.dev = s.dev.issue c) : issuedPlainly s t :=
  ⟨[⟨c, some s.dev.next⟩], by rw [ht]; rfl, fun x hx => by
    rw [List.mem_singleton] at hx; subst hx; exact ⟨hc, by simpa using hf, by simpa using hn⟩⟩

theorem askOk_issued (c : DevCall) (hc : c ≠ .queryCapture) (s : State) (h : (askOk c s).1 = true) :
    issuedPlainly s (askOk c s).2 := by
  have h' : s.dev.next = .ok := of_decide_eq_true h
  exact issuedPlainly_one c hc (by simp [h']) (by simp [h']) rfl

theorem enq_issued (P : PoolId) (q : QueueId) (i n : Nat) (s : State) (h : (enq P q i n s).1 = true) :
    issuedPlainly s (enq P q i n s).2 := by
  rcases enq_cases P q i n s with ⟨h', e⟩ | ⟨_, e⟩
  · rw [e]; exact issuedPlainly_one (.enqueue q i n) (by simp) (by simp [h']) (by simp [h']) rfl
  · rw [e] at h; cases h

theorem mapSlots_issued (P : PoolId) (n i : Nat) (s : State) (h : (mapSlots P i n s).1 = true) :
    issuedPlainly s (mapSlots P i n s).2 := by
  induction n generalizing i s with
  | zero => exact issuedPlainly_of_eq rfl
  | succ n ih =>
    rcases mapSlots_succ P i n s with ⟨ps, h', _, e⟩ | ⟨_, e⟩
    · rw [e] at h ⊢
      exact issuedPlainly_trans (t := mappedOne P i ps s)
        (issuedPlainly_one (.map P.queue i) (by simp) (by simp [h']) (by simp [h']) rfl) (ih _ _ h)
    · rw [e] at h; cases h

theorem enqAll_issued (P : PoolId) (n i : Nat) (s : State) (h : (enqAll P i n s).1 = true) :
    issuedPlainly s (enqAll P i n s).2 := by
  induction n generalizing i s with
  | zero => exact issuedPlainly_of_eq rfl
  | succ n ih =>
    rw [enqAll_succ] at h ⊢
    obtain ⟨h1, e⟩ := thenStep_true h
    rw [e] at h ⊢
    exact issuedPlainly_trans (enq_issued _ _ _ _ _ h1) (ih _ _ h)

/-- S4 that succeeds: at most `k` answers `NOT_READY`, then the one with the format (R256, R259). -/
theorem queryLoop_some {k : Nat} {s : State} {f : Fmt} {m : Nat} {c : Bool} (h : (queryLoop k s).1 = some (f, m, c)) :
    ∃ j, j ≤ k ∧ (queryLoop k s).2.dev.log = s.dev.log ++
      (List.replicate j ⟨.queryCapture, some .notReady⟩ ++ [⟨.queryCapture, some (.capture f m c)⟩]) := by
  have hok : ∀ s : State, readCapture s.dev.next = .ok f m c → s.dev.next = .capture f m c := by
    intro s hs
    cases hn : s.dev.next <;> rw [hn] at hs <;> simp_all [readCapture]
  have hnr : ∀ s : State, readCapture s.dev.next = .notReady → s.dev.next = .notReady := by
    intro s hs
    cases hn : s.dev.next <;> rw [hn] at hs <;> simp_all [readCapture]
  induction k generalizing s with
  | zero =>
    simp only [queryLoop, ask_fst, ask_snd] at h ⊢
    split at h
    · next hr =>
      cases h
      exact ⟨0, le_refl 0, by simp [DevPort.issue, hok s hr]⟩
    · cases h
    · cases h
  | succ k ih =>
    simp only [queryLoop, ask_fst, ask_snd] at h ⊢
    split at h
    · next hr =>
      cases h
      exact ⟨0, Nat.zero_le _, by simp [DevPort.issue, hok s hr]⟩
    · next hr =>
      obtain ⟨j, h1, h2⟩ := ih h
      refine ⟨j + 1, by omega, ?_⟩
      rw [h2, List.replicate_succ]
      simp [DevPort.issue, hnr s hr]
    · cases h

theorem askOk_eq (c : DevCall) (s : State) : askOk c s = (answerIsOk s.dev.next, s.withDev (s.dev.issue c)) := rfl

theorem askOk_only (c : DevCall) (s : State) : PipeOnly s (askOk c s).2 := withDev_only _ _

/-! ### The steps -/

/-- What setup leaves alone: everything but the pipeline, the device port, the counter of free values, and the
framer, which is as before or has given up its head cluster. -/
structure SetupOnly (s t : State) : Prop where
  params : t.params = s.params
  args : t.args = s.args
  res : t.res = s.res
  mem : t.mem = s.mem
  bw : t.bw = s.bw
  fr : t.fr = s.fr ∨ t.fr = s.fr.take
  se : t.se = s.se
  events : t.events = s.events
  port : t.port = s.port

theorem PipeOnly.setup {s t : State} (h : PipeOnly s t) : SetupOnly s t :=
  ⟨h.params, h.args, h.res, h.mem, h.bw, .inl h.fr, h.se, h.events, h.port⟩

theorem SetupOnly.pipe {s t u : State} (a : SetupOnly s t) (b : PipeOnly t u) : SetupOnly s u :=
  ⟨b.params.trans a.params, b.args.trans a.args, b.res.trans a.res, b.mem.trans a.mem, b.bw.trans a.bw,
    by rw [b.fr]; exact a.fr, b.se.trans a.se, b.events.trans a.events, b.port.trans a.port⟩

theorem setupNegotiate_only (s : State) : PipeOnly s (setupNegotiate s).2 ∧ (setupNegotiate s).2.pl = s.pl :=
  ⟨askOk_only _ _, rfl⟩

theorem setupInput_only (s : State) : PipeOnly s (setupInput s).2 :=
  thenStep_induct _ _ (askOk_only _ _) fun _ =>
    ((askOk_only _ _).trans (withPl_only _ _)).trans (mapSlots_only _ _ _ _)

/-- S2 that succeeds leaves `N_IN` new input slots (R256). -/
theorem setupInput_true (s : State) (h : (setupInput s).1 = true) :
    ∃ new, new.length = s.params.nIn ∧ (∀ sl ∈ new, newSlot sl) ∧
      (setupInput s).2.pl = { s.pl with nIn := s.params.nIn, inPool := new } := by
  unfold setupInput at h ⊢
  obtain ⟨_, e⟩ := thenStep_true h
  rw [e] at h ⊢
  obtain ⟨new, h1, h2, h3⟩ := mapSlots_true _ _ _ _ h
  exact ⟨new, h1, h2, by rw [h3]; rfl⟩

theorem setupHeader_only (s : State) : SetupOnly s (setupHeader s).2 := by
  unfold setupHeader
  split
  · exact (PipeOnly.refl s).setup
  · obtain ⟨a, _⟩ := submitUnit_only 0 s
    have h0 : SetupOnly s (s.withFr s.fr.take) := ⟨rfl, rfl, rfl, rfl, rfl, .inr rfl, rfl, rfl, rfl⟩
    exact h0.pipe a

/-- Input slot 0 once it carries the head cluster and was enqueued (R256 S3, R257). -/
def headIn (s : State) (sl : Slot) : Slot := (sl.fill (s.fr.unitBytes s.params)).queuedOn .inp .inp

theorem headIn_congr {s t : State} (h1 : t.params = s.params) (h2 : t.fr = s.fr) : headIn t = headIn s := by
  funext sl; simp [headIn, h1, h2]

/-- S3 that succeeds leaves the head cluster in input slot 0, queued (R256, R257). -/
theorem setupHeader_true (s : State) (h : (setupHeader s).1 = true) :
    s.fr.unitLen ≤ s.inRoom 0 ∧ (setupHeader s).2.fr = s.fr.take ∧
      (setupHeader s).2.pl = { s.pl with inPool := s.pl.inPool.modify 0 (headIn s) } := by
  unfold setupHeader at h ⊢
  split
  · next hl => rw [if_pos hl] at h; cases h
  · next hl =>
    rw [if_neg hl] at h
    refine ⟨by omega, (submitUnit_only 0 s).1.fr, ?_⟩
    rw [submitUnit_eq] at h ⊢
    rcases enq_cases .inp .inp 0 s.fr.unitLen (loaded 0 s) with ⟨_, e⟩ | ⟨_, e⟩
    · rw [e]
      simp only [State.onSlot, withPl_pl, withDev_pl, loaded, withFr_pl, pool_setPool_same, setPool_setPool,
        modify_modify_same]
      rfl
    · rw [e] at h; cases h

theorem setupOutput_only (m : Nat) (s : State) : PipeOnly s (setupOutput m s).2 :=
  thenStep_induct (Q := fun t => PipeOnly s t) _ _ ((withPl_only s _).trans (askOk_only _ _)) fun _ =>
    ((withPl_only s _).trans (askOk_only _ _)).trans (mapSlots_only _ _ _ _)

/-- S5 that succeeds leaves the decoder-output pool (R256, R16). -/
theorem setupOutput_true (m : Nat) (s : State) (h : (setupOutput m s).1 = true) :
    ∃ new, new.length = m + s.params.pipelineDepth ∧ (∀ sl ∈ new, newSlot sl) ∧
      (setupOutput m s).2.pl = { s.pl with nDout := m + s.params.pipelineDepth, doutPool := new } := by
  unfold setupOutput at h ⊢
  obtain ⟨_, e⟩ := thenStep_true h
  rw [e] at h ⊢
  obtain ⟨new, h1, h2, h3⟩ := mapSlots_true _ _ _ _ h
  exact ⟨new, h1, h2, by rw [h3]; rfl⟩

theorem setupConvert_only (c : Bool) (s : State) : PipeOnly s (setupConvert c s).2 := by
  unfold setupConvert
  cases c
  · rw [if_neg (by simp)]
    refine thenStep_induct (Q := fun t => PipeOnly s t) _ _ ((withPl_only s _).trans (askOk_only _ _)) fun _ => ?_
    refine thenStep_induct (Q := fun t => PipeOnly s t) _ _
      ((((withPl_only s _).trans (askOk_only _ _)).trans (withPl_only _ _)).trans (askOk_only _ _)) fun _ => ?_
    exact ((((withPl_only s _).trans (askOk_only _ _)).trans (withPl_only _ _)).trans (askOk_only _ _)).trans
      (mapSlots_only _ _ _ _)
  · exact PipeOnly.refl s

/-- S6 that succeeds leaves the converter-output pool, or nothing when none is needed (R256, R17). -/
theorem setupConvert_true (c : Bool) (s : State) (h : (setupConvert c s).1 = true) :
    (c = true ∧ (setupConvert c s).2.pl = s.pl) ∨
    (c = false ∧ ∃ new, new.length = s.params.nCout ∧ (∀ sl ∈ new, newSlot sl) ∧
      (setupConvert c s).2.pl = { s.pl with conv := true, nCout := s.params.nCout, coutPool := new }) := by
  cases c
  · refine .inr ⟨rfl, ?_⟩
    unfold setupConvert at h ⊢
    rw [if_neg (by simp)] at h ⊢
    obtain ⟨_, e⟩ := thenStep_true h
    rw [e] at h ⊢
    obtain ⟨_, e2⟩ := thenStep_true h
    rw [e2] at h ⊢
    obtain ⟨new, h1, h2, h3⟩ := mapSlots_true _ _ _ _ h
    exact ⟨new, h1, h2, by rw [h3]; rfl⟩
  · exact .inl ⟨rfl, rfl⟩

theorem setupQueueAll_only (s : State) : PipeOnly s (setupQueueAll s).2 := by
  refine thenStep_induct (Q := fun t => PipeOnly s t) _ _ (enqAll_only _ _ _ _).1 fun _ => ?_
  split
  · exact (enqAll_only _ _ _ _).1.trans (enqAll_only _ _ _ _).1
  · exact (enqAll_only _ _ _ _).1

/-- S7 that succeeds leaves every output slot queued (R256). -/
theorem setupQueueAll_true (s : State) (h : (setupQueueAll s).1 = true) :
    (setupQueueAll s).2.pl =
      { s.pl with
        doutPool := s.pl.doutPool.mapIdx fun k sl =>
          if 0 ≤ k ∧ k < 0 + s.pl.nDout then sl.queuedOn .dout .dout else sl
        coutPool := if s.pl.conv then s.pl.coutPool.mapIdx fun k sl =>
            if 0 ≤ k ∧ k < 0 + s.pl.nCout then sl.queuedOn .cout .cout else sl
          else s.pl.coutPool } := by
  unfold setupQueueAll at h ⊢
  obtain ⟨h1, e⟩ := thenStep_true h
  rw [e] at h ⊢
  have h2 := enqAll_true .dout s.pl.nDout 0 s h1
  have hc : (enqAll .dout 0 s.pl.nDout s).2.pl.conv = s.pl.conv := by rw [h2]; rfl
  have hn : (enqAll .dout 0 s.pl.nDout s).2.pl.nCout = s.pl.nCout := by rw [h2]; rfl
  have hp : (enqAll .dout 0 s.pl.nDout s).2.pl.pool .cout = s.pl.coutPool := by rw [h2]; rfl
  by_cases hcv : (enqAll .dout 0 s.pl.nDout s).2.pl.conv = true
  · rw [if_pos hcv] at h ⊢
    rw [enqAll_true _ _ _ _ h, hp, hn, h2, if_pos (hc ▸ hcv)]
    rfl
  · rw [if_neg hcv]
    rw [if_neg (hc ▸ hcv)]
    rw [h2]
    rfl

theorem setupRest_only (s : State) : PipeOnly s (setupRest s).2 := by
  unfold setupRest
  have hq := (queryLoop_only s.params.hdrRetryMax s).1
  split
  · exact hq
  · next f m c _ =>
    have h1 := hq.trans (withPl_only (queryLoop s.params.hdrRetryMax s).2
      { (queryLoop s.params.hdrRetryMax s).2.pl with fmt := f })
    have h2 := h1.trans (setupOutput_only m _)
    refine thenStep_induct (Q := fun t => PipeOnly s t) _ _ h2 fun _ => ?_
    have h3 := h2.trans (setupConvert_only c _)
    refine thenStep_induct (Q := fun t => PipeOnly s t) _ _ h3 fun _ => ?_
    have h4 := h3.trans (setupQueueAll_only _)
    refine thenStep_induct (Q := fun t => PipeOnly s t) _ _ h4 fun _ => ?_
    exact h4.trans (withPl_only _ _)

/-- What setup leaves alone, whether or not it succeeds (R256, R258). -/
theorem setup_only (s : State) : SetupOnly s (setup s).2 := by
  unfold setup
  have h1 := (setupNegotiate_only s).1
  refine thenStep_induct (Q := fun t => SetupOnly s t) _ _ h1.setup fun _ => ?_
  have h2 := h1.trans (setupInput_only (setupNegotiate s).2)
  refine thenStep_induct (Q := fun t => SetupOnly s t) _ _ h2.setup fun _ => ?_
  have h3 : SetupOnly s (setupHeader (setupInput (setupNegotiate s).2).2).2 := by
    have := setupHeader_only (setupInput (setupNegotiate s).2).2
    exact ⟨this.params.trans h2.params, this.args.trans h2.args, this.res.trans h2.res, this.mem.trans h2.mem,
      this.bw.trans h2.bw, by rw [← h2.fr]; exact this.fr, this.se.trans h2.se, this.events.trans h2.events,
      this.port.trans h2.port⟩
  refine thenStep_induct (Q := fun t => SetupOnly s t) _ _ h3 fun _ => ?_
  exact h3.pipe (setupRest_only _)

/-! ### What the steps issue when they succeed -/

theorem setupInput_issued (s : State) (h : (setupInput s).1 = true) : issuedPlainly s (setupInput s).2 := by
  unfold setupInput at h ⊢
  obtain ⟨h1, e⟩ := thenStep_true h
  rw [e] at h ⊢
  exact issuedPlainly_trans (askOk_issued _ (by simp) s h1) (mapSlots_issued .inp _ 0 _ h)

theorem setupHeader_issued (s : State) (h : (setupHeader s).1 = true) : issuedPlainly s (setupHeader s).2 := by
  unfold setupHeader at h ⊢
  split at h
  · cases h
  · next hl => rw [if_neg hl]; exact enq_issued .inp .inp 0 _ (loaded 0 s) h

theorem setupOutput_issued (m : Nat) (s : State) (h : (setupOutput m s).1 = true) :
    issuedPlainly s (setupOutput m s).2 := by
  unfold setupOutput at h ⊢
  obtain ⟨h1, e⟩ := thenStep_true h
  rw [e] at h ⊢
  exact issuedPlainly_trans (askOk_issued (.alloc .dout _) (by simp) _ h1) (mapSlots_issued .dout _ 0 _ h)

theorem setupConvert_issued (c : Bool) (s : State) (h : (setupConvert c s).1 = true) :
    issuedPlainly s (setupConvert c s).2 := by
  unfold setupConvert at h ⊢
  cases c
  · rw [if_neg (by simp)] at h ⊢
    obtain ⟨h1, e⟩ := thenStep_true h
    rw [e] at h ⊢
    obtain ⟨h2, e2⟩ := thenStep_true h
    rw [e2] at h ⊢
    exact issuedPlainly_trans (issuedPlainly_trans (askOk_issued (.chain _ _) (by simp) _ h1)
      (askOk_issued (.alloc .cout _) (by simp) _ h2)) (mapSlots_issued .cout _ 0 _ h)
  · exact issuedPlainly_of_eq rfl

theorem setupQueueAll_issued (s : State) (h : (setupQueueAll s).1 = true) : issuedPlainly s (setupQueueAll s).2 := by
  unfold setupQueueAll at h ⊢
  obtain ⟨h1, e⟩ := thenStep_true h
  rw [e] at h ⊢
  have a := enqAll_issued .dout s.pl.nDout 0 s h1
  split at h
  · next hc => rw [if_pos hc]; exact issuedPlainly_trans a (enqAll_issued .cout _ 0 _ h)
  · next hc => rw [if_neg hc]; exact a

/-- A new slot after it was queued. -/
def queuedNew (sl : Slot) : Prop := sl.own = .queued ∧ sl.holder = .dec ∧ sl.used = 0 ∧ sl.ok

theorem queuedOn_new (P : PoolId) (sl : Slot) (h : newSlot sl) : queuedNew (sl.queuedOn P P.queue) := by
  obtain ⟨_, h2, h3, h4⟩ := h
  obtain ⟨f1, f2, f3, _, f5⟩ := queuedOn_fields P P.queue sl
  refine ⟨f1, ?_, by rw [f3]; exact h3, slotOk_congr f2 f3 h4⟩
  rw [f5]; cases P <;> simp [PoolId.queue, holderFor, h2]

/-- Every slot of a pool of new slots is queued by the loop over the whole pool. -/
theorem mapIdx_queued (P : PoolId) (xs : List Slot) (n : Nat) (hn : xs.length = n) (h : ∀ sl ∈ xs, newSlot sl) :
    ∀ sl ∈ xs.mapIdx (fun k sl => if 0 ≤ k ∧ k < 0 + n then sl.queuedOn P P.queue else sl), queuedNew sl := by
  intro sl hsl
  obtain ⟨k, hk, rfl⟩ := List.mem_iff_getElem.1 hsl
  have hk' : k < xs.length := by simpa using hk
  rw [List.getElem_mapIdx, if_pos (by omega)]
  exact queuedOn_new P _ (h _ (List.getElem_mem hk'))

/-- What setup that succeeds has issued, `j` answers to the capture query being `NOT_READY` (R256, R259). -/
structure SetupIssued (s t : State) (j : Nat) (f : Fmt) (m : Nat) (c : Bool) : Prop where
  log : ∃ l l', (∀ x ∈ l, plainTxn x) ∧ (∀ x ∈ l', plainTxn x) ∧ t.dev.log = s.dev.log ++ (l ++
    (List.replicate j ⟨.queryCapture, some .notReady⟩ ++ ⟨.queryCapture, some (.capture f m c)⟩ :: l'))

/-- What setup leaves behind when it succeeds (R256): the pools at their sizes, input slot 0 queued with the head
cluster, the other input slots free, every output slot queued. -/
structure SetupDone (s t : State) : Prop where
  fr : t.fr = s.fr.take
  done : t.pl.hdrDone = true
  nIn : t.pl.nIn = s.params.nIn
  inLen : t.pl.inPool.length = t.pl.nIn
  inZero : ∃ sl rest, t.pl.inPool = sl :: rest ∧ sl.own = .queued ∧ sl.used = BitVec.ofNat 32 s.fr.unitLen ∧
    sl.ok ∧ s.fr.unitLen ≤ sl.room ∧ (∀ k, k < s.fr.unitLen → slotByte sl 0 k = (s.fr.unitBytes s.params).getD k 0) ∧
    ∀ x ∈ rest, newSlot x
  asked : ∃ j m c, j ≤ s.params.hdrRetryMax ∧ SetupIssued s t j t.pl.fmt m c ∧
    t.pl.nDout = m + s.params.pipelineDepth ∧ t.pl.conv = !c
  doutLen : t.pl.doutPool.length = t.pl.nDout
  dout : ∀ sl ∈ t.pl.doutPool, queuedNew sl
  nCout : t.pl.nCout = (if t.pl.conv then s.params.nCout else s.pl.nCout)
  coutLen : (t.pl.conv = true → t.pl.coutPool.length = t.pl.nCout) ∧
    (t.pl.conv = false → t.pl.coutPool = s.pl.coutPool)
  cout : t.pl.conv = true → ∀ sl ∈ t.pl.coutPool, queuedNew sl

theorem nIn_pos (p : Config.Params) : 0 < p.nIn := by unfold Config.Params.nIn; split <;> omega

/-- What a filled slot reads (R257). -/
theorem slotByte_fill (bs : List Byte) (sl : Slot) (h : sl.planes ≠ []) (k : Nat) (hk : k < bs.length) :
    slotByte (sl.fill bs) 0 k = bs.getD k 0 := by
  cases hp : sl.planes with
  | nil => exact absurd hp h
  | cons p ps =>
    simp only [slotByte, Slot.fill, hp, modify_zero_cons, List.getElem?_cons_zero, Option.bind_some,
      peek_putBytes]
    rw [if_pos (by omega), Nat.sub_zero, List.getElem?_eq_getElem hk, List.getD_eq_getElem?_getD,
      List.getElem?_eq_getElem hk]
    rfl

/-- Bytes of the other planes, and of plane 0 beyond the unit, keep what they held (R257). -/
theorem slotByte_fill_other (bs : List Byte) (sl : Slot) (q k : Nat) (hk : q ≠ 0 ∨ bs.length ≤ k) :
    slotByte (sl.fill bs) q k = slotByte sl q k := by
  cases hp : sl.planes with
  | nil => simp [slotByte, Slot.fill, hp]
  | cons p ps =>
    simp only [slotByte, Slot.fill, hp, modify_zero_cons]
    cases q with
    | succ q => rfl
    | zero =>
      have hk' : bs.length ≤ k := by simpa using hk
      simp only [List.getElem?_cons_zero, Option.bind_some, peek_putBytes]
      rw [if_neg (by omega)]

/-- The pipeline before S7, with its pools still free (R256). -/
def setupPlan (s : State) (f : Fmt) (ins : List Slot) (m : Nat) (douts : List Slot) (cv : Bool) (nc : Nat)
    (cs : List Slot) : Pipeline :=
  { fmt := f, nIn := s.params.nIn, nDout := m + s.params.pipelineDepth, nCout := nc, conv := cv,
    hdrDone := s.pl.hdrDone, inPool := ins.modify 0 (headIn s), doutPool := douts, coutPool := cs }

/-- What setup that succeeds has issued, from any state: at most `HDR_RETRY_MAX` answers `NOT_READY`, and no `FAIL`
(R256, R259). -/
theorem setup_issued (s : State) (h : (setup s).1 = true) :
    ∃ j f m c, j ≤ s.params.hdrRetryMax ∧ SetupIssued s (setup s).2 j f m c := by
  unfold setup at h ⊢
  obtain ⟨g1, e1⟩ := thenStep_true h
  rw [e1] at h ⊢
  have l1 : issuedPlainly s (setupNegotiate s).2 := askOk_issued (.negotiateInput _ _ _) (by simp) s g1
  have n1 := (setupNegotiate_only s).1.params
  obtain ⟨h2, e2⟩ := thenStep_true h
  rw [e2] at h ⊢
  have l2 := issuedPlainly_trans l1 (setupInput_issued _ h2)
  have n2 := (setupInput_only (setupNegotiate s).2).params.trans n1
  obtain ⟨h3, e3⟩ := thenStep_true h
  rw [e3] at h ⊢
  obtain ⟨l, a1, a2⟩ := issuedPlainly_trans l2 (setupHeader_issued _ h3)
  have n3 := (setupHeader_only (setupInput (setupNegotiate s).2).2).params.trans n2
  generalize (setupHeader (setupInput (setupNegotiate s).2).2).2 = s3 at h a1 n3 ⊢
  unfold setupRest at h ⊢
  split at h
  · cases h
  · next f m c hq =>
    obtain ⟨j, j1, j2⟩ := queryLoop_some hq
    obtain ⟨h5, e5⟩ := thenStep_true h
    rw [e5] at h ⊢
    have l5 := setupOutput_issued m _ h5
    obtain ⟨h6, e6⟩ := thenStep_true h
    rw [e6] at h ⊢
    have l6 := issuedPlainly_trans l5 (setupConvert_issued c _ h6)
    obtain ⟨h7, e7⟩ := thenStep_true h
    rw [e7]
    obtain ⟨l', b1, b2⟩ := issuedPlainly_trans l6 (setupQueueAll_issued _ h7)
    refine ⟨j, f, m, c, n3 ▸ j1, l, l', a2, b2, ?_⟩
    rw [withPl_dev, b1, withPl_dev, j2, a1]
    simp

/-- Setup that succeeds leaves the pipeline as R256 says. -/
theorem setup_true (s : State) (hconv : s.pl.conv = false) (h : (setup s).1 = true) : SetupDone s (setup s).2 := by
  unfold setup at h ⊢
  obtain ⟨g1, e1⟩ := thenStep_true h
  rw [e1] at h ⊢
  have l1 := askOk_issued (.negotiateInput _ _ _) (by simp) s g1
  obtain ⟨n1, n2⟩ := setupNegotiate_only s
  set s1 := (setupNegotiate s).2
  obtain ⟨h2, e2⟩ := thenStep_true h
  rw [e2] at h ⊢
  obtain ⟨ins, i1, i2, i3⟩ := setupInput_true s1 h2
  have io := setupInput_only s1
  have l2 := issuedPlainly_trans l1 (setupInput_issued s1 h2)
  set s2 := (setupInput s1).2
  obtain ⟨h3, e3⟩ := thenStep_true h
  rw [e3] at h ⊢
  obtain ⟨d1, d2, d3⟩ := setupHeader_true s2 h3
  have dO := setupHeader_only s2
  have l3 := issuedPlainly_trans l2 (setupHeader_issued s2 h3)
  set s3 := (setupHeader s2).2
  have hfr2 : s2.fr = s.fr := io.fr.trans n1.fr
  have hpar2 : s2.params = s.params := io.params.trans n1.params
  have hpar3 : s3.params = s.params := dO.params.trans hpar2
  rw [headIn_congr hpar2 hfr2] at d3
  rw [hfr2] at d1 d2
  have hpl3 : s3.pl = { s.pl with nIn := s.params.nIn, inPool := ins.modify 0 (headIn s) } := by
    rw [d3, i3, n2, n1.params]
  rw [n1.params] at i1
  have hroom : ∃ x xs, ins = x :: xs ∧ s.fr.unitLen ≤ x.room := by
    cases hi : ins with
    | nil => rw [hi] at i1; have := nIn_pos s.params; simp at i1; omega
    | cons x xs =>
      refine ⟨x, xs, rfl, ?_⟩
      have : s2.pl.inPool = x :: xs := by rw [i3, hi]
      simpa [State.inRoom, this] using d1
  obtain ⟨x, xs, hins, hx⟩ := hroom
  have hnx := i2 x (by simp [hins])
  -- S4 to S7
  unfold setupRest at h ⊢
  obtain ⟨qo, qp⟩ := queryLoop_only s3.params.hdrRetryMax s3
  split at h
  · cases h
  · next f m c hq =>
    obtain ⟨j, j1, j2⟩ := queryLoop_some hq
    rw [hpar3] at j1
    set s4 := (queryLoop s3.params.hdrRetryMax s3).2
    have hpar4 : (s4.withPl { s4.pl with fmt := f }).params = s.params := qo.params.trans hpar3
    obtain ⟨h5, e5⟩ := thenStep_true h
    rw [e5] at h ⊢
    obtain ⟨douts, o1, o2, o3⟩ := setupOutput_true m _ h5
    have oo := setupOutput_only m (s4.withPl { s4.pl with fmt := f })
    have l5 := setupOutput_issued m (s4.withPl { s4.pl with fmt := f }) h5
    set s5 := (setupOutput m (s4.withPl { s4.pl with fmt := f })).2
    obtain ⟨h6, e6⟩ := thenStep_true h
    rw [e6] at h ⊢
    have co := setupConvert_only c s5
    have ct := setupConvert_true c s5 h6
    have l6 := issuedPlainly_trans l5 (setupConvert_issued c s5 h6)
    set s6 := (setupConvert c s5).2
    obtain ⟨h7, e7⟩ := thenStep_true h
    rw [e7]
    have qt := setupQueueAll_true s6 h7
    have qo7 := setupQueueAll_only s6
    have l7 := issuedPlainly_trans l6 (setupQueueAll_issued s6 h7)
    set s7 := (setupQueueAll s6).2
    rw [hpar4] at o1 o3
    have hpl5 : s5.pl = setupPlan s f ins m douts s.pl.conv s.pl.nCout s.pl.coutPool := by
      rw [o3]
      simp only [withPl_pl]
      rw [qp, hpl3]
      rfl
    have hpar5 : s5.params = s.params := oo.params.trans hpar4
    have hfr : s7.fr = s.fr.take := by
      rw [qo7.fr, co.fr, oo.fr]
      exact qo.fr.trans d2
    have key : ∃ cv nc cs, cv = !c ∧ s6.pl = setupPlan s f ins m douts cv nc cs ∧
        ((cv = false ∧ nc = s.pl.nCout ∧ cs = s.pl.coutPool) ∨
          (cv = true ∧ nc = s.params.nCout ∧ cs.length = nc ∧ ∀ sl ∈ cs, newSlot sl)) := by
      rcases ct with ⟨hc, e⟩ | ⟨hc, new, c1, c2, e⟩
      · exact ⟨false, s.pl.nCout, s.pl.coutPool, by rw [hc]; rfl, by rw [e, hpl5, ← hconv], .inl ⟨rfl, rfl, rfl⟩⟩
      · exact ⟨true, s.params.nCout, new, by rw [hc]; rfl, by rw [e, hpl5, hpar5]; rfl, .inr ⟨rfl, rfl, by rw [c1, hpar5], c2⟩⟩
    obtain ⟨cv, nc, cs, hcc, hpl6, hcv⟩ := key
    have hlog : SetupIssued s (s7.withPl { s7.pl with hdrDone := true }) j f m c := by
      obtain ⟨l, a1, a2⟩ := l3
      obtain ⟨l', b1, b2⟩ := l7
      refine ⟨l, l', a2, b2, ?_⟩
      have b3 : s7.dev.log = s4.dev.log ++ l' := b1
      rw [withPl_dev, b3, j2, a1]
      simp
    rw [hpl6] at qt
    simp only [setupPlan] at qt
    have hfinal : (s7.withPl { s7.pl with hdrDone := true }).pl = { s7.pl with hdrDone := true } := rfl
    refine ⟨hfr, rfl, ?_, ?_, ?_, ⟨j, m, c, j1, by simpa [qt] using hlog, ?_, ?_⟩, ?_, ?_, ?_, ⟨?_, ?_⟩, ?_⟩ <;>
      simp only [withPl_pl, qt]
    · simp [i1]
    · refine ⟨headIn s x, xs, by rw [hins, modify_zero_cons], (queuedOn_fields _ _ _).1, ?_, ?_, ?_, ?_, ?_⟩
      · rw [headIn, (queuedOn_fields _ _ _).2.2.1]; simp [Slot.fill]
      · exact slotOk_congr (queuedOn_fields _ _ _).2.1 (queuedOn_fields _ _ _).2.2.1
          (fill_ok _ x hnx.2.2.2 (by simpa using hx))
      · have hr : ((x.fill (s.fr.unitBytes s.params)).queuedOn .inp .inp).room = x.room := by
          cases hp : x.planes <;> simp [Slot.room, Slot.queuedOn, Slot.fill, hp]
        rw [headIn, hr]; exact hx
      · intro k hk
        have : slotByte ((x.fill (s.fr.unitBytes s.params)).queuedOn .inp .inp) 0 k
            = slotByte (x.fill (s.fr.unitBytes s.params)) 0 k := by
          simp [slotByte, Slot.queuedOn]
        rw [headIn, this]
        exact slotByte_fill _ x hnx.2.2.2.1 k (by simpa using hk)
      · exact fun y hy => i2 y (by simp [hins, hy])
    · exact hcc
    · simp [o1]
    · exact mapIdx_queued .dout douts _ o1 o2
    · rcases hcv with ⟨rfl, hn, _⟩ | ⟨rfl, hn, _⟩ <;> simp [hn]
    · intro hc
      rcases hcv with ⟨rfl, _⟩ | ⟨rfl, _, hl, _⟩
      · cases hc
      · simpa using hl
    · intro hc
      rcases hcv with ⟨rfl, _, hs⟩ | ⟨rfl, _⟩
      · simpa using hs
      · cases hc
    · intro hc
      rcases hcv with ⟨rfl, _⟩ | ⟨rfl, _, hl, hnew⟩
      · cases hc
      · exact mapIdx_queued .cout cs _ hl hnew

end Sys2Proof.Machine
end

