-- ==== Sys2Proof/Laws/Commands.lean ====
section
/-! SUPPORT. Everything each command can do, said once per command: the cases in which its meaning ends and the
next state of each. Claims about a command start from its lemma here and never unfold its meaning. -/

namespace Sys2Proof.Machine

/-! ### BW -/

theorem execBwInit_cases (s : State) :
    ((maxCap < s.args.a1.toNat ∨ memSize < s.args.a0.toNat + s.args.a1.toNat) ∧
      execBwInit s = s.finish .illegalOperand) ∨
    (s.args.a1.toNat ≤ maxCap ∧ s.args.a0.toNat + s.args.a1.toNat ≤ memSize ∧
      execBwInit s = (s.withBw ⟨s.args.a0, s.args.a1, 0, false⟩).finish .ok) := by
  unfold execBwInit
  by_cases h : (decide (maxCap < s.args.a1.toNat) || rangeWraps s.args.a0 s.args.a1.toNat) = true
  · rw [if_pos h]
    simp only [rangeWraps, Bool.or_eq_true, decide_eq_true_eq] at h
    exact .inl ⟨h, rfl⟩
  · rw [if_neg h]
    simp only [rangeWraps, Bool.or_eq_true, decide_eq_true_eq] at h
    exact .inr ⟨by omega, by omega, rfl⟩

/-- How a BW command ends that runs one writer (R122, R123). -/
theorem finishWrite_cases (w : Writer) (s : State) :
    (s.bw.pos.toNat + (w.bits s.bw.pos.toNat).length ≤ 8 * s.bw.cap.toNat ∧
      finishWrite (putWriter w s) = (appended s (w.bits s.bw.pos.toNat)).finish .ok) ∨
    (8 * s.bw.cap.toNat < s.bw.pos.toNat + (w.bits s.bw.pos.toNat).length ∧
      finishWrite (putWriter w s) = s.setOvf.finish .bitOverflow) := by
  rw [Writer.bits_length]
  rcases putWriter_cases w s with ⟨h, e⟩ | ⟨h, e⟩
  · exact .inl ⟨(bwFits_iff s _).1 h, by rw [e]; rfl⟩
  · refine .inr ⟨?_, by rw [e]; rfl⟩
    have := mt (bwFits_iff s (w.field s.bw.pos.toNat).1).2 (by rw [h]; simp)
    omega

theorem execBwFixed_cases (n : BitVec 6) (s : State) :
    (32 < n.toNat ∧ execBwFixed n s = s.finish .illegalOperand) ∨
    (n.toNat ≤ 32 ∧ execBwFixed n s = finishWrite (putWriter (.u n.toNat s.args.a0.toNat) s)) := by
  unfold execBwFixed Config.fixedMax
  by_cases h : 32 < n.toNat
  · exact .inl ⟨h, by rw [if_pos h]⟩
  · exact .inr ⟨by omega, by rw [if_neg h]⟩

theorem execBwBytes_cases (s : State) :
    (s.badBwSource s.args.a0 s.args.a1.toNat = true ∧ execBwBytes s = s.finish .illegalOperand) ∨
    (s.badBwSource s.args.a0 s.args.a1.toNat = false ∧
      s.bw.pos.toNat + 8 * s.args.a1.toNat ≤ 8 * s.bw.cap.toNat ∧
      execBwBytes s =
        ((putByteSeq (memRead s.mem s.args.a0.toNat s.args.a1.toNat) s).setR1 s.args.a1).finish .ok) ∨
    (s.badBwSource s.args.a0 s.args.a1.toNat = false ∧
      8 * s.bw.cap.toNat < s.bw.pos.toNat + 8 * s.args.a1.toNat ∧
      execBwBytes s = (s.setOvf.setR1 0).finish .bitOverflow) := by
  unfold execBwBytes
  cases hb : s.badBwSource s.args.a0 s.args.a1.toNat
  · rw [if_neg (by simp)]
    by_cases hf : s.bwFits (8 * s.args.a1.toNat) = true
    · rw [if_pos hf]; exact .inr (.inl ⟨rfl, (bwFits_iff s _).1 hf, rfl⟩)
    · rw [if_neg hf]
      have := mt (bwFits_iff s (8 * s.args.a1.toNat)).2 hf
      exact .inr (.inr ⟨rfl, by omega, rfl⟩)
  · exact .inl ⟨rfl, by rw [if_pos rfl]⟩

/-! ### NS -/

theorem execNsSps_cases (s : State) :
    (s.spsIllegal = true ∧ execNsSps s = s.finish .illegalOperand) ∨
    (s.spsIllegal = false ∧ execNsSps s = emitRbsp
      (spsWriters s.params.levelIdc s.mem s.args.a0.toNat s.args.a1.toNat s.args.a2.toNat s.args.a3) s) := by
  unfold execNsSps
  cases s.spsIllegal
  · exact .inr ⟨rfl, by rw [if_neg (by simp)]⟩
  · exact .inl ⟨rfl, by rw [if_pos rfl]⟩

theorem execNsPps_cases (s : State) :
    (s.badBwSource s.args.a3 52 = true ∧ execNsPps s = s.finish .illegalOperand) ∨
    (s.badBwSource s.args.a3 52 = false ∧ execNsPps s = emitRbsp (ppsWriters s.mem s.args.a3) s) := by
  unfold execNsPps ppsBlockLen
  cases s.badBwSource s.args.a3 52
  · exact .inr ⟨rfl, by rw [if_neg (by simp)]⟩
  · exact .inl ⟨rfl, by rw [if_pos rfl]⟩

/-! ### FR -/

theorem modeOfCode_none {c : BitVec 2} : modeOfCode c = none ↔ c = 3#2 := by revert c; decide

theorem modeOfCode_some {c : BitVec 2} {md : Mode} : modeOfCode c = some md ↔ BitVec.ofNat 2 md.code = c := by
  revert c; cases md <;> decide

theorem framerBarred_true {s : State} : s.framerBarred = true ↔ s.fr.valid = false ∨ s.se.life ≠ .closed := by
  simp [State.framerBarred]

theorem framerBarred_false {s : State} : s.framerBarred = false ↔ s.fr.valid = true ∧ s.se.life = .closed := by
  simp [State.framerBarred]

theorem execFrInit_cases (m : BitVec 2) (g : Bool) (s : State) :
    (s.se.life ≠ .closed ∧ execFrInit m g s = s.finish .illegalState) ∨
    (s.se.life = .closed ∧ m = 3#2 ∧ execFrInit m g s = s.finish .illegalOperand) ∨
    (s.se.life = .closed ∧ ∃ md : Mode, BitVec.ofNat 2 md.code = m ∧
      execFrInit m g s = (s.withFr (frInit md g s.fr)).finish .ok) := by
  unfold execFrInit
  by_cases hl : s.se.life = .closed
  · rw [if_neg (by simpa using hl)]
    cases hm : modeOfCode m with
    | none => exact .inr (.inl ⟨hl, modeOfCode_none.1 hm, rfl⟩)
    | some md => exact .inr (.inr ⟨hl, md, modeOfCode_some.1 hm, rfl⟩)
  · rw [if_pos hl]; exact .inl ⟨hl, rfl⟩

theorem execFrPush_cases (s : State) :
    ((s.fr.valid = false ∨ s.se.life ≠ .closed) ∧ execFrPush s = s.finish .illegalState) ∨
    (s.fr.valid = true ∧ s.se.life = .closed ∧
      ((memSize < s.args.a0.toNat + s.args.a1.toNat ∧ execFrPush s = s.finish .illegalOperand) ∨
      (s.args.a0.toNat + s.args.a1.toNat ≤ memSize ∧
        ((s.fr.hasRoom s.params.ringCap s.args.a1.toNat = true ∧ execFrPush s =
          (s.withFr (frPush s.params.ringCap (memRead s.mem s.args.a0.toNat s.args.a1.toNat) s.fr)).finish .ok) ∨
        (s.fr.hasRoom s.params.ringCap s.args.a1.toNat = false ∧ execFrPush s = s.finish .bufferFull))))) := by
  unfold execFrPush
  cases hb : s.framerBarred
  · refine .inr ⟨(framerBarred_false.1 hb).1, (framerBarred_false.1 hb).2, ?_⟩
    rw [if_neg (by simp)]
    cases hw : rangeWraps s.args.a0 s.args.a1.toNat
    · rw [if_neg (by simp)]
      refine .inr ⟨rangeWraps_false.1 hw, ?_⟩
      cases hr : s.fr.hasRoom s.params.ringCap s.args.a1.toNat
      · exact .inr ⟨rfl, by rw [if_neg (by simp)]⟩
      · exact .inl ⟨rfl, by rw [if_pos rfl]⟩
    · exact .inl ⟨rangeWraps_true.1 hw, by rw [if_pos rfl]⟩
  · exact .inl ⟨framerBarred_true.1 hb, by rw [if_pos rfl]⟩

theorem extractScanned_cases (f : Framer) (s : State) :
    (f.pending = false ∧ extractScanned f s = (((s.withFr f).setR1 0).setR2 0).finish .ok) ∨
    (f.pending = true ∧ s.args.a1.toNat < f.unitLen ∧ extractScanned f s =
      (((s.withFr f).setR1 (BitVec.ofNat 32 f.unitLen)).setR2 0).finish .outTooSmall) ∨
    (f.pending = true ∧ f.unitLen ≤ s.args.a1.toNat ∧ extractScanned f s =
      ((((s.withMem (s.mem.putBytes s.args.a0.toNat (f.unitBytes s.params))).withFr f.take).setR1
        (BitVec.ofNat 32 f.unitLen)).setR2 (BitVec.ofNat 32 f.pendTag.code)).finish .frameReady) := by
  unfold extractScanned
  cases hp : f.pending
  · exact .inl ⟨rfl, by rw [if_neg (by simp)]⟩
  · rw [if_pos rfl]
    by_cases hl : s.args.a1.toNat < f.unitLen
    · exact .inr (.inl ⟨rfl, hl, by rw [if_pos hl]⟩)
    · exact .inr (.inr ⟨rfl, by omega, by rw [if_neg hl]⟩)

theorem execFrExtract_cases (s : State) :
    ((s.fr.valid = false ∨ s.se.life ≠ .closed) ∧ execFrExtract s = s.finish .illegalState) ∨
    (s.fr.valid = true ∧ s.se.life = .closed ∧
      ((memSize < s.args.a0.toNat + s.args.a1.toNat ∧ execFrExtract s = s.finish .illegalOperand) ∨
      (s.args.a0.toNat + s.args.a1.toNat ≤ memSize ∧
        execFrExtract s = extractScanned (frScan s.params s.fr) s))) := by
  unfold execFrExtract
  cases hb : s.framerBarred
  · refine .inr ⟨(framerBarred_false.1 hb).1, (framerBarred_false.1 hb).2, ?_⟩
    rw [if_neg (by simp)]
    cases hw : rangeWraps s.args.a0 s.args.a1.toNat
    · exact .inr ⟨rangeWraps_false.1 hw, by rw [if_neg (by simp)]⟩
    · exact .inl ⟨rangeWraps_true.1 hw, by rw [if_pos rfl]⟩
  · exact .inl ⟨framerBarred_true.1 hb, by rw [if_pos rfl]⟩

theorem execFrStat_cases (s : State) :
    (s.fr.valid = false ∧ execFrStat s = s.finish .illegalState) ∨
    (s.fr.valid = true ∧ ∃ v1 v2 v3, execFrStat s = (((s.setR1 v1).setR2 v2).setR3 v3).finish .ok) := by
  unfold execFrStat
  cases hv : s.fr.valid
  · exact .inl ⟨rfl, by rw [if_neg (by simp)]⟩
  · exact .inr ⟨rfl, _, _, _, by rw [if_pos rfl]⟩

/-! ### SE -/

theorem execSeOpen_cases (s : State) :
    (s.se.life ≠ .closed ∧ execSeOpen s = s.finish .illegalState) ∨
    (s.se.life = .closed ∧ (profileMode s.args.a0 = 3#2 ∨ profileReserved s.args.a0 = true) ∧
      execSeOpen s = s.finish .illegalOperand) ∨
    (s.se.life = .closed ∧ profileReserved s.args.a0 = false ∧ ∃ md : Mode,
      BitVec.ofNat 2 md.code = profileMode s.args.a0 ∧
      execSeOpen s = (((s.withSe ⟨.opened, profileIdc s.args.a0, s.args.a1, s.args.a2⟩).withFr
          (frInit md true s.fr)).withPl s.pl.emptied).finish .ok) := by
  unfold execSeOpen
  by_cases hl : s.se.life = .closed
  · rw [if_neg (by simpa using hl)]
    cases hm : modeOfCode (profileMode s.args.a0) with
    | none => exact .inr (.inl ⟨hl, .inl (modeOfCode_none.1 hm), rfl⟩)
    | some md =>
      cases hr : profileReserved s.args.a0
      · exact .inr (.inr ⟨hl, rfl, md, modeOfCode_some.1 hm, rfl⟩)
      · exact .inr (.inl ⟨hl, .inr rfl, rfl⟩)
  · rw [if_pos hl]; exact .inl ⟨hl, rfl⟩

theorem execSeClose_cases (s : State) :
    (s.se.life = .closed ∧ execSeClose s = s.finish .illegalState) ∨
    (s.se.life ≠ .closed ∧ ∃ t, (t = s ∨ t = tellTeardown s) ∧ (s.pl.hdrDone = false → t = s) ∧
      (s.pl.hdrDone = true → t = tellTeardown s) ∧
      execSeClose s = (((t.withPl t.pl.emptied).withFr { t.fr with valid := false }).withSe
        { t.se with life := .closed }).finish .ok) := by
  unfold execSeClose
  by_cases hl : s.se.life = .closed
  · rw [if_pos hl]; exact .inl ⟨hl, rfl⟩
  · rw [if_neg hl]
    refine .inr ⟨hl, _, ?_, ?_, ?_, rfl⟩ <;> cases s.pl.hdrDone <;> simp

/-- `SE_GETPIC` (R280). -/
theorem execSeGetpic_cases (s : State) :
    (s.se.life = .closed ∧ execSeGetpic s = s.finish .illegalState) ∨
    (s.se.life = .failed ∧ execSeGetpic s = s.finish .protocolError) ∨
    (s.se.life = .opened ∧ s.pl.hdrDone = false ∧
      execSeGetpic s = (((s.setR1 0).setR2 0).setR3 0).finish .notReady) ∨
    (s.se.life = .opened ∧ s.pl.hdrDone = true ∧
      execSeGetpic s = (getPicture (((s.setR1 0).setR2 0).setR3 0)).2.finish
        (getPicture (((s.setR1 0).setR2 0).setR3 0)).1.status) := by
  unfold execSeGetpic
  cases hl : s.se.life with
  | closed => exact .inl ⟨rfl, rfl⟩
  | failed => exact .inr (.inl ⟨rfl, rfl⟩)
  | opened =>
    cases hd : s.pl.hdrDone
    · exact .inr (.inr (.inl ⟨rfl, rfl, rfl⟩))
    · exact .inr (.inr (.inr ⟨rfl, rfl, rfl⟩))

/-- The `BUF_LIST` check, as an inequality for each range (R272, R69). -/
theorem listIllegal_false {s : State} : s.listIllegal = false ↔ s.listLegal := by
  unfold State.listIllegal State.listLegal
  rw [Bool.or_eq_false_iff, rangeWraps_false, List.any_eq_false]
  simp only [Bool.not_eq_true, rangeWraps_false]
  rfl

/-- The outcomes of D1 (R272). -/
theorem decodePush_cases (s : State) :
    (s.fr.hasRoom s.params.ringCap s.codedBytes.length = true ∧ decodePush s =
      ({ stepNoteInit with pushed := true }, s.withFr (frPush s.params.ringCap s.codedBytes s.fr))) ∨
    (s.fr.hasRoom s.params.ringCap s.codedBytes.length = false ∧
      decodePush s = ({ stepNoteInit with st := .bufferFull }, s)) := by
  unfold decodePush
  cases h : s.fr.hasRoom s.params.ringCap s.codedBytes.length
  · refine .inr ⟨rfl, ?_⟩
    simp only [State.codedBytes] at h
    simp only [h]; rfl
  · refine .inl ⟨rfl, ?_⟩
    simp only [State.codedBytes] at h
    simp only [h]; rfl

/-- `SE_DECODE` (R272): the refusals, the steady state, and the three ways the first phase ends. -/
theorem execSeDecode_cases (s : State) :
    (s.se.life = .closed ∧ execSeDecode s = s.finish .illegalState) ∨
    (s.se.life = .failed ∧ execSeDecode s = s.finish .protocolError) ∨
    (s.se.life = .opened ∧ ¬ s.listLegal ∧ execSeDecode s = s.finish .illegalOperand) ∨
    (s.se.life = .opened ∧ s.listLegal ∧
      let r := decodePush s
      let t := r.2.withFr (frScan r.2.params r.2.fr)
      (r.2.pl.hdrDone = true ∧ execSeDecode s = decodeReport (decodePoll (decodeSubmit r))) ∨
      (r.2.pl.hdrDone = false ∧ t.fr.pending = false ∧ execSeDecode s = decodeReport (r.1, t)) ∨
      (r.2.pl.hdrDone = false ∧ t.fr.pending = true ∧ (setup t).1 = true ∧
        execSeDecode s =
          decodeReport (decodePoll (decodeSubmit ({ r.1 with setupRan := true }, (setup t).2)))) ∨
      (r.2.pl.hdrDone = false ∧ t.fr.pending = true ∧ (setup t).1 = false ∧
        execSeDecode s = (setupFailed (setup t).2).finish .protocolError)) := by
  unfold execSeDecode
  cases hl : s.se.life with
  | closed => exact .inl ⟨rfl, rfl⟩
  | failed => exact .inr (.inl ⟨rfl, rfl⟩)
  | opened =>
    refine .inr (.inr ?_)
    cases hi : s.listIllegal
    · refine .inr ⟨rfl, listIllegal_false.1 hi, ?_⟩
      simp only [Bool.false_eq_true, if_false, decodeSteps]
      cases hd : (decodePush s).2.pl.hdrDone
      · refine .inr ?_
        simp only [Bool.false_eq_true, if_false, decodeFirst]
        cases hp : (frScan (decodePush s).2.params (decodePush s).2.fr).pending
        · exact .inl ⟨trivial, hp, by simp⟩
        · refine .inr ?_
          cases hs : (setup ((decodePush s).2.withFr (frScan (decodePush s).2.params (decodePush s).2.fr))).1
          · exact .inr ⟨trivial, hp, rfl, by simp⟩
          · exact .inl ⟨trivial, hp, rfl, by simp⟩
      · exact .inl ⟨rfl, by simp⟩
    · refine .inl ⟨rfl, fun h => ?_, by simp⟩
      rw [listIllegal_false.2 h] at hi
      cases hi


/-! ### All commands at once -/

/-- The writer of a BW command that runs one writer (R125, R126, R128 to R130). -/
def writerOf (s : State) : Instr → Option Writer
  | .bwBit v => some (.u 1 (bit v))
  | .bwFixed n => if n.toNat ≤ 32 then some (.u n.toNat s.args.a0.toNat) else none
  | .bwUe => some (.ue s.args.a0.toNat)
  | .bwSe => some (.se (asS32 s.args.a0))
  | .bwAlign => some .trail
  | _ => none

/-- The bytes a copying command puts before the escaped payload (R153, R156). -/
def leadOf : Instr → Option (List Byte)
  | .nsEscape => some []
  | .nsNal t => some (nalLead t)
  | _ => none

/-- The fields of the parameter set a command writes, when its operands are legal (R163, R175). -/
def fieldsOf (s : State) : Instr → Option (List Writer)
  | .nsSps =>
    if s.spsIllegal then none
    else some (spsWriters s.params.levelIdc s.mem s.args.a0.toNat s.args.a1.toNat s.args.a2.toNat s.args.a3)
  | .nsPps => if s.badBwSource s.args.a3 52 then none else some (ppsWriters s.mem s.args.a3)
  | _ => none

/-- The commands that move the framer for the host (R320). -/
def movesFramer : Instr → Bool
  | .frInit _ _ => true
  | .frPush => true
  | .frExtract => true
  | _ => false

/-- How the commands end: the commands, the conditions under which they end so, the next state. -/
inductive Ends (s : State) : Instr → State → Prop
  /-- a status that changes nothing but `r0`: bad operands -/
  | badOperand (i : Instr) (h : i = .bwInit ∨ (∃ n, i = .bwFixed n) ∨ i = .bwBytes ∨ unitOf i = .ns ∨
      (s.se.life = .closed ∧ ((∃ m g, i = .frInit m g) ∨ i = .seOpen ∨
        (s.fr.valid = true ∧ (i = .frPush ∨ i = .frExtract)))) ∨ (s.se.life = .opened ∧ i = .seDecode)) :
      Ends s i (s.setR0 (Status.word .illegalOperand))
  /-- the command is not legal in this state -/
  | badState (i : Instr) (h : (s.se.life ≠ .closed ∧ (movesFramer i = true ∨ i = .seOpen)) ∨
      (s.fr.valid = false ∧ (i = .frPush ∨ i = .frExtract ∨ i = .frStat)) ∨
      (s.se.life = .closed ∧ (i = .seDecode ∨ i = .seGetpic ∨ i = .seClose))) :
      Ends s i (s.setR0 (Status.word .illegalState))
  /-- the session has failed -/
  | failed (i : Instr) (h : s.se.life = .failed) (hi : i = .seDecode ∨ i = .seGetpic) :
      Ends s i (s.setR0 (Status.word .protocolError))
  | bwInit (h1 : s.args.a1.toNat ≤ maxCap) (h2 : s.args.a0.toNat + s.args.a1.toNat ≤ memSize) :
      Ends s .bwInit ((s.withBw ⟨s.args.a0, s.args.a1, 0, false⟩).setR0 (Status.word .ok))
  | wrote (i : Instr) (w : Writer) (hw : writerOf s i = some w)
      (h : s.bw.pos.toNat + (w.bits s.bw.pos.toNat).length ≤ 8 * s.bw.cap.toNat) :
      Ends s i ((appended s (w.bits s.bw.pos.toNat)).setR0 (Status.word .ok))
  | lost (i : Instr) (w : Writer) (hw : writerOf s i = some w)
      (h : 8 * s.bw.cap.toNat < s.bw.pos.toNat + (w.bits s.bw.pos.toNat).length) :
      Ends s i (s.setOvf.setR0 (Status.word .bitOverflow))
  | bytes (h0 : s.badBwSource s.args.a0 s.args.a1.toNat = false)
      (h : s.bw.pos.toNat + 8 * s.args.a1.toNat ≤ 8 * s.bw.cap.toNat) :
      Ends s .bwBytes (((putByteSeq (memRead s.mem s.args.a0.toNat s.args.a1.toNat) s).setR1 s.args.a1).setR0
        (Status.word .ok))
  | bytesLost (h0 : s.badBwSource s.args.a0 s.args.a1.toNat = false)
      (h : 8 * s.bw.cap.toNat < s.bw.pos.toNat + 8 * s.args.a1.toNat) :
      Ends s .bwBytes ((s.setOvf.setR1 0).setR0 (Status.word .bitOverflow))
  | bwStat : Ends s .bwStat
      ((((s.setR1 s.bw.pos).setR2 (BitVec.ofNat 32 (bit s.bw.ovf))).setR3 s.bw.cap).setR0 (Status.word .ok))
  | copied (i : Instr) (lead : List Byte) (hi : leadOf i = some lead)
      (h : (lead ++ escape (memRead s.mem s.args.a0.toNat s.args.a1.toNat)).length ≤ s.args.a3.toNat) :
      Ends s i (((s.withMem (s.mem.putBytes s.args.a2.toNat
        (lead ++ escape (memRead s.mem s.args.a0.toNat s.args.a1.toNat)))).setR1 (BitVec.ofNat 32
        (lead ++ escape (memRead s.mem s.args.a0.toNat s.args.a1.toNat)).length)).setR0 (Status.word .ok))
  | copyAborted (i : Instr) (lead : List Byte) (hi : leadOf i = some lead)
      (h : s.args.a3.toNat < (lead ++ escape (memRead s.mem s.args.a0.toNat s.args.a1.toNat)).length) :
      Ends s i (((s.abortDest s.args.a2 s.args.a3.toNat).setR1 0).setR0 (Status.word .bufferTooSmall))
  | rbsp (i : Instr) (ws : List Writer) (hi : fieldsOf s i = some ws)
      (h : (putWriters ws s.bwRestart).1 = true) :
      Ends s i (((putWriters ws s.bwRestart).2.setR1
        (BitVec.ofNat 32 ((putWriters ws s.bwRestart).2.bw.pos.toNat / 8))).setR0 (Status.word .ok))
  | rbspLost (i : Instr) (ws : List Writer) (hi : fieldsOf s i = some ws)
      (h : (putWriters ws s.bwRestart).1 = false) :
      Ends s i (((putWriters ws s.bwRestart).2.setR1 0).setR0 (Status.word .bitOverflow))
  | frInit (m : BitVec 2) (g : Bool) (md : Mode) (hl : s.se.life = .closed) (hm : BitVec.ofNat 2 md.code = m) :
      Ends s (.frInit m g) ((s.withFr (frInit md g s.fr)).setR0 (Status.word .ok))
  | frPush (hv : s.fr.valid = true) (hl : s.se.life = .closed)
      (h : s.fr.hasRoom s.params.ringCap s.args.a1.toNat = true) :
      Ends s .frPush ((s.withFr (frPush s.params.ringCap (memRead s.mem s.args.a0.toNat s.args.a1.toNat)
        s.fr)).setR0 (Status.word .ok))
  | frPushFull (hv : s.fr.valid = true) (hl : s.se.life = .closed)
      (h : s.fr.hasRoom s.params.ringCap s.args.a1.toNat = false) :
      Ends s .frPush (s.setR0 (Status.word .bufferFull))
  | extractNone (hv : s.fr.valid = true) (hl : s.se.life = .closed)
      (h : (frScan s.params s.fr).pending = false) :
      Ends s .frExtract ((((s.withFr (frScan s.params s.fr)).setR1 0).setR2 0).setR0 (Status.word .ok))
  | extractLong (hv : s.fr.valid = true) (hl : s.se.life = .closed) (h : (frScan s.params s.fr).pending = true)
      (hn : s.args.a1.toNat < (frScan s.params s.fr).unitLen) :
      Ends s .frExtract ((((s.withFr (frScan s.params s.fr)).setR1
        (BitVec.ofNat 32 (frScan s.params s.fr).unitLen)).setR2 0).setR0 (Status.word .outTooSmall))
  | extract (hv : s.fr.valid = true) (hl : s.se.life = .closed) (h : (frScan s.params s.fr).pending = true)
      (hn : (frScan s.params s.fr).unitLen ≤ s.args.a1.toNat) :
      Ends s .frExtract (((((s.withMem (s.mem.putBytes s.args.a0.toNat
        ((frScan s.params s.fr).unitBytes s.params))).withFr (frScan s.params s.fr).take).setR1
        (BitVec.ofNat 32 (frScan s.params s.fr).unitLen)).setR2
        (BitVec.ofNat 32 (frScan s.params s.fr).pendTag.code)).setR0 (Status.word .frameReady))
  | frStat (hv : s.fr.valid = true) (v1 v2 v3 : Word) :
      Ends s .frStat ((((s.setR1 v1).setR2 v2).setR3 v3).setR0 (Status.word .ok))
  | seOpen (hl : s.se.life = .closed) (md : Mode) :
      Ends s .seOpen ((((s.withSe ⟨.opened, profileIdc s.args.a0, s.args.a1, s.args.a2⟩).withFr
        (Machine.frInit md true s.fr)).withPl s.pl.emptied).setR0 (Status.word .ok))
  | seClose (hl : s.se.life ≠ .closed) (t : State) (ht : t = s ∨ t = tellTeardown s) :
      Ends s .seClose ((((t.withPl t.pl.emptied).withFr { t.fr with valid := false }).withSe
        { t.se with life := .closed }).setR0 (Status.word .ok))
  | getpicEarly (hl : s.se.life = .opened) (hd : s.pl.hdrDone = false) :
      Ends s .seGetpic ((((s.setR1 0).setR2 0).setR3 0).setR0 (Status.word .notReady))
  | getpic (hl : s.se.life = .opened) (hd : s.pl.hdrDone = true) (r : PicNote × State)
      (hr : r = getPicture (((s.setR1 0).setR2 0).setR3 0)) : Ends s .seGetpic (r.2.setR0 r.1.status.word)
  | decodeSteady (hl : s.se.life = .opened) (hi : s.listLegal) (hd : s.pl.hdrDone = true) (r : StepNote × State)
      (hr : r = decodePoll (decodeSubmit (decodePush s))) :
      Ends s .seDecode ((r.2.setR1 r.1.mask).setR0 r.1.st.word)
  | decodeWaits (hl : s.se.life = .opened) (hi : s.listLegal) (hd : s.pl.hdrDone = false) (f : Framer)
      (hf : f = frScan (decodePush s).2.params (decodePush s).2.fr) (hp : f.pending = false) :
      Ends s .seDecode ((((decodePush s).2.withFr f).setR1 (decodePush s).1.mask).setR0 (decodePush s).1.st.word)
  | decodeSetup (hl : s.se.life = .opened) (hi : s.listLegal) (hd : s.pl.hdrDone = false) (t : State)
      (ht : t = (decodePush s).2.withFr (frScan (decodePush s).2.params (decodePush s).2.fr))
      (hp : t.fr.pending = true) (hs : (setup t).1 = true) (r : StepNote × State)
      (hr : r = decodePoll (decodeSubmit ({ (decodePush s).1 with setupRan := true }, (setup t).2))) :
      Ends s .seDecode ((r.2.setR1 r.1.mask).setR0 r.1.st.word)
  | decodeFails (hl : s.se.life = .opened) (hi : s.listLegal) (hd : s.pl.hdrDone = false) (t : State)
      (ht : t = (decodePush s).2.withFr (frScan (decodePush s).2.params (decodePush s).2.fr))
      (hp : t.fr.pending = true) (hs : (setup t).1 = false) :
      Ends s .seDecode ((setupFailed (setup t).2).setR0 (Status.word .protocolError))

theorem writer_ends {i : Instr} {w : Writer} {s t : State} (hw : writerOf s i = some w)
    (h : finishWrite (putWriter w s) = .next t) : Ends s i t := by
  rcases finishWrite_cases w s with ⟨hf, e⟩ | ⟨hf, e⟩ <;> rw [e] at h <;> rw [finish_next h]
  · exact .wrote i w hw hf
  · exact .lost i w hw hf

theorem copy_ends {i : Instr} {lead : List Byte} {s t : State} (hi : leadOf i = some lead) (hu : unitOf i = .ns)
    (h : escapeInto lead s = .next t) : Ends s i t := by
  rcases escapeInto_cases lead s with ⟨_, e⟩ | ⟨_, hf, e⟩ | ⟨_, hf, e⟩ <;> rw [e] at h <;> rw [finish_next h]
  · exact .badOperand i (.inr (.inr (.inr (.inl hu))))
  · exact .copyAborted i lead hi hf
  · exact .copied i lead hi hf

theorem rbsp_ends {i : Instr} {ws : List Writer} {s t : State} (hi : fieldsOf s i = some ws)
    (h : emitRbsp ws s = .next t) : Ends s i t := by
  rcases emitRbsp_cases ws s with ⟨hf, e⟩ | ⟨hf, e⟩ <;> rw [e] at h <;> rw [finish_next h]
  · exact .rbsp i ws hi hf
  · exact .rbspLost i ws hi hf

theorem decodePush_pl (s : State) : (decodePush s).2.pl = s.pl := by
  rcases decodePush_cases s with ⟨_, e⟩ | ⟨_, e⟩
  · rw [e]; rfl
  · rw [e]

/-- Every command that completes ends in one of the ways of `Ends`. -/
theorem exec_ends {i : Instr} {s t : State} (h : exec i s = .next t) : Ends s i t := by
  cases i with
  | bwInit =>
    rcases execBwInit_cases s with ⟨_, e⟩ | ⟨h1, h2, e⟩ <;> simp only [exec, e] at h <;> rw [finish_next h]
    · exact .badOperand _ (.inl rfl)
    · exact .bwInit h1 h2
  | bwBit v => exact writer_ends rfl h
  | bwFixed n =>
    rcases execBwFixed_cases n s with ⟨_, e⟩ | ⟨hn, e⟩ <;> simp only [exec, e] at h
    · rw [finish_next h]; exact .badOperand _ (.inr (.inl ⟨n, rfl⟩))
    · exact writer_ends (by rw [writerOf, if_pos hn]) h
  | bwUe => exact writer_ends rfl h
  | bwSe => exact writer_ends rfl h
  | bwAlign => exact writer_ends rfl h
  | bwBytes =>
    rcases execBwBytes_cases s with ⟨_, e⟩ | ⟨h1, h2, e⟩ | ⟨h1, h2, e⟩ <;> simp only [exec, e] at h <;>
      rw [finish_next h]
    · exact .badOperand _ (.inr (.inr (.inl rfl)))
    · exact .bytes h1 h2
    · exact .bytesLost h1 h2
  | bwStat => rw [finish_next h]; exact .bwStat
  | nsEscape => exact copy_ends rfl rfl h
  | nsNal t => exact copy_ends rfl rfl h
  | nsSps =>
    rcases execNsSps_cases s with ⟨_, e⟩ | ⟨hn, e⟩ <;> simp only [exec, e] at h
    · rw [finish_next h]; exact .badOperand _ (.inr (.inr (.inr (.inl rfl))))
    · exact rbsp_ends (by rw [fieldsOf, hn]; rfl) h
  | nsPps =>
    rcases execNsPps_cases s with ⟨_, e⟩ | ⟨hn, e⟩ <;> simp only [exec, e] at h
    · rw [finish_next h]; exact .badOperand _ (.inr (.inr (.inr (.inl rfl))))
    · exact rbsp_ends (by rw [fieldsOf, hn]; rfl) h
  | frInit m g =>
    rcases execFrInit_cases m g s with ⟨hl, e⟩ | ⟨hl, _, e⟩ | ⟨hl, md, hm, e⟩ <;> simp only [exec, e] at h <;>
      rw [finish_next h]
    · exact .badState _ (.inl ⟨hl, .inl rfl⟩)
    · exact .badOperand _ (by simp [hl])
    · exact .frInit m g md hl hm
  | frPush =>
    rcases execFrPush_cases s with ⟨hb, e⟩ | ⟨hv, hl, ⟨_, e⟩ | ⟨_, ⟨hr, e⟩ | ⟨hr, e⟩⟩⟩ <;>
      simp only [exec, e] at h <;> rw [finish_next h]
    · rcases hb with hb | hb
      · exact .badState _ (.inr (.inl ⟨hb, .inl rfl⟩))
      · exact .badState _ (.inl ⟨hb, .inl rfl⟩)
    · exact .badOperand _ (by simp [hl, hv])
    · exact .frPush hv hl hr
    · exact .frPushFull hv hl hr
  | frExtract =>
    rcases execFrExtract_cases s with ⟨hb, e⟩ | ⟨hv, hl, ⟨_, e⟩ | ⟨_, e⟩⟩ <;> simp only [exec, e] at h
    · rw [finish_next h]
      rcases hb with hb | hb
      · exact .badState _ (.inr (.inl ⟨hb, .inr (.inl rfl)⟩))
      · exact .badState _ (.inl ⟨hb, .inl rfl⟩)
    · rw [finish_next h]; exact .badOperand _ (by simp [hl, hv])
    · rcases extractScanned_cases (frScan s.params s.fr) s with ⟨hp, e⟩ | ⟨hp, hn, e⟩ | ⟨hp, hn, e⟩ <;>
        rw [e] at h <;> rw [finish_next h]
      · exact .extractNone hv hl hp
      · exact .extractLong hv hl hp hn
      · exact .extract hv hl hp hn
  | frStat =>
    rcases execFrStat_cases s with ⟨hv, e⟩ | ⟨hv, v1, v2, v3, e⟩ <;> simp only [exec, e] at h <;> rw [finish_next h]
    · exact .badState _ (.inr (.inl ⟨hv, by simp⟩))
    · exact .frStat hv v1 v2 v3
  | seOpen =>
    rcases execSeOpen_cases s with ⟨hl, e⟩ | ⟨hl, _, e⟩ | ⟨hl, _, md, _, e⟩ <;> simp only [exec, e] at h <;>
      rw [finish_next h]
    · exact .badState _ (.inl ⟨hl, .inr rfl⟩)
    · exact .badOperand _ (by simp [hl])
    · exact .seOpen hl md
  | seDecode =>
    rcases execSeDecode_cases s with ⟨hl, e⟩ | ⟨hl, e⟩ | ⟨hl, _, e⟩ |
      ⟨hl, hi, ⟨hd, e⟩ | ⟨hd, hp, e⟩ | ⟨hd, hp, hs, e⟩ | ⟨hd, hp, hs, e⟩⟩ <;> simp only [exec, e] at h <;>
      (try rw [decodePush_pl] at hd) <;> rw [finish_next h]
    · exact .badState _ (.inr (.inr ⟨hl, by simp⟩))
    · exact .failed _ hl (.inl rfl)
    · exact .badOperand _ (by simp [hl])
    · exact .decodeSteady hl hi hd _ rfl
    · exact .decodeWaits hl hi hd _ rfl hp
    · exact .decodeSetup hl hi hd _ rfl hp hs _ rfl
    · exact .decodeFails hl hi hd _ rfl hp hs
  | seGetpic =>
    rcases execSeGetpic_cases s with ⟨hl, e⟩ | ⟨hl, e⟩ | ⟨hl, hd, e⟩ | ⟨hl, hd, e⟩ <;> simp only [exec, e] at h <;>
      rw [finish_next h]
    · exact .badState _ (.inr (.inr ⟨hl, by simp⟩))
    · exact .failed _ hl (.inr rfl)
    · exact .getpicEarly hl hd
    · exact .getpic hl hd _ rfl
  | seClose =>
    rcases execSeClose_cases s with ⟨hl, e⟩ | ⟨hl, u, hu, _, _, e⟩ <;> simp only [exec, e] at h <;> rw [finish_next h]
    · exact .badState _ (.inr (.inr ⟨hl, by simp⟩))
    · exact .seClose hl u hu

end Sys2Proof.Machine
end

