-- ==== Sys2Proof/Laws/Picture.lean ====
section
/-! SUPPORT. The hand-shakes and the steps of `SE_GETPIC` as the relations of Safety: what each leaves, for every
answer of Dev. -/

namespace Sys2Proof.Machine

/-! ### The hand-shakes -/


/-- An index that `r1` can hold is what it shows (R280). -/
theorem indexWord_of_lt {i : Nat} (h : i < 2 ^ 32) : indexWord i = BitVec.ofNat 32 i := if_pos h

/-- `µENQ` as a relation (R250). -/
theorem enq_enqueues (P : PoolId) (q : QueueId) (i : Nat) (s : State) :
    enqueues P q i s (enq P q i 0 s).2 (!(enq P q i 0 s).1) := by
  rcases enq_cases P q i 0 s with ⟨h, e⟩ | ⟨h, e⟩
  · rw [e]
    refine .inl ⟨h, rfl, ?_⟩
    have : Slot.queuedOn P q = fun sl : Slot =>
        { sl with own := .queued, holder := if P = .dout then (if q = .cin then .conv else .dec) else sl.holder } := by
      funext sl; unfold Slot.queuedOn holderFor; split_ifs <;> rfl
    rw [this]; rfl
  · rw [e]; exact .inr ⟨h, rfl, rfl⟩

@[simp] theorem fresh_shape (g : Nat) (sl : Slot) : (sl.freshContents g).shape = sl.shape := by
  simp [Slot.freshContents, Slot.shape]

theorem modify_eq_set {α : Type} (f : α → α) {i : Nat} {xs : List α} {x : α} (h : xs[i]? = some x) :
    xs.modify i f = xs.set i (f x) := by
  obtain ⟨hl, rfl⟩ := List.getElem?_eq_some_iff.1 h
  apply List.ext_getElem <;> simp [List.getElem_modify, List.getElem_set]
  intro n _
  split_ifs with hn
  · subst hn; rfl
  · rfl

/-- What `µDEQ` leaves when it hands back slot `i`, with the owner `o` that the caller gives it (R251). -/
theorem deq_got {P : PoolId} {q : QueueId} {s : State} {i : Nat} (h : (deq P q s).1 = .got i) :
    ∃ sl, s.dev.next = .slot i ∧ s.mayReturn P q i sl ∧
      ∀ o, (deq P q s).2.setOwn P i o = { s.answered (.dequeue q) with
        pl := s.pl.setPool P ((s.pl.pool P).set i { sl.freshContents s.draws with own := o }), draws := s.draws + 1 } := by
  rcases deq_cases P q s with ⟨j, sl, h1, h2, h3, h4, e⟩ | ⟨_, e⟩ | ⟨_, _, e⟩
  · rw [e] at h; cases h
    refine ⟨sl, h1, ⟨h2, h3, h4⟩, fun o => ?_⟩
    rw [e]
    simp only [State.setOwn, State.onSlot, withDraws_pl, withPl_pl, withDev_pl, pool_setPool_same, setPool_setPool,
      modify_modify_same]
    rw [modify_eq_set _ h2, modify_eq_set _ h2]
    rfl
  · rw [e] at h; cases h
  · rw [e] at h; cases h

/-- What `µDEQ` leaves when it hands back no slot (R251). -/
theorem deq_noSlot {P : PoolId} {q : QueueId} {s : State} (h : ∀ i, (deq P q s).1 ≠ .got i) :
    noSlot P q s (deq P q s).2 (decide ((deq P q s).1 = .fail)) := by
  rcases deq_cases P q s with ⟨i, sl, _, _, _, _, e⟩ | ⟨hn, e⟩ | ⟨hn, h2, e⟩
  · exact absurd (by rw [e]) (h i)
  · rw [e]
    refine ⟨rfl, fun i sl hs => ?_, by simp [hn]⟩
    rw [hn] at hs; cases hs
  · rw [e]
    refine ⟨rfl, fun i sl hs hm => ?_, by simp [hn]⟩
    have := h2 i hs
    obtain ⟨m1, m2, m3⟩ := hm
    simp only [dequeueOk, m1, m2, decide_true, Bool.true_and, Bool.or_eq_false_iff, decide_eq_false_iff_not,
      not_not] at this
    exact this.2 (m3 this.1)

theorem enqNote_fst (P : PoolId) (q : QueueId) (i : Nat) (r : PicNote × State) :
    (enqNote P q i r).1 = { r.1 with err := r.1.err || !(enq P q i 0 r.2).1 } := by
  unfold enqNote
  by_cases h : (enq P q i 0 r.2).1 = true <;> simp [h]

/-! ### The steps -/

/-- G1 and G2 of R282 as relations. -/
theorem passOn_passesOn (q : QueueId) (o : Own) (q2 : QueueId) (r : PicNote × State) :
    ∃ err, passesOn q o q2 r.2 (passOn q o q2 r).2 err ∧
      (passOn q o q2 r).1 = { r.1 with err := r.1.err || err } := by
  unfold passOn
  cases h : (deq .dout q r.2).1 with
  | got i =>
    obtain ⟨sl, h1, h2, h3⟩ := deq_got h
    refine ⟨_, .inr ⟨i, _, ⟨sl, { sl.freshContents r.2.draws with own := o }, _, h1, h2, rfl, rfl, rfl,
      fresh_shape r.2.draws sl, h3 o⟩, enq_enqueues .dout q2 i _⟩, ?_⟩
    rw [enqNote_fst]
  | notReady =>
    have := deq_noSlot (P := .dout) (q := q) (s := r.2) (by simp [h])
    rw [h] at this
    exact ⟨false, .inl this, by simp⟩
  | fail =>
    have := deq_noSlot (P := .dout) (q := q) (s := r.2) (by simp [h])
    rw [h] at this
    exact ⟨true, .inl this, by simp⟩

theorem code_pool {P : PoolId} (hP : P ≠ .inp) : BitVec.ofNat 32 P.code = if P = .dout then 1#32 else 2#32 := by
  cases P <;> simp_all [PoolId.code]

/-- Presenting a slot, then changing an owner: what is appended and what the result registers hold (R262, R280). -/
theorem present_setOwn (P : PoolId) (i : Nat) (o : Own) (s : State) :
    (present P i s).setOwn P i o = { s.setOwn P i o with
      events := s.events ++ [⟨P, i, presentPlanes (s.pl.pool P) i, s.pl.fmt⟩]
      res := ⟨s.res.r0, indexWord i, 1, BitVec.ofNat 32 P.code⟩ } := rfl

/-- The last step of `SE_GETPIC` as a relation (R281 G2, R282 G3). -/
theorem showNext_shows {P : PoolId} (hP : P ≠ .inp) (r : PicNote × State) :
    ∃ err shown, shows P r.2 (showNext P r).2 err shown ∧
      (showNext P r).1 = ⟨r.1.err || err, r.1.shown || shown⟩ := by
  unfold showNext
  cases h : (deq P P.queue r.2).1 with
  | got i =>
    obtain ⟨sl, h1, h2, h3⟩ := deq_got h
    have e : (present P i ((deq P P.queue r.2).2.setOwn P i .done)).setOwn P i .free =
        { (deq P P.queue r.2).2.setOwn P i .free with
          events := r.2.events ++ [⟨P, i, sl.planes.map fun p => (p.ptr, p.size), r.2.pl.fmt⟩]
          res := ⟨r.2.res.r0, indexWord i, 1, if P = .dout then 1 else 2⟩ } := by
      obtain ⟨hl, _⟩ := List.getElem?_eq_some_iff.1 h2.1
      have hpl : presentPlanes ((r.2.pl.pool P).set i { sl.freshContents r.2.draws with own := .done }) i =
          sl.planes.map fun p => (p.ptr, p.size) := by
        unfold presentPlanes
        rw [List.getElem?_set_self hl]
        simp [Slot.freshContents]
      rw [present_setOwn, setOwn_setOwn, h3 .done, h3 .free, code_pool hP]
      simp only [pool_setPool_same]
      rw [hpl, (setPool_rest _ _ _).1]
      rfl
    simp only []
    rw [e]
    refine ⟨_, true, .inr ⟨i, sl, _, indexWord i, ⟨sl, { sl.freshContents r.2.draws with own := .free }, _, h1, h2,
      rfl, rfl, rfl, fresh_shape r.2.draws sl, h3 .free⟩, h2.1,
      indexWord_of_lt, rfl, enq_enqueues P P.queue i _⟩, ?_⟩
    rw [enqNote_fst, Bool.or_true]
  | notReady =>
    have := deq_noSlot (P := P) (q := P.queue) (s := r.2) (by simp [h])
    rw [h] at this
    exact ⟨false, false, .inl ⟨this, rfl⟩, by simp⟩
  | fail =>
    have := deq_noSlot (P := P) (q := P.queue) (s := r.2) (by simp [h])
    rw [h] at this
    exact ⟨true, false, .inl ⟨this, rfl⟩, by simp⟩

/-! ### The loops of G0 -/

/-- An enqueue changes the owner of no other slot. -/
theorem ownIs_enq (P : PoolId) (q : QueueId) (i : Nat) (s : State) (o : Own) (k : Nat) (hk : k ≠ i) :
    ownIs o ((enq P q i 0 s).2.pl.pool P) k = ownIs o (s.pl.pool P) k := by
  rcases enq_cases P q i 0 s with ⟨_, e⟩ | ⟨_, e⟩ <;> rw [e]
  · simp only [State.onSlot, withPl_pl, withDev_pl, pool_setPool_same, ownIs, List.getElem?_modify, if_neg hk.symm]
    cases (s.pl.pool P)[k]? <;> rfl
  · rfl

theorem ownIs_iff (o : Own) (xs : List Slot) (i : Nat) : ownIs o xs i = decide (xs[i]?.map Slot.own = some o) := by
  unfold ownIs; cases xs[i]? <;> simp

/-- G0 of R281 and R282 as a relation. -/
theorem resubmit_resubmits (P : PoolId) (o : Own) (q : QueueId) (xs : List Slot) (n i : Nat) (r : PicNote × State)
    (hx : ∀ k, i ≤ k → ownIs o (r.2.pl.pool P) k = ownIs o xs k) :
    ∃ err, resubmits P q ((List.range' i n).filter fun k => decide (xs[k]?.map Slot.own = some o)) r.2
        (resubmit P o q i n r).2 err ∧ (resubmit P o q i n r).1 = { r.1 with err := r.1.err || err } := by
  induction n generalizing i r with
  | zero => exact ⟨false, ⟨rfl, rfl⟩, by simp [resubmit]⟩
  | succ n ih =>
    rw [resubmit, hx i (le_refl i), List.range'_succ, List.filter_cons, ownIs_iff]
    by_cases h : decide (xs[i]?.map Slot.own = some o) = true
    · rw [if_pos h, if_pos h]
      obtain ⟨err, h1, h2⟩ := ih (i + 1) (enqNote P q i r) fun k hk => by
        rw [enqNote_snd, ownIs_enq P q i r.2 o k (by omega)]; exact hx k (by omega)
      refine ⟨_, ⟨_, _, err, enq_enqueues P q i r.2, h1, rfl⟩, ?_⟩
      rw [h2, enqNote_fst, Bool.or_assoc]
    · rw [if_neg h, if_neg h]
      exact ih (i + 1) r fun k hk => hx k (by omega)

/-- G0 over the first `n` slots of a pool (R281, R282). -/
theorem resubmit_all (P : PoolId) (o : Own) (q : QueueId) (n : Nat) (r : PicNote × State) (xs : List Slot)
    (hx : ∀ k, ownIs o (r.2.pl.pool P) k = ownIs o xs k) :
    ∃ err, resubmits P q (indicesOf o n xs) r.2 (resubmit P o q 0 n r).2 err ∧
      (resubmit P o q 0 n r).1 = { r.1 with err := r.1.err || err } := by
  have := resubmit_resubmits P o q xs n 0 r fun k _ => hx k
  rwa [← List.range_eq_range'] at this

/-- Enqueuing the slots with one owner changes which slots have another owner than `queued` only among them. -/
theorem resubmit_ownIs (P : PoolId) (o o' : Own) (q : QueueId) (ho : o' ≠ o) (hq : o' ≠ .queued) (n i : Nat)
    (r : PicNote × State) (k : Nat) :
    ownIs o' ((resubmit P o q i n r).2.pl.pool P) k = ownIs o' (r.2.pl.pool P) k := by
  induction n generalizing i r with
  | zero => rfl
  | succ n ih =>
    rw [resubmit]
    split
    · next h =>
      rw [ih, enqNote_snd]
      by_cases hk : k = i
      · subst hk
        have h0 : ownIs o' (r.2.pl.pool P) k = false := by
          unfold ownIs at h ⊢
          cases hs : (r.2.pl.pool P)[k]? with
          | none => simp [hs] at h
          | some sl =>
            simp only [hs, decide_eq_true_eq] at h
            simp [h, Ne.symm ho]
        rw [h0]
        rcases enq_cases P q k 0 r.2 with ⟨_, e⟩ | ⟨_, e⟩ <;> rw [e]
        · simp only [State.onSlot, withPl_pl, withDev_pl, pool_setPool_same, ownIs, List.getElem?_modify, if_true]
          cases hs : (r.2.pl.pool P)[k]? with
          | none => rfl
          | some sl => simp [(queuedOn_fields P q sl).1, Ne.symm hq]
        · exact h0
      · exact ownIs_enq P q i r.2 o' k hk
    · exact ih (i + 1) r

/-- Enqueuing slots of one pool leaves the others alone. -/
theorem resubmit_pool_ne (P R : PoolId) (o : Own) (q : QueueId) (hR : R ≠ P) (n i : Nat) (r : PicNote × State) :
    (resubmit P o q i n r).2.pl.pool R = r.2.pl.pool R := by
  refine resubmit_induct P o q (fun t => t.pl.pool R = r.2.pl.pool R) (fun j t ht => ?_) n i r rfl
  rcases enq_cases P q j 0 t with ⟨_, e⟩ | ⟨_, e⟩ <;> rw [e]
  · rw [← ht]; exact pool_setPool_ne _ _ _ _ hR
  · exact ht

theorem resubmit_sizes (P : PoolId) (o : Own) (q : QueueId) (n i : Nat) (r : PicNote × State) :
    (resubmit P o q i n r).2.pl.nDout = r.2.pl.nDout ∧ (resubmit P o q i n r).2.pl.nCout = r.2.pl.nCout := by
  refine resubmit_induct P o q (fun t => t.pl.nDout = r.2.pl.nDout ∧ t.pl.nCout = r.2.pl.nCout)
    (fun j t ht => ?_) n i r ⟨rfl, rfl⟩
  have := (enq_only P q j 0 t).2
  exact ⟨this.2.2.1.trans ht.1, this.2.2.2.1.trans ht.2⟩

/-- G0 of R282 as relations. -/
theorem getPicConvRetry_resubmits (s : State) :
    ∃ u1 u2 e1 e2 e3,
      resubmits .dout .dout (indicesOf .free s.pl.nDout s.pl.doutPool) s u1 e1 ∧
      resubmits .dout .cin (indicesOf .done s.pl.nDout s.pl.doutPool) u1 u2 e2 ∧
      resubmits .cout .cout (indicesOf .free s.pl.nCout s.pl.coutPool) u2 (getPicConvRetry (⟨false, false⟩, s)).2 e3 ∧
      (getPicConvRetry (⟨false, false⟩, s)).1 = ⟨e1 || e2 || e3, false⟩ := by
  unfold getPicConvRetry
  obtain ⟨e1, a1, a2⟩ := resubmit_all .dout .free .dout s.pl.nDout (⟨false, false⟩, s) s.pl.doutPool fun k => rfl
  have s1 := resubmit_sizes .dout .free .dout s.pl.nDout 0 (⟨false, false⟩, s)
  have o1 := resubmit_ownIs .dout .free .done .dout (by simp) (by simp) s.pl.nDout 0 (⟨false, false⟩, s)
  have p1 := resubmit_pool_ne .dout .cout .free .dout (by simp) s.pl.nDout 0 (⟨false, false⟩, s)
  obtain ⟨e2, b1, b2⟩ := resubmit_all .dout .done .cin s.pl.nDout
    (resubmit .dout .free .dout 0 s.pl.nDout (⟨false, false⟩, s)) s.pl.doutPool o1
  simp only [s1.1]
  have s2 := resubmit_sizes .dout .done .cin s.pl.nDout 0 (resubmit .dout .free .dout 0 s.pl.nDout (⟨false, false⟩, s))
  have p2 := resubmit_pool_ne .dout .cout .done .cin (by simp) s.pl.nDout 0
    (resubmit .dout .free .dout 0 s.pl.nDout (⟨false, false⟩, s))
  obtain ⟨e3, c1, c2⟩ := resubmit_all .cout .free .cout s.pl.nCout
    (resubmit .dout .done .cin 0 s.pl.nDout (resubmit .dout .free .dout 0 s.pl.nDout (⟨false, false⟩, s))) s.pl.coutPool
    fun k => by rw [p2, p1]; rfl
  rw [s2.2, s1.2]
  exact ⟨_, _, e1, e2, e3, a1, b1, c1, by rw [c2, b2, a2]; simp⟩

end Sys2Proof.Machine
end

