-- ==== Sys2Proof/Laws/Script.lean ====
section
/-! SUPPORT. The steps of setup when Dev's answers are given by the script (log 9): which transactions each issues,
which answers it uses up, what it leaves, and how a `FAIL` ends it. -/

namespace Sys2Proof.Machine

/-! ### The port after a list of transactions -/

theorem next_of_script {d : DevPort} {a : DevAnswer} {rest : List DevAnswer} (h : d.script = a :: rest) :
    d.next = a := by
  unfold DevPort.next; rw [h]

theorem issue_of_script {d : DevPort} {a : DevAnswer} {rest : List DevAnswer} (h : d.script = a :: rest)
    (c : DevCall) : d.issue c = d.after [(c, a)] rest := by
  unfold DevPort.issue DevPort.after
  rw [next_of_script h, h]; rfl

@[simp] theorem after_script (d : DevPort) (l : List (DevCall × DevAnswer)) (rest : List DevAnswer) :
    (d.after l rest).script = rest := rfl

theorem after_after (d : DevPort) (l l' : List (DevCall × DevAnswer)) (r r' : List DevAnswer) :
    (d.after l r).after l' r' = d.after (l ++ l') r' := by
  simp [DevPort.after, Nat.add_assoc]

theorem after_nil (d : DevPort) : d.after [] d.script = d := by simp [DevPort.after]

@[simp] theorem answersOf_append (l l' : List (DevCall × DevAnswer)) :
    answersOf (l ++ l') = answersOf l ++ answersOf l' := List.map_append

@[simp] theorem answersOf_cons (x : DevCall × DevAnswer) (l : List (DevCall × DevAnswer)) :
    answersOf (x :: l) = x.2 :: answersOf l := rfl

/-! ### Steps under a script -/

/-- From `s` the step `m` issues exactly the transactions `l`, if Dev answers as `l` says, succeeds, and leaves a
state with `Q`; and it ends at any of them that is answered with `FAIL`. -/
structure Scripted (m : State → Bool × State) (l : List (DevCall × DevAnswer)) (Q : State → Prop) (s : State) :
    Prop where
  goes : ∀ rest, s.dev.script = answersOf l ++ rest →
    (m s).1 = true ∧ (m s).2.dev = s.dev.after l rest ∧ Q (m s).2
  stops : ∀ n c a rest, l[n]? = some (c, a) → s.dev.script = answersOf (l.take n) ++ .fail :: rest →
    (m s).1 = false ∧ (m s).2.dev = s.dev.after (l.take n ++ [(c, .fail)]) rest

theorem thenStep_of_true {r : Bool × State} (k : State → Bool × State) (h : r.1 = true) : thenStep r k = k r.2 :=
  if_pos h

theorem thenStep_of_false {r : Bool × State} (k : State → Bool × State) (h : r.1 = false) : thenStep r k = r :=
  if_neg (by simp [h])

/-- One step after another. -/
theorem Scripted.append {m k : State → Bool × State} {l l' : List (DevCall × DevAnswer)} {Q R : State → Prop}
    {s : State} (h : Scripted m l Q s) (h' : ∀ t, Q t → Scripted k l' R t) :
    Scripted (fun s => thenStep (m s) k) (l ++ l') R s := by
  constructor
  · intro rest hs
    rw [answersOf_append, List.append_assoc] at hs
    obtain ⟨a, b, q⟩ := h.goes _ hs
    obtain ⟨a', b', q'⟩ := (h' _ q).goes rest (by rw [b, after_script])
    rw [thenStep_of_true _ a]
    exact ⟨a', by rw [b', b, after_after], q'⟩
  · intro n c a rest hn hs
    by_cases hl : n < l.length
    · rw [List.getElem?_append_left hl] at hn
      rw [List.take_append_of_le_length (by omega)] at hs ⊢
      obtain ⟨x, y⟩ := h.stops n c a rest hn hs
      rw [thenStep_of_false _ x]
      exact ⟨x, y⟩
    · rw [List.getElem?_append_right (by omega)] at hn
      rw [List.take_append, List.take_of_length_le (by omega)] at hs ⊢
      rw [answersOf_append, List.append_assoc] at hs
      obtain ⟨x, b, q⟩ := h.goes _ hs
      obtain ⟨x', y'⟩ := (h' _ q).stops _ c a rest hn (by rw [b, after_script])
      rw [thenStep_of_true _ x]
      exact ⟨x', by rw [y', b, after_after, List.append_assoc]⟩

theorem Scripted.imp {m : State → Bool × State} {l : List (DevCall × DevAnswer)} {Q R : State → Prop} {s : State}
    (h : Scripted m l Q s) (hq : ∀ t, Q t → R t) : Scripted m l R s :=
  ⟨fun rest hs => let ⟨a, b, q⟩ := h.goes rest hs; ⟨a, b, hq _ q⟩, h.stops⟩

/-- A step that does what another does from a state with the same port. -/
theorem Scripted.from {m m' : State → Bool × State} {l : List (DevCall × DevAnswer)} {Q : State → Prop}
    {s s' : State} (h : Scripted m' l Q s') (he : m s = m' s') (hd : s'.dev = s.dev) : Scripted m l Q s := by
  constructor
  · intro rest hs; rw [he, ← hd]; exact h.goes rest (hd ▸ hs)
  · intro n c a rest hn hs; rw [he, ← hd]; exact h.stops n c a rest hn (hd ▸ hs)

/-- A step that issues nothing. -/
theorem Scripted.quiet {m : State → Bool × State} {Q : State → Prop} {s : State} (h1 : (m s).1 = true)
    (h2 : (m s).2.dev = s.dev) (h3 : Q (m s).2) : Scripted m [] Q s := by
  constructor
  · intro rest hs
    have hs' : s.dev.script = rest := hs
    exact ⟨h1, by rw [h2, ← hs', after_nil], h3⟩
  · intro n c a rest hn; simp at hn

/-- A step that issues one transaction and fails exactly when it is answered with `FAIL`. -/
theorem Scripted.one {m : State → Bool × State} {c : DevCall} {a : DevAnswer} {Q : State → Prop} {s : State}
    (h1 : s.dev.next = a → (m s).1 = true ∧ Q (m s).2) (h2 : s.dev.next = .fail → (m s).1 = false)
    (h3 : (m s).2.dev = s.dev.issue c) : Scripted m [(c, a)] Q s := by
  constructor
  · intro rest hs
    have hs' : s.dev.script = a :: rest := hs
    obtain ⟨x, q⟩ := h1 (next_of_script hs')
    exact ⟨x, by rw [h3, issue_of_script hs'], q⟩
  · intro n c' a' rest hn hs
    cases n with
    | succ n => simp at hn
    | zero =>
      cases hn
      have hs' : s.dev.script = .fail :: rest := hs
      exact ⟨h2 (next_of_script hs'), by rw [h3, issue_of_script hs']; rfl⟩

/-- A loop whose `i`-th round is scripted. -/
theorem Scripted.loop {m : Nat → Nat → State → Bool × State} {one : Nat → State → Bool × State}
    {x : Nat → DevCall × DevAnswer} {Q : Nat → State → Prop} (h0 : ∀ i s, m i 0 s = (true, s))
    (hs : ∀ i n s, m i (n + 1) s = thenStep (one i s) (m (i + 1) n))
    (h1 : ∀ i s, Q i s → Scripted (one i) [x i] (Q (i + 1)) s) (n i : Nat) (s : State) (h : Q i s) :
    Scripted (m i n) ((List.range n).map fun k => x (i + k)) (Q (i + n)) s := by
  induction n generalizing i s with
  | zero => exact Scripted.quiet (by rw [h0]) (by rw [h0]) (by rw [h0]; exact h)
  | succ n ih =>
    have e : m i (n + 1) = fun s => thenStep (one i s) (m (i + 1) n) := funext fun s => hs i n s
    rw [e, List.range_succ_eq_map, List.map_cons, List.map_map]
    have := (h1 i s h).append fun t ht => ih (i + 1) t ht
    rw [show i + 1 + n = i + (n + 1) by omega] at this
    simpa [Function.comp_def, show ∀ k, i + 1 + k = i + (k + 1) by omega] using this

/-! ### The transactions of setup -/

theorem askOk_scripted (c : DevCall) (s : State) (Q : State → Prop) (h : Q (askOk c s).2) :
    Scripted (askOk c) [(c, .ok)] Q s :=
  Scripted.one (fun hn => ⟨by rw [askOk_eq, hn]; rfl, h⟩) (fun hn => by rw [askOk_eq, hn]; rfl) rfl

/-- Map one slot (R244). -/
def mapOne (P : PoolId) (i : Nat) (s : State) : Bool × State :=
  match readMap s.dev.next with
  | none => (false, s.withDev (s.dev.issue (.map P.queue i)))
  | some ps => (true, mappedOne P i ps s)

theorem mapSlots_step (P : PoolId) (i n : Nat) (s : State) :
    mapSlots P i (n + 1) s = thenStep (mapOne P i s) (mapSlots P (i + 1) n) := by
  rcases mapSlots_succ P i n s with ⟨ps, h, hps, e⟩ | ⟨h, e⟩
  · rw [e]; simp [mapOne, h, readMap, hps, thenStep]
  · rw [e]; simp [mapOne, h, thenStep]

theorem mapOne_scripted (P : PoolId) (i : Nat) (ps : List PlaneInfo) (hps : ps ≠ []) (s : State) (Q : State → Prop)
    (h : Q (mappedOne P i ps s)) : Scripted (mapOne P i) [(.map P.queue i, .mapped ps)] Q s := by
  refine Scripted.one (fun hn => ?_) (fun hn => by simp [mapOne, hn, readMap]) ?_
  · simp [mapOne, hn, readMap, hps, h]
  · unfold mapOne; split <;> rfl

/-! ### The planes of the slots -/

/-- Pool `P` has `n` slots, slot `i` with the planes `ps i`. -/
def mapped (P : PoolId) (n : Nat) (ps : Nat → List PlaneInfo) (pl : Pipeline) : Prop :=
  (pl.pool P).map Slot.shape = (List.range n).map fun i => (ps i).map fun q => (q.size, q.offset, q.ptr)

theorem mapped_get {P : PoolId} {n : Nat} {ps : Nat → List PlaneInfo} {pl : Pipeline} (h : mapped P n ps pl)
    {i : Nat} {sl : Slot} (hi : (pl.pool P)[i]? = some sl) : sl.mappedAs (ps i) := by
  have e := congrArg (fun l => l[i]?) h
  simp only [List.getElem?_map, hi, Option.map_some] at e
  cases hr : (List.range n)[i]? with
  | none => rw [hr] at e; cases e
  | some j =>
    obtain ⟨hl, rfl⟩ := List.getElem?_eq_some_iff.1 hr
    rw [hr] at e
    simpa [Slot.mappedAs] using e

/-- The room of a slot is the size of its plane 0 (R257). -/
theorem mappedAs_room {sl : Slot} {ps : List PlaneInfo} {p0 : PlaneInfo} (h : sl.mappedAs ps)
    (h0 : ps.head? = some p0) : sl.room = p0.size.toNat := by
  unfold Slot.mappedAs Slot.shape at h
  unfold Slot.room
  cases ps with
  | nil => cases h0
  | cons q qs =>
    cases h0
    cases hp : sl.planes with
    | nil => rw [hp] at h; cases h
    | cons y ys =>
      rw [hp] at h
      simp only [List.map_cons, List.cons.injEq, Prod.mk.injEq] at h
      exact congrArg BitVec.toNat h.1.1

/-- The slots of every pool keep their planes. -/
def sameShapes (a b : Pipeline) : Prop := ∀ P, (b.pool P).map Slot.shape = (a.pool P).map Slot.shape

theorem sameShapes_refl (a : Pipeline) : sameShapes a a := fun _ => rfl

theorem sameShapes_trans {a b c : Pipeline} (h : sameShapes a b) (h' : sameShapes b c) : sameShapes a c :=
  fun P => (h' P).trans (h P)

theorem mapped_congr {P : PoolId} {n : Nat} {ps : Nat → List PlaneInfo} {a b : Pipeline} (h : mapped P n ps a)
    (h' : sameShapes a b) : mapped P n ps b := (h' P).trans h

theorem sameShapes_onSlot (s : State) (P : PoolId) (i : Nat) (g : Slot → Slot) (hg : ∀ sl, (g sl).shape = sl.shape) :
    sameShapes s.pl (s.onSlot P i g).pl := by
  intro R
  simp only [State.onSlot, withPl_pl]
  by_cases hR : R = P
  · subst hR
    rw [pool_setPool_same]
    apply List.ext_getElem
    · simp
    · intro k h1 h2
      simp only [List.getElem_map, List.getElem_modify]
      split_ifs <;> simp [hg]
  · rw [pool_setPool_ne _ _ _ _ hR]

theorem queuedOn_shape (P : PoolId) (q : QueueId) (sl : Slot) : (sl.queuedOn P q).shape = sl.shape := by
  simp [Slot.shape, (queuedOn_fields P q sl).2.1]

theorem fill_shape (bs : List Byte) (sl : Slot) : (sl.fill bs).shape = sl.shape := by
  cases h : sl.planes <;> simp [Slot.shape, Slot.fill, h]

theorem enq_shapes (P : PoolId) (q : QueueId) (i n : Nat) (s : State) : sameShapes s.pl (enq P q i n s).2.pl := by
  rcases enq_cases P q i n s with ⟨_, e⟩ | ⟨_, e⟩ <;> rw [e]
  · exact sameShapes_onSlot (s.withDev (s.dev.issue (.enqueue q i n))) P i _ (queuedOn_shape P q)
  · exact sameShapes_refl _

theorem submitUnit_shapes (i : Nat) (s : State) : sameShapes s.pl (submitUnit i s).2.pl := by
  rw [submitUnit_eq]
  exact sameShapes_trans (sameShapes_onSlot s .inp i _ (fill_shape _)) (enq_shapes _ _ _ _ (loaded i s))

/-! ### The loops -/

theorem mappedSlot_shape (ps : List PlaneInfo) (g : Nat) :
    (mappedSlot ps g).shape = ps.map fun q => (q.size, q.offset, q.ptr) := by
  simp [Slot.shape, mappedSlot, Function.comp_def]

/-- Mapping `n` slots, the `i`-th answered with `ps i`, makes slots with those planes (R244, R256). -/
theorem mapSlots_scripted (P : PoolId) (n : Nat) (ps : Nat → List PlaneInfo) (hps : ∀ i, ps i ≠ []) (s : State)
    (h0 : s.pl.pool P = []) :
    Scripted (mapSlots P 0 n) (mapTxns P.queue n ps) (fun t => PipeOnly s t ∧ mapped P n ps t.pl ∧
      ∃ xs, t.pl = s.pl.setPool P xs) s := by
  have := Scripted.loop (m := mapSlots P) (one := mapOne P) (x := fun i => (.map P.queue i, .mapped (ps i)))
    (Q := fun i t => PipeOnly s t ∧ mapped P i ps t.pl ∧ ∃ xs, t.pl = s.pl.setPool P xs)
    (fun _ _ => rfl) (mapSlots_step P) (fun i t ht => ?_) n 0 s
    ⟨PipeOnly.refl s, by simp [mapped, h0], s.pl.pool P, (setPool_pool _ _).symm⟩
  · simpa [mapTxns] using this
  · obtain ⟨ho, hm, xs, hx⟩ := ht
    refine mapOne_scripted P i (ps i) (hps i) t _
      ⟨ho.trans ⟨⟨rfl, rfl, rfl, rfl, rfl, rfl, rfl⟩, rfl, rfl⟩, ?_, t.pl.pool P ++ [mappedSlot (ps i) t.draws], ?_⟩
    · unfold mapped at hm ⊢
      simp only [mappedOne, withDraws_pl, withPl_pl, pool_setPool_same]
      rw [List.range_succ, List.map_append, List.map_append, hm]
      simp [mappedSlot_shape]
    · simp only [mappedOne, withDraws_pl, withPl_pl]
      rw [hx, setPool_setPool]

theorem enq_scripted (P : PoolId) (q : QueueId) (i n : Nat) (s : State) (Q : State → Prop)
    (h : s.dev.next = .ok → Q (enq P q i n s).2) : Scripted (enq P q i n) [(.enqueue q i n, .ok)] Q s := by
  rcases enq_cases P q i n s with ⟨h', e⟩ | ⟨h', e⟩
  · refine Scripted.one (fun hn => ⟨by rw [e], h hn⟩) (fun hn => by rw [h'] at hn; cases hn) (by rw [e]; rfl)
  · exact Scripted.one (fun hn => absurd hn h') (fun _ => by rw [e]) (by rw [e]; rfl)

/-- Enqueuing `n` slots (R256 S7). -/
theorem enqAll_scripted (P : PoolId) (n : Nat) (s : State) :
    Scripted (enqAll P 0 n) (enqueueTxns P.queue n)
      (fun t => PipeOnly s t ∧ samePlan s.pl t.pl ∧ sameShapes s.pl t.pl) s := by
  have := Scripted.loop (m := enqAll P) (one := fun i => enq P P.queue i 0)
    (x := fun i => (.enqueue P.queue i 0, .ok)) (Q := fun _ t => PipeOnly s t ∧ samePlan s.pl t.pl ∧ sameShapes s.pl t.pl)
    (fun _ _ => rfl) (enqAll_succ P) (fun i t ht => ?_) n 0 s ⟨PipeOnly.refl s, samePlan_refl _, sameShapes_refl _⟩
  · simpa [enqueueTxns] using this
  · obtain ⟨a, b⟩ := enq_only P P.queue i 0 t
    exact enq_scripted P _ i 0 t _ fun _ =>
      ⟨ht.1.trans a, samePlan_trans ht.2.1 b, sameShapes_trans ht.2.2 (enq_shapes P _ i 0 t)⟩

/-! ### The capture query -/

/-- The capture query with `k` more answers `NOT_READY`, then the format (R256 S4, R259). -/
theorem queryLoop_goes (k n : Nat) (hk : k ≤ n) (s : State) (f : Fmt) (m : Nat) (c : Bool) (rest : List DevAnswer)
    (h : s.dev.script = List.replicate k .notReady ++ .capture f m c :: rest) :
    queryLoop n s = (some (f, m, c), s.withDev (s.dev.after
      (List.replicate k (.queryCapture, .notReady) ++ [(.queryCapture, .capture f m c)]) rest)) := by
  induction n generalizing k s with
  | zero =>
    obtain rfl : k = 0 := by omega
    have h' : s.dev.script = .capture f m c :: rest := h
    simp [queryLoop, next_of_script h', readCapture, issue_of_script h']
  | succ n ih =>
    cases k with
    | zero =>
      have h' : s.dev.script = .capture f m c :: rest := h
      simp [queryLoop, next_of_script h', readCapture, issue_of_script h']
    | succ k =>
      rw [List.replicate_succ, List.cons_append] at h
      have := ih k (by omega) (s.withDev (s.dev.issue .queryCapture)) (by rw [issue_of_script h]; rfl)
      rw [issue_of_script h] at this
      simp only [queryLoop, ask_fst, ask_snd, next_of_script h, readCapture, issue_of_script h]
      rw [this]
      simp [State.withDev, after_after, List.replicate_succ]

/-- An answer that ends the loop without a format: `FAIL` after `k` times `NOT_READY`, or one `NOT_READY` more than is
tolerated. No later answer is used (R256 S4, R259). -/
theorem queryLoop_stops (k n : Nat) (a : DevAnswer) (ha : a = .fail ∧ k ≤ n ∨ a = .notReady ∧ k = n) (s : State)
    (rest : List DevAnswer) (h : s.dev.script = List.replicate k .notReady ++ a :: rest) :
    queryLoop n s = (none, s.withDev (s.dev.after
      (List.replicate k (.queryCapture, .notReady) ++ [(.queryCapture, a)]) rest)) := by
  induction n generalizing k s with
  | zero =>
    obtain rfl : k = 0 := by omega
    have h' : s.dev.script = a :: rest := h
    rcases ha with ⟨rfl, _⟩ | ⟨rfl, _⟩ <;> simp [queryLoop, next_of_script h', readCapture, issue_of_script h']
  | succ n ih =>
    cases k with
    | zero =>
      have h' : s.dev.script = a :: rest := h
      rcases ha with ⟨rfl, _⟩ | ⟨_, h0⟩
      · simp [queryLoop, next_of_script h', readCapture, issue_of_script h']
      · omega
    | succ k =>
      rw [List.replicate_succ, List.cons_append] at h
      have := ih k (ha.imp (fun h => ⟨h.1, by omega⟩) fun h => ⟨h.1, by omega⟩) (s.withDev (s.dev.issue .queryCapture)) (by rw [issue_of_script h]; rfl)
      rw [issue_of_script h] at this
      simp only [queryLoop, ask_fst, ask_snd, next_of_script h, readCapture, issue_of_script h]
      rw [this]
      simp [State.withDev, after_after, List.replicate_succ]

/-! ### The steps of setup -/

/-- S1 (R256). -/
theorem setupNegotiate_scripted (s : State) :
    Scripted setupNegotiate [(.negotiateInput s.fr.mode s.se.width s.se.height, .ok)]
      (fun t => PipeOnly s t ∧ t.pl = s.pl) s :=
  (askOk_scripted (.negotiateInput s.fr.mode s.se.width s.se.height) s
    (fun t => PipeOnly s t ∧ t.pl = s.pl) (setupNegotiate_only s)).from rfl rfl

/-- S2 (R256). -/
theorem setupInput_scripted (ps : Nat → List PlaneInfo) (hps : ∀ i, ps i ≠ []) (s : State) :
    Scripted setupInput ((.alloc .inp s.params.nIn, .ok) :: mapTxns .inp s.params.nIn ps)
      (fun t => PipeOnly s t ∧ mapped .inp s.params.nIn ps t.pl ∧
        ∃ xs, t.pl = { s.pl with nIn := s.params.nIn, inPool := xs }) s := by
  refine Scripted.from (s' := s) (m' := fun s' => thenStep (askOk (.alloc .inp s.params.nIn) s') fun t =>
    mapSlots .inp 0 s.params.nIn (t.withPl { t.pl with nIn := s.params.nIn, inPool := [] })) ?_ rfl rfl
  refine ((askOk_scripted (.alloc .inp s.params.nIn) s (fun t => t = (askOk (.alloc .inp s.params.nIn) s).2)
    rfl).append fun t ht => ?_ : Scripted _ ([_] ++ _) _ s)
  subst ht
  refine ((mapSlots_scripted .inp s.params.nIn ps hps (State.withPl (askOk (.alloc .inp s.params.nIn) s).2
    { s.pl with nIn := s.params.nIn, inPool := [] }) rfl).imp fun t ht => ?_).from rfl rfl
  refine ⟨PipeOnly.trans ?_ ht.1, ht.2.1, ht.2.2⟩
  exact ⟨⟨rfl, rfl, rfl, rfl, rfl, rfl, rfl⟩, rfl, rfl⟩

/-- S3, the head cluster fitting plane 0 of input slot 0 (R256, R257). -/
theorem setupHeader_scripted (s : State) (h : s.fr.unitLen ≤ s.inRoom 0) :
    Scripted setupHeader [(.enqueue .inp 0 s.fr.unitLen, .ok)]
      (fun t => PipeOnly (s.withFr s.fr.take) t ∧ samePlan s.pl t.pl ∧ sameShapes s.pl t.pl) s := by
  have e : setupHeader s = submitUnit 0 s := if_neg (by omega)
  refine (enq_scripted .inp .inp 0 s.fr.unitLen (loaded 0 s)
    (fun t => PipeOnly (s.withFr s.fr.take) t ∧ samePlan s.pl t.pl ∧ sameShapes s.pl t.pl) fun _ => ?_).from
    (e.trans (submitUnit_eq 0 s)) rfl
  obtain ⟨a, b⟩ := submitUnit_only 0 s
  exact ⟨a, b, submitUnit_shapes 0 s⟩

/-- S5 (R256, R16). -/
theorem setupOutput_scripted (m : Nat) (ps : Nat → List PlaneInfo) (hps : ∀ i, ps i ≠ []) (s : State) :
    Scripted (setupOutput m)
      ((.alloc .dout (m + s.params.pipelineDepth), .ok) :: mapTxns .dout (m + s.params.pipelineDepth) ps)
      (fun t => PipeOnly s t ∧ mapped .dout (m + s.params.pipelineDepth) ps t.pl ∧
        ∃ xs, t.pl = { s.pl with nDout := m + s.params.pipelineDepth, doutPool := xs }) s := by
  set n := m + s.params.pipelineDepth with hn
  set s' := s.withPl { s.pl with nDout := n, doutPool := [] } with hs'
  refine Scripted.from (s' := s') (m' := fun s' => thenStep (askOk (.alloc .dout n) s') (mapSlots .dout 0 n)) ?_ rfl rfl
  refine ((askOk_scripted (.alloc .dout n) s' (fun t => t = (askOk (.alloc .dout n) s').2) rfl).append fun t ht => ?_ :
    Scripted _ ([_] ++ _) _ s')
  subst ht
  refine (mapSlots_scripted .dout n ps hps _ rfl).imp fun t ht => ?_
  refine ⟨PipeOnly.trans ?_ ht.1, ht.2.1, ht.2.2⟩
  exact ⟨⟨rfl, rfl, rfl, rfl, rfl, rfl, rfl⟩, rfl, rfl⟩

/-- S6 (R256, R17). -/
theorem setupConvert_scripted (c : Bool) (ps : Nat → List PlaneInfo) (hps : ∀ i, ps i ≠ []) (s : State) :
    Scripted (setupConvert c)
      (if c then [] else [(.chain s.pl.fmt s.pl.nDout, .ok), (.alloc .cout s.params.nCout, .ok)]
        ++ mapTxns .cout s.params.nCout ps)
      (fun t => PipeOnly s t ∧ (c = true → t.pl = s.pl) ∧ (c = false → mapped .cout s.params.nCout ps t.pl ∧
        ∃ xs, t.pl = { s.pl with conv := true, nCout := s.params.nCout, coutPool := xs })) s := by
  cases c
  · rw [if_neg (by simp)]
    set s1 := s.withPl { s.pl with conv := true } with hs1
    refine Scripted.from (s' := s1) (m' := fun s' => thenStep (askOk (.chain s.pl.fmt s.pl.nDout) s') fun t =>
      thenStep (askOk (.alloc .cout t.params.nCout)
          (t.withPl { t.pl with nCout := t.params.nCout, coutPool := [] }))
        (mapSlots .cout 0 t.params.nCout)) ?_ rfl rfl
    refine ((askOk_scripted (.chain s.pl.fmt s.pl.nDout) s1
      (fun t => t = (askOk (.chain s.pl.fmt s.pl.nDout) s1).2) rfl).append fun t ht => ?_ : Scripted _ ([_] ++ _) _ s1)
    subst ht
    set s2 := (askOk (.chain s.pl.fmt s.pl.nDout) s1).2
    set s3 := s2.withPl { s2.pl with nCout := s.params.nCout, coutPool := [] }
    refine Scripted.from (s' := s3) (m' := fun s' => thenStep (askOk (.alloc .cout s.params.nCout) s')
      (mapSlots .cout 0 s.params.nCout)) ?_ rfl rfl
    refine ((askOk_scripted (.alloc .cout s.params.nCout) s3
      (fun t => t = (askOk (.alloc .cout s.params.nCout) s3).2) rfl).append fun t ht => ?_ :
      Scripted _ ([_] ++ _) _ s3)
    subst ht
    refine (mapSlots_scripted .cout s.params.nCout ps hps _ rfl).imp fun t ht => ?_
    refine ⟨PipeOnly.trans ?_ ht.1, by simp, fun _ => ht.2⟩
    exact ⟨⟨rfl, rfl, rfl, rfl, rfl, rfl, rfl⟩, rfl, rfl⟩
  · exact Scripted.quiet rfl rfl ⟨PipeOnly.refl s, fun _ => rfl, by simp⟩

/-- S7 (R256). -/
theorem setupQueueAll_scripted (s : State) :
    Scripted setupQueueAll
      (enqueueTxns .dout s.pl.nDout ++ (if s.pl.conv then enqueueTxns .cout s.pl.nCout else []))
      (fun t => PipeOnly s t ∧ samePlan s.pl t.pl ∧ sameShapes s.pl t.pl) s := by
  refine Scripted.from (m' := fun s' => thenStep (enqAll .dout 0 s.pl.nDout s') fun t =>
    if t.pl.conv then enqAll .cout 0 t.pl.nCout t else (true, t)) ?_ rfl rfl
  refine (enqAll_scripted .dout s.pl.nDout s).append fun t ⟨h1, h2, h3⟩ => ?_
  have hc := h2.2.2.2.2.1
  have hn := h2.2.2.2.1
  cases hv : s.pl.conv
  · exact Scripted.quiet (by simp [hc, hv]) (by simp [hc, hv]) (by simpa [hc, hv] using ⟨h1, h2, h3⟩)
  · refine ((enqAll_scripted .cout s.pl.nCout t).imp fun u hu => ?_).from (by simp [hc, hv, hn]) rfl
    exact ⟨h1.trans hu.1, samePlan_trans h2 hu.2.1, sameShapes_trans h3 hu.2.2⟩

/-- The transactions of S5 to S7 (R256). -/
def outputTxns (p : Config.Params) (ps : PoolId → Nat → List PlaneInfo) (fmt : Fmt) (m : Nat) (c : Bool) :
    List (DevCall × DevAnswer) :=
  ((.alloc .dout (m + p.pipelineDepth), .ok) :: mapTxns .dout (m + p.pipelineDepth) (ps .dout)) ++
    ((if c then [] else [(.chain fmt (m + p.pipelineDepth), .ok), (.alloc .cout p.nCout, .ok)]
        ++ mapTxns .cout p.nCout (ps .cout)) ++
      ((enqueueTxns .dout (m + p.pipelineDepth) ++ (if c then [] else enqueueTxns .cout p.nCout)) ++ []))

/-- What S4 to S7 leave: the answer to the capture query, and the planes of the output slots (R256). -/
def outputsDone (ps : PoolId → Nat → List PlaneInfo) (fmt : Fmt) (m : Nat) (c : Bool) (s t : State) : Prop :=
  t.pl.fmt = fmt ∧ t.pl.nDout = m + s.params.pipelineDepth ∧ t.pl.conv = (!c) ∧
    t.pl.inPool.map Slot.shape = s.pl.inPool.map Slot.shape ∧
    mapped .dout (m + s.params.pipelineDepth) (ps .dout) t.pl ∧
    (c = false → mapped .cout s.params.nCout (ps .cout) t.pl)

theorem setupTail_scripted (ps : PoolId → Nat → List PlaneInfo) (hps : ∀ P i, ps P i ≠ []) (fmt : Fmt) (m : Nat)
    (c : Bool) (s : State) (hconv : s.pl.conv = false) :
    Scripted (fun s => thenStep (setupOutput m (s.withPl { s.pl with fmt := fmt })) fun t2 =>
        thenStep (setupConvert c t2) fun t3 =>
          thenStep (setupQueueAll t3) fun t4 => (true, t4.withPl { t4.pl with hdrDone := true }))
      (outputTxns s.params ps fmt m c) (outputsDone ps fmt m c s) s := by
  set n := m + s.params.pipelineDepth with hn
  refine Scripted.from (s' := s.withPl { s.pl with fmt := fmt }) (m' := fun s => thenStep (setupOutput m s) fun t2 =>
        thenStep (setupConvert c t2) fun t3 =>
          thenStep (setupQueueAll t3) fun t4 => (true, t4.withPl { t4.pl with hdrDone := true })) ?_ rfl rfl
  refine (setupOutput_scripted m (ps .dout) (hps .dout) (s.withPl { s.pl with fmt := fmt })).append
    fun t2 ⟨o2, m2, xs2, e2⟩ => ?_
  have hp2 : t2.params = s.params := o2.params
  have hc2 : t2.pl.conv = false := by rw [e2]; exact hconv
  have hf2 : t2.pl.fmt = fmt := by rw [e2]; rfl
  have hn2 : t2.pl.nDout = n := by rw [e2]; rfl
  have h := setupConvert_scripted c (ps .cout) (hps .cout) t2
  rw [hp2, hf2, hn2] at h
  refine h.append fun t3 ⟨o3, a3, b3⟩ => ?_
  have k3 : t3.pl.fmt = fmt ∧ t3.pl.nDout = n ∧ t3.pl.conv = (!c) ∧ t3.pl.inPool = s.pl.inPool ∧
      mapped .dout n (ps .dout) t3.pl ∧ (c = false → t3.pl.nCout = s.params.nCout) ∧
      (c = false → mapped .cout s.params.nCout (ps .cout) t3.pl) := by
    cases c
    · obtain ⟨x, xs, e⟩ := b3 rfl
      refine ⟨by rw [e, e2]; rfl, by rw [e, e2]; rfl, by rw [e]; rfl, by rw [e, e2]; rfl, ?_, fun _ => by rw [e],
        fun _ => x⟩
      rw [e]; exact m2
    · rw [a3 rfl]
      exact ⟨hf2, hn2, hc2, by rw [e2]; rfl, m2, by simp, by simp⟩
  obtain ⟨k1, k2, k4, k5, k6, k7, k8⟩ := k3
  have hq := setupQueueAll_scripted t3
  have el : (if t3.pl.conv then enqueueTxns .cout t3.pl.nCout else []) =
      (if c then [] else enqueueTxns .cout s.params.nCout) := by
    rw [k4]
    cases c
    · simp [k7 rfl]
    · rfl
  rw [k2, el] at hq
  refine hq.append fun t4 ⟨_, p4, s4⟩ => ?_
  refine Scripted.quiet rfl rfl ?_
  obtain ⟨q1, _, q3, _, q5, _⟩ := p4
  refine ⟨q1.trans k1, q3.trans k2, q5.trans k4, ?_, mapped_congr k6 s4, fun h => mapped_congr (k8 h) s4⟩
  rw [← k5]; exact s4 .inp

/-- S4 to S7 (R256, R259). -/
theorem setupRest_scripted (ps : PoolId → Nat → List PlaneInfo) (hps : ∀ P i, ps P i ≠ []) (k : Nat) (fmt : Fmt)
    (m : Nat) (c : Bool) (s : State) (hconv : s.pl.conv = false) (hk : k ≤ s.params.hdrRetryMax) :
    Scripted setupRest
      (List.replicate k (.queryCapture, .notReady) ++
        (.queryCapture, .capture fmt m c) :: outputTxns s.params ps fmt m c)
      (outputsDone ps fmt m c s) s := by
  have ea : ∀ j, answersOf (List.replicate j (.queryCapture, .notReady)) = List.replicate j .notReady := fun j => by
    simp [answersOf]
  have htail := fun d => setupTail_scripted ps hps fmt m c (s.withDev d) hconv
  have hgo : ∀ rest, s.dev.script = List.replicate k .notReady ++ .capture fmt m c :: rest →
      setupRest s = (fun s => thenStep (setupOutput m (s.withPl { s.pl with fmt := fmt })) fun t2 =>
        thenStep (setupConvert c t2) fun t3 =>
          thenStep (setupQueueAll t3) fun t4 => (true, t4.withPl { t4.pl with hdrDone := true }))
        (s.withDev (s.dev.after
          (List.replicate k (.queryCapture, .notReady) ++ [(.queryCapture, .capture fmt m c)]) rest)) := by
    intro rest h
    unfold setupRest
    rw [queryLoop_goes k _ hk s fmt m c rest h]
  constructor
  · intro rest h
    rw [answersOf_append, ea, answersOf_cons, List.append_assoc, List.cons_append] at h
    obtain ⟨a, b, q⟩ := (htail (s.dev.after _ (answersOf (outputTxns s.params ps fmt m c) ++ rest))).goes rest rfl
    rw [hgo _ h]
    refine ⟨a, b.trans ?_, q⟩
    rw [withDev_dev, after_after]
    simp
  · intro n cl a rest hn h
    by_cases hnk : n ≤ k
    · have e : (List.replicate k (DevCall.queryCapture, DevAnswer.notReady) ++
          (.queryCapture, .capture fmt m c) :: outputTxns s.params ps fmt m c).take n =
          List.replicate n (.queryCapture, .notReady) := by
        rw [List.take_append_of_le_length (by simpa using hnk), List.take_replicate, Nat.min_eq_left hnk]
      have hcl : cl = .queryCapture := by
        by_cases hlt : n < k
        · rw [List.getElem?_append_left (by simpa using hlt), List.getElem?_replicate, if_pos hlt] at hn
          cases hn; rfl
        · obtain rfl : n = k := by omega
          rw [List.getElem?_append_right (by simp)] at hn
          simp at hn
          exact hn.1.symm
      subst hcl
      rw [e, ea] at h
      unfold setupRest
      rw [queryLoop_stops n _ .fail (.inl ⟨rfl, by omega⟩) s rest h, e]
      exact ⟨rfl, rfl⟩
    · obtain ⟨j, rfl⟩ : ∃ j, n = k + 1 + j := ⟨n - k - 1, by omega⟩
      have e : (List.replicate k (DevCall.queryCapture, DevAnswer.notReady) ++
          (.queryCapture, .capture fmt m c) :: outputTxns s.params ps fmt m c).take (k + 1 + j) =
          List.replicate k (.queryCapture, .notReady) ++
            (.queryCapture, .capture fmt m c) :: (outputTxns s.params ps fmt m c).take j := by
        rw [List.take_append, List.take_of_length_le (by simp; omega), List.length_replicate,
          show k + 1 + j - k = j + 1 by omega, List.take_succ_cons]
      rw [List.getElem?_append_right (by simp; omega), List.length_replicate,
        show k + 1 + j - k = j + 1 by omega, List.getElem?_cons_succ] at hn
      rw [e, answersOf_append, ea, answersOf_cons, List.append_assoc, List.cons_append] at h
      obtain ⟨x, y⟩ := (htail (s.dev.after _
        (answersOf ((outputTxns s.params ps fmt m c).take j) ++ .fail :: rest))).stops j cl a rest hn rfl
      rw [hgo _ h, e]
      refine ⟨x, y.trans ?_⟩
      rw [withDev_dev, after_after]
      simp

/-- Setup as a whole, the head cluster fitting plane 0 of input slot 0: exactly the transactions of R256 in their
order, and the planes Dev answered in every slot. -/
theorem setup_scripted (ps : PoolId → Nat → List PlaneInfo) (hps : ∀ P i, ps P i ≠ []) (p0 : PlaneInfo) (k : Nat)
    (fmt : Fmt) (m : Nat) (c : Bool) (s : State) (hconv : s.pl.conv = false) (hk : k ≤ s.params.hdrRetryMax)
    (h0 : (ps .inp 0).head? = some p0) (hu : s.fr.unitLen ≤ p0.size.toNat) :
    Scripted setup (s.setupTxns ps k fmt m c) (fun t => mapped .inp s.params.nIn (ps .inp) t.pl ∧
      t.pl.fmt = fmt ∧ t.pl.nDout = m + s.params.pipelineDepth ∧ t.pl.conv = (!c) ∧
      mapped .dout (m + s.params.pipelineDepth) (ps .dout) t.pl ∧
      (c = false → mapped .cout s.params.nCout (ps .cout) t.pl)) s := by
  have el : s.setupTxns ps k fmt m c = [(.negotiateInput s.fr.mode s.se.width s.se.height, .ok)] ++
      (((.alloc .inp s.params.nIn, .ok) :: mapTxns .inp s.params.nIn (ps .inp)) ++
        ([(.enqueue .inp 0 s.fr.unitLen, .ok)] ++
          (List.replicate k (.queryCapture, .notReady) ++
            (.queryCapture, .capture fmt m c) :: outputTxns s.params ps fmt m c))) := by
    simp [State.setupTxns, State.headerTxns, outputTxns]
  rw [el]
  refine (setupNegotiate_scripted s).append fun t1 ⟨o1, e1⟩ => ?_
  have h2 := setupInput_scripted (ps .inp) (hps .inp) t1
  rw [o1.params] at h2
  refine h2.append fun t2 ⟨o2, m2, xs, e2⟩ => ?_
  have hfr : t2.fr = s.fr := o2.fr.trans o1.fr
  have hpar : t2.params = s.params := o2.params.trans o1.params
  have hroom : t2.fr.unitLen ≤ t2.inRoom 0 := by
    rw [hfr]
    have hpos := nIn_pos s.params
    cases hx : t2.pl.inPool with
    | nil =>
      have := congrArg List.length m2
      simp [Pipeline.pool, hx] at this
      omega
    | cons x xs =>
      have hm := mapped_get m2 (i := 0) (sl := x) (by simp [Pipeline.pool, hx])
      have : t2.inRoom 0 = p0.size.toNat := by
        simp only [State.inRoom, hx, List.getElem?_cons_zero]
        exact mappedAs_room hm h0
      rw [this]; exact hu
  have h3 := setupHeader_scripted t2 hroom
  rw [hfr] at h3
  refine h3.append fun t3 ⟨o3, p3, s3⟩ => ?_
  have hpar3 : t3.params = s.params := o3.params.trans hpar
  have hconv3 : t3.pl.conv = false := by rw [p3.2.2.2.2.1, e2, e1]; exact hconv
  have h4 := setupRest_scripted ps hps k fmt m c t3 hconv3 (by rw [hpar3]; exact hk)
  rw [hpar3] at h4
  refine h4.imp fun t ⟨a, b, d, i, e, f⟩ => ?_
  rw [hpar3] at b e f
  exact ⟨Eq.trans i (mapped_congr m2 s3), a, b, d, e, f⟩

end Sys2Proof.Machine
end

