-- ==== Sys2Proof/Laws/Decode.lean ====
section
/-! SUPPORT. The steps of `SE_DECODE` as the relations of Safety: what each leaves and what it notes, for every
answer of Dev. -/

namespace Sys2Proof.Machine

/-! ### What the steps note -/

/-- What the steps have noted: `BufferFull` in D1, setup, a unit submitted, a slot reclaimed, a failure (R272). -/
def noteOf (full ran sub got err : Bool) : StepNote :=
  ⟨if full then .bufferFull else if err then .decodeError else .ok, !full, ran, sub, got, err⟩

theorem noteOf_decodeError (full ran sub got err : Bool) :
    (noteOf full ran sub got err).decodeError = noteOf full ran sub got true := by
  cases full <;> cases err <;> rfl

/-- How the noted steps complete (R272). -/
theorem decodeReport_noteOf (full ran sub got err : Bool) (t : State) :
    decodeReport (noteOf full ran sub got err, t) = .next (t.decodeEnds full ran sub got err) := by
  cases full <;> cases ran <;> cases sub <;> cases got <;> cases err <;> rfl

/-! ### D1 -/

theorem noRoom_eq (s : State) : s.noRoom = !(s.fr.hasRoom s.params.ringCap s.codedBytes.length) := by
  unfold State.noRoom Framer.hasRoom
  by_cases h : s.fr.head - s.fr.tail + s.codedBytes.length ≤ s.params.ringCap
  · simp [h]
  · simp [h]; omega

/-- D1 (R272). -/
theorem decodePush_eq (s : State) :
    decodePush s = (noteOf s.noRoom false false false false, { s with fr := s.accepted }) := by
  rcases decodePush_cases s with ⟨h, e⟩ | ⟨h, e⟩ <;> rw [e]
  · have : s.noRoom = false := by rw [noRoom_eq, h]; rfl
    simp [State.accepted, this, noteOf, stepNoteInit, State.withFr]
  · have : s.noRoom = true := by rw [noRoom_eq, h]; rfl
    simp [State.accepted, this, noteOf, stepNoteInit]

/-! ### D3 -/

theorem firstFree_some {xs : List Slot} {i : Nat} (h : firstFree xs = some i) :
    ∃ sl, xs[i]? = some sl ∧ sl.own = .free ∧
      ∀ (k : Nat) (x : Slot), k < i → xs[k]? = some x → x.own ≠ .free := by
  obtain ⟨hl, h1, h2⟩ := List.findIdx?_eq_some_iff_getElem.1 h
  refine ⟨xs[i], List.getElem?_eq_getElem hl, by simpa using h1, fun k x hk hx => ?_⟩
  obtain ⟨hkl, rfl⟩ := List.getElem?_eq_some_iff.1 hx
  simpa using h2 k hk

theorem firstFree_none {xs : List Slot} (h : firstFree xs = none) : ∀ sl ∈ xs, sl.own ≠ .free := by
  simpa [firstFree] using h

theorem unitBytes_getD (p : Config.Params) (f : Framer) (k : Nat) (h : k < f.unitLen) :
    (f.unitBytes p).getD k 0 = ringByte p.ringCap f.ring (f.unitStart + k) := by
  have hl : k < (f.unitBytes p).length := by rw [unitBytes_length]; exact h
  rw [List.getD_eq_getElem?_getD, List.getElem?_eq_getElem hl]
  exact ringBytes_getElem p.ringCap f.ring f.unitStart f.unitLen k hl

/-- What `SubmitUnit` leaves (R257, R250). -/
theorem submitUnit_state (i : Nat) (s : State) (sl : Slot) (h : s.pl.inPool[i]? = some sl) :
    let sl' : Slot := { sl.fill (s.fr.unitBytes s.params) with own := if s.dev.next = .ok then .queued else sl.own }
    (submitUnit i s).1 = decide (s.dev.next = .ok) ∧
    (submitUnit i s).2 = { s.answered (.enqueue .inp i s.fr.unitLen) with
      fr := s.fr.take, pl := { s.pl with inPool := s.pl.inPool.set i sl' } } := by
  intro sl'
  rw [submitUnit_eq]
  have hset := fun g : Slot → Slot => modify_eq_set g h
  rcases enq_cases .inp .inp i s.fr.unitLen (loaded i s) with ⟨hn, e⟩ | ⟨hn, e⟩
  · have hn' : s.dev.next = .ok := hn
    have hs : sl' = (sl.fill (s.fr.unitBytes s.params)).queuedOn .inp .inp := by simp only [sl', hn', if_true]; rfl
    rw [e, hs]
    refine ⟨by simp [hn'], ?_⟩
    simp only [State.onSlot, withPl_pl, withDev_pl, loaded, withFr_pl, pool_setPool_same, setPool_setPool,
      modify_modify_same]
    rw [show s.pl.pool .inp = s.pl.inPool from rfl, hset, hset]
    rfl
  · have hn' : s.dev.next ≠ .ok := hn
    have hs : sl' = sl.fill (s.fr.unitBytes s.params) := by simp only [sl', hn', if_false]; rfl
    rw [e, hs]
    refine ⟨by simp [hn'], ?_⟩
    simp only [State.onSlot, loaded]
    rw [show s.pl.pool .inp = s.pl.inPool from rfl, hset]
    rfl

/-- D3 as a relation (R272, R273). -/
theorem decodeSubmit_submits (full ran : Bool) (s : State) :
    ∃ sub err, submits s (decodeSubmit (noteOf full ran false false false, s)).2 sub err ∧
      (decodeSubmit (noteOf full ran false false false, s)).1 = noteOf full ran sub false err := by
  set f := frScan s.params s.fr with hf
  rw [show decodeSubmit (noteOf full ran false false false, s) =
    if f.pending = true then
      match firstFree s.pl.inPool with
      | some i => decodeSubmitAt i (noteOf full ran false false false, s.withFr f)
      | none => (noteOf full ran false false false, s.withFr f)
    else (noteOf full ran false false false, s.withFr f) from rfl]
  by_cases hp : f.pending = true
  swap
  · rw [if_neg hp]
    exact ⟨false, false, .inl ⟨.inl (by simpa using hp), rfl, rfl, rfl⟩, rfl⟩
  · rw [if_pos hp]
    cases hi : firstFree s.pl.inPool with
    | none => exact ⟨false, false, .inl ⟨.inr (firstFree_none hi), rfl, rfl, rfl⟩, rfl⟩
    | some i =>
      obtain ⟨sl, h1, h2, h3⟩ := firstFree_some hi
      have hr : (s.withFr f).inRoom i = sl.room := by simp [State.inRoom, h1]
      simp only [decodeSubmitAt, hr]
      by_cases hlt : sl.room < (s.withFr f).fr.unitLen
      · rw [if_pos hlt]
        exact ⟨false, true, .inr ⟨hp, i, sl, h1, h2, h3, .inl ⟨hlt, rfl, rfl, rfl⟩⟩, noteOf_decodeError _ _ _ _ _⟩
      · rw [if_neg hlt]
        obtain ⟨e1, e2⟩ := submitUnit_state i (s.withFr f) sl h1
        have hle : f.unitLen ≤ sl.room := Nat.le_of_not_lt hlt
        refine ⟨decide (s.dev.next = .ok), !decide (s.dev.next = .ok),
          .inr ⟨hp, i, sl, h1, h2, h3, .inr ⟨hle, rfl, rfl, _, ?_, ?_, ?_, ?_, ?_, e2⟩⟩, ?_⟩
        · simp [h2]
        · simp [Slot.fill, hf]
        · exact fill_shape _ sl
        · intro k (hk : k < f.unitLen)
          have hne : sl.planes ≠ [] := by
            intro h0; simp [Slot.room, h0] at hle; omega
          have := slotByte_fill (f.unitBytes s.params) sl hne k (by rw [unitBytes_length]; exact hk)
          rw [unitBytes_getD _ _ _ hk] at this
          exact this
        · intro q k hk
          exact slotByte_fill_other (f.unitBytes s.params) sl q k (by rw [unitBytes_length]; exact hk)
        · dsimp only
          rw [e1]
          by_cases hn : s.dev.next = .ok
          · simp [hn, noteOf]
          · simp [hn, noteOf_decodeError]

/-! ### D4 -/

theorem pollTimeout_eq (xs : List Slot) : pollTimeout xs = pollMs xs := by
  unfold pollTimeout pollMs
  simp [Config.pollTimeoutMs]

theorem readPoll_ready {a : DevAnswer} : readPoll a = .ready ↔ a = .ready := by cases a <;> simp [readPoll]
theorem readPoll_timeout {a : DevAnswer} : readPoll a = .timeout ↔ a = .timeout := by cases a <;> simp [readPoll]

/-- D4 as a relation (R272, R274). -/
theorem decodePoll_reclaims (full ran sub e : Bool) (s : State) :
    ∃ got err, reclaims s (decodePoll (noteOf full ran sub false e, s)).2 got err ∧
      (decodePoll (noteOf full ran sub false e, s)).1 = noteOf full ran sub got (e || err) := by
  unfold decodePoll
  by_cases hq : (s.pl.inPool.any fun sl => decide (sl.own = .queued)) = true
  · have hq' : ∃ sl ∈ s.pl.inPool, sl.own = .queued := by simpa using hq
    simp only [hq, if_true, ask_fst, ask_snd, pollTimeout_eq]
    cases hr : readPoll s.dev.next with
    | timeout =>
      have hn := readPoll_timeout.1 hr
      exact ⟨false, false, .inr ⟨hq', .inl ⟨by simp [hn], rfl, rfl, by simp [hn]⟩⟩, by simp⟩
    | fail =>
      have h1 : s.dev.next ≠ .ready := fun h => by rw [readPoll_ready.2 h] at hr; cases hr
      have h2 : s.dev.next ≠ .timeout := fun h => by rw [readPoll_timeout.2 h] at hr; cases hr
      exact ⟨false, true, .inr ⟨hq', .inl ⟨h1, rfl, rfl, by simp [h2]⟩⟩, by simp [noteOf_decodeError]⟩
    | ready =>
      have hn := readPoll_ready.1 hr
      set u := s.withDev (s.dev.issue (.poll (pollMs s.pl.inPool))) with hu
      simp only [reclaimInput]
      cases h : (deq .inp .inp u).1 with
      | got j =>
        obtain ⟨sl, g1, g2, g3⟩ := deq_got h
        refine ⟨true, false, .inr ⟨hq', .inr ⟨hn, .inr ⟨j, ⟨sl, { sl.freshContents u.draws with own := .free }, _, g1,
          g2, rfl, rfl, rfl, fresh_shape u.draws sl, g3 .free⟩, rfl, rfl⟩⟩⟩, by simp [noteOf]⟩
      | notReady =>
        have := deq_noSlot (P := .inp) (q := .inp) (s := u) (by simp [h])
        rw [h] at this
        exact ⟨false, false, .inr ⟨hq', .inr ⟨hn, .inl ⟨this, rfl⟩⟩⟩, by simp⟩
      | fail =>
        have := deq_noSlot (P := .inp) (q := .inp) (s := u) (by simp [h])
        rw [h] at this
        exact ⟨false, true, .inr ⟨hq', .inr ⟨hn, .inl ⟨this, rfl⟩⟩⟩, by simp [noteOf_decodeError]⟩
  · have hq' : ∀ sl ∈ s.pl.inPool, sl.own ≠ .queued := by simpa using hq
    simp only [hq]
    exact ⟨false, false, .inl ⟨hq', rfl, rfl, rfl⟩, by simp⟩

end Sys2Proof.Machine
end

