-- ==== Sys2Proof/Laws/PerInstr.lean ====
section
/-! SUPPORT. Facts about each command as syntax, one lemma per constructor: the upper half of the `op` field of
its word names its unit (30_encoding.md R90, R93). -/

namespace Sys2Proof.Machine

/-- The upper half of `op` that the rows of a unit share in the opcode map (R93). -/
def UnitId.nibble : UnitId → BitVec 4
  | .bw => 1#4
  | .ns => 2#4
  | .fr => 3#4
  | .se => 4#4

end Sys2Proof.Machine

namespace Sys2Proof.Laws

open Sys2Proof.Machine

/-- The four most significant bits of a word made of `op` and `imm` are those of `op` (R90). -/
theorem commandWord_unit (op : BitVec 8) (imm : BitVec 24) :
    (commandWord op imm).extractLsb' 28 4 = op.extractLsb' 4 4 := by
  apply BitVec.eq_of_getLsbD_eq
  intro j hj
  simp only [commandWord, BitVec.getLsbD_extractLsb', BitVec.getLsbD_or, BitVec.getLsbD_shiftLeft,
    BitVec.getLsbD_setWidth, hj, decide_true, Bool.true_and]
  have h1 : 28 + j < 32 := by omega
  have h2 : ¬ 28 + j < 24 := by omega
  have h3 : 28 + j - 24 = 4 + j := by omega
  have h4 : 4 + j < 32 := by omega
  have h5 : imm.getLsbD (28 + j) = false := BitVec.getLsbD_of_ge _ _ (by omega)
  simp [h1, h2, h3, h4, h5]

/-- Bits 31:28 of the command word name the command's unit (R90, R93). -/
def UnitNibble.Statement (i : Instr) : Prop := (encode i).extractLsb' 28 4 = (unitOf i).nibble

theorem UnitNibble.bwInit : UnitNibble.Statement .bwInit := commandWord_unit _ _
theorem UnitNibble.bwBit (v : Bool) : UnitNibble.Statement (.bwBit v) := commandWord_unit _ _
theorem UnitNibble.bwFixed (n : BitVec 6) : UnitNibble.Statement (.bwFixed n) := commandWord_unit _ _
theorem UnitNibble.bwUe : UnitNibble.Statement .bwUe := commandWord_unit _ _
theorem UnitNibble.bwSe : UnitNibble.Statement .bwSe := commandWord_unit _ _
theorem UnitNibble.bwAlign : UnitNibble.Statement .bwAlign := commandWord_unit _ _
theorem UnitNibble.bwBytes : UnitNibble.Statement .bwBytes := commandWord_unit _ _
theorem UnitNibble.bwStat : UnitNibble.Statement .bwStat := commandWord_unit _ _
theorem UnitNibble.nsEscape : UnitNibble.Statement .nsEscape := commandWord_unit _ _
theorem UnitNibble.nsNal (t : BitVec 5) : UnitNibble.Statement (.nsNal t) := commandWord_unit _ _
theorem UnitNibble.nsSps : UnitNibble.Statement .nsSps := commandWord_unit _ _
theorem UnitNibble.nsPps : UnitNibble.Statement .nsPps := commandWord_unit _ _
theorem UnitNibble.frInit (m : BitVec 2) (g : Bool) : UnitNibble.Statement (.frInit m g) := commandWord_unit _ _
theorem UnitNibble.frPush : UnitNibble.Statement .frPush := commandWord_unit _ _
theorem UnitNibble.frExtract : UnitNibble.Statement .frExtract := commandWord_unit _ _
theorem UnitNibble.frStat : UnitNibble.Statement .frStat := commandWord_unit _ _
theorem UnitNibble.seOpen : UnitNibble.Statement .seOpen := commandWord_unit _ _
theorem UnitNibble.seDecode : UnitNibble.Statement .seDecode := commandWord_unit _ _
theorem UnitNibble.seGetpic : UnitNibble.Statement .seGetpic := commandWord_unit _ _
theorem UnitNibble.seClose : UnitNibble.Statement .seClose := commandWord_unit _ _

end Sys2Proof.Laws
end

