-- ==== Sys2Proof/WellFormed.lean ====
section
/-! DEFINITION. Which commands carry legal immediates. The field types already hold exactly the encodable
values (R91). R96 names the two encodable values that are illegal; a command that carries one still runs
and raises `IllegalOperand`. -/

namespace Sys2Proof

/-- The immediates of a command are legal (R91, R96). -/
def Instr.wellFormed : Instr → Bool
  | .bwInit => true
  | .bwBit _ => true
  | .bwFixed n => decide (n.toNat ≤ Config.fixedMax)
  | .bwUe => true
  | .bwSe => true
  | .bwAlign => true
  | .bwBytes => true
  | .bwStat => true
  | .nsEscape => true
  | .nsNal _ => true
  | .nsSps => true
  | .nsPps => true
  | .frInit mode _ => decide (mode ≠ 3#2)
  | .frPush => true
  | .frExtract => true
  | .frStat => true
  | .seOpen => true
  | .seDecode => true
  | .seGetpic => true
  | .seClose => true

end Sys2Proof
end

