-- ==== Sys2Proof/Tests/Slice0.lean ====
section
/-! SUPPORT. The model's own tests: ill-formed terms, words written out from the encoding, one-step tests whose
expected results come from 95_test_vectors.md, and a witness for every statement that has hypotheses. -/

namespace Sys2Proof.Tests

open Sys2Proof Sys2Proof.Machine

/-! ### Small states -/

/-- Parameters for tests: the smallest pools, a ring of 16 bytes, `LEVEL_IDC` 31. -/
def params : Config.Params :=
  { ringCapPred := ⟨15, by decide⟩, thirdInSlot := false, pipelineDepth := 0, nCoutPred := 0, hdrRetryMax := 1,
    levelIdc := 31, mpeg4HeaderCodes := Config.mpeg4DefaultCodes }

/-- The state after reset with those parameters. -/
def bench : State := { State.reset with params := params }

/-- With argument registers `a0 .. a3`. -/
def args4 (s : State) (a b c d : Word) : State := s.withArgs ⟨a, b, c, d, 0, 0, 0, 0⟩

/-- With bytes in MEM. -/
def poked (s : State) (a : Nat) (bs : List Byte) : State := s.withMem (s.mem.putBytes a bs)

/-- With a BitWriter buffer at 0x1000. -/
def buffer (s : State) (cap pos : Word) : State := s.withBw ⟨0x1000, cap, pos, false⟩

/-- The words of an operand block as bytes (R66). -/
def wordBytes (ws : List Word) : List Byte :=
  ws.flatMap fun w => [w.extractLsb' 0 8, w.extractLsb' 8 8, w.extractLsb' 16 8, w.extractLsb' 24 8]

/-- The next state, if there is one. -/
def nextOf (o : Host.Outcome State Fault Refusal) : Option State :=
  match o with
  | .next t => some t
  | .fault _ => none
  | .refused _ => none

/-- A function of the state after one command. -/
def see {α : Type} (f : State → α) (i : Instr) (s : State) : Option α := (nextOf (exec i s)).map f

/-- Status, `r1`, `BW.pos` and the first bytes of the buffer. -/
def bwView (n : Nat) (t : State) : Int × Nat × Nat × List Nat :=
  (t.res.r0.toInt, t.res.r1.toNat, t.bw.pos.toNat, (memRead t.mem 0x1000 n).map BitVec.toNat)

/-- Status, `r1`, `r2`. -/
def resView (t : State) : Int × Nat × Nat := (t.res.r0.toInt, t.res.r1.toNat, t.res.r2.toNat)

/-- Zero bytes in the buffer, so that its bits are known. -/
def zeroed (s : State) (n : Nat) : State := poked s 0x1000 (List.replicate n 0#8)

/-! ### Ill-formed immediates (R96), one for each check -/

theorem test_wf_fixed_33 : (Instr.bwFixed 33#6).wellFormed = false ∧ (Instr.bwFixed 32#6).wellFormed = true := by
  decide

theorem test_wf_mode_3 : (Instr.frInit 3#2 true).wellFormed = false ∧ (Instr.frInit 2#2 true).wellFormed = true := by
  decide

/-! ### Decoding (R91, R93, R95): every constructor from a word written out by hand -/

theorem test_decode_bw :
    decode 0x10000000#32 = .ok .bwInit ∧ decode 0x11000000#32 = .ok (.bwBit false) ∧
    decode 0x11000001#32 = .ok (.bwBit true) ∧ decode 0x1200003F#32 = .ok (.bwFixed 63#6) ∧
    decode 0x13000000#32 = .ok .bwUe ∧ decode 0x14000000#32 = .ok .bwSe ∧ decode 0x15000000#32 = .ok .bwAlign ∧
    decode 0x16000000#32 = .ok .bwBytes ∧ decode 0x17000000#32 = .ok .bwStat := by decide

theorem test_decode_ns :
    decode 0x20000000#32 = .ok .nsEscape ∧ decode 0x2100001F#32 = .ok (.nsNal 31#5) ∧
    decode 0x22000000#32 = .ok .nsSps ∧ decode 0x23000000#32 = .ok .nsPps := by decide

theorem test_decode_fr :
    decode 0x30000101#32 = .ok (.frInit 1#2 true) ∧ decode 0x30000003#32 = .ok (.frInit 3#2 false) ∧
    decode 0x31000000#32 = .ok .frPush ∧ decode 0x32000000#32 = .ok .frExtract ∧
    decode 0x33000000#32 = .ok .frStat := by decide

theorem test_decode_se :
    decode 0x40000000#32 = .ok .seOpen ∧ decode 0x41000000#32 = .ok .seDecode ∧
    decode 0x42000000#32 = .ok .seGetpic ∧ decode 0x43000000#32 = .ok .seClose := by decide

theorem test_decode_rejects :
    decode 0x18000000#32 = .error .unassignedOpcode ∧ decode 0x44000000#32 = .error .unassignedOpcode ∧
    decode 0x11000002#32 = .error .reservedBits ∧ decode 0x12000040#32 = .error .reservedBits ∧
    decode 0x21000020#32 = .error .reservedBits ∧ decode 0x30000004#32 = .error .reservedBits ∧
    decode 0x30000200#32 = .error .reservedBits ∧ decode 0x13000001#32 = .error .reservedBits := by decide

theorem test_decode_table_word :
    decodeTableWord 32 0x21000007 = some (.nsNal 7#5) ∧ decodeTableWord 32 0x11000002 = none := by decide

theorem test_encode_fields :
    encode (.frInit 2#2 true) = 0x30000102#32 ∧ encode (.bwFixed 5#6) = 0x12000005#32 ∧
    encode (.nsNal 8#5) = 0x21000008#32 ∧ encode (.bwBit true) = 0x11000001#32 := by decide

/-! ### The step -/

/-- The first step after reset runs the word that was placed: `FR_INIT` of mode 2. -/
theorem test_first_step :
    (nextOf (step (State.reset.withFetchWord 32 0x30000102))).map (fun t => (t.fr.valid, t.fr.mode, t.fr.getHead))
      = some (true, .mpeg12, true) := by decide

/-- A word that is no command completes with IllegalCommand (X1 of 95_test_vectors.md). -/
theorem test_illegal_word :
    (nextOf (step (State.reset.withFetchWord 32 0x18000000))).map (fun t => t.res.r0.toInt) = some (-8) := by decide

/-! ### BW (vectors B of 95_test_vectors.md) -/

theorem test_bwInit_wraps : see resView .bwInit (args4 bench 0xFFFFFFF0 0x20 0 0) = some (-9, 0, 0) := by decide

theorem test_bwInit_ends_at_top : see (fun t => (t.res.r0.toInt, t.bw)) .bwInit (args4 bench 0xFFFFFFF0 0x10 0 0)
    = some (0, ⟨0xFFFFFFF0, 0x10, 0, false⟩) := by decide

/-- B1 -/
theorem test_bwBit : see (bwView 1) (.bwBit true) (zeroed (buffer bench 16 0) 1) = some (0, 0, 1, [0x80]) := by decide

/-- B4: only the low three bits of 0xFD are taken. -/
theorem test_bwFixed : see (bwView 1) (.bwFixed 3#6) (args4 (zeroed (buffer bench 16 0) 1) 0xFD 0 0 0)
    = some (0, 0, 3, [0xA0]) := by decide

/-- B7 -/
theorem test_bwFixed_33 : see (bwView 0) (.bwFixed 33#6) (buffer bench 16 3) = some (-9, 0, 3, []) := by decide

/-- B9: the codeword of 119. -/
theorem test_bwUe : see (bwView 2) .bwUe (args4 (zeroed (buffer bench 16 0) 2) 119 0 0 0)
    = some (0, 0, 13, [0x03, 0xC0]) := by decide +kernel

/-- B13: the codeword of -3. -/
theorem test_bwSe : see (bwView 1) .bwSe (args4 (zeroed (buffer bench 16 0) 1) 0xFFFFFFFD 0 0 0)
    = some (0, 0, 5, [0x38]) := by decide +kernel

/-- B16 -/
theorem test_bwAlign : see (bwView 2) .bwAlign (zeroed (buffer bench 16 13) 2) = some (0, 0, 16, [0, 4]) := by decide

/-- B18: the end of the buffer, which overflows. -/
theorem test_bwAlign_full : see (fun t => (t.res.r0.toInt, t.bw.pos.toNat, t.bw.ovf)) .bwAlign (buffer bench 16 128)
    = some (-4, 128, true) := by decide

/-- B20: a source byte at a bit offset. -/
theorem test_bwBytes : see (bwView 2) .bwBytes
    (args4 (poked (zeroed (buffer bench 16 4) 2) 0x2000 [0xF0#8]) 0x2000 1 0 0) = some (0, 1, 12, [0x0F, 0]) := by
  decide +kernel

/-- B23: a source inside the buffer. -/
theorem test_bwBytes_meets : see (bwView 0) .bwBytes (args4 (buffer bench 16 7) 0x1004 2 0 0) = some (-9, 0, 7, []) := by
  decide

theorem test_bwStat : see (fun t => (t.res.r1, t.res.r2, t.res.r3)) .bwStat (bench.withBw ⟨0, 9, 17, true⟩)
    = some (17, 1, 9) := by decide

/-! ### NS (vectors E, S, Q) -/

/-- E1: three zero bytes. -/
theorem test_nsEscape : see (fun t => (resView t, (memRead t.mem 0x3000 5).map BitVec.toNat)) .nsEscape
    (args4 (poked bench 0x2000 [0, 0, 0]) 0x2000 3 0x3000 5) = some ((0, 5, 0), [0, 0, 3, 0, 3]) := by decide +kernel

/-- E2: the same with one byte too few. -/
theorem test_nsEscape_small : see resView .nsEscape (args4 (poked bench 0x2000 [0, 0, 0]) 0x2000 3 0x3000 4)
    = some (-3, 0, 0) := by decide +kernel

/-- E7 -/
theorem test_nsNal : see (fun t => (resView t, (memRead t.mem 0x3000 8).map BitVec.toNat)) (.nsNal 8#5)
    (args4 (poked bench 0x2000 [0xEE, 0x3C, 0xB0]) 0x2000 3 0x3000 8)
    = some ((0, 8, 0), [0, 0, 0, 1, 0x68, 0xEE, 0x3C, 0xB0]) := by decide +kernel

/-- S2: 1280 x 720, profile 66, level 31. -/
theorem test_nsSps : see (bwView 9) .nsSps
    (args4 (poked (zeroed (buffer bench 64 5) 9) 0x4000 (wordBytes [0, 0, 2, 0, 0, 0, 0, 0, 4, 1, 1, 0])) 1280 720 66 0x4000)
    = some (0, 9, 72, [0x42, 0x00, 0x1F, 0xEC, 0xA0, 0x28, 0x02, 0xDC, 0x80]) := by decide +kernel

/-- Q1 -/
theorem test_nsPps : see (bwView 3) .nsPps
    (args4 (poked (zeroed (buffer bench 64 5) 3) 0x4100 (wordBytes [1, 0, 0, 0, 0, 0, 0, 0, 1, 0, 0, 1, 0])) 0 0 0 0x4100)
    = some (0, 3, 24, [0xEE, 0x3C, 0xB0]) := by decide +kernel

/-! ### FR (vectors F) -/

/-- A framer that holds bytes, scanned up to none of them. -/
def framer (md : Mode) (gh : Bool) (bs : List Byte) : Framer := frPush 16 bs (frInit md gh State.reset.fr)

/-- Two slices of H264 that each begin a picture. -/
def twoPictures : List Byte := [0, 0, 1, 0x65, 0x80, 0, 0, 1, 0x65, 0x80]

/-- A parameter set, then a picture. -/
def headThenPicture : List Byte := [0, 0, 1, 0x67, 0xAA, 0, 0, 1, 0x65, 0x80]

theorem test_frInit : see (fun t => (t.res.r0.toInt, t.fr.mode, t.fr.valid)) (.frInit 1#2 false) bench
    = some (0, .mpeg4, true) := by decide

theorem test_frPush : see (fun t => (t.res.r0.toInt, t.fr.head, ringByte 16 t.fr.ring 1)) .frPush
    (args4 (poked (bench.withFr (framer .h264 false [7])) 0x2000 [9]) 0x2000 1 0 0) = some (0, 2, 9) := by
  decide +kernel

theorem test_frPush_full : see (fun t => (t.res.r0.toInt, t.fr.head)) .frPush
    (args4 (bench.withFr (framer .h264 false twoPictures)) 0x2000 7 0 0) = some (-2, 10) := by decide +kernel

/-- F1, the head variant: the unit before the first picture. -/
theorem test_frExtract : see (fun t => (resView t, t.fr.tail, (memRead t.mem 0x6000 5).map BitVec.toNat)) .frExtract
    (args4 (bench.withFr (framer .h264 true headThenPicture)) 0x6000 5 0 0)
    = some ((1, 5, 1), 5, [0, 0, 1, 0x67, 0xAA]) := by decide +kernel

theorem test_frExtract_small : see (fun t => (resView t, t.fr.pending)) .frExtract
    (args4 (bench.withFr (framer .h264 true headThenPicture)) 0x6000 4 0 0) = some ((-1, 5, 0), true) := by
  decide +kernel

theorem test_frStat : see resView .frStat (bench.withFr (frInit .h264 true State.reset.fr))
    = some (0, 0, 0x20) := by decide

/-! ### SE (the traces of 43_pipeline.md R290 and 95_test_vectors.md P4, step by step) -/

/-- A slot of one plane of 32 bytes. -/
def slot (o : Own) (h : Holder) : Slot := ⟨o, h, [⟨32, 0, ⟨7⟩, []⟩], 0, 0⟩

/-- An open session after setup, with these pools and answers, and an empty `BUF_LIST`. -/
def steady (conv : Bool) (ins douts couts : List Slot) (f : Framer) (as : List DevAnswer) : State :=
  { bench with
    se := ⟨.opened, 0, 0, 0⟩
    fr := f
    pl := ⟨⟨9⟩, ins.length, douts.length, couts.length, conv, true, ins, douts, couts⟩
    dev := ⟨as, 0, []⟩ }

/-- An open session before setup. -/
def fresh (f : Framer) (as : List DevAnswer) : State :=
  { bench with se := ⟨.opened, 0, 64, 64⟩, fr := f, dev := ⟨as, 0, []⟩ }

/-- Nothing in the ring. -/
def emptyFramer : Framer := frInit .h264 false State.reset.fr

/-- A map answer of one plane of 32 bytes. -/
def planes32 : List PlaneInfo := [⟨32, 0, ⟨7⟩⟩]

/-- The answers of a setup that succeeds, every slot mapped as `ps`. -/
def setupAnswers (p : Config.Params) (ps : List PlaneInfo) (k : Nat) (fmt : Fmt) (m : Nat) (c : Bool) :
    List DevAnswer :=
  answersOf (State.setupTxns { bench with params := p } (fun _ _ => ps) k fmt m c)

theorem test_seOpen : see (fun t => (t.res.r0.toInt, t.se, t.fr.getHead)) .seOpen (args4 bench 0x4201 64 48 0)
    = some (0, ⟨.opened, 0x42, 64, 48⟩, true) := by decide

theorem test_seOpen_reserved : see resView .seOpen (args4 bench 0x14200 0 0 0) = some (-9, 0, 0) := by decide

/-- Setup with a converter and the one `NOT_READY` that is tolerated, as step 4 of P4 but smaller. -/
theorem test_seDecode_setup :
    see (fun t => (resView t, t.pl.conv, t.pl.doutPool.map Slot.own, t.fr.tail)) .seDecode
      (fresh (framer .h264 true headThenPicture) (setupAnswers params planes32 1 ⟨9⟩ 1 false ++ [.timeout]))
      = some ((0, 3, 0), true, [.queued], 5) := by decide +kernel

/-- Step 5 of P4: a unit goes into the free slot, and the other slot comes back. -/
theorem test_seDecode_submit :
    see (fun t => (resView t, t.pl.inPool.map Slot.own, t.fr.tail)) .seDecode
      (steady false [slot .queued .dec, slot .free .dec] [] [] (framer .h264 false twoPictures)
        [.ok, .ready, .slot 0]) = some ((0, 13, 0), [.free, .queued], 5) := by decide +kernel

/-- Step 4 of R290: the picture is presented though Dev refuses the slot. -/
theorem test_seGetpic_direct :
    see (fun t => (resView t, t.pl.doutPool.map Slot.own, t.events.length)) .seGetpic
      (steady false [] [slot .queued .dec, slot .queued .dec] [] emptyFramer [.slot 1, .fail])
      = some ((-7, 1, 1), [.queued, .free], 1) := by decide +kernel

/-- Step 7 of P4: the converter's slots move on and a picture is presented. What failed enqueues left over, a free
slot of each pool and a slot done, is enqueued again (R282 G0). -/
theorem test_seGetpic_conv :
    see (fun t => (resView t, t.res.r3, t.pl.doutPool.map Slot.holder)) .seGetpic
      (steady true [] [slot .queued .conv, slot .queued .dec] [slot .queued .dec, slot .queued .dec] emptyFramer
        [.slot 0, .ok, .notReady, .slot 1, .ok]) = some ((0, 1, 1), 2, [.dec, .dec]) ∧
    see (fun t => (resView t, t.pl.doutPool.map fun sl => (sl.own, sl.holder), t.pl.coutPool.map Slot.own)) .seGetpic
      (steady true [] [slot .free .conv, slot .done .dec] [slot .free .dec] emptyFramer
        [.ok, .ok, .fail, .notReady, .notReady, .notReady])
      = some ((-7, 0, 0), [(.queued, .dec), (.queued, .conv)], [.free]) := by decide +kernel

theorem test_seClose : see (fun t => (t.res.r0.toInt, t.se.life, t.dev.log.length)) .seClose
    (steady false [slot .free .dec] [] [] emptyFramer []) = some (0, .closed, 1) := by decide

/-! ### Witnesses: for each statement with hypotheses, states and operands that meet them, clause by clause -/

theorem witness_DecodeOnlyEncodings : decode 0x1200003F#32 = .ok (.bwFixed 63#6) := by decide

/-- A word of a row, a word of none, an unlisted `op`, a listed `op` with a bit set that must be zero. -/
theorem witness_DecodingTotal :
    (∃ r ∈ opcodeMap, 0x12000020#32 &&& r.mask = r.pattern) ∧
    (∀ r ∈ opcodeMap, 0x12000040#32 &&& r.mask ≠ r.pattern) ∧
    (BitVec.extractLsb' 24 8 0x44000000#32).toNat ∉ [0x10, 0x11, 0x12, 0x13, 0x14, 0x15, 0x16, 0x17, 0x20, 0x21,
      0x22, 0x23, 0x30, 0x31, 0x32, 0x33, 0x40, 0x41, 0x42, 0x43] ∧
    (∃ r ∈ opcodeMap, BitVec.extractLsb' 24 8 0x30000004#32 = r.pattern.extractLsb' 24 8 ∧
      BitVec.extractLsb' 0 24 0x30000004#32 &&& r.mask.extractLsb' 0 24 ≠ 0#24) := by decide

theorem witness_StepRunsDecoded :
    (bench.withPort [.command 0x44000000#32]).port = .command 0x44000000#32 :: [] ∧
    decode 0x44000000#32 = .error .unassignedOpcode ∧ (bench.withPort [.command 0x17000000#32]).port = .command 0x17000000#32 :: [] ∧
    decode 0x17000000#32 = .ok .bwStat ∧ bench.port = [] := by decide

theorem witness_HostWrites :
    (bench.withPort [.setArg 7 5]).port = .setArg 7 5 :: [] ∧
    (bench.withPort [.poke 0xFFFFFFFF 1]).port = .poke 0xFFFFFFFF 1 :: [] := by decide

theorem witness_ResetLeaves : (bench.withPort [.reset]).port = .reset :: [] := by decide

/-- One byte too many, one byte past the top, exactly at the top. -/
theorem witness_BwInitBinds :
    0x1FFFFFFF < (args4 bench 0 0x20000000 0 0).args.a1.toNat ∧
    2 ^ 32 < (args4 bench 0xFFFFFFFF 2 0 0).args.a0.toNat + (args4 bench 0xFFFFFFFF 2 0 0).args.a1.toNat ∧
    ((args4 bench 0xE0000001 0x1FFFFFFF 0 0).args.a1.toNat ≤ 0x1FFFFFFF ∧
      (args4 bench 0xE0000001 0x1FFFFFFF 0 0).args.a0.toNat
        + (args4 bench 0xE0000001 0x1FFFFFFF 0 0).args.a1.toNat ≤ 2 ^ 32) := by decide

/-- A cursor at the end of its buffer is sound, and so is one at its beginning. -/
theorem witness_cursor : (buffer bench 16 128).bw.ok ∧ (buffer bench 16 0).bw.ok := by
  unfold BitCursor.ok; decide

/-- One bit fits at bit 127 and not at bit 128. -/
theorem witness_BwBitAppends :
    ((buffer bench 16 127).bw.ok ∧ 127 + [true].length ≤ 8 * (buffer bench 16 127).bw.cap.toNat) ∧
    ((buffer bench 16 128).bw.ok ∧ 8 * (buffer bench 16 128).bw.cap.toNat < 128 + [true].length) := by
  unfold BitCursor.ok; decide

theorem witness_BwFixedAppends :
    32 < (33#6).toNat ∧ ((buffer bench 4 0).bw.ok ∧ (32#6).toNat ≤ 32) ∧
    8 * (buffer bench 4 1).bw.cap.toNat < (buffer bench 4 1).bw.pos.toNat + (32#6).toNat := by
  unfold BitCursor.ok; decide

/-- The longest codeword, 65 bits, fits into 9 bytes and not into 8. -/
theorem witness_BwUeAppends :
    ((args4 (buffer bench 9 7) 0xFFFFFFFF 0 0 0).bw.ok ∧ 7 + (ueCode 0xFFFFFFFF).length ≤ 8 * 9) ∧
    ((args4 (buffer bench 8 0) 0xFFFFFFFF 0 0 0).bw.ok ∧ 8 * 8 < 0 + (ueCode 0xFFFFFFFF).length) := by
  unfold BitCursor.ok; decide +kernel

/-- The most negative number: its codeword has 65 bits too. -/
theorem witness_BwSeAppends :
    ((args4 (buffer bench 9 7) 0x80000000 0 0 0).bw.ok ∧
      7 + (ueCode (seMap (0x80000000#32).toInt)).length ≤ 8 * 9) ∧
    ((args4 (buffer bench 8 0) 0x80000000 0 0 0).bw.ok ∧
      8 * 8 < 0 + (ueCode (seMap (0x80000000#32).toInt)).length) := by
  unfold BitCursor.ok; decide +kernel

/-- At bit 127 one stop bit fits; at bit 128 the buffer is full. -/
theorem witness_BwAlignAppends :
    ((buffer bench 16 127).bw.ok ∧ 127 + (stopBits 127).length ≤ 8 * 16) ∧
    ((buffer bench 16 128).bw.ok ∧ 8 * 16 < 128 + (stopBits 128).length) := by
  unfold BitCursor.ok; decide

/-- A source that overlaps the last byte of the buffer; one just above it that fits; one that does not fit. -/
theorem witness_BwBytesAppends :
    ((args4 (buffer bench 16 7) 0x100F 2 0 0).bw.ok ∧ ¬ (args4 (buffer bench 16 7) 0x100F 2 0 0).sourceLegal 0x100F 2) ∧
    ((args4 (buffer bench 16 112) 0x1010 2 0 0).bw.ok ∧
      (args4 (buffer bench 16 112) 0x1010 2 0 0).sourceLegal 0x1010 2 ∧ 112 + 8 * 2 ≤ 8 * 16) ∧
    ((args4 (buffer bench 16 113) 0x1010 2 0 0).bw.ok ∧
      (args4 (buffer bench 16 113) 0x1010 2 0 0).sourceLegal 0x1010 2 ∧ 8 * 16 < 113 + 8 * 2) := by
  unfold BitCursor.ok State.sourceLegal; decide

/-- The ends of the range of a codeword length; numbers of both signs. -/
theorem witness_ExpGolombCodes :
    (2 ^ 3 - 1 ≤ 7 ∧ 7 ≤ 2 ^ (3 + 1) - 2) ∧ (2 ^ 3 - 1 ≤ 14 ∧ 14 ≤ 2 ^ (3 + 1) - 2) ∧ ueCode 5 <+: ueCode 5 ∧
    (0 : Int) ≤ 0 ∧ (0 : Int) < 1 := by decide +kernel

theorem witness_ExpGolombRoundTrip :
    (args4 (buffer bench 9 7) 0xFFFFFFFF 0 0 0).bw.ok ∧
    (buffer bench 9 7).bw.pos.toNat + (ueCode (0xFFFFFFFF#32).toNat).length ≤ 8 * (buffer bench 9 7).bw.cap.toNat ∧
    (buffer bench 9 7).bw.pos.toNat + (ueCode (seMap (0x80000000#32).toInt)).length
      ≤ 8 * (buffer bench 9 7).bw.cap.toNat := by
  unfold BitCursor.ok; decide +kernel

/-- A run of a write that fits, one that does not, and one with an illegal immediate. -/
theorem witness_PrefixLaw : ∃ s, exec .bwInit (args4 bench 0x1000 1 0 0) = .next s ∧ s.res.r0 = 0 ∧
    ∀ c ∈ [((args4 bench 5 0 0 0).args, Instr.bwFixed 3#6), ((args4 bench 9 0 0 0).args, Instr.bwUe),
      ((args4 bench 0 0 0 0).args, Instr.bwFixed 33#6)], isWrite c.2 = true :=
  ⟨_, rfl, by decide, by decide⟩

theorem witness_CursorMoves : ∃ t, (buffer bench 16 128).bw.ok ∧
    exec (.bwBit true) (buffer bench 16 128) = .next t ∧ (buffer bench 16 128).bw.ovf = false ∧ t.bw.ovf = true :=
  ⟨_, by unfold BitCursor.ok; decide, rfl, by decide, by decide⟩

theorem witness_EscapeInverse : [0x00#8, 0x00#8, 0x01#8].getLast? ≠ some 0x03#8 := by decide

theorem witness_EscapeHidesStartCodes :
    (escape [0, 0, 1])[0]? = some 0#8 ∧ (escape [0, 0, 1])[0 + 1]? = some 0#8 ∧
    (escape [0, 0, 1])[0 + 2]? = some 3#8 := by decide

/-- Two zeros before a byte that is just not below 4, with a zero at the end; two zeros before one that is. -/
theorem witness_EscapeHidesStartCodes_copy :
    nothingToEscape [0, 0, 4, 0] ∧ nothingToEscape ([] ++ [0#8, 0#8]) ∧ (3#8).toNat < 4 ∧
    escape [0, 0, 4, 0] = [0, 0, 4, 0, 3] ∧ escape ([] ++ [0, 0] ++ 3 :: [0xFF]) = [0, 0, 3, 3, 0xFF] := by
  refine ⟨fun k b h0 h1 h2 => ?_, fun k b _ _ h2 => ?_, by decide, by decide, by decide⟩
  · match k, h0, h1, h2 with
    | 0, _, _, h2 => cases h2; decide
    | 1, _, h1, _ => cases h1
    | 2, h0, _, _ => cases h0
    | k + 3, _, h1, _ => cases h1
  · match k, h2 with
    | 0, h2 => cases h2
    | k + 1, h2 => cases h2

/-- Ranges that meet, a copy that fits exactly, and one byte too few. -/
theorem witness_NsEscapeDelivers :
    rangesIllegal 0x2000 4 0x2003 4 ∧
    (¬ rangesIllegal 0x2000 3 0x3000 5 ∧ (escape [0, 0, 0]).length ≤ 5) ∧
    (¬ rangesIllegal 0x2000 3 0x3000 4 ∧ 4 < (escape [0, 0, 0]).length) ∧
    memRead (args4 (poked bench 0x2000 [0, 0, 0]) 0x2000 3 0x3000 5).mem 0x2000 3 = [0, 0, 0] := by
  unfold rangesIllegal; decide +kernel

theorem witness_NsNalDelivers :
    rangesIllegal 0xFFFFFFFF 2 0x2003 4 ∧ (¬ rangesIllegal 0x2000 0 0x3000 5 ∧ 5 + (escape []).length ≤ 5) ∧
    (¬ rangesIllegal 0x2000 0 0x3000 4 ∧ 4 < 5 + (escape []).length) := by
  unfold rangesIllegal; decide

/-- The state of `test_nsSps`, with the buffer at its full size and at 4 bytes. -/
def spsState (cap w : Word) : State :=
  args4 (poked (buffer bench cap 5) 0x4000 (wordBytes [0, 0, 2, 0, 0, 0, 0, 0, 4, 1, 1, 0])) w 720 66 0x4000

theorem witness_NsSpsWrites :
    ¬ (spsState 64 0).spsLegal ∧ ((spsState 9 1280).bw.ok ∧ (spsState 9 1280).spsLegal) ∧
    (spsState 9 1280).spsRbsp.length ≤ 8 * 9 ∧ ((spsState 4 1280).bw.ok ∧ (spsState 4 1280).spsLegal) ∧
    8 * 4 < (spsState 4 1280).spsRbsp.length := by
  have legal : ∀ cap : Word, (cap = 9 ∨ cap = 4) → (spsState cap 1280).spsLegal := by
    rintro cap (rfl | rfl) <;>
    · refine ⟨by decide, by decide, by decide, by unfold State.sourceLegal; decide, fun h => ?_, fun h => ?_⟩
      · exact absurd h (by decide +kernel)
      · exact absurd h (by decide)
  refine ⟨fun h => h.1 rfl, ⟨?_, legal 9 (.inl rfl)⟩, by decide +kernel, ⟨?_, legal 4 (.inr rfl)⟩,
    by decide +kernel⟩ <;> (unfold BitCursor.ok; decide)

/-- The state of `test_nsPps`. -/
def ppsState (cap a3 : Word) : State :=
  args4 (poked (buffer bench cap 5) 0x4100 (wordBytes [1, 0, 0, 0, 0, 0, 0, 0, 1, 0, 0, 1, 0])) 0 0 0 a3

theorem witness_NsPpsWrites :
    ¬ (ppsState 64 0xFFFFFFCD).sourceLegal 0xFFFFFFCD 52 ∧
    ((ppsState 3 0x4100).bw.ok ∧ (ppsState 3 0x4100).sourceLegal 0x4100 52) ∧
    (ppsState 3 0x4100).ppsRbsp.length ≤ 8 * 3 ∧
    ((ppsState 2 0x4100).bw.ok ∧ (ppsState 2 0x4100).sourceLegal 0x4100 52) ∧
    8 * 2 < (ppsState 2 0x4100).ppsRbsp.length := by
  unfold BitCursor.ok State.sourceLegal; decide +kernel

theorem witness_FrInitCreates :
    (∃ t, exec .bwStat bench = .next t ∧ (∀ m g, Instr.bwStat ≠ .frInit m g) ∧ Instr.bwStat ≠ .seOpen) ∧
    (bench.withSe ⟨.failed, 0, 0, 0⟩).se.life ≠ .closed ∧ (bench.se.life = .closed ∧ 3#2 = 3#2) ∧
    BitVec.ofNat 2 Mode.mpeg12.code = 2#2 := ⟨⟨_, rfl, by simp, by simp⟩, by decide⟩

/-- No framer; a source past the top; no room by one byte; room to the last byte. -/
theorem witness_FrPushStores :
    bench.fr.valid = false ∧ (bench.withSe ⟨.opened, 0, 0, 0⟩).se.life ≠ .closed ∧
    (let s := args4 (bench.withFr (framer .h264 false twoPictures)) 0xFFFFFFFF 2 0 0;
      s.fr.valid = true ∧ s.se.life = .closed ∧ 2 ^ 32 < s.args.a0.toNat + s.args.a1.toNat) ∧
    (let s := args4 (bench.withFr (framer .h264 false twoPictures)) 0xFFFFFFF9 7 0 0;
      s.args.a0.toNat + s.args.a1.toNat ≤ 2 ^ 32 ∧ s.params.ringCap < s.fr.head - s.fr.tail + s.args.a1.toNat) ∧
    (let s := args4 (bench.withFr (framer .h264 false twoPictures)) 0xFFFFFFFA 6 0 0;
      s.args.a0.toNat + s.args.a1.toNat ≤ 2 ^ 32 ∧ s.fr.head - s.fr.tail + s.args.a1.toNat ≤ s.params.ringCap) := by
  decide +kernel

/-- A framer that holds one unit of five bytes, and a destination. -/
def extractState (bs : List Byte) (a0 n : Word) : State := args4 (bench.withFr (framer .h264 false bs)) a0 n 0 0

/-- No boundary; a unit and four bytes of room; a unit and five; a unit pending before the command. -/
theorem witness_FrExtractReturns :
    (let s := extractState twoPictures 0xFFFFFFFF 2;
      s.fr.valid = true ∧ s.se.life = .closed ∧ 2 ^ 32 < s.args.a0.toNat + s.args.a1.toNat) ∧
    (let s := extractState [0, 0, 1] 0x6000 5;
      s.args.a0.toNat + s.args.a1.toNat ≤ 2 ^ 32 ∧ (frScan s.params s.fr).pending = false) ∧
    (let s := extractState twoPictures 0x6000 4;
      (frScan s.params s.fr).pending = true ∧
        s.args.a1.toNat < (frScan s.params s.fr).pendEnd - (frScan s.params s.fr).unitStart) ∧
    (let s := extractState twoPictures 0xFFFFFFFB 5;
      s.args.a0.toNat + s.args.a1.toNat ≤ 2 ^ 32 ∧ (frScan s.params s.fr).pending = true ∧
        (frScan s.params s.fr).pendEnd - (frScan s.params s.fr).unitStart ≤ s.args.a1.toNat) ∧
    (bench.withFr (frScan params (framer .h264 false twoPictures))).fr.pending = true := by
  decide +kernel

theorem witness_FrStatReads : bench.fr.valid = false ∧ (bench.withFr emptyFramer).fr.valid = true := by decide

/-- A scanner in `SawStartCode`: a byte that raises an event, and one that raises none; and an MPEG-4 framer, with a
picture, a normal header and a short header. -/
theorem witness_ScannerTable :
    let f := { emptyFramer with st := .sawStartCode, scStart := 0, read := 3 }
    let g := { f with mode := .mpeg4 }
    (f.mode ≠ .h264 → f.st ≠ .saw0x3 ∧ f.st ≠ .inSliceLookahead) ∧
    (g.mode ≠ .h264 → g.st ≠ .saw0x3 ∧ g.st ≠ .inSliceLookahead) ∧
    stepEvent params.mpeg4HeaderCodes 0x68#8 f = some (0, .header) ∧
    stepEvent params.mpeg4HeaderCodes 0x65#8 f = none ∧
    stepEvent params.mpeg4HeaderCodes 0xB6#8 g = some (0, .picture) ∧
    stepEvent params.mpeg4HeaderCodes 0xB3#8 { g with shLead := true } = some (0, .header) ∧
    stepEvent params.mpeg4HeaderCodes 0x83#8 { g with st := .saw0x2 } = some (1, .header) := by decide

/-- A framer for each row of the boundary rule. -/
theorem witness_BoundaryRule :
    (let f := { emptyFramer with getHead := true }; f.getHead = true ∧ f.hdrCnt = 0) ∧
    (let f := { emptyFramer with getHead := true, hdrCnt := 0xFFFFFFFF }; f.getHead = true ∧ f.hdrCnt ≠ 0) ∧
    (let f := { emptyFramer with hdrCnt := 0xFFFFFFFF }; f.getHead = true ∨ f.picCnt = 0) ∧
    (emptyFramer.getHead = false ∧ emptyFramer.picCnt = 0) ∧
    (let f := { emptyFramer with picCnt := 1 }; f.getHead = false ∧ f.picCnt ≠ 0) := by decide

theorem witness_StartCodeRecognised : emptyFramer.st = .idle ∧ 2 ≤ 2 ∧ 2 ≤ 3 := by decide

/-- The framer after initialisation is sound in every mode. -/
theorem sound_emptyFramer : emptyFramer.ok params.ringCap := by
  refine ⟨⟨?_, ?_, ?_, ?_⟩, ⟨?_, ?_, ?_⟩, ⟨?_, ?_⟩⟩ <;>
    simp [emptyFramer, frInit, Framer.held, Framer.unitKnown]

/-- A ring filled to the last byte by two pushes. -/
theorem witness_ChunkIndependence : emptyFramer.ok params.ringCap ∧
    emptyFramer.hasRoom params.ringCap (twoPictures.length + [0, 0, 1, 0x67, 1, 2].length) = true :=
  ⟨sound_emptyFramer, by decide⟩

/-- A framer with a unit pending, in a ring that holds its own bytes as the stream. -/
def pendingFramer : Framer :=
  { framer .h264 false twoPictures with read := 10, st := .idle, picCnt := 1, pending := true, pendEnd := 5,
                                        pendTag := .picture, lastTag := .picture, scStart := 5 }

theorem witness_UnitsAreStreamBytes : pendingFramer.ok params.ringCap ∧
    pendingFramer.carries params.ringCap (fun c => ringByte params.ringCap pendingFramer.ring c) ∧
    pendingFramer.hasRoom params.ringCap 6 = true ∧ pendingFramer.pending = true := by
  refine ⟨⟨⟨?_, ?_, ?_, ?_⟩, ⟨?_, ?_, ?_⟩, ⟨?_, ?_⟩⟩, fun _ _ _ => rfl, ?_, rfl⟩ <;>
    simp [pendingFramer, framer, frPush, frInit, Framer.held, Framer.unitKnown, Framer.hasRoom, params,
      Config.Params.ringCap, twoPictures]

/-- A first unit, and after more bytes a second one. -/
theorem witness_UnitsContiguous :
    let f := framer .h264 false twoPictures
    f.pending = false ∧ (frScan params f).pending = true ∧
    (frScan params (frPush 16 [0, 0, 1, 0x67] (frScan params f).take)).pending = true := by decide +kernel

theorem witness_HeadVariant :
    (∃ t, exec .bwStat bench = .next t ∧ (∀ m g, Instr.bwStat ≠ .frInit m g) ∧ Instr.bwStat ≠ .seOpen) ∧
    (let f := framer .h264 true headThenPicture;
      f.getHead = true ∧ f.pending = false ∧ (frScan params f).pending = true) :=
  ⟨⟨_, rfl, by simp, by simp⟩, by decide +kernel⟩

/-- `bench` is sound: it is the reset state with other parameters. -/
theorem sound_bench : bench.Inv := by
  refine ⟨⟨rfl, rfl⟩, ⟨by decide, by decide, by decide⟩, ⟨⟨?_, ?_, ?_, ?_⟩, ⟨?_, ?_, ?_⟩, ⟨?_, ?_⟩⟩,
    ⟨⟨rfl, rfl, rfl⟩, ⟨fun _ => ⟨rfl, rfl, rfl, rfl⟩, ?_⟩, ⟨?_, ?_, ?_⟩⟩, ⟨fun _ => rfl, ?_⟩⟩ <;>
    simp [bench, State.reset, Framer.held, Framer.unitKnown]

theorem witness_CountersMonotone : ∃ t, bench.Inv ∧ exec .frExtract bench = .next t ∧
    (∀ m g, Instr.frExtract ≠ .frInit m g) ∧ Instr.frExtract ≠ .seOpen := ⟨_, sound_bench, rfl, by simp, by simp⟩

/-- Another session; mode 3; the lowest and the highest reserved bit; a good profile word with a mode. -/
theorem witness_SeOpenOpens :
    (fresh emptyFramer []).se.life ≠ .closed ∧
    (bench.se.life = .closed ∧ (0x4203#32).extractLsb' 0 2 = 3#2 ∧ 0x00000004#32 &&& 0xFFFF00FC#32 ≠ 0#32 ∧
      0x80000000#32 &&& 0xFFFF00FC#32 ≠ 0#32) ∧
    (0x0000FF02#32 &&& 0xFFFF00FC#32 = 0#32 ∧
      BitVec.ofNat 2 Mode.mpeg12.code = (0x0000FF02#32).extractLsb' 0 2) := by decide

theorem witness_SeCloseCloses : bench.se.life = .closed ∧ (fresh emptyFramer []).se.life ≠ .closed := by decide

/-- An empty list is legal, and so is one whose last entry ends at the top of the address space. -/
theorem legal_empty (s : State) (h : s.args.a1 = 0) : s.listLegal := by
  refine ⟨?_, ?_⟩
  · rw [h]; have := s.args.a0.isLt; simp; omega
  · rw [h]; intro e he; simp [bufList] at he

theorem witness_SessionRefuses :
    bench.se.life = .closed ∧ (bench.withSe ⟨.failed, 0, 0, 0⟩).se.life = .failed ∧
    ((args4 (fresh emptyFramer []) 0xFFFFFFF9 1 0 0).se.life = .opened ∧
      ¬ (args4 (fresh emptyFramer []) 0xFFFFFFF9 1 0 0).listLegal) ∧
    ((fresh emptyFramer []).se.life = .opened ∧ (fresh emptyFramer []).pl.hdrDone = false) := by
  refine ⟨rfl, rfl, ⟨rfl, fun h => absurd h.1 (by decide)⟩, rfl, rfl⟩

/-- With an empty list; and with one buffer of 7 bytes for a ring that has room for 6. -/
def fullState (f : Framer) (a : List DevAnswer) (st : State) : State :=
  args4 (poked { st with fr := f, dev := ⟨a, 0, []⟩ } 0x7000 (wordBytes [0x2000, 7])) 0x7000 1 0 0

theorem legal_full (f : Framer) (a : List DevAnswer) (st : State) (h : st.mem = []) :
    (fullState f a st).listLegal ∧ (fullState f a st).codedBytes.length = 7 := by
  have e : bufList (fullState f a st).mem 0x7000 1 = [(0x2000#32, 7#32)] := by
    simp only [fullState, args4, poked, State.withArgs, State.withMem, h]; decide +kernel
  have e' : bufList (fullState f a st).mem (fullState f a st).args.a0 (fullState f a st).args.a1.toNat
      = [(0x2000#32, 7#32)] := e
  refine ⟨⟨?_, ?_⟩, ?_⟩
  · show (0x7000#32).toNat + 8 * (1#32).toNat ≤ 2 ^ 32; decide
  · rw [e']; intro x hx; rw [List.mem_singleton] at hx; subst hx; decide
  · rw [State.codedBytes, e']; simp only [bufBytes, List.append_nil, memRead_length]; rfl

/-- The head cluster fills plane 0 to the last byte; as many `NOT_READY` as are tolerated; a conversion stage. -/
def setupState (as : List DevAnswer) : State := fresh (framer .h264 true headThenPicture) as

/-- A map answer of one plane of five bytes, the length of the head cluster. -/
def planes5 : List PlaneInfo := [⟨5, 0, ⟨7⟩⟩]

/-- The same with a list of seven bytes, for which the ring has no room. -/
def fullSetup (as : List DevAnswer) : State :=
  fullState (framer .h264 true headThenPicture) as (fresh emptyFramer [])

theorem fullSetup_fr (as : List DevAnswer) : (fullSetup as).noRoom = true ∧
    (fullSetup as).acceptedScanned = frScan params (framer .h264 true headThenPicture) := by
  have h : (fullSetup as).noRoom = true := by
    unfold State.noRoom; rw [show (fullSetup as).codedBytes.length = 7 from (legal_full _ _ _ rfl).2]; rfl
  exact ⟨h, by rw [State.acceptedScanned, State.accepted, if_pos h]; rfl⟩

theorem witness_SeDecodeAccumulates :
    (let s := fresh emptyFramer [];
      s.se.life = .opened ∧ s.listLegal ∧ s.pl.hdrDone = false ∧
      s.fr.hasRoom s.params.ringCap s.codedBytes.length = true ∧ s.pushedScanned.pending = false) ∧
    (let s := fullState (framer .h264 true [0, 0, 1, 0x67, 1, 2, 3, 4, 5, 6]) [] (fresh emptyFramer []);
      s.se.life = .opened ∧ s.listLegal ∧ s.pl.hdrDone = false ∧
      s.fr.hasRoom s.params.ringCap s.codedBytes.length = false ∧ (frScan s.params s.fr).pending = false) := by
  refine ⟨⟨rfl, legal_empty _ rfl, rfl, by decide, by decide⟩,
    rfl, (legal_full _ _ _ rfl).1, rfl, ?_, by decide +kernel⟩
  rw [(legal_full _ _ _ rfl).2]; decide +kernel

/-- Setup runs though the ring had no room for the buffers. -/
theorem witness_SeDecodeAccumulates_setup :
    let s := fullSetup (setupAnswers params planes5 1 ⟨9⟩ 1 false ++ [.timeout])
    s.se.life = .opened ∧ s.listLegal ∧ s.pl.hdrDone = false ∧ s.acceptedScanned.pending = true ∧ s.noRoom = true ∧
    (setup { s with fr := s.acceptedScanned }).1 = true := by
  refine ⟨rfl, (legal_full _ _ _ rfl).1, rfl, ?_, (fullSetup_fr _).1, ?_⟩
  · rw [(fullSetup_fr _).2]; decide +kernel
  · rw [(fullSetup_fr _).2]; decide +kernel

theorem witness_SetupEstablishes :
    let s := { setupState (setupAnswers params planes5 1 ⟨9⟩ 1 false) with
                fr := frScan params (framer .h264 true headThenPicture) }
    s.pl.conv = false ∧ s.pl.coutPool = [] ∧ s.pl.nCout = 0 ∧ (setup s).1 = true := by decide +kernel

/-- With room for the buffers, and without. -/
theorem witness_SetupCompletes :
    (∀ s ∈ [setupState (setupAnswers params planes5 1 ⟨9⟩ 1 false ++ [.timeout]),
        fullSetup (setupAnswers params planes5 1 ⟨9⟩ 1 false ++ [.timeout])],
      1 ≤ s.params.hdrRetryMax ∧ s.se.life = .opened ∧ s.listLegal ∧ s.pl.hdrDone = false ∧ s.pl.conv = false ∧
      s.acceptedScanned.pending = true ∧ (frScan s.params s.acceptedScanned.take).pending = false ∧
      s.acceptedScanned.unitLen ≤ 5 ∧
      s.dev.script = answersOf (State.setupTxns { s with fr := s.acceptedScanned } (fun _ _ => planes5) 1 ⟨9⟩ 1 false)
        ++ .timeout :: []) ∧
    planes5 ≠ [] ∧ planes5.head? = some ⟨5, 0, ⟨7⟩⟩ := by
  refine ⟨fun s hs => ?_, by decide, rfl⟩
  simp only [List.mem_cons, List.not_mem_nil, or_false] at hs
  rcases hs with rfl | rfl
  · exact ⟨by decide, rfl, legal_empty _ rfl, rfl, rfl, by decide +kernel, by decide +kernel, by decide +kernel, rfl⟩
  · have e := (fullSetup_fr (setupAnswers params planes5 1 ⟨9⟩ 1 false ++ [.timeout])).2
    refine ⟨by decide, rfl, (legal_full _ _ _ rfl).1, rfl, rfl, ?_, ?_, ?_, rfl⟩ <;> rw [e] <;> decide +kernel

/-- `FAIL` at the first transaction; `FAIL` at the fifth, the enqueue of the head cluster; one `NOT_READY` more than is
tolerated; a head cluster one byte too large for the slot. -/
theorem witness_SetupFails :
    (let s := setupState [.fail];
      s.se.life = .opened ∧ s.listLegal ∧ s.pl.hdrDone = false ∧ s.acceptedScanned.pending = true ∧
      (setup { s with fr := s.acceptedScanned }).1 = false ∧ s.dev.next = .fail ∧ s.pl.conv = false) ∧
    (let s := setupState ((setupAnswers params planes5 0 ⟨9⟩ 1 false).take 4 ++ [.fail]);
      let w := { s with fr := s.acceptedScanned };
      let txns := w.setupTxns (fun _ _ => planes5) 0 ⟨9⟩ 1 false;
      (setup w).2.dev.log.map DevTxn.answer =
        ((setupAnswers params planes5 0 ⟨9⟩ 1 false).take 4 ++ [DevAnswer.fail]).map some ∧
      txns[4]? = some (.enqueue .inp 0 5, .ok) ∧ s.dev.script = answersOf (txns.take 4) ++ .fail :: []) ∧
    (let s := setupState (answersOf (State.headerTxns bench (fun _ _ => planes5) 2) ++ [.ok]);
      let w := { s with fr := s.acceptedScanned };
      ((setup w).2.dev.log.filter fun x => decide (x.answer = some .notReady)).length = 2 ∧
      s.params.hdrRetryMax < 2 ∧ w.fr.unitLen ≤ 5 ∧
      s.dev.script = answersOf (w.headerTxns (fun _ _ => planes5) (s.params.hdrRetryMax + 1)) ++ [.ok]) ∧
    (let s := setupState [.ok, .ok, .mapped [⟨4, 0, ⟨7⟩⟩], .mapped [⟨4, 0, ⟨7⟩⟩]];
      let w := { s with fr := s.acceptedScanned };
      (4#32).toNat < w.fr.unitLen ∧ s.dev.script =
        answersOf ((w.headerTxns (fun _ _ => [⟨4, 0, ⟨7⟩⟩]) 0).take (2 + s.params.nIn)) ++ []) := by
  refine ⟨⟨rfl, legal_empty _ rfl, rfl, ?_, ?_, rfl, rfl⟩, ⟨?_, ?_, ?_⟩, ⟨?_, ?_, ?_, ?_⟩, ?_, ?_⟩ <;> decide +kernel

/-- No slot queued; a slot queued, for each answer to the poll and, after `READY`, to the dequeue. -/
theorem witness_SeDecodeReclaims :
    (let s := steady false [slot .free .dec] [] [] emptyFramer [];
      s.se.life = .opened ∧ s.listLegal ∧ s.pl.hdrDone = true ∧
      s.fr.hasRoom s.params.ringCap s.codedBytes.length = true ∧ s.pushedScanned.pending = false ∧
      ∀ sl ∈ s.pl.inPool, sl.own ≠ .queued) ∧
    (∀ a ∈ [DevAnswer.timeout, .fail],
      let s := steady false [slot .free .dec, slot .queued .dec] [] [] emptyFramer [a]
      s.listLegal ∧ s.pushedScanned.pending = false ∧ (∃ sl ∈ s.pl.inPool, sl.own = .queued) ∧
        s.dev.script = a :: []) ∧
    (let s := steady false [slot .free .dec, slot .queued .dec] [] [] emptyFramer [.ready, .slot 1];
      s.listLegal ∧ s.pushedScanned.pending = false ∧ s.pl.inPool[1]? = some (slot .queued .dec) ∧
        s.dev.script = .ready :: .slot 1 :: []) ∧
    (∀ a ∈ [DevAnswer.notReady, .fail, .slot 0, .slot 2],
      let s := steady false [slot .free .dec, slot .queued .dec] [] [] emptyFramer [.ready, a]
      (∃ sl ∈ s.pl.inPool, sl.own = .queued) ∧
        (∀ j sl, a = .slot j → s.pl.inPool[j]? = some sl → sl.own ≠ .queued) ∧
        s.dev.script = .ready :: a :: []) := by
  refine ⟨⟨rfl, legal_empty _ rfl, rfl, by decide, by decide, by decide⟩, ?_,
    ⟨legal_empty _ rfl, by decide, rfl, rfl⟩, fun a ha => ⟨by simp [steady, slot], fun j sl hj hs => ?_, rfl⟩⟩
  swap
  · simp only [List.mem_cons, List.not_mem_nil, or_false] at ha
    rcases ha with rfl | rfl | rfl | rfl <;> cases hj <;> cases hs
    decide
  intro a ha
  simp only [List.mem_cons, List.not_mem_nil, or_false] at ha
  rcases ha with rfl | rfl <;> exact ⟨legal_empty _ rfl, by decide, by decide, rfl⟩

/-- A unit of five bytes and a slot of 32; slot 0 is queued, slot 1 is free. -/
theorem witness_SeDecodeSubmits :
    (let s := steady false [slot .queued .dec, slot .free .dec] [] [] (framer .h264 false twoPictures)
        [.ok, .timeout];
      s.se.life = .opened ∧ s.listLegal ∧ s.pl.hdrDone = true ∧
      s.fr.hasRoom s.params.ringCap s.codedBytes.length = true ∧ s.pushedScanned.pending = true ∧
      s.pl.inPool[1]? = some (slot .free .dec) ∧ (slot .free .dec).own = .free ∧
      (∀ (k : Nat) (x : Slot), k < 1 → s.pl.inPool[k]? = some x → x.own ≠ .free) ∧
      (slot .free .dec).planes ≠ [] ∧ s.pushedScanned.unitLen ≤ (slot .free .dec).room ∧
      s.dev.script = .ok :: .timeout :: []) ∧
    (let s := steady false [slot .free .dec] [] [] (framer .h264 false twoPictures) [.fail];
      s.listLegal ∧ s.pushedScanned.pending = true ∧ (∀ x ∈ s.pl.inPool, x.own ≠ .queued) ∧
      s.dev.script = .fail :: []) := by
  refine ⟨⟨rfl, legal_empty _ rfl, rfl, by decide, by decide +kernel, rfl, rfl, ?_, by decide, by decide +kernel,
    rfl⟩, legal_empty _ rfl, by decide +kernel, by decide, rfl⟩
  intro k x hk hx
  obtain rfl : k = 0 := by omega
  cases hx; decide

theorem witness_SeDecodeRetains :
    (let s := fullState pendingFramer [.timeout] (steady false [slot .queued .dec] [] [] emptyFramer []);
      s.se.life = .opened ∧ s.listLegal ∧ s.pl.hdrDone = true ∧
      s.fr.hasRoom s.params.ringCap s.codedBytes.length = false ∧ (frScan s.params s.fr).pending = true ∧
      (∀ sl ∈ s.pl.inPool, sl.own = .queued) ∧ s.pl.inPool ≠ [] ∧ s.dev.script = .timeout :: []) ∧
    (let s := steady false [⟨.free, .dec, [⟨4, 0, ⟨7⟩, []⟩], 0, 0⟩] [] [] (framer .h264 false twoPictures) [];
      s.listLegal ∧ s.fr.hasRoom s.params.ringCap s.codedBytes.length = true ∧ s.pushedScanned.pending = true ∧
      (∀ sl ∈ s.pl.inPool, sl.own = .free ∧ sl.room < s.pushedScanned.unitLen) ∧ s.pl.inPool ≠ []) := by
  refine ⟨⟨rfl, (legal_full _ _ _ rfl).1, rfl, ?_, by decide +kernel, by decide, by decide, rfl⟩,
    legal_empty _ rfl, by decide, by decide +kernel, by decide +kernel, by decide⟩
  rw [(legal_full _ _ _ rfl).2]; decide +kernel

/-- The same for the two cases that follow: without room a unit is submitted; a unit is too large for the free slot
while another slot is queued. -/
theorem witness_SeDecodeRetains_more :
    (let s := fullState pendingFramer [.ok, .timeout] (steady false [slot .free .dec] [] [] emptyFramer []);
      s.se.life = .opened ∧ s.listLegal ∧ s.pl.hdrDone = true ∧
      s.fr.hasRoom s.params.ringCap s.codedBytes.length = false ∧ (frScan s.params s.fr).pending = true ∧
      s.pl.inPool[0]? = some (slot .free .dec) ∧ (frScan s.params s.fr).unitLen ≤ (slot .free .dec).room ∧
      s.dev.script = .ok :: .timeout :: []) ∧
    (let s := steady false [slot .queued .dec, ⟨.free, .dec, [⟨4, 0, ⟨7⟩, []⟩], 0, 0⟩] [] []
        (framer .h264 false twoPictures) [.timeout];
      s.listLegal ∧ s.acceptedScanned.pending = true ∧
      s.pl.inPool[1]? = some ⟨.free, .dec, [⟨4, 0, ⟨7⟩, []⟩], 0, 0⟩ ∧
      (∀ (k : Nat) (x : Slot), k < 1 → s.pl.inPool[k]? = some x → x.own ≠ .free) ∧ 4 < s.acceptedScanned.unitLen ∧
      (∃ x ∈ s.pl.inPool, x.own = .queued) ∧ s.dev.script = .timeout :: []) := by
  refine ⟨⟨rfl, (legal_full _ _ _ rfl).1, rfl, ?_, by decide +kernel, rfl, by decide +kernel, rfl⟩,
    legal_empty _ rfl, by decide +kernel, rfl, ?_, by decide +kernel, by decide, rfl⟩
  · rw [(legal_full _ _ _ rfl).2]; decide +kernel
  · intro k x hk hx
    obtain rfl : k = 0 := by omega
    cases hx; decide

/-- An answer that is not `OK`; an enqueue that works; a dequeue that works; one that names no slot. -/
theorem witness_HandShakes :
    (steady false [slot .free .dec] [] [] emptyFramer [.fail]).dev.next ≠ .ok ∧
    (let s := steady true [] [slot .done .dec] [] emptyFramer [.ok];
      s.dev.next = .ok ∧ (s.pl.pool .dout)[0]? = some (slot .done .dec)) ∧
    (deq .dout .dout (steady false [] [slot .queued .dec] [] emptyFramer [.slot 0])).1 = .got 0 ∧
    (deq .dout .dout (steady false [] [slot .queued .dec] [] emptyFramer [.notReady])).1 = .notReady ∧
    (let s := steady false [] [slot .queued .dec] [] emptyFramer [.slot 1];
      s.dev.next = .slot 1 ∧ (s.pl.pool .dout)[1]? = none) := by decide

theorem witness_SeGetpicDirect :
    (let s := steady false [] [slot .queued .dec] [] emptyFramer [.notReady];
      s.se.life = .opened ∧ s.pl.hdrDone = true ∧ s.pl.conv = false ∧ (∀ sl ∈ s.pl.doutPool, sl.own ≠ .free) ∧
      s.dev.script = .notReady :: []) ∧
    (∀ a ∈ [DevAnswer.ok, .fail],
      let s := steady false [] [slot .queued .dec, slot .queued .dec] [] emptyFramer [.slot 1, a]
      (∀ sl ∈ s.pl.doutPool, sl.own ≠ .free) ∧ s.pl.doutPool[1]? = some (slot .queued .dec) ∧
      (slot .queued .dec).own = .queued ∧ (slot .queued .dec).holder = .dec ∧
      s.dev.script = .slot 1 :: a :: []) ∧
    (∀ a ∈ [DevAnswer.fail, .slot 0, .slot 1],
      let s := steady false [] [slot .queued .conv] [] emptyFramer [a]
      (∀ sl ∈ s.pl.doutPool, sl.own ≠ .free) ∧ a ≠ .notReady ∧
      (∀ i sl, a = .slot i → s.pl.doutPool[i]? = some sl → ¬ (sl.own = .queued ∧ sl.holder = .dec)) ∧
      s.dev.script = a :: []) ∧
    (∀ a ∈ [DevAnswer.ok, .fail],
      let s := steady false [] [slot .queued .dec, slot .free .dec] [] emptyFramer [a, .notReady]
      1 < s.pl.nDout ∧ s.pl.doutPool[1]? = some (slot .free .dec) ∧ (slot .free .dec).own = .free ∧
      (∀ k x, k ≠ 1 → s.pl.doutPool[k]? = some x → x.own ≠ .free) ∧ s.dev.script = a :: .notReady :: []) := by
  refine ⟨by decide, fun a ha => ?_, fun a ha => ?_, fun a ha => ⟨by simp [steady], rfl, rfl, fun k x hk hx => ?_, rfl⟩⟩
  · simp only [List.mem_cons, List.not_mem_nil, or_false] at ha
    rcases ha with rfl | rfl <;> exact ⟨by decide, rfl, rfl, rfl, rfl⟩
  · refine ⟨by simp [steady, slot], fun h => ?_, fun i sl hi hs => ?_, rfl⟩
    · subst h; simp at ha
    · simp only [List.mem_cons, List.not_mem_nil, or_false] at ha
      rcases ha with rfl | rfl | rfl <;> cases hi <;> cases hs
      decide
  · match k, hk, hx with
    | 0, _, hx => cases hx; decide
    | 1, hk, _ => exact absurd rfl hk
    | n + 2, _, hx => cases hx

theorem witness_SeGetpicConv :
    (let s := steady true [] [slot .queued .conv] [slot .queued .dec] emptyFramer
        [.slot 0, .ok, .notReady, .notReady];
      s.se.life = .opened ∧ s.pl.hdrDone = true ∧ s.pl.conv = true ∧ (∀ sl ∈ s.pl.doutPool, sl.own = .queued) ∧
      (∀ sl ∈ s.pl.coutPool, sl.own = .queued) ∧ s.pl.doutPool[0]? = some (slot .queued .conv) ∧
      (slot .queued .conv).holder = .conv ∧ s.dev.script = .slot 0 :: .ok :: .notReady :: .notReady :: []) ∧
    (∀ a ∈ [DevAnswer.ok, .fail],
      let s := steady true [] [slot .queued .dec] [slot .queued .dec] emptyFramer
        [.notReady, .slot 0, a, .notReady]
      s.pl.doutPool[0]? = some (slot .queued .dec) ∧ (slot .queued .dec).holder = .dec ∧
      s.dev.script = .notReady :: .slot 0 :: a :: .notReady :: []) ∧
    (let s := steady true [] [slot .queued .dec] [slot .queued .dec] emptyFramer
        [.notReady, .notReady, .slot 0, .ok];
      s.pl.coutPool[0]? = some (slot .queued .dec) ∧
      s.dev.script = .notReady :: .notReady :: .slot 0 :: .ok :: []) ∧
    (∀ a ∈ [DevAnswer.ok, .fail], ∀ b ∈ [DevAnswer.ok, .fail], ∀ c ∈ [DevAnswer.ok, .fail],
      let s := steady true [] [slot .queued .conv, slot .queued .dec] [slot .queued .dec] emptyFramer
        [.slot 0, a, .slot 1, b, .slot 0, c]
      (∀ sl ∈ s.pl.doutPool, sl.own = .queued) ∧ (∀ sl ∈ s.pl.coutPool, sl.own = .queued) ∧
      s.pl.doutPool[0]? = some (slot .queued .conv) ∧ (slot .queued .conv).holder = .conv ∧
      s.pl.doutPool[1]? = some (slot .queued .dec) ∧ (slot .queued .dec).holder = .dec ∧
      s.pl.coutPool[0]? = some (slot .queued .dec) ∧
      s.dev.script = .slot 0 :: a :: .slot 1 :: b :: .slot 0 :: c :: []) := by
  refine ⟨by decide, fun a _ => ⟨rfl, rfl, rfl⟩, ⟨rfl, rfl⟩, fun a _ b _ c _ =>
    ⟨by simp [steady, slot], by simp [steady, slot], rfl, rfl, rfl, rfl, rfl, rfl⟩⟩

/-- A picture is presented, and setup stays done. -/
theorem witness_SlotTablesPersist : ∃ t,
    exec .seGetpic (steady false [] [slot .queued .dec] [] emptyFramer [.slot 0, .ok]) = .next t ∧
    (steady false [] [slot .queued .dec] [] emptyFramer [.slot 0, .ok]).pl.hdrDone = true ∧ t.pl.hdrDone = true :=
  ⟨_, rfl, by decide, by decide⟩

/-- `SE_DECODE` before setup, with a setup that succeeds; after setup; `SE_GETPIC`; `SE_CLOSE`. -/
theorem witness_TransactionBounds :
    (let s := setupState (setupAnswers params planes5 1 ⟨9⟩ 1 false ++ [.timeout]);
      s.pl.hdrDone = false ∧ s.pl.conv = false ∧ s.pl.nCout = 0 ∧
      (nextOf (exec .seDecode s)).map (fun t => t.pl.hdrDone) = some true) ∧
    (let s := steady false [slot .queued .dec, slot .free .dec] [] [] (framer .h264 false twoPictures)
        [.ok, .ready, .slot 0];
      s.pl.hdrDone = true ∧ (nextOf (exec .seDecode s)).map (fun t => t.dev.log.length) = some 3) ∧
    (let s := steady true [] [slot .queued .conv, slot .queued .dec] [slot .queued .dec] emptyFramer
        [.slot 0, .ok, .slot 1, .ok, .slot 0, .ok];
      (nextOf (exec .seGetpic s)).map (fun t => t.dev.log.length) = some 6) ∧
    (nextOf (exec .seClose (steady false [] [] [] emptyFramer []))).map (fun t => t.dev.log.length) = some 1 := by
  decide +kernel

theorem witness_OnlyGetpicPresents : ∃ t, exec .seGetpic bench = .next t := ⟨_, rfl⟩

theorem witness_StepKeepsSound : ∃ t, bench.Inv ∧ step bench = .next t := ⟨_, sound_bench, rfl⟩

/-- A command of each unit that completes. -/
theorem witness_UnitFrames :
    (∃ t, exec .bwAlign (buffer bench 16 0) = .next t ∧ unitOf .bwAlign = .bw ∧ isWrite .bwAlign = true ∧
      (buffer bench 16 0).bw.ok) ∧
    (∃ t, exec (.nsNal 7#5) bench = .next t ∧ unitOf (.nsNal 7#5) = .ns) ∧
    (∃ t, exec .frExtract bench = .next t ∧ unitOf .frExtract = .fr) ∧
    (∃ t, exec .seOpen bench = .next t ∧ unitOf .seOpen = .se) :=
  ⟨⟨_, rfl, rfl, rfl, by unfold BitCursor.ok; decide⟩, ⟨_, rfl, rfl⟩, ⟨_, rfl, rfl⟩, ⟨_, rfl, rfl⟩⟩

/-- Each status occurs. -/
theorem witness_PreciseStatuses :
    (nextOf (exec (.bwFixed 33#6) bench)).map (fun t => t.res.r0) = some (BitVec.ofInt 32 (-9)) ∧
    (nextOf (exec .frPush bench)).map (fun t => t.res.r0) = some (BitVec.ofInt 32 (-10)) ∧
    (nextOf (exec .frPush (args4 (bench.withFr (framer .h264 false twoPictures)) 0 7 0 0))).map
      (fun t => t.res.r0) = some (BitVec.ofInt 32 (-2)) ∧
    (nextOf (exec .bwBytes (args4 (buffer bench 1 1) 0x2000 1 0 0))).map (fun t => t.res.r0)
      = some (BitVec.ofInt 32 (-4)) := by decide +kernel

/-- Each lifecycle state, with a command that is legal in it and one that is not. -/
theorem witness_Lifecycle :
    (∃ t, exec .frPush (fresh emptyFramer []) = .next t ∧ (fresh emptyFramer []).se.life ≠ .closed) ∧
    (∃ t, exec .seClose bench = .next t ∧ bench.se.life = .closed) ∧
    (∃ t, exec .seGetpic (bench.withSe ⟨.failed, 0, 0, 0⟩) = .next t ∧
      (bench.withSe ⟨.failed, 0, 0, 0⟩).se.life = .failed) ∧
    (∃ t, exec .frStat bench = .next t ∧ bench.fr.valid = false) ∧
    (∃ t, exec .seClose (fresh emptyFramer []) = .next t ∧ (fresh emptyFramer []).se.life ≠ .closed) :=
  ⟨⟨_, rfl, by decide⟩, ⟨_, rfl, rfl⟩, ⟨_, rfl, rfl⟩, ⟨_, rfl, rfl⟩, ⟨_, rfl, by decide⟩⟩

end Sys2Proof.Tests
end

