-- ==== Sys2Proof/Proofs/Scope.lean ====
section
/-! SUPPORT. The command port (00_scope.md R10, 30_encoding.md R94, R95): what one step does with each content of
the port, and what running a word does. -/

namespace Sys2Proof.Machine

/-! ### The port -/

theorem step_port_nil {s : State} (h : s.port = []) : step s = .next s := by
  simp only [step, runPort, h]

theorem step_port_cons {s : State} {h : HostInput} {rest : List HostInput} (hp : s.port = h :: rest) :
    step s = runInput h (s.withPort rest) := by
  simp only [step, runPort, hp]

theorem step_command {s : State} {w : Word} {rest : List HostInput} (hp : s.port = .command w :: rest) :
    step s = runWord w (s.withPort rest) :=
  step_port_cons hp

/-! ### Running a word -/

theorem runWord_ok {w : Word} {i : Instr} (h : decode w = .ok i) (s : State) : runWord w s = exec i s := by
  simp only [runWord, h]

theorem finish_illegalCommand (s : State) : s.finish .illegalCommand = .next (s.withStatus (-8)) :=
  finish_eq .illegalCommand s

/-- A word that decodes to no command is rejected under some name, and every name raises `IllegalCommand` (R95). -/
theorem runWord_illegal {w : Word} (h : ∀ i, decode w ≠ .ok i) (s : State) :
    runWord w s = .next (s.withStatus (-8)) := by
  cases hd : decode w with
  | ok i => exact absurd hd (h i)
  | error e => simp only [runWord, hd, finish_illegalCommand]

/-! ### The statement -/

/-- Settles O5: the port hands the word to `runWord`, which runs the command or raises `IllegalCommand`. -/
theorem stepRunsDecoded : Obligations.StepRunsDecoded := by
  refine ⟨fun s w i rest hp hd => ?command, fun s w rest hp hd => ?illegal, fun s hp => step_port_nil hp⟩
  case command => exact (step_command hp).trans (runWord_ok hd _)
  case illegal => exact (step_command hp).trans (runWord_illegal hd _)

end Sys2Proof.Machine
end

/-! SUPPORT. What the steps of the SE commands keep of the slot tables (10_state.md R34 to R37), and the moves of the
ParserContext (R30) that every command which drives the framer is made of. -/

namespace Sys2Proof.Machine

/-! ### The planes of the slots -/

theorem deq_shapes (P : PoolId) (q : QueueId) (s : State) : sameShapes s.pl (deq P q s).2.pl := by
  rcases deq_cases P q s with ⟨i, sl, _, _, _, _, e⟩ | ⟨_, e⟩ | ⟨_, _, e⟩ <;> rw [e]
  · exact sameShapes_onSlot (s.withDev (s.dev.issue (.dequeue q))) P i _ (fresh_shape s.draws)
  · exact sameShapes_refl _
  · exact sameShapes_refl _

theorem setOwn_shapes (P : PoolId) (i : Nat) (o : Own) (s : State) : sameShapes s.pl (s.setOwn P i o).pl :=
  sameShapes_onSlot s P i _ fun _ => rfl

theorem resubmit_shapes (P : PoolId) (o : Own) (q : QueueId) (n i : Nat) (r : PicNote × State) :
    sameShapes r.2.pl (resubmit P o q i n r).2.pl :=
  resubmit_induct P o q (fun t => sameShapes r.2.pl t.pl)
    (fun j t ht => sameShapes_trans ht (enq_shapes P q j 0 t)) n i r (sameShapes_refl _)

theorem showNext_shapes (P : PoolId) (r : PicNote × State) : sameShapes r.2.pl (showNext P r).2.pl := by
  have hd := deq_shapes P P.queue r.2
  unfold showNext
  cases (deq P P.queue r.2).1 with
  | notReady => exact hd
  | fail => exact hd
  | got i =>
    have h1 := sameShapes_trans hd (setOwn_shapes P i .done _)
    have h2 := setOwn_shapes P i .free (present P i ((deq P P.queue r.2).2.setOwn P i .done))
    exact sameShapes_trans (sameShapes_trans h1 h2) (enq_shapes P P.queue i 0 _)

theorem passOn_shapes (q : QueueId) (o : Own) (q2 : QueueId) (r : PicNote × State) :
    sameShapes r.2.pl (passOn q o q2 r).2.pl := by
  have hd := deq_shapes .dout q r.2
  unfold passOn
  cases (deq .dout q r.2).1 with
  | notReady => exact hd
  | fail => exact hd
  | got i => exact sameShapes_trans (sameShapes_trans hd (setOwn_shapes .dout i o _)) (enq_shapes .dout q2 i 0 _)

theorem getPicConvRetry_shapes (r : PicNote × State) : sameShapes r.2.pl (getPicConvRetry r).2.pl :=
  sameShapes_trans (sameShapes_trans (resubmit_shapes _ _ _ _ _ r) (resubmit_shapes _ _ _ _ _ _))
    (resubmit_shapes _ _ _ _ _ _)

theorem getPicture_shapes (s : State) : sameShapes s.pl (getPicture s).2.pl := by
  unfold getPicture
  split
  · exact sameShapes_trans (sameShapes_trans (sameShapes_trans (getPicConvRetry_shapes (⟨false, false⟩, s))
      (passOn_shapes _ _ _ _)) (passOn_shapes _ _ _ _)) (showNext_shapes _ _)
  · exact sameShapes_trans (resubmit_shapes _ _ _ _ _ (⟨false, false⟩, s)) (showNext_shapes _ _)

theorem decodePoll_shapes (r : StepNote × State) : sameShapes r.2.pl (decodePoll r).2.pl := by
  unfold decodePoll
  split
  · simp only [ask_fst, ask_snd]
    cases readPoll r.2.dev.next with
    | timeout => exact sameShapes_refl _
    | fail => exact sameShapes_refl _
    | ready =>
      have hd := deq_shapes .inp .inp (r.2.withDev (r.2.dev.issue (.poll (pollTimeout r.2.pl.inPool))))
      unfold reclaimInput
      cases (deq .inp .inp (r.2.withDev (r.2.dev.issue (.poll (pollTimeout r.2.pl.inPool))))).1 with
      | notReady => exact hd
      | fail => exact hd
      | got j => exact sameShapes_trans hd (setOwn_shapes .inp j .free _)
  · exact sameShapes_refl _

/-! ### What a step of the steady state keeps of the slot tables -/

/-- From `a` to `b` format, sizes and phase are the same, every slot has its planes, and slots that were sound are
sound still (R34 to R37). -/
structure TablesKept (a b : Pipeline) : Prop where
  plan : samePlan a b
  shapes : sameShapes a b
  good : poolsAll (slotGood a.conv) a → poolsAll (slotGood a.conv) b

theorem TablesKept.refl (a : Pipeline) : TablesKept a a := ⟨samePlan_refl a, sameShapes_refl a, id⟩

theorem TablesKept.conv {a b : Pipeline} (h : TablesKept a b) : b.conv = a.conv := by
  obtain ⟨_, _, _, _, hconv, _⟩ := h.plan
  exact hconv

theorem TablesKept.hdrDone {a b : Pipeline} (h : TablesKept a b) : b.hdrDone = a.hdrDone := by
  obtain ⟨_, _, _, _, _, hdone, _⟩ := h.plan
  exact hdone

theorem TablesKept.trans {a b c : Pipeline} (h : TablesKept a b) (h' : TablesKept b c) : TablesKept a c :=
  ⟨samePlan_trans h.plan h'.plan, sameShapes_trans h.shapes h'.shapes,
    fun g => h.conv ▸ h'.good (h.conv ▸ h.good g)⟩

theorem PicStep.tables {s t : State} (h : PicStep s t) (hs : sameShapes s.pl t.pl) : TablesKept s.pl t.pl :=
  ⟨h.plan, hs, h.good⟩

/-! ### What a command does to the ParserContext -/

/-- One move of the ParserContext: a push that fits, a scan, the pending unit taken (R192, R194). -/
inductive FramerMove (p : Config.Params) (f : Framer) : Framer → Prop
  | push (bs : List Byte) (h : f.hasRoom p.ringCap bs.length = true) : FramerMove p f (frPush p.ringCap bs f)
  | scan : FramerMove p f (frScan p f)
  | take (h : f.pending = true) : FramerMove p f f.take

/-- Moves one after another. -/
def FramerMoves (p : Config.Params) : Framer → Framer → Prop := Relation.ReflTransGen (FramerMove p)

theorem FramerMoves.refl (p : Config.Params) (f : Framer) : FramerMoves p f f := Relation.ReflTransGen.refl

theorem FramerMoves.trans {p : Config.Params} {f g h : Framer} (a : FramerMoves p f g) (b : FramerMoves p g h) :
    FramerMoves p f h := Relation.ReflTransGen.trans a b

theorem FramerMove.moves {p : Config.Params} {f g : Framer} (h : FramerMove p f g) : FramerMoves p f g :=
  Relation.ReflTransGen.single h

/-- The framer's part of the invariant (R30, R32, R60). -/
def framerSound (p : Config.Params) (f : Framer) : Prop := f.ok p.ringCap ∧ f.ring.wf p.ringCap = true

/-- What the moves of the framer do to the counters of R30 and to `FR.valid`. -/
structure FramerAdvances (f g : Framer) : Prop where
  valid : g.valid = f.valid
  head : f.head ≤ g.head
  tail : f.tail ≤ g.tail
  read : f.read ≤ g.read

theorem FramerAdvances.trans {f g h : Framer} (a : FramerAdvances f g) (b : FramerAdvances g h) :
    FramerAdvances f h :=
  ⟨b.valid.trans a.valid, a.head.trans b.head, a.tail.trans b.tail, a.read.trans b.read⟩

theorem FramerMove.keeps {p : Config.Params} {f g : Framer} (h : FramerMove p f g) (hf : framerSound p f) :
    framerSound p g ∧ FramerAdvances f g := by
  obtain ⟨hok, hwf⟩ := hf
  cases h with
  | push bs h =>
    exact ⟨⟨frPush_ok _ bs f hok h, wf_ringPut _ _ (ringCap_pos p) hwf⟩,
      rfl, Nat.le_add_right _ _, le_refl _, le_refl _⟩
  | scan =>
    obtain ⟨hs, hr, _⟩ := frScan_flow p f hok.1.1
    exact ⟨⟨frScan_ok p _ f hok, by rw [hs.ring]; exact hwf⟩, hs.valid, hs.head.ge, hs.tail.ge, hr⟩
  | take h =>
    have htake := take_ok _ f hok h
    obtain ⟨_, ⟨hstart, _, hend⟩, _⟩ := hok
    have htail : f.tail ≤ f.pendEnd := (hstart (.inr (.inr h))).trans (hend h).1
    exact ⟨⟨htake, hwf⟩, rfl, le_refl _, htail, le_refl _⟩

theorem FramerMoves.keeps {p : Config.Params} {f g : Framer} (h : FramerMoves p f g) (hf : framerSound p f) :
    framerSound p g ∧ FramerAdvances f g := by
  induction h with
  | refl => exact ⟨hf, rfl, le_refl _, le_refl _, le_refl _⟩
  | tail _ hlast ih =>
    obtain ⟨hsound, hadv⟩ := hlast.keeps ih.1
    exact ⟨hsound, ih.2.trans hadv⟩

theorem frInit_framerSound {p : Config.Params} (md : Mode) (g : Bool) {f : Framer} (hf : framerSound p f) :
    framerSound p (frInit md g f) := ⟨frInit_ok _ md g f, hf.2⟩

/-! ### The steps of SE_DECODE -/

/-- D1 changes nothing but the framer (R272). -/
theorem decodePush_snd (s : State) : (decodePush s).2 = s.withFr s.accepted := by rw [decodePush_eq]; rfl

theorem accepted_moves (s : State) : FramerMoves s.params s.fr s.accepted := by
  unfold State.accepted
  split
  · exact FramerMoves.refl _ _
  · next h => exact (FramerMove.push _ (by simpa [noRoom_eq] using h)).moves

theorem acceptedScanned_moves (s : State) : FramerMoves s.params s.fr s.acceptedScanned :=
  (accepted_moves s).trans FramerMove.scan.moves

/-- D1 and the scan of D2 (R272). -/
theorem decodePush_scan (s : State) :
    (decodePush s).2.withFr (frScan (decodePush s).2.params (decodePush s).2.fr) = s.withFr s.acceptedScanned := by
  rw [decodePush_snd]; rfl

/-- D3: the framer scans, and gives up the unit if it is submitted; the slot tables keep what they keep (R272). -/
theorem decodeSubmit_moves (r : StepNote × State) :
    ∃ f, FramerMoves r.2.params r.2.fr f ∧ PicOnly (r.2.withFr f) (decodeSubmit r).2 ∧
      TablesKept r.2.pl (decodeSubmit r).2.pl := by
  have hscan : FramerMoves r.2.params r.2.fr (frScan r.2.params r.2.fr) := FramerMove.scan.moves
  have hstay : ∃ f, FramerMoves r.2.params r.2.fr f ∧
      PicOnly (r.2.withFr f) (r.2.withFr (frScan r.2.params r.2.fr)) ∧ TablesKept r.2.pl r.2.pl :=
    ⟨_, hscan, PicOnly.refl _, TablesKept.refl _⟩
  unfold decodeSubmit
  by_cases hp : (frScan r.2.params r.2.fr).pending = true
  case neg => rw [if_neg hp]; exact hstay
  rw [if_pos hp]
  cases firstFree r.2.pl.inPool with
  | none => exact hstay
  | some i =>
    simp only [decodeSubmitAt, withFr_fr]
    split
    · exact hstay
    · next hroom =>
      obtain ⟨honly, hplan⟩ := submitUnit_only i (r.2.withFr (frScan r.2.params r.2.fr))
      refine ⟨_, hscan.trans (FramerMove.take hp).moves, honly.toPicOnly, hplan, submitUnit_shapes i _, fun h => ?_⟩
      exact submitUnit_good _ i (r.2.withFr (frScan r.2.params r.2.fr)) h (by simpa using hroom)

/-- D3 and D4 together. -/
theorem decodeRest_moves (r : StepNote × State) :
    ∃ f, FramerMoves r.2.params r.2.fr f ∧ PicOnly (r.2.withFr f) (decodePoll (decodeSubmit r)).2 ∧
      TablesKept r.2.pl (decodePoll (decodeSubmit r)).2.pl := by
  obtain ⟨f, hmoves, honly, hkept⟩ := decodeSubmit_moves r
  have hpoll := decodePoll_step (decodeSubmit r)
  exact ⟨f, hmoves, honly.trans hpoll.only, hkept.trans (hpoll.tables (decodePoll_shapes _))⟩

/-- Setup runs with the head cluster pending, so what it does to the framer is a move (R256 S3). -/
theorem setup_moves (s : State) (hp : s.fr.pending = true) : FramerMoves s.params s.fr (setup s).2.fr := by
  rcases (setup_only s).fr with h | h <;> rw [h]
  · exact FramerMoves.refl _ _
  · exact (FramerMove.take hp).moves

end Sys2Proof.Machine

/-! SUPPORT. What every command leaves alone, by its unit, and what it does to the framer, the slot tables, the
BitCursor and MEM: one lemma for each, by the cases of `Ends`. -/

namespace Sys2Proof.Machine

/-! ### Frames of the units (R20, R61, R72, R341) -/

/-- What BW and NS commands leave alone. -/
structure BitOnly (s t : State) : Prop where
  params : t.params = s.params
  args : t.args = s.args
  fr : t.fr = s.fr
  pl : t.pl = s.pl
  se : t.se = s.se
  events : t.events = s.events
  dev : t.dev = s.dev
  port : t.port = s.port

/-- What FR commands leave alone. -/
structure FramerOnly (s t : State) : Prop where
  params : t.params = s.params
  args : t.args = s.args
  bw : t.bw = s.bw
  pl : t.pl = s.pl
  se : t.se = s.se
  events : t.events = s.events
  dev : t.dev = s.dev
  port : t.port = s.port
  draws : t.draws = s.draws

/-- What SE commands leave alone. -/
structure SessionOnly (s t : State) : Prop where
  params : t.params = s.params
  args : t.args = s.args
  mem : t.mem = s.mem
  bw : t.bw = s.bw
  port : t.port = s.port

/-- What the commands of a unit leave alone. -/
def unitOnly : UnitId → State → State → Prop
  | .bw => BitOnly
  | .ns => BitOnly
  | .fr => FramerOnly
  | .se => SessionOnly

theorem unitOnly_setR0 (u : UnitId) (s : State) (v : Word) : unitOnly u s (s.setR0 v) := by
  cases u with
  | bw => exact ⟨rfl, rfl, rfl, rfl, rfl, rfl, rfl, rfl⟩
  | ns => exact ⟨rfl, rfl, rfl, rfl, rfl, rfl, rfl, rfl⟩
  | fr => exact ⟨rfl, rfl, rfl, rfl, rfl, rfl, rfl, rfl, rfl⟩
  | se => exact ⟨rfl, rfl, rfl, rfl, rfl⟩

theorem unitOnly_common {u : UnitId} {s t : State} (h : unitOnly u s t) :
    t.args = s.args ∧ t.params = s.params ∧ t.port = s.port := by
  cases u with
  | bw => exact ⟨h.args, h.params, h.port⟩
  | ns => exact ⟨h.args, h.params, h.port⟩
  | fr => exact ⟨h.args, h.params, h.port⟩
  | se => exact ⟨h.args, h.params, h.port⟩

theorem bwOnly.bitOnly {s t : State} (h : bwOnly s t) : BitOnly s t := by
  rw [h.1]
  exact ⟨rfl, rfl, rfl, rfl, rfl, rfl, rfl, rfl⟩

theorem store_bitOnly (s : State) (m : Memory) (v w : Word) : BitOnly s (((s.withMem m).setR1 v).setR0 w) :=
  ⟨rfl, rfl, rfl, rfl, rfl, rfl, rfl, rfl⟩

theorem scan_framerOnly (s : State) (f : Framer) (u v w : Word) :
    FramerOnly s ((((s.withFr f).setR1 u).setR2 v).setR0 w) :=
  ⟨rfl, rfl, rfl, rfl, rfl, rfl, rfl, rfl, rfl⟩

theorem deliver_framerOnly (s : State) (m : Memory) (f : Framer) (u v w : Word) :
    FramerOnly s (((((s.withMem m).withFr f).setR1 u).setR2 v).setR0 w) :=
  ⟨rfl, rfl, rfl, rfl, rfl, rfl, rfl, rfl, rfl⟩

theorem PicOnly.sessionOnly {s t : State} (h : PicOnly s t) : SessionOnly s t :=
  ⟨h.params, h.args, h.mem, h.bw, h.port⟩

theorem SetupOnly.sessionOnly {s t : State} (h : SetupOnly s t) : SessionOnly s t :=
  ⟨h.params, h.args, h.mem, h.bw, h.port⟩

theorem SessionOnly.trans {s t u : State} (a : SessionOnly s t) (b : SessionOnly t u) : SessionOnly s u :=
  ⟨b.params.trans a.params, b.args.trans a.args, b.mem.trans a.mem, b.bw.trans a.bw, b.port.trans a.port⟩

theorem SessionOnly.setR0 {s t : State} (h : SessionOnly s t) (v : Word) : SessionOnly s (t.setR0 v) :=
  ⟨h.params, h.args, h.mem, h.bw, h.port⟩

theorem SessionOnly.setR1 {s t : State} (h : SessionOnly s t) (v : Word) : SessionOnly s (t.setR1 v) :=
  ⟨h.params, h.args, h.mem, h.bw, h.port⟩

theorem withFr_sessionOnly (s : State) (f : Framer) : SessionOnly s (s.withFr f) := ⟨rfl, rfl, rfl, rfl, rfl⟩

theorem setupFailed_sessionOnly (s : State) : SessionOnly s (setupFailed s) := ⟨rfl, rfl, rfl, rfl, rfl⟩

theorem decodeRest_sessionOnly (r : StepNote × State) : SessionOnly r.2 (decodePoll (decodeSubmit r)).2 := by
  obtain ⟨f, _, honly, _⟩ := decodeRest_moves r
  exact (withFr_sessionOnly r.2 f).trans honly.sessionOnly

theorem writerOf_isWrite {s : State} {i : Instr} {w : Writer} (h : writerOf s i = some w) :
    isWrite i = true ∧ unitOf i = .bw := by
  cases i with
  | bwBit | bwFixed | bwUe | bwSe | bwAlign => exact ⟨rfl, rfl⟩
  | _ => cases h

theorem leadOf_copies {i : Instr} {lead : List Byte} (h : leadOf i = some lead) :
    i = .nsEscape ∨ ∃ y, i = .nsNal y := by
  cases i with
  | nsEscape => exact .inl rfl
  | nsNal y => exact .inr ⟨y, rfl⟩
  | _ => cases h

theorem fieldsOf_rbsp {s : State} {i : Instr} {ws : List Writer} (h : fieldsOf s i = some ws) :
    i = .nsSps ∨ i = .nsPps := by
  cases i with
  | nsSps => exact .inl rfl
  | nsPps => exact .inr rfl
  | _ => cases h

/-- What a command leaves alone. -/
theorem ends_unitOnly {s t : State} {i : Instr} (h : Ends s i t) : unitOnly (unitOf i) s t := by
  cases h with
  | badOperand | badState | failed | frPushFull => exact unitOnly_setR0 _ s _
  | bwInit | bwStat | bytesLost => exact ⟨rfl, rfl, rfl, rfl, rfl, rfl, rfl, rfl⟩
  | wrote i w hw | lost i w hw =>
    rw [(writerOf_isWrite hw).2]
    exact ⟨rfl, rfl, rfl, rfl, rfl, rfl, rfl, rfl⟩
  | bytes =>
    obtain ⟨hp, ha, hf, hl, hs, he, hd, hq⟩ :=
      (putByteSeq_bwOnly (memRead s.mem s.args.a0.toNat s.args.a1.toNat) s).bitOnly
    exact ⟨hp, ha, hf, hl, hs, he, hd, hq⟩
  | copied i lead hi => rcases leadOf_copies hi with rfl | ⟨y, rfl⟩ <;> exact store_bitOnly s _ _ _
  | copyAborted i lead hi =>
    rcases leadOf_copies hi with rfl | ⟨y, rfl⟩ <;> exact ⟨rfl, rfl, rfl, rfl, rfl, rfl, rfl, rfl⟩
  | rbsp i ws hi | rbspLost i ws hi =>
    obtain ⟨hp, ha, hf, hl, hs, he, hd, hq⟩ := (putWriters_bwOnly ws s.bwRestart).bitOnly
    rcases fieldsOf_rbsp hi with rfl | rfl <;> exact ⟨hp, ha, hf, hl, hs, he, hd, hq⟩
  | frInit | frPush | frStat => exact ⟨rfl, rfl, rfl, rfl, rfl, rfl, rfl, rfl, rfl⟩
  | extractNone | extractLong => exact scan_framerOnly s _ _ _ _
  | extract => exact deliver_framerOnly s _ _ _ _ _
  | seOpen | getpicEarly => exact ⟨rfl, rfl, rfl, rfl, rfl⟩
  | seClose _ u hu => rcases hu with rfl | rfl <;> exact ⟨rfl, rfl, rfl, rfl, rfl⟩
  | getpic _ _ r hr =>
    have hpic : PicOnly (((s.setR1 0).setR2 0).setR3 0) r.2 := by rw [hr]; exact (getPicture_step _).only
    have hpic' : SessionOnly s r.2 := ⟨hpic.params, hpic.args, hpic.mem, hpic.bw, hpic.port⟩
    exact hpic'.setR0 _
  | decodeSteady _ _ _ r hr =>
    have hrest : SessionOnly (decodePush s).2 r.2 := by rw [hr]; exact decodeRest_sessionOnly _
    rw [decodePush_snd] at hrest
    exact (((withFr_sessionOnly s _).trans hrest).setR1 _).setR0 _
  | decodeWaits _ _ _ f =>
    have hpush : SessionOnly s ((decodePush s).2.withFr f) := by
      rw [decodePush_snd]
      exact (withFr_sessionOnly s _).trans (withFr_sessionOnly _ f)
    exact (hpush.setR1 _).setR0 _
  | decodeSetup _ _ _ u hu _ _ r hr =>
    rw [decodePush_scan] at hu
    have hrest : SessionOnly (setup u).2 r.2 := by rw [hr]; exact decodeRest_sessionOnly (_, _)
    have hscan : SessionOnly s u := by rw [hu]; exact withFr_sessionOnly s _
    exact (((hscan.trans (setup_only u).sessionOnly).trans hrest).setR1 _).setR0 _
  | decodeFails _ _ _ u hu =>
    rw [decodePush_scan] at hu
    have hscan : SessionOnly s u := by rw [hu]; exact withFr_sessionOnly s _
    exact ((hscan.trans (setup_only u).sessionOnly).trans (setupFailed_sessionOnly _)).setR0 _

/-! ### The framer -/

/-- Every command moves the framer, or initialises it, or, closing the session, makes it invalid (R30, R320). -/
theorem ends_framer {s t : State} {i : Instr} (h : Ends s i t) :
    FramerMoves s.params s.fr t.fr ∨
    (((∃ m g, i = .frInit m g) ∨ i = .seOpen) ∧ ∃ md g, t.fr = frInit md g s.fr) ∨
    (i = .seClose ∧ t.se.life = .closed ∧ t.fr = { s.fr with valid := false }) := by
  have hbit : BitOnly s t → FramerMoves s.params s.fr t.fr := fun hb => hb.fr ▸ FramerMoves.refl _ _
  have hunit := ends_unitOnly h
  cases h with
  | badOperand | badState | failed | frPushFull | frStat | getpicEarly => exact .inl (FramerMoves.refl _ _)
  | bwInit | bwStat | bytes | bytesLost => exact .inl (hbit hunit)
  | wrote i w hw | lost i w hw => rw [(writerOf_isWrite hw).2] at hunit; exact .inl (hbit hunit)
  | copied i lead hi | copyAborted i lead hi =>
    rcases leadOf_copies hi with rfl | ⟨y, rfl⟩ <;> exact .inl (hbit hunit)
  | rbsp i ws hi | rbspLost i ws hi => rcases fieldsOf_rbsp hi with rfl | rfl <;> exact .inl (hbit hunit)
  | frInit m g md => exact .inr (.inl ⟨.inl ⟨m, g, rfl⟩, md, g, rfl⟩)
  | frPush _ _ hr => exact .inl (FramerMove.push _ (by rw [memRead_length]; exact hr)).moves
  | extractNone | extractLong =>
    simp only [setR0_fr, setR1_fr, setR2_fr, withFr_fr]
    exact .inl FramerMove.scan.moves
  | extract _ _ hp =>
    simp only [setR0_fr, setR1_fr, setR2_fr, withFr_fr]
    exact .inl (FramerMove.scan.moves.trans (FramerMove.take hp).moves)
  | seOpen _ md => exact .inr (.inl ⟨.inr rfl, md, true, rfl⟩)
  | seClose _ u hu => rcases hu with rfl | rfl <;> exact .inr (.inr ⟨rfl, rfl, rfl⟩)
  | getpic _ _ r hr =>
    have hpic : PicOnly (((s.setR1 0).setR2 0).setR3 0) r.2 := by rw [hr]; exact (getPicture_step _).only
    refine .inl ?_
    rw [setR0_fr, hpic.fr]
    exact FramerMoves.refl _ _
  | decodeSteady _ _ _ r hr =>
    obtain ⟨f, hmoves, honly, _⟩ := decodeRest_moves (decodePush s)
    rw [← hr] at honly
    rw [decodePush_snd] at hmoves
    refine .inl ?_
    rw [setR0_fr, setR1_fr, honly.fr]
    exact (accepted_moves s).trans hmoves
  | decodeWaits _ _ _ f hf =>
    refine .inl ?_
    rw [hf, decodePush_scan]
    exact acceptedScanned_moves s
  | decodeSetup _ _ _ u hu hp _ r hr =>
    rw [decodePush_scan] at hu
    obtain ⟨f, hmoves, honly, _⟩ := decodeRest_moves ({ (decodePush s).1 with setupRan := true }, (setup u).2)
    rw [← hr] at honly
    have hsetup := (setup_moves u hp).trans ((setup_only u).params ▸ hmoves)
    rw [hu] at hsetup
    refine .inl ?_
    rw [setR0_fr, setR1_fr, honly.fr]
    exact (acceptedScanned_moves s).trans hsetup
  | decodeFails _ _ _ u hu hp =>
    rw [decodePush_scan] at hu
    have hsetup := setup_moves u hp
    refine .inl ?_
    have hfr : (setupFailed (setup u).2).fr = (setup u).2.fr := rfl
    rw [setR0_fr, hfr]
    exact (acceptedScanned_moves s).trans (hu ▸ hsetup)

end Sys2Proof.Machine

/-! SUPPORT. The slot tables under every command, and the invariant of the pipeline (10_state.md R34 to R37). -/

namespace Sys2Proof.Machine

/-! ### The slot tables -/

/-- How a command leaves the slot tables: as they were between setup and teardown, or made by a setup that succeeds,
or gone. With each, what becomes of the session. -/
inductive TablesEnd (s t : State) : Prop
  | kept (hse : t.se = s.se) (hpl : TablesKept s.pl t.pl)
  | mapped (u : State) (hu : u.pl = s.pl) (hp : u.params = s.params) (hd : s.pl.hdrDone = false)
      (hs : (setup u).1 = true) (hpl : TablesKept (setup u).2.pl t.pl) (hl : s.se.life = .opened) (hse : t.se = s.se)
  | emptied (pl : Pipeline) (hpl : t.pl = pl.emptied) (hl : t.fr.valid = true ∨ s.se.life ≠ .closed)

theorem ends_tables {s t : State} {i : Instr} (h : Ends s i t) : TablesEnd s t := by
  have hunit := ends_unitOnly h
  have hbit : BitOnly s t → TablesEnd s t := fun hb => .kept hb.se (hb.pl ▸ TablesKept.refl _)
  cases h with
  | badOperand | badState | failed | getpicEarly => exact .kept rfl (TablesKept.refl _)
  | frInit | frPush | frPushFull | extractNone | extractLong | extract | frStat =>
    exact .kept hunit.se (hunit.pl ▸ TablesKept.refl _)
  | bwInit | bwStat | bytes | bytesLost => exact hbit hunit
  | wrote i w hw | lost i w hw => rw [(writerOf_isWrite hw).2] at hunit; exact hbit hunit
  | copied i lead hi | copyAborted i lead hi =>
    rcases leadOf_copies hi with rfl | ⟨y, rfl⟩ <;> exact hbit hunit
  | rbsp i ws hi | rbspLost i ws hi => rcases fieldsOf_rbsp hi with rfl | rfl <;> exact hbit hunit
  | seOpen => exact .emptied s.pl rfl (.inl rfl)
  | seClose hl u => exact .emptied u.pl rfl (.inr hl)
  | getpic _ _ r hr =>
    have hstep : PicStep (((s.setR1 0).setR2 0).setR3 0) r.2 := by rw [hr]; exact getPicture_step _
    have hshapes : sameShapes s.pl r.2.pl := by rw [hr]; exact getPicture_shapes _
    exact .kept hstep.only.se (hstep.tables hshapes)
  | decodeSteady _ _ _ r hr =>
    obtain ⟨f, _, honly, hkept⟩ := decodeRest_moves (decodePush s)
    rw [← hr, decodePush_snd] at honly hkept
    exact .kept honly.se hkept
  | decodeWaits _ _ _ f =>
    refine .kept ?_ ?_ <;> rw [decodePush_snd]
    · exact (rfl : s.se = s.se)
    · exact TablesKept.refl s.pl
  | decodeSetup hl _ hd u hu hp hs r hr =>
    rw [decodePush_scan] at hu
    obtain ⟨f, _, honly, hkept⟩ := decodeRest_moves ({ (decodePush s).1 with setupRan := true }, (setup u).2)
    rw [← hr] at honly hkept
    have hse : r.2.se = s.se := honly.se.trans ((setup_only u).se.trans (by rw [hu]; rfl))
    exact .mapped u (by rw [hu]; rfl) (by rw [hu]; rfl) hd hs hkept hl hse
  | decodeFails hl _ _ u => exact .emptied (setup u).2.pl rfl (.inr (by rw [hl]; simp))

/-- Every slot is free, queued or done (R35). -/
theorem countOwn_total (xs : List Slot) :
    countOwn .free xs + countOwn .queued xs + countOwn .done xs = xs.length := by
  induction xs with
  | nil => rfl
  | cons sl xs ih =>
    simp only [countOwn, List.countP_cons, List.length_cons] at ih ⊢
    cases sl.own <;> simp <;> omega

/-- Settles O52: with setup done before and after, a command keeps the tables; setup starts before it is done, and a
teardown leaves it not done. -/
theorem slotTablesPersist : Obligations.SlotTablesPersist := by
  intro i s t hexec hs ht
  cases ends_tables (exec_ends hexec) with
  | kept _ hpl =>
    obtain ⟨hfmt, hin, hdout, hcout, hconv, _, hlen⟩ := hpl.plan
    exact ⟨hfmt, hconv, hin, hdout, hcout, fun P => ⟨hpl.shapes P, (countOwn_total _).trans (hlen P)⟩⟩
  | mapped _ _ _ hd => rw [hs] at hd; cases hd
  | emptied pl hpl => rw [hpl] at ht; cases ht

/-! ### The invariant of the pipeline -/

theorem emptied_ok (p : Config.Params) (pl : Pipeline) : pl.emptied.ok p := by
  refine ⟨⟨rfl, rfl, rfl⟩, ⟨fun _ => ⟨rfl, rfl, rfl, rfl⟩, fun h => by cases h⟩, ?_, ?_, ?_⟩ <;>
    exact fun sl hsl => by cases hsl

theorem TablesKept.ok {p : Config.Params} {a b : Pipeline} (h : TablesKept a b) (ha : a.ok p) : b.ok p := by
  obtain ⟨⟨sin, sdout, scout⟩, hphase, howners⟩ := ha
  obtain ⟨_, hin, hdout, hcout, hconv, hdone, hlen⟩ := h.plan
  refine ⟨⟨?_, ?_, ?_⟩, ?_, ?_⟩
  · exact (hlen .inp).trans (sin.trans hin.symm)
  · exact (hlen .dout).trans (sdout.trans hdout.symm)
  · exact (hlen .cout).trans (scout.trans hcout.symm)
  · unfold Pipeline.phaseOk
    rw [hin, hdout, hcout, hconv, hdone]
    exact hphase
  · rw [ownersOk_iff, hconv]
    exact h.good ((ownersOk_iff a).1 howners)

/-- A slot of an output pool that setup has queued is one a pool may hold (R36, R252). -/
theorem queuedNew.good {sl : Slot} (h : queuedNew sl) (conv : Bool) (P : PoolId) : slotGood conv P sl := by
  obtain ⟨hown, hholder, _, hok⟩ := h
  exact ⟨hok, fun _ => by rw [hown]; simp, fun _ _ => hholder⟩

theorem SetupDone.ok {s t : State} (h : SetupDone s t) (hs : s.pl.ok s.params) (hd : s.pl.hdrDone = false) :
    t.pl.ok s.params := by
  obtain ⟨⟨_, _, slen⟩, hphase, _⟩ := hs
  obtain ⟨_, _, hnCout, _⟩ := hphase.1 hd
  obtain ⟨j, m, c, _, _, hnDout, _⟩ := h.asked
  have hcout : t.pl.conv = false → t.pl.coutPool = [] := fun hc => by
    rw [h.coutLen.2 hc, ← List.length_eq_zero_iff, slen, hnCout]
  refine ⟨⟨h.inLen, h.doutLen, ?_⟩, ⟨fun hf => ?_, fun _ => ⟨h.nIn, ?_, ?_⟩⟩, (ownersOk_iff _).2 ?_⟩
  · cases hc : t.pl.conv
    · rw [hcout hc, h.nCout, hc, hnCout]; rfl
    · exact h.coutLen.1 hc
  · rw [h.done] at hf; cases hf
  · rw [hnDout]; exact Nat.le_add_left _ _
  · rw [h.nCout, hnCout]
  · intro P sl hsl
    cases P with
    | inp =>
      obtain ⟨x, rest, hpool, hown, _, hok, _, _, hrest⟩ := h.inZero
      rw [Pipeline.pool, hpool] at hsl
      rcases List.mem_cons.1 hsl with rfl | hsl
      · exact ⟨hok, fun _ => by rw [hown]; simp, by simp⟩
      · obtain ⟨hfree, _, _, hok'⟩ := hrest sl hsl
        exact ⟨hok', fun _ => by rw [hfree]; simp, by simp⟩
    | dout => exact (h.dout sl hsl).good _ _
    | cout =>
      cases hc : t.pl.conv
      · rw [Pipeline.pool, hcout hc] at hsl; cases hsl
      · exact (h.cout hc sl hsl).good _ _

/-- Every command keeps the invariant of the pipeline (R36, R37). -/
theorem ends_pl_ok {s t : State} {i : Instr} (h : Ends s i t) (hs : s.pl.ok s.params) : t.pl.ok s.params := by
  cases ends_tables h with
  | kept _ hpl => exact hpl.ok hs
  | mapped u hu hp hd hset hpl =>
    rw [← hu, ← hp] at hs
    rw [← hu] at hd
    obtain ⟨_, _, _, hconv⟩ := (show u.pl.phaseOk u.params from hs.2.1).1 hd
    have hdone := setup_true u hconv hset
    exact hp ▸ hpl.ok (hdone.ok hs hd)
  | emptied pl hpl => rw [hpl]; exact emptied_ok _ pl

/-- Every command keeps the lifecycle in step with the framer and the pipeline (R29, R258, R320). -/
theorem ends_lifeOk {s t : State} {i : Instr} (h : Ends s i t) (hf : framerSound s.params s.fr) (hs : s.lifeOk) :
    t.lifeOk := by
  have htables := ends_tables h
  refine ⟨fun hl => ?_, fun hl => ?_⟩
  · cases htables with
    | kept hse hpl => rw [hpl.hdrDone]; exact hs.1 (hse ▸ hl)
    | mapped _ _ _ _ _ _ hl' hse => rw [hse] at hl; exact absurd hl' hl
    | emptied pl hpl => rw [hpl]; rfl
  · have hopen : t.fr.valid = true ∨ s.se.life ≠ .closed := by
      cases htables with
      | kept hse => exact .inr (hse ▸ hl)
      | mapped _ _ _ _ _ _ hl' => exact .inr (by rw [hl']; simp)
      | emptied _ _ hl' => exact hl'
    rcases hopen with hvalid | hopen
    · exact hvalid
    · rcases ends_framer h with hmoves | ⟨_, md, g, hfr⟩ | ⟨_, hclosed, _⟩
      · exact (hmoves.keeps hf).2.valid.trans (hs.2 hopen)
      · rw [hfr]; rfl
      · exact absurd hclosed hl

end Sys2Proof.Machine

/-! SUPPORT. What every command does to the BitCursor and to MEM (10_state.md R25 to R28, 20_memory.md R60, R61), said
once for all commands, and the claims about the cursor, the ring counters and the frames of the units. -/

namespace Sys2Proof.Machine

/-! ### A string appended to the BitWriter buffer -/

/-- From `u` to `t` a bit string that fits was appended; the flag was set only by a command that ends in
`BitOverflow` (R28, R122, R160). -/
structure Written (u t : State) (bs : List Bool) : Prop where
  fits : u.bw.pos.toNat + bs.length ≤ 8 * u.bw.cap.toNat
  mem : t.mem = (appended u bs).mem
  bw : t.bw = (appended u bs).bw ∨ (t.bw = (appended u bs).setOvf.bw ∧ t.res.r0 = BitVec.ofInt 32 (-4))

theorem appended_nil (s : State) : appended s [] = s := by
  simp [appended, writeBits, State.withMem, State.withBw]

/-- Nothing appended, and perhaps the flag set. -/
theorem written_nil {s t : State} (hok : s.bw.ok) (hmem : t.mem = s.mem)
    (hbw : t.bw = s.bw ∨ (t.bw = s.setOvf.bw ∧ t.res.r0 = BitVec.ofInt 32 (-4))) : Written s t [] :=
  ⟨hok.2.2, by rw [appended_nil]; exact hmem, by rw [appended_nil]; exact hbw⟩

theorem Written.ok {u t : State} {bs : List Bool} (h : Written u t bs) (hok : u.bw.ok) : t.bw.ok := by
  have happ := appended_ok u bs hok h.fits
  rcases h.bw with hbw | ⟨hbw, _⟩ <;> rw [hbw]
  · exact happ
  · exact setOvf_ok _ happ

theorem Written.pos_le {u t : State} {bs : List Bool} (h : Written u t bs) (hok : u.bw.ok) :
    u.bw.pos.toNat ≤ t.bw.pos.toNat := by
  have hpos := appended_pos u bs hok h.fits
  have ht : t.bw.pos = (appended u bs).bw.pos := by
    rcases h.bw with hbw | ⟨hbw, _⟩
    · rw [hbw]
    · rw [hbw, setOvf_bw]
  rw [ht]; omega

theorem Written.ovf_stays {u t : State} {bs : List Bool} (h : Written u t bs) (hu : u.bw.ovf = true) :
    t.bw.ovf = true := by
  rcases h.bw with hbw | ⟨hbw, _⟩ <;> rw [hbw]
  · exact hu
  · rfl

theorem Written.ovf_sets {u t : State} {bs : List Bool} (h : Written u t bs) (hu : u.bw.ovf = false)
    (ht : t.bw.ovf = true) : t.res.r0 = BitVec.ofInt 32 (-4) := by
  rcases h.bw with hbw | ⟨_, hr⟩
  · rw [hbw, appended_bw_ovf, hu] at ht; cases ht
  · exact hr

theorem Written.wf {u t : State} {bs : List Bool} (h : Written u t bs) (hu : u.mem.wf memSize = true) :
    t.mem.wf memSize = true := by rw [h.mem]; exact wf_writeBits _ _ _ hu

/-- No byte outside the buffer changes (R61, R122). -/
theorem Written.memByte_outside {u t : State} {bs : List Bool} (h : Written u t bs) (hok : u.bw.ok) {a : Nat}
    (ha : a < u.bw.base.toNat ∨ u.bw.base.toNat + u.bw.cap.toNat ≤ a) : memByte t.mem a = memByte u.mem a := by
  obtain ⟨_, hkeep⟩ := appended_wrote u bs hok h.fits
  rw [h.mem]
  refine BitVec.eq_of_getLsbD_eq fun j hj => hkeep a j hj fun k hk hbit => ?_
  have hfits := h.fits
  have haddr : a = u.bw.base.toNat + (u.bw.pos.toNat + k) / 8 :=
    hbit.1.trans (bitAddr_eq (cap := u.bw.cap.toNat) (by omega) hok.1)
  omega

/-! ### Bytes stored into a range of MEM -/

/-- `m'` is `m` with at most `len` bytes stored from address `a` upward, inside the address space. -/
def storedWithin (a : Word) (len : Nat) (m m' : Memory) : Prop :=
  ∃ bs : List Byte, bs.length ≤ len ∧ a.toNat + bs.length ≤ memSize ∧ m' = m.putBytes a.toNat bs

theorem storedWithin_refl (a : Word) (len : Nat) (m : Memory) : storedWithin a len m m :=
  ⟨[], Nat.zero_le _, a.isLt.le, rfl⟩

theorem storedWithin_wf {a : Word} {len : Nat} {m m' : Memory} (h : storedWithin a len m m')
    (hm : m.wf memSize = true) : m'.wf memSize = true := by
  obtain ⟨bs, _, hspace, rfl⟩ := h
  exact wf_putBytes _ _ hspace hm

theorem storedWithin_memByte {a : Word} {len : Nat} {m m' : Memory} (h : storedWithin a len m m') {k : Nat}
    (hk : k < a.toNat ∨ a.toNat + len ≤ k) : memByte m' k = memByte m k := by
  obtain ⟨bs, hlen, _, rfl⟩ := h
  rw [memByte_putBytes, if_neg (by omega)]

/-! ### What every command does to the BitCursor and to MEM -/

/-- How a command leaves the BitCursor and MEM: both alone, the buffer bound, a string appended, a parameter set
written from the first bit, a copy delivered, a unit delivered. -/
inductive BitsEnd (s : State) (i : Instr) (t : State) : Prop
  | quiet (hbw : t.bw = s.bw) (hmem : t.mem = s.mem)
  | bound (hi : i = .bwInit) (hbw : t.bw = ⟨s.args.a0, s.args.a1, 0, false⟩) (hok : t.bw.ok) (hmem : t.mem = s.mem)
  | appended (hi : isWrite i = true) (hw : s.bw.ok → ∃ bs, Written s t bs)
  | rbsp (hi : i = .nsSps ∨ i = .nsPps) (hw : s.bw.ok → ∃ bs, Written s.bwRestart t bs)
  | copied (hi : i = .nsEscape ∨ ∃ y, i = .nsNal y) (hbw : t.bw = s.bw)
      (hmem : storedWithin s.args.a2 s.args.a3.toNat s.mem t.mem)
  | extracted (hi : i = .frExtract) (hbw : t.bw = s.bw) (hmem : storedWithin s.args.a0 s.args.a1.toNat s.mem t.mem)

theorem copy_stores {lead : List Byte} {s t : State} (h : escapeInto lead s = .next t) :
    t.bw = s.bw ∧ storedWithin s.args.a2 s.args.a3.toNat s.mem t.mem := by
  have hspace : ∀ {x z : Bool}, (x || rangeWraps s.args.a2 s.args.a3.toNat || z) = false →
      s.args.a2.toNat + s.args.a3.toNat ≤ memSize := fun hb => by
    simp only [Bool.or_eq_false_iff] at hb
    obtain ⟨⟨_, hdest⟩, _⟩ := hb
    exact rangeWraps_false.1 hdest
  rcases escapeInto_cases lead s with ⟨_, e⟩ | ⟨hb, _, e⟩ | ⟨hb, hlen, e⟩ <;> rw [e] at h <;> rw [finish_next h]
  · exact ⟨rfl, storedWithin_refl _ _ _⟩
  · exact ⟨rfl, _, by simp, by simpa using hspace hb, rfl⟩
  · exact ⟨rfl, _, hlen, (Nat.add_le_add_left hlen _).trans (hspace hb), rfl⟩

theorem extract_stores {s t : State} (h : execFrExtract s = .next t) :
    t.bw = s.bw ∧ storedWithin s.args.a0 s.args.a1.toNat s.mem t.mem := by
  have hstay : ∀ {u : State} {st : Status}, u.finish st = .next t → u.bw = s.bw → u.mem = s.mem →
      t.bw = s.bw ∧ storedWithin s.args.a0 s.args.a1.toNat s.mem t.mem := fun hu hbw hmem => by
    rw [finish_next hu, setR0_bw, setR0_mem, hmem]
    exact ⟨hbw, storedWithin_refl _ _ _⟩
  rcases execFrExtract_cases s with ⟨_, e⟩ | ⟨_, _, ⟨_, e⟩ | ⟨hspace, e⟩⟩ <;> rw [e] at h
  · exact hstay h rfl rfl
  · exact hstay h rfl rfl
  · rcases extractScanned_cases (frScan s.params s.fr) s with ⟨_, e⟩ | ⟨_, _, e⟩ | ⟨_, hlen, e⟩ <;> rw [e] at h
    · exact hstay h rfl rfl
    · exact hstay h rfl rfl
    · rw [finish_next h]
      have hbytes : ((frScan s.params s.fr).unitBytes s.params).length ≤ s.args.a1.toNat := by
        rw [unitBytes_length]; exact hlen
      exact ⟨rfl, _, hbytes, (Nat.add_le_add_left hbytes _).trans hspace, rfl⟩

/-- A parameter set that is written whole, or up to the first field that does not fit (R160). -/
theorem rbsp_written (ws : List Writer) {s t : State} (hok : s.bw.ok)
    (hmem : t.mem = (putWriters ws s.bwRestart).2.mem) (hbw : t.bw = (putWriters ws s.bwRestart).2.bw)
    (hr : (putWriters ws s.bwRestart).1 = false → t.res.r0 = BitVec.ofInt 32 (-4)) :
    ∃ bs, Written s.bwRestart t bs := by
  have hok' := bwRestart_ok s hok
  by_cases hf : s.bwRestart.bw.pos.toNat + (writerBits s.bwRestart.bw.pos.toNat ws).length ≤
      8 * s.bwRestart.bw.cap.toNat
  · rw [putWriters_fit ws _ hok' hf] at hmem hbw
    exact ⟨_, hf, hmem, .inl hbw⟩
  · obtain ⟨ws1, _, _, _, hfits, _, e⟩ := putWriters_stop ws _ hok' (Nat.lt_of_not_le hf)
    rw [e] at hmem hbw hr
    exact ⟨_, hfits, hmem, .inr ⟨hbw, hr rfl⟩⟩

theorem exec_bits {s t : State} {i : Instr} (h : exec i s = .next t) : BitsEnd s i t := by
  have hunit := ends_unitOnly (exec_ends h)
  cases exec_ends h with
  | badOperand | badState | failed | bwStat | frInit | frPush | frPushFull | extractNone | extractLong | frStat
  | seOpen | getpicEarly => exact .quiet rfl rfl
  | bwInit hcap hspace => exact .bound rfl rfl ⟨hspace, hcap, by simp⟩ rfl
  | wrote i w hw hf => exact .appended (writerOf_isWrite hw).1 fun _ => ⟨_, hf, rfl, .inl rfl⟩
  | lost i w hw =>
    exact .appended (writerOf_isWrite hw).1 fun hok => ⟨[], written_nil hok rfl (.inr ⟨rfl, rfl⟩)⟩
  | bytes _ hf =>
    refine .appended rfl fun hok => ?_
    have e := putByteSeq_fit (memRead s.mem s.args.a0.toNat s.args.a1.toNat) s hok (by rw [memRead_length]; exact hf)
    rw [e]
    refine ⟨_, ?_, rfl, .inl rfl⟩
    simpa [List.length_flatMap, byteBits, Nat.mul_comm] using hf
  | bytesLost => exact .appended rfl fun hok => ⟨[], written_nil hok rfl (.inr ⟨rfl, rfl⟩)⟩
  | copied i lead hi | copyAborted i lead hi =>
    rcases leadOf_copies hi with rfl | ⟨y, rfl⟩
    · exact .copied (.inl rfl) (copy_stores h).1 (copy_stores h).2
    · exact .copied (.inr ⟨y, rfl⟩) (copy_stores h).1 (copy_stores h).2
  | rbsp i ws hi hf =>
    exact .rbsp (fieldsOf_rbsp hi) fun hok => rbsp_written ws hok rfl rfl fun h => by rw [hf] at h; cases h
  | rbspLost i ws hi => exact .rbsp (fieldsOf_rbsp hi) fun hok => rbsp_written ws hok rfl rfl fun _ => rfl
  | extract => exact .extracted rfl (extract_stores h).1 (extract_stores h).2
  | seClose | getpic | decodeSteady | decodeWaits | decodeSetup | decodeFails => exact .quiet hunit.bw hunit.mem

/-! ### The cursor -/

/-- Settles O19, by the ways in which a command can leave the cursor. -/
theorem cursorMoves : Obligations.CursorMoves := by
  intro i s t hok hexec
  have hsame : t.bw = s.bw → t.bw.ok ∧
      (i ≠ .bwInit → i ≠ .nsSps → i ≠ .nsPps →
        s.bw.pos.toNat ≤ t.bw.pos.toNat ∧ (s.bw.ovf = true → t.bw.ovf = true)) ∧
      (s.bw.ovf = false → t.bw.ovf = true → t.res.r0 = BitVec.ofInt 32 (-4)) := by
    intro hbw
    rw [hbw]
    exact ⟨hok, fun _ _ _ => ⟨le_refl _, id⟩, fun hf ht => by rw [hf] at ht; cases ht⟩
  cases exec_bits hexec with
  | quiet hbw => exact hsame hbw
  | copied _ hbw => exact hsame hbw
  | extracted _ hbw => exact hsame hbw
  | bound hi hbw hok' =>
    exact ⟨hok', fun hn => absurd hi hn, fun _ ht => by rw [hbw] at ht; cases ht⟩
  | appended _ hw =>
    obtain ⟨bs, hw⟩ := hw hok
    exact ⟨hw.ok hok, fun _ _ _ => ⟨hw.pos_le hok, hw.ovf_stays⟩, hw.ovf_sets⟩
  | rbsp hi hw =>
    obtain ⟨bs, hw⟩ := hw hok
    exact ⟨hw.ok (bwRestart_ok s hok), fun _ h1 h2 => (hi.elim h1 h2).elim, fun _ => hw.ovf_sets rfl⟩

/-! ### The ring counters -/

/-- Every command keeps the framer sound (R30, R32, R60). -/
theorem ends_framerSound {s t : State} {i : Instr} (h : Ends s i t) (hf : framerSound s.params s.fr) :
    framerSound s.params t.fr := by
  rcases ends_framer h with hmoves | ⟨_, md, g, hfr⟩ | ⟨_, _, hfr⟩
  · exact (hmoves.keeps hf).1
  · rw [hfr]; exact frInit_framerSound md g hf
  · rw [hfr]; exact hf

/-- The order of the byte counters and the occupancy, from the framer's invariant (R30). -/
theorem framerSound_counters {p : Config.Params} {f : Framer} (h : framerSound p f) :
    f.tail ≤ f.read ∧ f.read ≤ f.head ∧ f.head - f.tail ≤ p.ringCap := by
  obtain ⟨⟨⟨hread, hocc, hheld, _⟩, _⟩, _⟩ := h
  exact ⟨by omega, hread, hocc⟩

theorem State.Inv.framerSound {s : State} (h : s.Inv) : Machine.framerSound s.params s.fr := by
  obtain ⟨⟨_, hring⟩, _, hfr, _⟩ := h
  exact ⟨hfr, hring⟩

/-- Settles O38: a push, a scan and a take only raise the counters; closing the session leaves them. -/
theorem countersMonotone : Obligations.CountersMonotone := by
  intro i s t hinv hexec
  have hends := exec_ends hexec
  refine ⟨framerSound_counters (ends_framerSound hends hinv.framerSound), fun hnInit hnOpen => ?_⟩
  rcases ends_framer hends with hmoves | ⟨⟨m, g, hi⟩ | hi, _⟩ | ⟨_, _, hfr⟩
  · have hadv := (hmoves.keeps hinv.framerSound).2
    exact ⟨hadv.head, hadv.tail, hadv.read⟩
  · exact absurd hi (hnInit m g)
  · exact absurd hi hnOpen
  · rw [hfr]; exact ⟨le_refl _, le_refl _, le_refl _⟩

end Sys2Proof.Machine

/-! SUPPORT. The whole machine: what the commands of each unit leave alone (20_memory.md R61, R72), the host's writes
(00_scope.md R10, 20_memory.md R73), and the invariant under every step. -/

namespace Sys2Proof.Machine

/-! ### Frames of MEM and of the buffer -/

/-- Only `BW_INIT` binds another buffer (R124). -/
theorem ends_buffer {s t : State} {i : Instr} (h : Ends s i t) (hi : i ≠ .bwInit) :
    t.bw.base = s.bw.base ∧ t.bw.cap = s.bw.cap := by
  have hunit := ends_unitOnly h
  have hsame : t.bw = s.bw → t.bw.base = s.bw.base ∧ t.bw.cap = s.bw.cap := fun hbw =>
    ⟨congrArg BitCursor.base hbw, congrArg BitCursor.cap hbw⟩
  cases h with
  | bwInit => exact absurd rfl hi
  | bytes => exact (putByteSeq_bwOnly _ s).2
  | rbsp _ ws | rbspLost _ ws => exact (putWriters_bwOnly ws s.bwRestart).2
  | badOperand | badState | failed | wrote | lost | bytesLost | bwStat | copied | copyAborted | frInit | frPush
  | frPushFull | extractNone | extractLong | extract | frStat => exact ⟨rfl, rfl⟩
  | seOpen | seClose | getpicEarly | getpic | decodeSteady | decodeWaits | decodeSetup | decodeFails =>
    exact hsame hunit.bw

theorem BitsEnd.mem_same {s t : State} {i : Instr} (h : BitsEnd s i t)
    (hwrite : ¬ (isWrite i = true ∨ i = .nsSps ∨ i = .nsPps)) (hcopy : ¬ (i = .nsEscape ∨ ∃ y, i = .nsNal y))
    (hextract : i ≠ .frExtract) : t.mem = s.mem := by
  cases h with
  | quiet _ hmem => exact hmem
  | bound _ _ _ hmem => exact hmem
  | appended hi => exact absurd (.inl hi) hwrite
  | rbsp hi => exact absurd (.inr hi) hwrite
  | copied hi => exact absurd hi hcopy
  | extracted hi => exact absurd hi hextract

/-- A byte of MEM that lies outside the range a command may write does not change (R61). -/
theorem BitsEnd.memByte_outside {s t : State} {i : Instr} (h : BitsEnd s i t) {a : Nat}
    (hwrite : isWrite i = true ∨ i = .nsSps ∨ i = .nsPps →
      s.bw.ok ∧ (a < s.bw.base.toNat ∨ s.bw.base.toNat + s.bw.cap.toNat ≤ a))
    (hcopy : i = .nsEscape ∨ (∃ y, i = .nsNal y) →
      a < s.args.a2.toNat ∨ s.args.a2.toNat + s.args.a3.toNat ≤ a)
    (hextract : i = .frExtract → a < s.args.a0.toNat ∨ s.args.a0.toNat + s.args.a1.toNat ≤ a) :
    memByte t.mem a = memByte s.mem a := by
  cases h with
  | quiet _ hmem => rw [hmem]
  | bound _ _ _ hmem => rw [hmem]
  | appended hi hw =>
    obtain ⟨hok, ha⟩ := hwrite (.inl hi)
    obtain ⟨bs, hw⟩ := hw hok
    exact hw.memByte_outside hok ha
  | rbsp hi hw =>
    obtain ⟨hok, ha⟩ := hwrite (.inr hi)
    obtain ⟨bs, hw⟩ := hw hok
    exact hw.memByte_outside (bwRestart_ok s hok) ha
  | copied hi _ hmem => exact storedWithin_memByte hmem (hcopy hi)
  | extracted hi _ hmem => exact storedWithin_memByte hmem (hextract hi)

/-- Settles O57: the frame of the command's unit, and of MEM the range the command may write. -/
theorem unitFrames : Obligations.UnitFrames := by
  intro i s t hexec
  have hends := exec_ends hexec
  have hunit := ends_unitOnly hends
  have hbits := exec_bits hexec
  obtain ⟨hargs, hparams, hport⟩ := unitOnly_common hunit
  refine ⟨hargs, hparams, hport, fun hu => ?bits, fun hu => ?framer, fun hu => ?session, fun hi => ?noMem,
    fun hi => ?copies, fun hi a ha => ?extracts, fun hi hok a ha => ?writes⟩
  case bits =>
    have hb : BitOnly s t := by rcases hu with hu | hu <;> rw [hu] at hunit <;> exact hunit
    exact ⟨hb.fr, hb.pl, hb.se, hb.events, hb.dev, ends_buffer hends⟩
  case framer =>
    rw [hu] at hunit
    exact ⟨hunit.bw, hunit.pl, hunit.se, hunit.events, hunit.dev, hunit.draws⟩
  case session =>
    rw [hu] at hunit
    exact ⟨hunit.mem, hunit.bw⟩
  case noMem =>
    rcases hi with rfl | rfl | ⟨m, g, rfl⟩ | rfl | rfl <;>
      exact hbits.mem_same (by simp [isWrite]) (by simp) (by simp)
  case copies =>
    have hbw : t.bw = s.bw := by
      cases hbits with
      | quiet hbw => exact hbw
      | copied _ hbw => exact hbw
      | extracted _ hbw => exact hbw
      | bound hi' => rcases hi with rfl | ⟨y, rfl⟩ <;> cases hi'
      | appended hi' => rcases hi with rfl | ⟨y, rfl⟩ <;> cases hi'
      | rbsp hi' => rcases hi with rfl | ⟨y, rfl⟩ <;> simp at hi'
    refine ⟨hbw, fun a ha => ?_⟩
    rcases hi with rfl | ⟨y, rfl⟩ <;> exact hbits.memByte_outside (by simp [isWrite]) (fun _ => ha) (by simp)
  case extracts =>
    subst hi
    exact hbits.memByte_outside (by simp [isWrite]) (by simp) fun _ => ha
  case writes =>
    refine hbits.memByte_outside (fun _ => ⟨hok, ha⟩) (fun hi' => ?_) (fun hi' => ?_)
    · rcases hi' with rfl | ⟨y, rfl⟩ <;> simp [isWrite] at hi
    · subst hi'; simp [isWrite] at hi

/-! ### The host's writes -/

/-- The host's write of an argument register, the eight registers as a list (R20). -/
theorem set_toList (a : ArgRegs) (i : Fin 8) (v : Word) :
    [(a.set i v).a0, (a.set i v).a1, (a.set i v).a2, (a.set i v).a3, (a.set i v).a4, (a.set i v).a5, (a.set i v).a6,
      (a.set i v).a7] = [a.a0, a.a1, a.a2, a.a3, a.a4, a.a5, a.a6, a.a7].set i.val v := by
  fin_cases i <;> rfl

/-- Settles O6: the input leaves the port, and the register or the byte is written. -/
theorem hostWrites : Obligations.HostWrites := by
  refine ⟨fun s i v rest hp => ?register, fun s addr b rest hp => ?byte⟩
  case register => exact ⟨s.args.set i v, step_port_cons hp, set_toList s.args i v⟩
  case byte => exact ⟨s.mem.put addr.toNat b, step_port_cons hp, memByte_put_same _ _ _, fun k hk =>
      memByte_put_ne _ _ _ _ hk⟩

/-! ### The invariant -/

theorem BitsEnd.ok {s t : State} {i : Instr} (h : BitsEnd s i t) (hok : s.bw.ok) : t.bw.ok := by
  cases h with
  | quiet hbw => rw [hbw]; exact hok
  | copied _ hbw => rw [hbw]; exact hok
  | extracted _ hbw => rw [hbw]; exact hok
  | bound _ _ hok' => exact hok'
  | appended _ hw => exact (hw hok).elim fun _ hw => hw.ok hok
  | rbsp _ hw => exact (hw hok).elim fun _ hw => hw.ok (bwRestart_ok s hok)

theorem BitsEnd.wf {s t : State} {i : Instr} (h : BitsEnd s i t) (hok : s.bw.ok) (hm : s.mem.wf memSize = true) :
    t.mem.wf memSize = true := by
  cases h with
  | quiet _ hmem => rw [hmem]; exact hm
  | bound _ _ _ hmem => rw [hmem]; exact hm
  | appended _ hw => exact (hw hok).elim fun _ hw => hw.wf hm
  | rbsp _ hw => exact (hw hok).elim fun _ hw => hw.wf hm
  | copied _ _ hmem => exact storedWithin_wf hmem hm
  | extracted _ _ hmem => exact storedWithin_wf hmem hm

/-- Every command keeps the invariant. -/
theorem exec_inv {s t : State} {i : Instr} (h : exec i s = .next t) (hs : s.Inv) : t.Inv := by
  have hends := exec_ends h
  have hbits := exec_bits h
  have hsound := hs.framerSound
  obtain ⟨⟨hmem, _⟩, hbw, _, hpl, hlife⟩ := hs
  obtain ⟨hfr, hring⟩ := ends_framerSound hends hsound
  obtain ⟨_, hparams, _⟩ := unitOnly_common (ends_unitOnly hends)
  unfold State.Inv State.memOk
  rw [hparams]
  exact ⟨⟨hbits.wf hbw hmem, hring⟩, hbits.ok hbw, hfr, ends_pl_ok hends hpl, ends_lifeOk hends hsound hlife⟩

/-- Reset establishes the invariant; it leaves MEM as it was (R340). -/
theorem hardReset_inv {s : State} (hs : s.Inv) : s.hardReset.Inv := by
  have hbw : State.reset.bw.ok := ⟨by decide, by decide, by decide⟩
  have hfr : State.reset.fr.ok s.params.ringCap := frInit_ok _ .h264 false State.reset.fr
  obtain ⟨⟨hmem, _⟩, _⟩ := hs
  exact ⟨⟨hmem, rfl⟩, hbw, hfr, emptied_ok _ State.reset.pl, fun _ => rfl, fun h => absurd rfl h⟩

theorem runWord_inv {w : Word} {s t : State} (h : runWord w s = .next t) (hs : s.Inv) : t.Inv := by
  unfold runWord at h
  cases hd : decode w with
  | ok i => rw [hd] at h; exact exec_inv h hs
  | error e => rw [hd] at h; rw [finish_next h]; exact hs

theorem runInput_inv {x : HostInput} {s t : State} (h : runInput x s = .next t) (hs : s.Inv) : t.Inv := by
  cases x with
  | setArg i v => cases h; exact hs
  | poke a b =>
    cases h
    obtain ⟨⟨hmem, hring⟩, hrest⟩ := hs
    exact ⟨⟨wf_put _ _ a.isLt hmem, hring⟩, hrest⟩
  | command w => exact runWord_inv h hs
  | reset => cases h; exact hardReset_inv hs

/-- Settles O56: the block is idle, or does one input of the host, and each keeps the invariant. -/
theorem stepKeepsSound : Obligations.StepKeepsSound := by
  intro s t hs hstep
  cases hp : s.port with
  | nil => rw [step_port_nil hp] at hstep; cases hstep; exact hs
  | cons x rest =>
    rw [step_port_cons hp] at hstep
    have hrest : (s.withPort rest).Inv := hs
    exact runInput_inv hstep hrest

end Sys2Proof.Machine

/-! SUPPORT. `SE_DECODE` with the head cluster pending and a setup that succeeds (43_pipeline.md R256, R272): what is
left when no other unit is pending and the poll runs into its timeout. -/

namespace Sys2Proof.Machine

/-! ### SE_DECODE around a setup that succeeds -/

/-- `SE_DECODE` goes on with D3 and D4 after a setup that succeeds (R272 D2). -/
theorem execSeDecode_setup {s : State} (hl : s.se.life = .opened) (hlist : s.listLegal) (hd : s.pl.hdrDone = false)
    (hp : s.acceptedScanned.pending = true) (hs : (setup (s.withFr s.acceptedScanned)).1 = true) :
    exec .seDecode s = decodeReport (decodePoll (decodeSubmit
      (noteOf s.noRoom true false false false, (setup (s.withFr s.acceptedScanned)).2))) := by
  rcases execSeDecode_cases s with ⟨hl', _⟩ | ⟨hl', _⟩ | ⟨_, hlist', _⟩ | ⟨_, _, hsteps⟩
  · rw [hl] at hl'; cases hl'
  · rw [hl] at hl'; cases hl'
  · exact absurd hlist hlist'
  · simp only [decodePush_scan, decodePush_pl, withFr_fr] at hsteps
    rcases hsteps with ⟨hd', _⟩ | ⟨_, hp', _⟩ | ⟨_, _, _, e⟩ | ⟨_, _, hs', _⟩
    · rw [hd] at hd'; cases hd'
    · rw [hp] at hp'; cases hp'
    · refine Eq.trans e ?_
      rw [decodePush_eq]; rfl
    · rw [hs] at hs'; cases hs'

/-- D3 with no unit pending only scans (R272). -/
theorem decodeSubmit_idle {r : StepNote × State} (h : (frScan r.2.params r.2.fr).pending = false) :
    decodeSubmit r = (r.1, r.2.withFr (frScan r.2.params r.2.fr)) := if_neg (by simp [h])

/-- D4 with an input slot queued and the poll answered `TIMEOUT` (R272, R274). -/
theorem decodePoll_timeout {r : StepNote × State} (hq : ∃ sl ∈ r.2.pl.inPool, sl.own = .queued)
    (hn : r.2.dev.next = .timeout) :
    decodePoll r = (r.1, r.2.withDev (r.2.dev.issue (.poll (pollMs r.2.pl.inPool)))) := by
  have hany : (r.2.pl.inPool.any fun sl => decide (sl.own = .queued)) = true := by simpa using hq
  unfold decodePoll
  simp only [hany, if_true, ask_fst, ask_snd, hn, readPoll, pollTimeout_eq]

theorem pollMs_free {xs : List Slot} (h : ∃ sl ∈ xs, sl.own = .free) : pollMs xs = 0 := if_pos h

/-! ### What setup leaves, as a state -/

theorem SetupOnly.state_eq {s t : State} (h : SetupOnly s t) :
    t = { s with fr := t.fr, pl := t.pl, dev := t.dev, draws := t.draws } := by
  obtain ⟨hparams, hargs, hres, hmem, hbw, _, hse, hevents, hport⟩ := h
  rw [← hparams, ← hargs, ← hres, ← hmem, ← hbw, ← hse, ← hevents, ← hport]

/-- The input slots after setup: slot 0 queued with the head cluster, the others free and empty (R256). -/
theorem SetupDone.input_slot {s t : State} (h : SetupDone s t) {i : Nat} {sl : Slot}
    (hi : t.pl.inPool[i]? = some sl) :
    sl.own = (if i = 0 then .queued else .free) ∧ sl.used = (if i = 0 then BitVec.ofNat 32 s.fr.unitLen else 0) ∧
      (i = 0 → ∀ b, b < s.fr.unitLen →
        slotByte sl 0 b = ringByte s.params.ringCap s.fr.ring (s.fr.unitStart + b)) := by
  obtain ⟨x, rest, hpool, hown, hused, _, _, hbytes, hrest⟩ := h.inZero
  rw [hpool] at hi
  cases i with
  | zero =>
    cases hi
    exact ⟨hown, hused, fun _ b hb => (hbytes b hb).trans (unitBytes_getD _ _ _ hb)⟩
  | succ k =>
    obtain ⟨hfree, _, hempty, _⟩ := hrest sl (List.mem_of_getElem? hi)
    exact ⟨hfree, hempty, fun h0 => absurd h0 (Nat.succ_ne_zero k)⟩

/-- With two or three input slots one of them stays free after setup (R15, R256). -/
theorem SetupDone.some_free {s t : State} (h : SetupDone s t) : ∃ sl ∈ t.pl.inPool, sl.own = .free := by
  have hlen : 1 < t.pl.inPool.length := by
    rw [h.inLen, h.nIn]; unfold Config.Params.nIn; split <;> omega
  have hget := List.getElem?_eq_getElem hlen
  exact ⟨_, List.getElem_mem hlen, (h.input_slot hget).1⟩

theorem SetupDone.some_queued {s t : State} (h : SetupDone s t) : ∃ sl ∈ t.pl.inPool, sl.own = .queued := by
  obtain ⟨x, rest, hpool, hown, _⟩ := h.inZero
  exact ⟨x, by simp [hpool], hown⟩

/-- The pipeline record after setup, `c` saying whether the native layout is consumable (R256). -/
theorem SetupDone.pl_eq {s t : State} (h : SetupDone s t) {fmt : Fmt} {n : Nat} {c : Bool} (hfmt : t.pl.fmt = fmt)
    (hn : t.pl.nDout = n) (hc : t.pl.conv = !c) :
    t.pl = ⟨fmt, s.params.nIn, n, if c then s.pl.nCout else s.params.nCout, !c, true, t.pl.inPool, t.pl.doutPool,
      if c then s.pl.coutPool else t.pl.coutPool⟩ := by
  have hnCout := h.nCout
  have hcout := h.coutLen.2
  rw [hc] at hnCout hcout
  show Pipeline.mk _ _ _ _ _ _ _ _ _ = _
  rw [Pipeline.mk.injEq]
  refine ⟨hfmt, h.nIn, hn, ?_, hc, h.done, rfl, rfl, ?_⟩
  · rw [hnCout]; cases c <;> rfl
  · cases c
    · rfl
    · exact hcout rfl

/-- `SE_DECODE` after a setup that succeeds, with no other unit pending and the poll answered `TIMEOUT`: the scan and
the poll change nothing but the framer and the port (R272). -/
theorem exec_seDecode_setup_idle {s : State} (hl : s.se.life = .opened) (hlist : s.listLegal)
    (hd : s.pl.hdrDone = false) (hp : s.acceptedScanned.pending = true)
    (hidle : (frScan s.params s.acceptedScanned.take).pending = false)
    (hs : (setup (s.withFr s.acceptedScanned)).1 = true)
    (hdone : SetupDone (s.withFr s.acceptedScanned) (setup (s.withFr s.acceptedScanned)).2) {d : DevPort}
    {rest : List DevAnswer} (hdev : (setup (s.withFr s.acceptedScanned)).2.dev = d)
    (hscript : d.script = .timeout :: rest) :
    exec .seDecode s = .next (State.decodeEnds
      { s with
        fr := frScan s.params s.acceptedScanned.take
        pl := (setup (s.withFr s.acceptedScanned)).2.pl
        dev := d.after [(.poll 0, .timeout)] rest
        draws := (setup (s.withFr s.acceptedScanned)).2.draws } s.noRoom true false false false) := by
  have honly := setup_only (s.withFr s.acceptedScanned)
  rw [execSeDecode_setup hl hlist hd hp hs]
  generalize (setup (s.withFr s.acceptedScanned)).2 = u at hdone hdev honly ⊢
  subst hdev
  have hparams : u.params = s.params := honly.params
  have hfr : u.fr = s.acceptedScanned.take := hdone.fr
  rw [decodeSubmit_idle (by rw [hparams, hfr]; exact hidle), hparams, hfr,
    decodePoll_timeout hdone.some_queued (next_of_script hscript)]
  have hpoll : pollMs (u.withFr (frScan s.params s.acceptedScanned.take)).pl.inPool = 0 := pollMs_free hdone.some_free
  rw [hpoll, decodeReport_noteOf, withFr_dev, issue_of_script hscript, honly.state_eq]
  rfl

/-! ### The statement -/

/-- Settles O44: the script answers every transaction of setup, the scan finds no further unit, and the poll with
time 0 (an input slot is free) takes the last answer. -/
theorem setupCompletes : Obligations.SetupCompletes := by
  intro s ps p0 k fmt m c rest hk hl hlist hd hconv hp hidle hps h0 hu f txns n hscript
  set w := s.withFr f with hw
  have hscripted := setup_scripted ps hps p0 k fmt m c w hconv hk h0 hu
  obtain ⟨hs, hdev, hin, hfmt, hnDout, hconv', hdout, hcout⟩ := hscripted.goes (.timeout :: rest) hscript
  have hdone := setup_true w hconv hs
  have hexec := exec_seDecode_setup_idle hl hlist hd hp hidle hs hdone hdev rfl
  rw [after_after] at hexec
  generalize (setup w).2 = u at *
  have hnCout : c = false → u.pl.coutPool.length = s.params.nCout := fun hc => by
    have hcv : u.pl.conv = true := by rw [hconv', hc]; rfl
    rw [hdone.coutLen.1 hcv, hdone.nCout, hcv]; rfl
  refine ⟨u.pl.inPool, u.pl.doutPool, if c then List.replicate s.params.nCout (mappedSlot [] 0) else u.pl.coutPool,
    u.draws, ?next, hdone.inLen.trans hdone.nIn, hdone.doutLen.trans hnDout, ?length, ?input, ?output, ?converted⟩
  case next =>
    rw [hexec, Host.Outcome.next.injEq, State.decodeEnds, State.mk.injEq]
    refine ⟨rfl, rfl, ?_, rfl, rfl, rfl, (hdone.pl_eq hfmt hnDout hconv').trans ?_, rfl, rfl, rfl, rfl, rfl⟩
    · cases s.noRoom <;> rfl
    · cases c <;> rfl
  case length =>
    cases c
    · exact hnCout rfl
    · exact List.length_replicate
  case input => exact fun i sl hi => ⟨mapped_get hin hi, hdone.input_slot hi⟩
  case output =>
    intro i sl hi
    obtain ⟨hown, hholder, _⟩ := hdone.dout sl (List.mem_of_getElem? hi)
    exact ⟨mapped_get hdout hi, hown, hholder⟩
  case converted =>
    rintro rfl i sl hi
    exact ⟨mapped_get (hcout rfl) hi, (hdone.cout hconv' sl (List.mem_of_getElem? hi)).1⟩

end Sys2Proof.Machine

/-! SUPPORT. The ring as a window on the stream (20_memory.md R62, 42_framer.md R192, R194): which counts it holds,
and what a push, a scan and a take do to their bytes. -/

namespace Sys2Proof.Machine

/-! ### The pending unit in the ring -/

/-- The pending unit lies between the released bytes and the bytes pushed (R32). -/
theorem Framer.ok.pending_inside {cap : Nat} {f : Framer} (hok : f.ok cap) (hp : f.pending = true) :
    f.tail ≤ f.unitStart ∧ f.unitStart ≤ f.pendEnd ∧ f.pendEnd ≤ f.head := by
  obtain ⟨⟨hread, _, _, _⟩, ⟨hknown, _, hpending⟩, _⟩ := hok
  obtain ⟨hlen, hend⟩ := hpending hp
  exact ⟨hknown (.inr (.inr hp)), hlen, by omega⟩

theorem ringBytes_eq_map (cap : Nat) (r : Memory) (c n : Nat) :
    ringBytes cap r c n = (List.range n).map fun k => ringByte cap r (c + k) :=
  List.ext_getElem (by simp) fun i hi _ => by simp [ringBytes_getElem cap r c n i hi]

/-! ### A ring that carries a stream -/

section Carries

variable {cap : Nat} {S : Nat → Byte} {f : Framer}

/-- A push of the stream's next bytes: the old bytes stay, the new ones stand from count `head` upward (R192). -/
theorem Framer.carries.push (h : f.carries cap S) {bs : List Byte} (hroom : f.hasRoom cap bs.length = true)
    (hbs : ∀ k, k < bs.length → bs.getD k 0 = S (f.head + k)) : (frPush cap bs f).carries cap S := by
  intro c (htail : f.tail ≤ c) (hhead : c < f.head + bs.length)
  by_cases hc : c < f.head
  · rw [ringByte_frPush_old cap bs f c hroom htail hc]
    exact h c htail hc
  · obtain ⟨k, rfl⟩ := Nat.exists_eq_add_of_le (Nat.le_of_not_lt hc)
    have hk : k < bs.length := by omega
    rw [ringByte_frPush_new cap bs f k hroom hk, ← hbs k hk, List.getD_eq_getElem _ _ hk]

/-- A scan changes neither the ring nor the counts it holds (R194). -/
theorem Framer.carries.scan (p : Config.Params) (h : f.carries cap S) : (frScan p f).carries cap S := by
  have hsame := frScan_same p f
  intro c htail hhead
  rw [hsame.tail] at htail
  rw [hsame.head] at hhead
  rw [hsame.ring]
  exact h c htail hhead

/-- A take releases bytes and changes none (R194). -/
theorem Framer.carries.take (h : f.carries cap S) (hrelease : f.tail ≤ f.pendEnd) : f.take.carries cap S :=
  fun c htail hhead => h c (hrelease.trans htail) hhead

/-- The pending unit is the stream's bytes of its range (R62, R194). -/
theorem Framer.carries.unitBytes {p : Config.Params} (h : f.carries p.ringCap S) (hok : f.ok p.ringCap)
    (hp : f.pending = true) :
    f.unitBytes p = (List.range (f.pendEnd - f.unitStart)).map fun k => S (f.unitStart + k) := by
  obtain ⟨hstart, _, hhead⟩ := hok.pending_inside hp
  rw [Framer.unitBytes, Framer.unitLen, ringBytes_eq_map]
  refine List.map_congr_left fun k hk => ?_
  rw [List.mem_range] at hk
  exact h _ (by omega) (by omega)

end Carries

/-! ### The statement -/

/-- Settles O35: a push, a scan and a take each keep the bytes of the ring, and the pending unit lies in the ring. -/
theorem unitsAreStreamBytes : Obligations.UnitsAreStreamBytes := by
  intro p f S hok hcarries
  refine ⟨fun bs hroom hbs => hcarries.push hroom hbs, hcarries.scan p, fun hp => ⟨hcarries.take ?_,
    hcarries.unitBytes hok hp⟩⟩
  obtain ⟨hstart, hend, _⟩ := hok.pending_inside hp
  exact hstart.trans hend

end Sys2Proof.Machine

/-! SUPPORT. Operand blocks in MEM (20_memory.md R65, R66, 30_encoding.md R106) and `SE_DECODE` before setup
(43_pipeline.md R272): the bytes of the `BUF_LIST`, and how D1 and D2 end without and with the head cluster. -/

namespace Sys2Proof.Machine

/-! ### The BUF_LIST -/

theorem memRead_eq_map (m : Memory) (a n : Nat) : memRead m a n = (List.range n).map fun k => memByte m (a + k) :=
  List.ext_getElem (by simp) fun i hi _ => by simp [memRead_getElem m a n i hi]

theorem bufBytes_eq_flatMap (m : Memory) (bufs : List (Word × Word)) :
    bufBytes m bufs = bufs.flatMap fun e => memRead m e.1.toNat e.2.toNat := by
  induction bufs with
  | nil => rfl
  | cons e bufs ih => rw [List.flatMap_cons, ← ih]; rfl

/-- The bytes `SE_DECODE` pushes, buffer by buffer (R106, R272 D1). -/
theorem codedBytes_eq (s : State) :
    s.codedBytes = (List.range s.args.a1.toNat).flatMap fun j =>
      (List.range (blockWord s.mem s.args.a0 (2 * j + 1)).toNat).map fun k =>
        memByte s.mem ((blockWord s.mem s.args.a0 (2 * j)).toNat + k) := by
  simp only [State.codedBytes, bufBytes_eq_flatMap, bufList, List.flatMap_map, memRead_eq_map]

/-- The list is legal when it and every buffer stay inside the address space (R272, R69). -/
theorem listLegal_iff (s : State) :
    s.listLegal ↔ s.args.a0.toNat + 8 * s.args.a1.toNat ≤ 2 ^ 32 ∧ ∀ j, j < s.args.a1.toNat →
      (blockWord s.mem s.args.a0 (2 * j)).toNat + (blockWord s.mem s.args.a0 (2 * j + 1)).toNat ≤ 2 ^ 32 := by
  simp only [State.listLegal, bufList, List.forall_mem_map, List.mem_range]

/-! ### D1 and D2 before setup -/

theorem acceptedScanned_of_room {s : State} (h : s.fr.hasRoom s.params.ringCap s.codedBytes.length = true) :
    s.noRoom = false ∧ s.acceptedScanned = s.pushedScanned := by
  have hroom : s.noRoom = false := by rw [noRoom_eq, h]; rfl
  exact ⟨hroom, by rw [State.acceptedScanned, State.accepted, hroom]; rfl⟩

theorem acceptedScanned_of_noRoom {s : State} (h : s.fr.hasRoom s.params.ringCap s.codedBytes.length = false) :
    s.noRoom = true ∧ s.acceptedScanned = frScan s.params s.fr := by
  have hroom : s.noRoom = true := by rw [noRoom_eq, h]; rfl
  exact ⟨hroom, by rw [State.acceptedScanned, State.accepted, hroom]; rfl⟩

/-- `SE_DECODE` ends after D2 when the scan finds no head cluster (R272). -/
theorem exec_seDecode_waits {s : State} (hl : s.se.life = .opened) (hlist : s.listLegal) (hd : s.pl.hdrDone = false)
    (hp : s.acceptedScanned.pending = false) :
    exec .seDecode s = .next ((s.withFr s.acceptedScanned).decodeEnds s.noRoom false false false false) := by
  rcases execSeDecode_cases s with ⟨hl', _⟩ | ⟨hl', _⟩ | ⟨_, hlist', _⟩ | ⟨_, _, hsteps⟩
  · rw [hl] at hl'; cases hl'
  · rw [hl] at hl'; cases hl'
  · exact absurd hlist hlist'
  · simp only [decodePush_scan, decodePush_pl, withFr_fr] at hsteps
    rcases hsteps with ⟨hd', _⟩ | ⟨_, _, e⟩ | ⟨_, hp', _⟩ | ⟨_, hp', _⟩
    · rw [hd] at hd'; cases hd'
    · refine Eq.trans e ?_
      rw [decodePush_eq]
      exact decodeReport_noteOf _ _ _ _ _ _
    · rw [hp] at hp'; cases hp'
    · rw [hp] at hp'; cases hp'

/-- D3 and D4, whatever the steps before them noted (R272). -/
theorem decodeReport_submits_reclaims (full ran : Bool) (s : State) :
    ∃ u t sub got e e', submits s u sub e ∧ reclaims u t got e' ∧
      decodeReport (decodePoll (decodeSubmit (noteOf full ran false false false, s))) =
        .next (t.decodeEnds full ran sub got (e || e')) := by
  obtain ⟨sub, e, hsub, hnote⟩ := decodeSubmit_submits full ran s
  generalize decodeSubmit (noteOf full ran false false false, s) = r at hsub hnote ⊢
  obtain ⟨n, u⟩ := r
  obtain rfl : n = noteOf full ran sub false e := hnote
  obtain ⟨got, e', hrec, hnote'⟩ := decodePoll_reclaims full ran sub e u
  generalize decodePoll (noteOf full ran sub false e, u) = r at hrec hnote' ⊢
  obtain ⟨n, t⟩ := r
  obtain rfl : n = noteOf full ran sub got (e || e') := hnote'
  exact ⟨u, t, sub, got, e, e', hsub, hrec, decodeReport_noteOf _ _ _ _ _ _⟩

/-! ### The statement -/

/-- Settles O42: the bytes of the list; then D1 with and without room when D2 finds no head cluster, and D3 and D4
after a setup that succeeds. -/
theorem seDecodeAccumulates : Obligations.SeDecodeAccumulates := by
  refine ⟨fun s => ⟨codedBytes_eq s, listLegal_iff s⟩, fun s hl hlist hd => ⟨?pushed, ?full, ?setup⟩⟩
  case pushed =>
    intro hroom hp
    obtain ⟨hnoRoom, hscan⟩ := acceptedScanned_of_room hroom
    rw [exec_seDecode_waits hl hlist hd (hscan ▸ hp), hnoRoom, hscan]
    rfl
  case full =>
    intro hroom hp
    obtain ⟨hnoRoom, hscan⟩ := acceptedScanned_of_noRoom hroom
    rw [exec_seDecode_waits hl hlist hd (hscan ▸ hp), hnoRoom, hscan]
    rfl
  case setup =>
    intro hp w hs
    rw [execSeDecode_setup hl hlist hd hp hs]
    exact decodeReport_submits_reclaims s.noRoom true _

end Sys2Proof.Machine

/-! SUPPORT. The SPS (41_nal_synth.md R160 to R163): its writers row by row as bit strings, the ranges it reads, and
how a sequence of writers with the RBSP trailing bits ends. -/

namespace Sys2Proof.Machine

/-! ### Little-endian words -/

/-- The value of a little-endian word (R66). -/
theorem wordOfBytes_toNat (b0 b1 b2 b3 : Byte) :
    (wordOfBytes b0 b1 b2 b3).toNat = b0.toNat + 256 * b1.toNat + 65536 * b2.toNat + 16777216 * b3.toNat := by
  have h0 := b0.isLt
  have h1 := b1.isLt
  have h2 := b2.isLt
  simp only [wordOfBytes, BitVec.toNat_append]
  rw [← Nat.shiftLeft_add_eq_or_of_lt h2, ← Nat.shiftLeft_add_eq_or_of_lt h1, ← Nat.shiftLeft_add_eq_or_of_lt h0]
  simp only [Nat.shiftLeft_eq]
  omega

/-! ### Bit strings -/

/-- `bin(v, n)` looks at the low `n` bits only. -/
theorem bin_mod {m n : Nat} (v : Nat) (h : m ≤ n) : bin (v % 2 ^ n) m = bin v m := by
  induction m with
  | zero => rfl
  | succ m ih => rw [bin, bin, ih (by omega), Nat.testBit_mod_two_pow, decide_eq_true (by omega), Bool.true_and]

theorem bin_zero (n : Nat) : bin 0 n = List.replicate n false := by
  simpa [bin] using bin_widen 0 0 (by omega) n

theorem bin_two_pow (n : Nat) : bin (2 ^ n) (n + 1) = true :: List.replicate n false := by
  rw [bin, Nat.testBit_two_pow_self, ← bin_mod (2 ^ n) (le_refl n), Nat.mod_self, bin_zero]

/-! ### The strings of writers -/

@[simp] theorem writerBits_nil (pos : Nat) : writerBits pos [] = [] := rfl

@[simp] theorem writerBits_u (pos n v : Nat) (ws : List Writer) :
    writerBits pos (.u n v :: ws) = bin v n ++ writerBits (pos + n) ws := by
  rw [writerBits_cons, Writer.bits]
  simp only [Writer.field, bin_mod v (le_refl n)]

@[simp] theorem writerBits_ue (pos v : Nat) (ws : List Writer) :
    writerBits pos (.ue v :: ws) = ueCode v ++ writerBits (pos + (ueField v).1) ws := by
  rw [writerBits_cons, Writer.bits]
  simp only [Writer.field, bin_ueField]

@[simp] theorem writerBits_se (pos : Nat) (v : Int) (ws : List Writer) :
    writerBits pos (.se v :: ws) = seCode v ++ writerBits (pos + (ueField (seMap v)).1) ws := by
  rw [writerBits_cons, Writer.bits]
  simp only [Writer.field, bin_ueField, seCode]

@[simp] theorem writerBits_trail (pos : Nat) : writerBits pos [.trail] = stopBits pos := by
  rw [writerBits_cons, writerBits_nil, List.append_nil, Writer.bits]
  simp only [Writer.field, trailField, stopBits]
  rw [show 8 - pos % 8 = 7 - pos % 8 + 1 by omega]
  exact bin_two_pow _

/-- Rows that end in `TRAIL()` (R161 row 32, R174 row 19). -/
theorem writerBits_withTrailing (ws : List Writer) :
    writerBits 0 (ws ++ [Writer.trail]) = withTrailing (writerBits 0 ws) := by
  rw [writerBits_append, writerBits_trail, withTrailing, Nat.zero_add]

/-! ### The rows of the SPS -/

/-- `ScalingList(i)` (R162). -/
theorem writerBits_scalingDeltas (pos : Nat) (last : Int) (bs : List Byte) :
    writerBits pos (scalingDeltas last bs) = scalingString last bs := by
  induction bs generalizing pos last with
  | nil => rfl
  | cons b bs ih => rw [scalingDeltas, writerBits_se, ih, scalingString]

/-- Row 10 for one list (R161, R162). -/
theorem writerBits_scalingList (pos : Nat) (m : Memory) (a : Word) (i : Nat) :
    writerBits pos (scalingList m a i) = scalingRow m (a.toNat + (scalingSpan i).1) (scalingSpan i).2 := by
  rw [scalingList, writerBits_u, writerBits_scalingDeltas, scalingRow]
  rfl

/-- Rows 5 to 10 (R161). -/
theorem writerBits_spsHigh (pos : Nat) (m : Memory) (prof : Nat) (lists : Word) :
    writerBits pos (spsHigh m prof lists) = if prof = 100 then spsHighString m lists.toNat else [] := by
  rw [spsHigh, highProfile]
  split
  · have hlists : List.range 8 = [0, 1, 2, 3, 4, 5, 6, 7] := rfl
    simp only [hlists, List.flatMap_cons, List.flatMap_nil, writerBits_append, writerBits_u, writerBits_ue,
      writerBits_nil, writerBits_scalingList, spsHighString, List.append_assoc, List.append_nil]
    rfl
  · rfl

/-- Row 18 (R161), from word `k` of the array on. -/
theorem writerBits_offsetsFrom (pos : Nat) (m : Memory) (a : Word) (k n : Nat) :
    writerBits pos (((List.range' k n).map (blockWord m a)).map fun w => .se (asS32 w)) =
      refOffsets m (blockAddr a k) n := by
  induction n generalizing pos k with
  | zero => rfl
  | succ n ih =>
    rw [List.range'_succ, List.map_cons, List.map_cons, writerBits_se, ih, refOffsets]
    rfl

/-- Row 18 (R161). -/
theorem writerBits_offsets (pos : Nat) (m : Memory) (a : Word) (n : Nat) :
    writerBits pos ((wordArray m a n).map fun w => .se (asS32 w)) = refOffsets m a.toNat n := by
  rw [wordArray, List.range_eq_range']
  exact writerBits_offsetsFrom pos m a 0 n

/-- Rows 12 to 18 (R161). -/
theorem writerBits_spsPoc (pos : Nat) (m : Memory) (blk : Word) :
    let P := blockWord m blk
    writerBits pos (spsPoc m blk) = ueCode (P 1).toNat
      ++ (if P 1 = 0 then ueCode (P 2).toNat else [])
      ++ (if P 1 = 1 then bin (P 3).toNat 1 ++ seCode (P 4).toInt ++ seCode (P 5).toInt ++ ueCode (P 6).toNat
            ++ refOffsets m (P 7).toNat (P 6).toNat else []) := by
  dsimp only [spsPoc]
  generalize blockWord m blk = P
  rw [writerBits_ue]
  by_cases h0 : P 1 = 0
  · have h1 : P 1 ≠ 1 := by rw [h0]; decide
    rw [if_pos h0, if_pos h0, if_neg h1, writerBits_ue, writerBits_nil, List.append_nil, List.append_nil]
  · rw [if_neg h0, if_neg h0]
    by_cases h1 : P 1 = 1
    · rw [if_pos h1, if_pos h1, writerBits_append, writerBits_offsets]
      simp only [writerBits_u, writerBits_se, writerBits_ue, writerBits_nil, List.append_assoc, List.append_nil]
      rfl
    · rw [if_neg h1, if_neg h1, writerBits_nil, List.append_nil, List.append_nil]

/-- Rows 23 to 25 (R161). -/
theorem writerBits_spsFrameFlags (pos : Nat) (p9 p10 : Word) :
    writerBits pos (spsFrameFlags p9 p10) =
      bin p9.toNat 1 ++ (if p9.getLsbD 0 = false then [false] else []) ++ bin p10.toNat 1 := by
  unfold spsFrameFlags
  cases p9.getLsbD 0 <;> simp [bin]

/-- Rows 26 to 30 (R161, R164). -/
theorem writerBits_spsCrop (pos w h : Nat) :
    writerBits pos (spsCrop w h) = if w % 16 ≠ 0 ∨ h % 16 ≠ 0 then
      [true] ++ ueCode 0 ++ ueCode (w % 16) ++ ueCode 0 ++ ueCode (h % 16) else [false] := by
  simp only [spsCrop, spsCropped, decide_eq_true_eq]
  split
  · simp only [writerBits_u, writerBits_ue, writerBits_nil, List.append_assoc, List.append_nil]
    rfl
  · exact writerBits_u pos 1 0 []

/-- Rows 1 to 31 of the SPS (R161). -/
def spsRows (level : Byte) (m : Memory) (w h prof : Nat) (blk : Word) : List Writer :=
  let P := blockWord m blk
  [.u 8 prof, .u 8 0, .u 8 level.toNat, .ue 0] ++ spsHigh m prof (P 11) ++ [.ue (P 0).toNat] ++ spsPoc m blk
    ++ [.ue (P 8).toNat, .u 1 0, .ue ((w - 1) / 16), .ue ((h - 1) / 16)] ++ spsFrameFlags (P 9) (P 10)
    ++ spsCrop w h ++ [.u 1 0]

theorem spsWriters_eq (level : Byte) (m : Memory) (w h prof : Nat) (blk : Word) :
    spsWriters level m w h prof blk = spsRows level m w h prof blk ++ [Writer.trail] := by
  simp [spsWriters, spsRows]

theorem writerBits_spsRows (pos : Nat) (level : Byte) (m : Memory) (w h prof : Nat) (blk : Word) :
    writerBits pos (spsRows level m w h prof blk) = spsString level m w h prof (blockWord m blk) := by
  simp only [spsRows, spsString, writerBits_append, writerBits_u, writerBits_ue, writerBits_nil, writerBits_spsHigh,
    writerBits_spsPoc, writerBits_spsFrameFlags, writerBits_spsCrop, List.append_assoc, List.append_nil]
  rfl

/-- The RBSP of `NS_SPS` is what its writers write from the buffer's first bit (R160, R161). -/
theorem spsRbsp_eq (s : State) :
    s.spsRbsp = writerBits 0 (spsRows s.params.levelIdc s.mem s.args.a0.toNat s.args.a1.toNat s.args.a2.toNat s.args.a3
      ++ [Writer.trail]) := by
  rw [writerBits_withTrailing, writerBits_spsRows]
  rfl

/-! ### The ranges read -/

theorem badBwSource_false {s : State} {a : Word} {len : Nat} : s.badBwSource a len = false ↔ s.sourceLegal a len := by
  rw [State.badBwSource, Bool.or_eq_false_iff, rangeWraps_false, rangesMeet_false, State.sourceLegal, memSize]
  omega

/-- The operands of `NS_SPS` are illegal when one of the conditions of R163 fails. -/
theorem spsIllegal_false {s : State} : s.spsIllegal = false ↔ s.spsLegal := by
  simp only [State.spsIllegal, Bool.or_eq_false_iff, Bool.and_eq_false_imp, decide_eq_false_iff_not,
    badBwSource_false, spsPocOne, decide_eq_true_eq, Nat.not_lt, and_assoc]
  rfl

/-! ### Running writers from the buffer's first bit -/

/-- `s` with the bit string `bs` in the buffer from its first bit and the flag clear (R163). -/
def State.rbspWritten (s : State) (bs : List Bool) : State :=
  { s with mem := writeBits s.mem s.bw.base 0 bs, bw := { s.bw with pos := BitVec.ofNat 32 bs.length, ovf := false } }

theorem appended_bwRestart (s : State) (bs : List Bool) : appended s.bwRestart bs = s.rbspWritten bs := by
  simp [appended, State.rbspWritten, State.bwRestart, State.withBw, State.withMem]

theorem rbspWritten_wrote {s : State} {bs : List Bool} (hok : s.bw.ok) (hfits : bs.length ≤ 8 * s.bw.cap.toNat) :
    wroteBits s.mem s.bw.base 0 bs (s.rbspWritten bs).mem :=
  writeBits_wrote _ _ s.bw.cap.toNat _ _ (by omega) hok.1

theorem rbspWritten_pos {s : State} {bs : List Bool} (hok : s.bw.ok) (hfits : bs.length ≤ 8 * s.bw.cap.toNat) :
    (s.rbspWritten bs).bw.pos.toNat = bs.length := by
  obtain ⟨_, hcap, _⟩ := hok
  unfold maxCap at hcap
  exact Nat.mod_eq_of_lt (by omega)

theorem putWriters_restart_fit {ws : List Writer} {s : State} (hok : s.bw.ok)
    (hfits : (writerBits 0 ws).length ≤ 8 * s.bw.cap.toNat) :
    putWriters ws s.bwRestart = (true, s.rbspWritten (writerBits 0 ws)) := by
  have hput := putWriters_fit ws s.bwRestart (bwRestart_ok s hok)
  rw [appended_bwRestart, bwRestart_bw] at hput
  exact hput (by simpa using hfits)

theorem putWriters_restart_stop {ws : List Writer} {s : State} (hok : s.bw.ok)
    (hlong : 8 * s.bw.cap.toNat < (writerBits 0 ws).length) :
    ∃ done next rest, ws = done ++ next :: rest ∧ (writerBits 0 done).length ≤ 8 * s.bw.cap.toNat ∧
      8 * s.bw.cap.toNat < (writerBits 0 (done ++ [next])).length ∧
      putWriters ws s.bwRestart = (false, (s.rbspWritten (writerBits 0 done)).setOvf) := by
  have hput := putWriters_stop ws s.bwRestart (bwRestart_ok s hok)
  simp only [appended_bwRestart, bwRestart_bw, BitVec.ofNat_eq_ofNat, BitVec.toNat_ofNat, Nat.zero_mod,
    Nat.zero_add] at hput
  exact hput hlong

/-- The bits of the fields before the one that does not fit begin the RBSP (R160). -/
theorem take_writerBits (done vs : List Writer) :
    (writerBits 0 (done ++ vs)).take (writerBits 0 done).length = writerBits 0 done := by
  rw [writerBits_append, List.take_left]

/-- A sequence of writers whose last one is `TRAIL()` writes the whole RBSP, or the fields before the first that does
not fit (R160, R163, R175). -/
theorem emitRbsp_ends (ws : List Writer) (s : State) (hok : s.bw.ok) :
    rbspEnds s (writerBits 0 (ws ++ [Writer.trail])) (ws ++ [Writer.trail]) (emitRbsp (ws ++ [Writer.trail]) s) := by
  have haligned := writerBits_trail_aligned ws 0
  rw [Nat.zero_add] at haligned
  generalize ws ++ [Writer.trail] = fields at haligned ⊢
  refine ⟨fun hfits => ⟨haligned, (s.rbspWritten (writerBits 0 fields)).mem, ?whole, rbspWritten_wrote hok hfits⟩,
    fun hlong => ?stops⟩
  case whole =>
    have hput := putWriters_restart_fit hok hfits
    rcases emitRbsp_cases fields s with ⟨_, e⟩ | ⟨hlost, _⟩
    · rw [e, hput, rbspWritten_pos hok hfits]
      rfl
    · rw [hput] at hlost; cases hlost
  case stops =>
    obtain ⟨done, next, rest, hfields, hdone, hnext, hput⟩ := putWriters_restart_stop hok hlong
    refine ⟨(s.rbspWritten (writerBits 0 done)).mem, done, next, rest, hfields, hdone, hnext, ?state, ?wrote⟩
    case state =>
      rcases emitRbsp_cases fields s with ⟨hwhole, _⟩ | ⟨_, e⟩
      · rw [hput] at hwhole; cases hwhole
      · rw [e, hput]
        rfl
    case wrote =>
      rw [hfields, take_writerBits]
      exact rbspWritten_wrote hok hdone

/-! ### The statement -/

/-- Settles O25: the checks are those of R163, and the writers spell the SPS row by row. -/
theorem nsSpsWrites : Obligations.NsSpsWrites := by
  refine ⟨fun m a => wordOfBytes_toNat _ _ _ _, fun s => ⟨fun hillegal => ?_, fun hok hlegal => ?_⟩⟩
  · rcases execNsSps_cases s with ⟨_, e⟩ | ⟨hlegal, _⟩
    · exact e
    · exact absurd (spsIllegal_false.1 hlegal) hillegal
  · rcases execNsSps_cases s with ⟨hillegal, _⟩ | ⟨_, e⟩
    · rw [spsIllegal_false.2 hlegal] at hillegal; cases hillegal
    · rw [show exec .nsSps s = execNsSps s from rfl, e, spsRbsp_eq, spsWriters_eq]
      exact emitRbsp_ends _ s hok

end Sys2Proof.Machine

/-! SUPPORT. The command words (30_encoding.md R90 to R95): the two fields of a word, which row of the opcode map a
word selects, and what the immediate fields of a format read from the word they are written into. -/

namespace Sys2Proof.Machine

/-! ### The two fields of a word (R90) -/

theorem commandWord_eq_append (op : BitVec 8) (imm : BitVec 24) : commandWord op imm = op ++ imm := by
  rw [BitVec.append_def, BitVec.shiftLeftZeroExtend_eq, BitVec.setWidth'_eq]
  rfl

@[simp] theorem commandWord_op (op : BitVec 8) (imm : BitVec 24) : (commandWord op imm).extractLsb' 24 8 = op := by
  rw [commandWord_eq_append, BitVec.extractLsb'_append_eq_left]

@[simp] theorem commandWord_imm (op : BitVec 8) (imm : BitVec 24) : (commandWord op imm).extractLsb' 0 24 = imm := by
  rw [commandWord_eq_append, BitVec.extractLsb'_append_eq_right]

theorem commandWord_fields (w : Word) : commandWord (w.extractLsb' 24 8) (w.extractLsb' 0 24) = w := by
  rw [commandWord_eq_append]
  exact BitVec.extractLsb'_append_extractLsb'

theorem eq_iff_fields {v w : Word} :
    v = w ↔ v.extractLsb' 24 8 = w.extractLsb' 24 8 ∧ v.extractLsb' 0 24 = w.extractLsb' 0 24 := by
  refine ⟨fun h => by simp [h], fun ⟨hop, himm⟩ => ?_⟩
  rw [← commandWord_fields v, hop, himm, commandWord_fields]

/-! ### The rows of the opcode map (R93) -/

/-- The `op` column. -/
theorem opcodeMap_ops : opcodeMap.map (fun r => (r.pattern.extractLsb' 24 8).toNat) =
    [0x10, 0x11, 0x12, 0x13, 0x14, 0x15, 0x16, 0x17, 0x20, 0x21, 0x22, 0x23, 0x30, 0x31, 0x32, 0x33, 0x40, 0x41,
      0x42, 0x43] := rfl

/-- A row fixes all of `op`. -/
theorem opcodeMap_mask_op : ∀ r ∈ opcodeMap, r.mask.extractLsb' 24 8 = BitVec.allOnes 8 := by decide

/-- A row asks of `imm` only that bits are zero. -/
theorem opcodeMap_pattern_imm : ∀ r ∈ opcodeMap, r.pattern.extractLsb' 0 24 = 0#24 := by decide

theorem row_eq_of_op {r r' : OpRow} (hr : r ∈ opcodeMap) (hr' : r' ∈ opcodeMap)
    (hop : r.pattern.extractLsb' 24 8 = r'.pattern.extractLsb' 24 8) : r = r' :=
  have hdistinct : (opcodeMap.map fun r => (r.pattern.extractLsb' 24 8).toNat).Nodup := by
    rw [opcodeMap_ops]
    decide
  List.inj_on_of_nodup_map hdistinct hr hr' (congrArg BitVec.toNat hop)

/-- A word selects a row when its `op` is the row's and its `imm` is zero where the row's must be. -/
theorem selects_iff_fields {r : OpRow} (hr : r ∈ opcodeMap) (w : Word) :
    w &&& r.mask = r.pattern ↔ w.extractLsb' 24 8 = r.pattern.extractLsb' 24 8 ∧
      w.extractLsb' 0 24 &&& r.mask.extractLsb' 0 24 = 0#24 := by
  rw [eq_iff_fields, BitVec.extractLsb'_and, BitVec.extractLsb'_and, opcodeMap_mask_op r hr, BitVec.and_allOnes,
    opcodeMap_pattern_imm r hr]

/-! ### Decoding (R94) -/

theorem selects_of_find {w : Word} {r : OpRow} (h : opcodeMap.find? (OpRow.selects w) = some r) :
    r ∈ opcodeMap ∧ w &&& r.mask = r.pattern := by
  have hsel : OpRow.selects w r = true := List.find?_some h
  exact ⟨List.mem_of_find?_eq_some h, beq_iff_eq.1 hsel⟩

theorem selects_of_decode {w : Word} {i : Instr} (h : decode w = .ok i) :
    ∃ r ∈ opcodeMap, w &&& r.mask = r.pattern ∧ i = r.build w := by
  unfold decode at h
  split at h
  · next r hfind =>
    cases h
    obtain ⟨hr, hsel⟩ := selects_of_find hfind
    exact ⟨r, hr, hsel, rfl⟩
  · cases h

/-- The row a word selects is the one that is found, as no two rows share an `op`. -/
theorem decode_of_selects {w : Word} {r : OpRow} (hr : r ∈ opcodeMap) (hsel : w &&& r.mask = r.pattern) :
    decode w = .ok (r.build w) := by
  cases hfind : opcodeMap.find? (OpRow.selects w) with
  | none => exact absurd (beq_iff_eq.2 hsel) (List.find?_eq_none.1 hfind r hr)
  | some r' =>
    obtain ⟨hr', hsel'⟩ := selects_of_find hfind
    obtain ⟨hop, _⟩ := (selects_iff_fields hr w).1 hsel
    obtain ⟨hop', _⟩ := (selects_iff_fields hr' w).1 hsel'
    rw [decode, hfind, row_eq_of_op hr' hr (hop'.symm.trans hop)]

theorem decode_ne_ok {w : Word} (h : ∀ r ∈ opcodeMap, w &&& r.mask ≠ r.pattern) (i : Instr) :
    decode w ≠ .ok i := fun hd => by
  obtain ⟨r, hr, hsel, _⟩ := selects_of_decode hd
  exact h r hr hsel

theorem decode_commandWord {r : OpRow} (hr : r ∈ opcodeMap) {op : BitVec 8} {imm : BitVec 24}
    (hop : op = r.pattern.extractLsb' 24 8) (himm : imm &&& r.mask.extractLsb' 0 24 = 0#24) :
    decode (commandWord op imm) = .ok (r.build (commandWord op imm)) :=
  decode_of_selects hr ((selects_iff_fields hr _).2 ⟨by rw [commandWord_op, hop], by rw [commandWord_imm, himm]⟩)

/-! ### The immediate fields (R91) -/

/-- A field of `imm`, put back in its place: the bits of `imm` at that place. -/
theorem field_in_place (w : Word) (j k : Nat) :
    (w.extractLsb' j k).setWidth 24 <<< j = w.extractLsb' 0 24 &&& (BitVec.allOnes k).setWidth 24 <<< j := by
  refine BitVec.eq_of_getLsbD_eq fun b hb => ?_
  by_cases hj : b < j
  · simp [hj]
  · have hbit : j + (b - j) = b := by omega
    simp [hb, hj, hbit, Bool.and_comm]

theorem field_low (w : Word) (k : Nat) :
    (w.extractLsb' 0 k).setWidth 24 = w.extractLsb' 0 24 &&& (BitVec.allOnes k).setWidth 24 := by
  simpa using field_in_place w 0 k

theorem ofBool_getLsbD (w : Word) (j : Nat) : BitVec.ofBool (w.getLsbD j) = w.extractLsb' j 1 := by
  refine BitVec.eq_of_getLsbD_eq fun b hb => ?_
  obtain rfl : b = 0 := by omega
  simp

theorem immWidth_setWidth (w : Word) : (immWidth w).setWidth 24 = w.extractLsb' 0 24 &&& 0x3F#24 := field_low w 6

theorem immType_setWidth (w : Word) : (immType w).setWidth 24 = w.extractLsb' 0 24 &&& 0x1F#24 := field_low w 5

theorem immMode_setWidth (w : Word) : (immMode w).setWidth 24 = w.extractLsb' 0 24 &&& 3#24 := field_low w 2

theorem immBit_setWidth (w : Word) : (BitVec.ofBool (immBit w)).setWidth 24 = w.extractLsb' 0 24 &&& 1#24 :=
  (congrArg _ (ofBool_getLsbD w 0)).trans (field_low w 1)

theorem immGetHead_setWidth (w : Word) :
    (BitVec.ofBool (immGetHead w)).setWidth 24 <<< 8 = w.extractLsb' 0 24 &&& 0x100#24 :=
  (congrArg (BitVec.setWidth 24 · <<< 8) (ofBool_getLsbD w 8)).trans (field_in_place w 8 1)

/-- The format of a row writes back all bits of `imm` that it does not ask to be zero. -/
theorem encode_build (w : Word) : ∀ r ∈ opcodeMap, encode (r.build w) =
    commandWord (r.pattern.extractLsb' 24 8) (w.extractLsb' 0 24 &&& ~~~(r.mask.extractLsb' 0 24)) := by
  simp [opcodeMap, encode, immWidth_setWidth, immType_setWidth, immMode_setWidth, immBit_setWidth,
    immGetHead_setWidth, ← BitVec.and_or_distrib_left]

theorem and_not_of_and_eq_zero {n : Nat} {x m : BitVec n} (h : x &&& m = 0#n) : x &&& ~~~m = x :=
  calc x &&& ~~~m = x &&& m ||| x &&& ~~~m := by rw [h, BitVec.zero_or]
    _ = x &&& (m ||| ~~~m) := BitVec.and_or_distrib_left.symm
    _ = x := by rw [BitVec.or_not_self, BitVec.and_allOnes]

/-- An immediate of `k` bits is zero from bit `k` on. -/
theorem setWidth_and_eq_zero {k n : Nat} (x : BitVec k) {m : BitVec n} (hm : m.setWidth k = 0#k) :
    x.setWidth n &&& m = 0#n := by
  refine BitVec.eq_of_getLsbD_eq fun b hb => ?_
  by_cases hk : b < k
  · have hbit : m.getLsbD b = false := by simpa [hk] using congrArg (BitVec.getLsbD · b) hm
    simp [hbit]
  · simp [BitVec.getLsbD_of_ge x b (by omega)]

theorem commandWord_low {k : Nat} (op : BitVec 8) (x : BitVec k) (hk : k ≤ 24) :
    (commandWord op (x.setWidth 24)).extractLsb' 0 k = x :=
  calc (commandWord op (x.setWidth 24)).extractLsb' 0 k
      = ((commandWord op (x.setWidth 24)).extractLsb' 0 24).setWidth k := by
        rw [← BitVec.setWidth_eq_extractLsb' (by omega), ← BitVec.setWidth_eq_extractLsb' (by decide),
          BitVec.setWidth_setWidth (by omega)]
    _ = x := by rw [commandWord_imm, BitVec.setWidth_setWidth (by omega), BitVec.setWidth_eq]

/-! ### The statements -/

/-- Settles O1: the word of a command selects the command's row, and the row's format reads its immediate back. -/
theorem decodeEncode : Obligations.DecodeEncode := by
  intro i
  cases i with
  | bwBit v => cases v <;> rfl
  | bwFixed n =>
    have hrow := decode_commandWord (r := opcodeMap[2]) (List.getElem_mem _) rfl (setWidth_and_eq_zero n rfl)
    exact hrow.trans (congrArg (Except.ok ∘ Instr.bwFixed) (commandWord_low _ n (by decide)))
  | nsNal t =>
    have hrow := decode_commandWord (r := opcodeMap[9]) (List.getElem_mem _) rfl (setWidth_and_eq_zero t rfl)
    exact hrow.trans (congrArg (Except.ok ∘ Instr.nsNal) (commandWord_low _ t (by decide)))
  | frInit m g => revert m g; decide
  | _ => rfl

/-- Settles O2: the word is the `op` of its row and the bits of `imm` that the row's format writes back. -/
theorem decodeOnlyEncodings : Obligations.DecodeOnlyEncodings := by
  intro w i hd
  obtain ⟨r, hr, hsel, rfl⟩ := selects_of_decode hd
  obtain ⟨hop, hzero⟩ := (selects_iff_fields hr w).1 hsel
  rw [encode_build w r hr, and_not_of_and_eq_zero hzero, ← hop, commandWord_fields]

/-- Settles O3: a row that is selected is the one that is found; an unlisted `op` is no row's, and a listed `op` is
the `op` of one row only, which then asks for the bits that are not zero. -/
theorem decodingTotal : Obligations.DecodingTotal := by
  intro w s
  refine ⟨fun r hr hsel => runWord_ok (decode_of_selects hr hsel) s,
    fun hnone => runWord_illegal (decode_ne_ok hnone) s,
    fun hop => runWord_illegal (decode_ne_ok fun r hr hsel => ?unlisted) s,
    fun r hr hop hbits => runWord_illegal (decode_ne_ok fun r' hr' hsel => ?reserved) s⟩
  case unlisted =>
    obtain ⟨hrow, _⟩ := (selects_iff_fields hr w).1 hsel
    rw [hrow, ← opcodeMap_ops] at hop
    exact hop (List.mem_map_of_mem hr)
  case reserved =>
    obtain ⟨hrow, hzero⟩ := (selects_iff_fields hr' w).1 hsel
    obtain rfl := row_eq_of_op hr hr' (hop.symm.trans hrow)
    exact hbits hzero

/-- Settles O4: each word is the encoding of the command it stands for. -/
theorem decodeWords : Obligations.DecodeWords :=
  ⟨decodeEncode .bwInit, decodeEncode (.bwBit true), decodeEncode (.bwFixed 32#6), decodeEncode .nsEscape,
    decodeEncode (.nsNal 7#5), decodeEncode (.frInit 2#2 true), decodeEncode .frExtract, decodeEncode .seDecode,
    decodeEncode .seClose⟩

end Sys2Proof.Machine

/-! SUPPORT. Opening a session (43_pipeline.md R270): the operands it refuses. -/

namespace Sys2Proof.Machine

theorem profileReserved_true {w : Word} : profileReserved w = true ↔ w &&& 0xFFFF00FC#32 ≠ 0#32 := bne_iff_ne

/-- A codec mode is one of three, and 3 is the code of none (R31, R107). -/
theorem Mode.code_ne_three (md : Mode) : BitVec.ofNat 2 md.code ≠ 3#2 := by cases md <;> decide

/-- Settles O39: the three cases of `execSeOpen` are those of the statement, as a mode's code is never 3 and names the
mode. -/
theorem seOpenOpens : Obligations.SeOpenOpens := by
  intro s
  rw [show exec .seOpen s = execSeOpen s from rfl]
  rcases execSeOpen_cases s with ⟨hopen, e⟩ | ⟨hclosed, hbad, e⟩ | ⟨hclosed, hgood, md, hmd, e⟩ <;> rw [e]
  · exact ⟨fun _ => rfl, fun h => absurd h hopen, fun h => absurd h hopen⟩
  · refine ⟨fun h => absurd hclosed h, fun _ _ => rfl, fun _ hzero md hmd => ?_⟩
    rcases hbad with hthree | hreserved
    · exact absurd (hmd.trans hthree) md.code_ne_three
    · exact absurd hzero (profileReserved_true.1 hreserved)
  · refine ⟨fun h => absurd hclosed h, fun _ hbad => ?_, fun _ _ md' hmd' => ?_⟩
    · rcases hbad with hthree | hbits
      · exact absurd (hmd.trans hthree) md.code_ne_three
      · rw [profileReserved_true.2 hbits] at hgood; cases hgood
    · obtain rfl : md = md' := Option.some.inj ((modeOfCode_some.2 hmd).symm.trans (modeOfCode_some.2 hmd'))
      rfl

end Sys2Proof.Machine

/-! SUPPORT. The Exponential-Golomb codes (40_bitwriter.md R120, R121): form and length of a codeword, the companion
reader on any bit sequence that carries one, and the laws R133 and R134 that follow. -/

namespace Sys2Proof.Machine

/-! ### Codewords -/

theorem ueCode_eq_bin (v : Nat) : ueCode v = bin (v + 1) (2 * (v + 1).log2 + 1) := (bin_ueField v).symm

theorem ueCode_length (v : Nat) : (ueCode v).length = 2 * (v + 1).log2 + 1 := by rw [ueCode_eq_bin, bin_length]

theorem ueCode_getD (v k : Nat) (hk : k ≤ 2 * (v + 1).log2) :
    (ueCode v).getD k false = (v + 1).testBit (2 * (v + 1).log2 - k) := by
  rw [ueCode_eq_bin, bin_getD _ _ _ (by omega), Nat.add_sub_cancel]

/-- The codewords of one length (R133). -/
theorem ueCode_length_of_range {v j : Nat} (hlow : 2 ^ j - 1 ≤ v) (hhigh : v ≤ 2 ^ (j + 1) - 2) :
    (ueCode v).length = 2 * j + 1 := by
  have hpos := Nat.two_pow_pos j
  have hsucc := Nat.pow_succ 2 j
  have hlog : (v + 1).log2 = j := (Nat.log2_eq_iff (by omega)).2 ⟨by omega, by omega⟩
  rw [ueCode_length, hlog]

/-! ### The companion reader -/

theorem bit_eq_toNat (b : Bool) : bit b = b.toNat := by cases b <;> rfl

/-- Zeros and then a one: the reader counts the zeros; it needs no one after as many as it may count. -/
theorem leadingZeros_eq {bitAt : Nat → Bool} {fuel c z : Nat} (hz : z ≤ fuel)
    (hzero : ∀ k, k < z → bitAt (c + k) = false) (hone : bitAt (c + z) = true) :
    leadingZeros bitAt fuel c = z := by
  induction fuel generalizing c z with
  | zero => exact (Nat.le_zero.1 hz).symm
  | succ fuel ih =>
    cases z with
    | zero => exact if_pos hone
    | succ z =>
      have hc : bitAt c = false := hzero 0 (by omega)
      have htail : leadingZeros bitAt fuel (c + 1) = z := by
        refine ih (by omega) (fun k hk => ?_) ?_
        · rw [Nat.add_assoc, Nat.add_comm 1]
          exact hzero (k + 1) (by omega)
        · rw [Nat.add_assoc, Nat.add_comm 1]
          exact hone
      rw [leadingZeros, hc, if_neg (by decide), htail]

/-- The reader reads the low `n` bits of `v` from a sequence that carries them. -/
theorem readFixed_eq {bitAt : Nat → Bool} {n c v : Nat} (acc : Nat)
    (h : ∀ k, k < n → bitAt (c + k) = v.testBit (n - 1 - k)) :
    readFixed bitAt n c acc = acc * 2 ^ n + v % 2 ^ n := by
  induction n generalizing c acc with
  | zero => simp [readFixed, Nat.mod_one]
  | succ n ih =>
    have hc : bitAt c = v.testBit n := h 0 (by omega)
    have htail : ∀ k, k < n → bitAt (c + 1 + k) = v.testBit (n - 1 - k) := fun k hk => by
      rw [Nat.add_assoc, Nat.add_comm 1 k, h (k + 1) (by omega)]
      congr 1; omega
    rw [readFixed, ih _ htail, hc, bit_eq_toNat, Nat.toNat_testBit, Nat.mod_pow_succ]
    ring

/-- The reader reads `v` back from any bit sequence that carries `UeCode(v)` (R134). -/
theorem readUe_ueCode {bitAt : Nat → Bool} {fuel c v : Nat} (hfuel : (v + 1).log2 ≤ fuel)
    (h : ∀ k, k < (ueCode v).length → bitAt (c + k) = (ueCode v).getD k false) : readUe bitAt fuel c = v := by
  rw [ueCode_length] at h
  have hbit : ∀ k, k ≤ 2 * (v + 1).log2 → bitAt (c + k) = (v + 1).testBit (2 * (v + 1).log2 - k) := fun k hk => by
    rw [h k (by omega), ueCode_getD v k hk]
  have hlow := Nat.log2_self_le (n := v + 1) (by omega)
  have hhigh := Nat.lt_log2_self (n := v + 1)
  have htop := Nat.testBit_log2 (n := v + 1) (by omega)
  generalize (v + 1).log2 = z at *
  have hz : leadingZeros bitAt fuel c = z := by
    refine leadingZeros_eq hfuel (fun k hk => ?_) ?_
    · rw [hbit k (by omega)]
      exact Nat.testBit_lt_two_pow (hhigh.trans_le (Nat.pow_le_pow_right (by omega) (by omega)))
    · rw [hbit z (by omega), show 2 * z - z = z by omega, htop]
  have hrest : readFixed bitAt z (c + z + 1) 0 = 0 * 2 ^ z + (v + 1) % 2 ^ z := by
    refine readFixed_eq 0 fun k hk => ?_
    rw [show c + z + 1 + k = c + (z + 1 + k) by omega, hbit _ (by omega)]
    congr 1; omega
  have hmod : (v + 1) % 2 ^ z = v + 1 - 2 ^ z := by
    rw [Nat.mod_eq_sub_mod hlow, Nat.mod_eq_of_lt]
    rw [Nat.pow_succ] at hhigh; omega
  simp only [readUe, hz, hrest, hmod]
  omega

/-- No codeword begins another: a sequence that begins with both is read back as both values (R134). -/
theorem ueCode_prefix_free {v w : Nat} (h : ueCode v <+: ueCode w) : v = w := by
  obtain ⟨rest, hrest⟩ := h
  have hv : readUe (fun k => (ueCode w).getD k false) ((v + 1).log2 + (w + 1).log2) 0 = v :=
    readUe_ueCode (by omega) fun k hk => by
      simp only [Nat.zero_add]
      rw [← hrest, List.getD_append _ _ _ _ hk]
  have hw : readUe (fun k => (ueCode w).getD k false) ((v + 1).log2 + (w + 1).log2) 0 = w :=
    readUe_ueCode (by omega) fun k _ => by simp only [Nat.zero_add]
  exact hv.symm.trans hw

/-! ### The signed mapping -/

theorem seMap_nonpos {v : Int} (h : v ≤ 0) : (seMap v : Int) = -2 * v := by
  rw [seMap, if_pos h]; omega

theorem seMap_pos {v : Int} (h : 0 < v) : (seMap v : Int) = 2 * v - 1 := by
  rw [seMap, if_neg (by omega)]; omega

theorem seUnmap_seMap (v : Int) : seUnmap (seMap v) = v := by
  rw [seUnmap]
  rcases le_or_gt v 0 with h | h
  · have := seMap_nonpos h
    rw [if_neg (by omega)]; omega
  · have := seMap_pos h
    rw [if_pos (by omega)]; omega

theorem seMap_seUnmap (m : Nat) : seMap (seUnmap m) = m := by
  rw [seUnmap]
  split_ifs with hodd
  · have := seMap_pos (v := ((m : Int) + 1) / 2) (by omega)
    omega
  · have := seMap_nonpos (v := -((m : Int) / 2)) (by omega)
    omega

/-- `SeMap` of an `s32` is at most `2^32`, the value at `-2^31` (R129). -/
theorem seMap_toInt_le (w : Word) : seMap w.toInt ≤ 2 ^ 32 := by
  have hlow := w.le_toInt
  have hhigh := w.toInt_lt
  rcases le_or_gt w.toInt 0 with h | h
  · have := seMap_nonpos h
    omega
  · have := seMap_pos h
    omega

/-- A value up to `2^32` has at most 32 leading zeros in its codeword (R128, R129). -/
theorem log2_le_of_le {v : Nat} (h : v ≤ 2 ^ 32) : (v + 1).log2 ≤ 32 :=
  Nat.le_of_lt_succ ((Nat.log2_lt (by omega)).2 (by omega))

/-- Settles O16: the codeword is `bin` of its field, no codeword begins another as decoding is unique, and `seUnmap`
inverts `SeMap`. -/
theorem expGolombCodes : Obligations.ExpGolombCodes :=
  ⟨fun v => ⟨ueCode_eq_bin v, ueCode_length v⟩, fun _ _ => ueCode_length_of_range, fun _ _ => ueCode_prefix_free,
    fun _ => seMap_nonpos, fun _ => seMap_pos,
    Function.bijective_iff_has_inverse.2 ⟨seUnmap, seUnmap_seMap, seMap_seUnmap⟩⟩

end Sys2Proof.Machine

/-! SUPPORT. The BW commands (40_bitwriter.md R124 to R132, R134, R135): the string each write command hands over, how a
write ends, and what a run of writes leaves in the buffer. -/

namespace Sys2Proof.Machine

/-! ### The string of a writer -/

theorem Writer.bits_eq_writerBits (w : Writer) (pos : Nat) : w.bits pos = writerBits pos [w] := by
  rw [writerBits_cons, writerBits_nil, List.append_nil]

@[simp] theorem Writer.bits_u (n v pos : Nat) : (Writer.u n v).bits pos = bin v n := by
  rw [Writer.bits_eq_writerBits, writerBits_u, writerBits_nil, List.append_nil]

@[simp] theorem Writer.bits_ue (v pos : Nat) : (Writer.ue v).bits pos = ueCode v := by
  rw [Writer.bits_eq_writerBits, writerBits_ue, writerBits_nil, List.append_nil]

@[simp] theorem Writer.bits_se (v : Int) (pos : Nat) : (Writer.se v).bits pos = ueCode (seMap v) := by
  rw [Writer.bits_eq_writerBits, writerBits_se, writerBits_nil, List.append_nil, seCode]

@[simp] theorem Writer.bits_trail (pos : Nat) : Writer.trail.bits pos = stopBits pos := by
  rw [Writer.bits_eq_writerBits, writerBits_trail]

/-- One bit as a field of width 1 (R125). -/
theorem bin_bit (v : Bool) : bin (bit v) 1 = [v] := by cases v <;> rfl

/-- `bin(v, n)` bit by bit, most significant first. -/
theorem bin_eq_map (v n : Nat) : bin v n = (List.range n).map fun k => v.testBit (n - 1 - k) := by
  refine List.ext_getElem (by simp) fun k hk _ => ?_
  rw [bin_length] at hk
  rw [← List.getD_eq_getElem _ false, bin_getD v n k hk, List.getElem_map, List.getElem_range]

/-- The stop bit and its zeros end on a byte boundary (R130). -/
theorem stopBits_length (pos : Nat) : (stopBits pos).length = 8 - pos % 8 := by
  simp only [stopBits, List.length_cons, List.length_replicate]; omega

theorem flatMap_byteBits_length (bs : List Byte) : (bs.flatMap byteBits).length = 8 * bs.length := by
  simp [List.length_flatMap, byteBits, Nat.mul_comm]

/-- `BW_BYTES` hands over eight bits for each source byte (R131). -/
theorem writeString_bwBytes_length (s : State) : (writeString .bwBytes s).length = 8 * s.args.a1.toNat := by
  rw [writeString, flatMap_byteBits_length, memRead_length]

/-! ### How a write ends -/

/-- What appending a string leaves, with the cursor as a number. -/
theorem appended_eq (s : State) (bs : List Bool) :
    appended s bs = { s with
      mem := (appended s bs).mem
      bw := { s.bw with pos := BitVec.ofNat 32 (s.bw.pos.toNat + bs.length) } } := by
  rw [BitVec.ofNat_add, BitVec.ofNat_toNat, BitVec.setWidth_eq]
  rfl

/-- A string that fits writes its bits, and no byte outside the buffer (R122). -/
theorem appended_mem_spec {s : State} {bs : List Bool} (hok : s.bw.ok)
    (hfits : s.bw.pos.toNat + bs.length ≤ 8 * s.bw.cap.toNat) :
    wroteBits s.mem s.bw.base s.bw.pos.toNat bs (appended s bs).mem ∧
    ∀ a, (a < s.bw.base.toNat ∨ s.bw.base.toNat + s.bw.cap.toNat ≤ a) →
      memByte (appended s bs).mem a = memByte s.mem a :=
  ⟨appended_wrote s bs hok hfits, fun _ ha => Written.memByte_outside ⟨hfits, rfl, .inl rfl⟩ hok ha⟩

/-- A command with a writer runs it, and the writer's string is the command's (R125, R126, R128 to R130). -/
theorem exec_of_writerOf {i : Instr} {s : State} {w : Writer} (hw : writerOf s i = some w) :
    exec i s = finishWrite (putWriter w s) ∧ w.bits s.bw.pos.toNat = writeString i s := by
  cases i with
  | bwBit v =>
    obtain rfl := Option.some.inj hw
    exact ⟨rfl, (Writer.bits_u _ _ _).trans (bin_bit v)⟩
  | bwFixed n =>
    rw [writerOf] at hw
    split at hw
    · obtain rfl := Option.some.inj hw
      refine ⟨?_, Writer.bits_u _ _ _⟩
      rcases execBwFixed_cases n s with ⟨hwide, _⟩ | ⟨_, e⟩
      · omega
      · exact e
    · cases hw
  | bwUe =>
    obtain rfl := Option.some.inj hw
    exact ⟨rfl, Writer.bits_ue _ _⟩
  | bwSe =>
    obtain rfl := Option.some.inj hw
    exact ⟨rfl, Writer.bits_se _ _⟩
  | bwAlign =>
    obtain rfl := Option.some.inj hw
    exact ⟨rfl, Writer.bits_trail _⟩
  | _ => cases hw

/-- A command with a writer appends its string or overflows (R122, R123). -/
theorem exec_writeEnds (i : Instr) {s : State} {w : Writer} (hw : writerOf s i = some w) (hok : s.bw.ok) :
    writeEnds s (writeString i s) (exec i s) := by
  obtain ⟨hexec, hbits⟩ := exec_of_writerOf hw
  rw [hexec, ← hbits]
  rcases finishWrite_cases w s with ⟨hfits, e⟩ | ⟨hlong, e⟩
  · refine ⟨fun _ => ⟨_, ?_, appended_mem_spec hok hfits⟩, fun h => absurd hfits (Nat.not_le.2 h)⟩
    rw [e, appended_eq]; rfl
  · exact ⟨fun h => absurd h (Nat.not_le.2 hlong), fun _ => e⟩

/-! ### The commands -/

/-- Settles O8: the two cases of `execBwInit`. -/
theorem bwInitBinds : Obligations.BwInitBinds := by
  intro s
  rw [show exec .bwInit s = execBwInit s from rfl]
  rcases execBwInit_cases s with ⟨hbad, e⟩ | ⟨hcap, hspace, e⟩ <;> rw [e] <;> unfold maxCap memSize at *
  · exact ⟨fun _ => rfl, fun _ _ => by omega⟩
  · exact ⟨fun _ => by omega, fun _ _ => rfl⟩

/-- Settles O15: a flag as a register value is 0 or 1. -/
theorem bwStatReads : Obligations.BwStatReads := by
  intro s
  have hflag : BitVec.ofNat 32 (bit s.bw.ovf) = if s.bw.ovf then 1 else 0 := by cases s.bw.ovf <;> rfl
  rw [← hflag]
  rfl

/-- Settles O9: a field of width 1; a buffer bit's address does not wrap. -/
theorem bwBitAppends : Obligations.BwBitAppends := by
  intro s v hok
  exact ⟨exec_writeEnds (.bwBit v) rfl hok, fun m k hk => by rw [bufBit, bitAddr_eq hk hok.1]⟩

theorem writerOf_bwFixed (s : State) {n : BitVec 6} (h : n.toNat ≤ 32) :
    writerOf s (.bwFixed n) = some (.u n.toNat s.args.a0.toNat) := if_pos h

/-- `BW_FIXED` refuses a width above 32 (R126). -/
theorem exec_bwFixed_wide (s : State) {n : BitVec 6} (h : 32 < n.toNat) :
    exec (.bwFixed n) s = .next (s.withStatus (-9)) := by
  rcases execBwFixed_cases n s with ⟨_, e⟩ | ⟨hnarrow, _⟩
  · exact e
  · omega

/-- Settles O10: a field of width `n` and value `a0`. -/
theorem bwFixedAppends : Obligations.BwFixedAppends := by
  refine fun s n => ⟨exec_bwFixed_wide s, fun hok hnarrow => ?_⟩
  have h := exec_writeEnds (.bwFixed n) (writerOf_bwFixed s hnarrow) hok
  simpa only [writeString, bin_eq_map, BitVec.testBit_toNat] using h

/-- Settles O11: the string of `BW_UE` is `UeCode` written out. -/
theorem bwUeAppends : Obligations.BwUeAppends := fun _ hok => exec_writeEnds .bwUe rfl hok

/-- Settles O12: the statement's number is `SeMap`. -/
theorem bwSeAppends : Obligations.BwSeAppends := by
  intro s hok
  rw [apply_ite Int.toNat]
  exact exec_writeEnds .bwSe rfl hok

/-- Settles O13: the partial byte has room unless the cursor stands at the end. -/
theorem bwAlignAppends : Obligations.BwAlignAppends := by
  intro s hok
  refine ⟨exec_writeEnds .bwAlign rfl hok, ?_⟩
  obtain ⟨_, _, hpos⟩ := hok
  rw [stopBits_length]
  omega

/-- `BW_BYTES` with a legal source that fits appends its string (R131). -/
theorem bwBytes_fits {s : State} (hok : s.bw.ok) (hlegal : s.sourceLegal s.args.a0 s.args.a1.toNat)
    (hfits : s.bw.pos.toNat + 8 * s.args.a1.toNat ≤ 8 * s.bw.cap.toNat) :
    exec .bwBytes s = ((appended s (writeString .bwBytes s)).setR1 s.args.a1).finish .ok := by
  rcases execBwBytes_cases s with ⟨hbad, _⟩ | ⟨_, _, e⟩ | ⟨_, hlong, _⟩
  · rw [badBwSource_false.2 hlegal] at hbad; cases hbad
  · rw [putByteSeq_fit _ s hok (by rw [memRead_length]; exact hfits)] at e
    exact e
  · omega

/-- Settles O14: the three cases of `execBwBytes`. -/
theorem bwBytesAppends : Obligations.BwBytesAppends := by
  intro s hok
  refine ⟨fun hillegal => ?illegal, fun hlegal hfits => ?fits, fun hlegal hlong => ?long⟩
  case illegal =>
    rcases execBwBytes_cases s with ⟨_, e⟩ | ⟨hgood, _⟩ | ⟨hgood, _⟩
    · exact e
    all_goals exact absurd (badBwSource_false.1 hgood) hillegal
  case fits =>
    have hlen := writeString_bwBytes_length s
    refine ⟨_, ?_, appended_mem_spec hok (by rw [← writeString, hlen]; exact hfits)⟩
    rw [bwBytes_fits hok hlegal hfits, appended_eq, hlen]
    rfl
  case long =>
    rcases execBwBytes_cases s with ⟨hbad, _⟩ | ⟨_, hfits, _⟩ | ⟨_, _, e⟩
    · rw [badBwSource_false.2 hlegal] at hbad; cases hbad
    · omega
    · exact e

/-! ### Reading a codeword back -/

/-- The reader finds in the buffer the codeword that a write has left there (R134). -/
theorem readUe_of_wroteBits {m m' : Memory} {base : Word} {p v : Nat} (hv : v ≤ 2 ^ 32)
    (h : wroteBits m base p (ueCode v) m') : readUe (bufBit m' base) 32 p = v :=
  readUe_ueCode (log2_le_of_le hv) h.1

/-- Settles O17: both commands leave a codeword of at most 32 leading zeros at the cursor, and `seUnmap` inverts
`SeMap`. -/
theorem expGolombRoundTrip : Obligations.ExpGolombRoundTrip := by
  refine fun s hok => ⟨fun hfits => ?unsigned, fun hfits => ?signed⟩
  case unsigned =>
    obtain ⟨m', e, hwrote, _⟩ := (exec_writeEnds .bwUe rfl hok).1 hfits
    exact ⟨_, e, readUe_of_wroteBits s.args.a0.isLt.le hwrote⟩
  case signed =>
    obtain ⟨m', e, hwrote, _⟩ := (exec_writeEnds .bwSe rfl hok).1 hfits
    refine ⟨_, e, ?_⟩
    have hread := readUe_of_wroteBits (seMap_toInt_le s.args.a0) hwrote
    exact (congrArg seUnmap hread).trans (seUnmap_seMap _)

/-! ### What a write command leaves -/

/-- How a write command that hands over `bs` leaves MEM, the BitCursor and `r0`: the string appended, the flag set, or
both alone (R122, R123, R126, R131). -/
inductive WriteOutcome (s : State) (bs : List Bool) (t : State) : Prop
  | wrote (hfits : s.bw.pos.toNat + bs.length ≤ 8 * s.bw.cap.toNat) (hmem : t.mem = (appended s bs).mem)
      (hbw : t.bw = (appended s bs).bw) (hr : t.res.r0 = 0#32)
  | lost (hmem : t.mem = s.mem) (hbw : t.bw = { s.bw with ovf := true }) (hr : t.res.r0 = BitVec.ofInt 32 (-4))
  | rejected (hmem : t.mem = s.mem) (hbw : t.bw = s.bw) (hr : t.res.r0 = BitVec.ofInt 32 (-9))

theorem writer_outcome {i : Instr} {s : State} {w : Writer} (hw : writerOf s i = some w) :
    ∃ t, exec i s = .next t ∧ WriteOutcome s (writeString i s) t := by
  obtain ⟨hexec, hbits⟩ := exec_of_writerOf hw
  rw [hexec, ← hbits]
  rcases finishWrite_cases w s with ⟨hfits, e⟩ | ⟨_, e⟩
  · exact ⟨_, e, .wrote hfits rfl rfl rfl⟩
  · exact ⟨_, e, .lost rfl rfl rfl⟩

theorem bwBytes_outcome {s : State} (hok : s.bw.ok) :
    ∃ t, exec .bwBytes s = .next t ∧ WriteOutcome s (writeString .bwBytes s) t := by
  rcases execBwBytes_cases s with ⟨_, e⟩ | ⟨hgood, hfits, _⟩ | ⟨_, _, e⟩
  · exact ⟨_, e, .rejected rfl rfl rfl⟩
  · refine ⟨_, bwBytes_fits hok (badBwSource_false.1 hgood) hfits, .wrote ?_ rfl rfl rfl⟩
    rw [writeString_bwBytes_length]; exact hfits
  · exact ⟨_, e, .lost rfl rfl rfl⟩

/-- Every write command completes, in one of the three ways. -/
theorem exec_write_outcome {i : Instr} {s : State} (hi : isWrite i = true) (hok : s.bw.ok) :
    ∃ t, exec i s = .next t ∧ WriteOutcome s (writeString i s) t := by
  cases i with
  | bwBit | bwUe | bwSe | bwAlign => exact writer_outcome rfl
  | bwFixed n =>
    rcases Nat.lt_or_ge 32 n.toNat with hwide | hnarrow
    · exact ⟨_, exec_bwFixed_wide s hwide, .rejected rfl rfl rfl⟩
    · exact writer_outcome (writerOf_bwFixed s hnarrow)
  | bwBytes => exact bwBytes_outcome hok
  | _ => cases hi

/-! ### A run of writes -/

/-- The buffer bits below the cursor stay when a string is appended (R122). -/
theorem bufBit_appended_below {s : State} {bs : List Bool} {k : Nat} (hok : s.bw.ok)
    (hfits : s.bw.pos.toNat + bs.length ≤ 8 * s.bw.cap.toNat) (hk : k < s.bw.pos.toNat) :
    bufBit (appended s bs).mem s.bw.base k = bufBit s.mem s.bw.base k := by
  obtain ⟨_, hkeep⟩ := appended_wrote s bs hok hfits
  refine hkeep _ _ (by omega) fun j hj ⟨haddr, hbit⟩ => ?_
  have := bitAddr_inj (cap := s.bw.cap.toNat) (by omega) (by omega) hok.1 haddr hbit
  omega

/-- `t` is reached from the freshly bound buffer of `s` with the bit string `bits` written into it (R135). -/
structure HoldsPrefix (s t : State) (bits : List Bool) : Prop where
  ok : t.bw.ok
  base : t.bw.base = s.bw.base
  cap : t.bw.cap = s.bw.cap
  pos : t.bw.pos.toNat = bits.length
  bit : ∀ k, k < bits.length → bufBit t.mem s.bw.base k = bits.getD k false
  outside : ∀ a, (a < s.bw.base.toNat ∨ s.bw.base.toNat + s.bw.cap.toNat ≤ a) → memByte t.mem a = memByte s.mem a

/-- Only MEM and the cursor's place matter, not the flag. -/
theorem HoldsPrefix.of_same {s u t : State} {bits : List Bool} {ovf : Bool} (h : HoldsPrefix s u bits)
    (hmem : t.mem = u.mem) (hbw : t.bw = { u.bw with ovf := ovf }) : HoldsPrefix s t bits where
  ok := by rw [hbw]; exact h.ok
  base := by rw [hbw]; exact h.base
  cap := by rw [hbw]; exact h.cap
  pos := by rw [hbw]; exact h.pos
  bit := by rw [hmem]; exact h.bit
  outside := by rw [hmem]; exact h.outside

theorem HoldsPrefix.append {s u t : State} {bits bs : List Bool} (h : HoldsPrefix s u bits)
    (hfits : u.bw.pos.toNat + bs.length ≤ 8 * u.bw.cap.toNat) (hmem : t.mem = (appended u bs).mem)
    (hbw : t.bw = (appended u bs).bw) : HoldsPrefix s t (bits ++ bs) where
  ok := hbw ▸ appended_ok u bs h.ok hfits
  base := by rw [hbw]; exact h.base
  cap := by rw [hbw]; exact h.cap
  pos := by rw [hbw, appended_pos u bs h.ok hfits, h.pos, List.length_append]
  bit k hk := by
    rw [hmem, ← h.base]
    by_cases hold : k < bits.length
    · rw [bufBit_appended_below h.ok hfits (h.pos ▸ hold), h.base, h.bit k hold, List.getD_append _ _ _ _ hold]
    · obtain ⟨hnew, _⟩ := appended_wrote u bs h.ok hfits
      rw [List.length_append] at hk
      have := hnew (k - bits.length) (by omega)
      rw [h.pos, Nat.add_sub_cancel' (by omega)] at this
      rw [this, List.getD_append_right _ _ _ _ (by omega)]
  outside a ha := by
    obtain ⟨_, hout⟩ := appended_mem_spec h.ok hfits
    rw [hmem, hout a (by rw [h.base, h.cap]; exact ha), h.outside a ha]

/-- The invariant of a run of writes that began in `s`: its strings are in the buffer, and the flag is set exactly when
a write was lost (R135). -/
def WriteRun.Law (s : State) (r : WriteRun) : Prop := HoldsPrefix s r.state r.bits ∧ r.state.bw.ovf = r.lost

theorem WriteRun.add_next {r : WriteRun} {c : ArgRegs × Instr} {t : State}
    (h : exec c.2 (r.state.withArgs c.1) = .next t) :
    r.add c = ⟨t, if t.res.r0 = 0#32 then r.bits ++ writeString c.2 (r.state.withArgs c.1) else r.bits,
      r.lost || decide (t.res.r0 = BitVec.ofInt 32 (-4))⟩ := by
  simp only [WriteRun.add, h]

/-- A write command keeps the law. -/
theorem WriteRun.Law.add {s : State} {r : WriteRun} {c : ArgRegs × Instr} (h : r.Law s) (hc : isWrite c.2 = true) :
    (r.add c).Law s := by
  obtain ⟨hpre, hlost⟩ := h
  have hpre' : HoldsPrefix s (r.state.withArgs c.1) r.bits := hpre.of_same rfl rfl
  obtain ⟨t, hexec, hout⟩ := exec_write_outcome hc hpre'.ok
  rw [WriteRun.add_next hexec]
  cases hout with
  | wrote hfits hmem hbw hr =>
    simp only [hr]
    exact ⟨hpre'.append hfits hmem hbw, by rw [hbw]; simpa using hlost⟩
  | lost hmem hbw hr =>
    simp only [hr]
    exact ⟨hpre'.of_same hmem hbw, by rw [hbw]; simp⟩
  | rejected hmem hbw hr =>
    simp only [hr]
    exact ⟨hpre'.of_same hmem hbw, by rw [hbw]; simpa using hlost⟩

theorem WriteRun.Law.addAll {s : State} {r : WriteRun} {cs : List (ArgRegs × Instr)} (h : r.Law s)
    (hcs : ∀ c ∈ cs, isWrite c.2 = true) : (r.addAll cs).Law s := by
  induction cs generalizing r with
  | nil => exact h
  | cons c cs ih =>
    obtain ⟨hc, hrest⟩ := List.forall_mem_cons.1 hcs
    exact ih (h.add hc) hrest

/-- The law holds after a successful `BW_INIT` (R124). -/
theorem WriteRun.law_init {s0 s : State} (h : exec .bwInit s0 = .next s) (hr : s.res.r0 = 0) :
    WriteRun.Law s ⟨s, [], false⟩ := by
  rw [show exec .bwInit s0 = execBwInit s0 from rfl] at h
  rcases execBwInit_cases s0 with ⟨_, e⟩ | ⟨hcap, hspace, e⟩ <;> rw [e] at h <;> rw [finish_next h] at hr ⊢
  · exact absurd hr (show Status.word .illegalOperand ≠ 0 by decide)
  · exact ⟨⟨⟨hspace, hcap, Nat.zero_le _⟩, rfl, rfl, rfl, fun k hk => absurd hk (Nat.not_lt_zero k), fun _ _ => rfl⟩,
      rfl⟩

/-- Settles O18: the law holds after `BW_INIT` and every write command keeps it. -/
theorem prefixLaw : Obligations.PrefixLaw := by
  intro s0 s cs hinit hr hcs
  obtain ⟨hpre, hlost⟩ := (WriteRun.law_init hinit hr).addAll hcs
  exact ⟨hpre.base, hpre.cap, hpre.pos, hpre.bit, hpre.outside, hlost⟩

end Sys2Proof.Machine

/-! SUPPORT. The escaper (41_nal_synth.md R150 to R152): how long its output is, which zeros stand in it, and that the
de-escaper undoes it. -/

namespace Sys2Proof.Machine

/-! ### Length -/

/-- A run of zeros costs one `03` for every two of them, once one is counted (R150). -/
theorem escapeFrom_zeros_length (k : Nat) : (escapeFrom 1 (List.replicate (2 * k) 0#8)).length = 3 * k := by
  induction k with
  | zero => rfl
  | succ k ih =>
    have hstep (bs : List Byte) : escapeFrom 1 (0#8 :: 0#8 :: bs) = 0#8 :: 0x03#8 :: 0#8 :: escapeFrom 1 bs := by
      rw [escapeFrom_copy 1 _ _ (by decide), if_pos rfl, escapeFrom_insert _ _ (by decide), if_pos rfl]
    rw [Nat.mul_succ, List.replicate_succ, List.replicate_succ, hstep]
    simp only [List.length_cons, ih]
    omega

/-- The upper bound of R151 is reached. -/
theorem escape_zeros_length (k : Nat) : (escape (List.replicate (2 * k + 1) 0#8)).length = 3 * k + 2 := by
  have hlast : (List.replicate (2 * k + 1) 0#8).getLast? = some 0#8 := by simp [List.getLast?_replicate]
  rw [escape, if_pos hlast, List.replicate_succ, escapeFrom_copy 0 _ _ (by decide), if_pos rfl, List.length_append,
    List.length_cons, escapeFrom_zeros_length]
  rfl

theorem escape_length_le (x : List Byte) : (escape x).length ≤ x.length + x.length / 2 + 1 := by
  have hloop := (escapeFrom_length 0 x (by omega)).2
  have htrail : (if x.getLast? = some 0#8 then [0x03#8] else []).length ≤ 1 := by split_ifs <;> decide
  rw [escape, List.length_append]
  omega

/-- Settles O20: the bounds of the loop, and the trailing `03`. -/
theorem escapeLength : Obligations.EscapeLength :=
  ⟨fun x => ⟨le_escape_length x, escape_length_le x⟩, fun k => by rw [escape_zeros_length]; omega⟩

/-! ### The last byte -/

/-- An inserted `03` never stands last in what the loop delivers. -/
theorem escapeFrom_getLast? (zc : Nat) (bs : List Byte) : (escapeFrom zc bs).getLast? = bs.getLast? := by
  induction bs generalizing zc with
  | nil => rfl
  | cons b bs ih =>
    by_cases h : zc = 2 ∧ b.toNat < 4
    · obtain ⟨rfl, hb⟩ := h
      rw [escapeFrom_insert b bs hb, List.getLast?_cons_cons, List.getLast?_cons, ih, List.getLast?_cons]
    · rw [escapeFrom_copy zc b bs h, List.getLast?_cons, ih, List.getLast?_cons]

theorem escape_getLast?_ne_zero (x : List Byte) : (escape x).getLast? ≠ some 0#8 := by
  rw [escape]
  split_ifs with hzero
  · rw [List.getLast?_concat]; decide
  · rw [List.append_nil, escapeFrom_getLast?]; exact hzero

/-! ### Unescape -/

/-- The last byte so far, when a byte has just been read. -/
theorem getLast?_cons_or (b : Byte) (bs : List Byte) (prev : Option Byte) :
    (b :: bs).getLast?.or prev = bs.getLast?.or (some b) := by
  rw [List.getLast?_cons]
  cases bs.getLast? <;> rfl

/-- The de-escaper drops a `03` after two zeros. -/
theorem unescapeFrom_drop (prev : Option Byte) (bs : List Byte) :
    unescapeFrom 2 prev (0x03#8 :: bs) = unescapeFrom 0 (some 0x03#8) bs := by
  rw [unescapeFrom, if_pos ⟨rfl, rfl⟩]

/-- The de-escaper keeps a byte that is neither such a `03` nor the trailing one. -/
theorem unescapeFrom_keep {zc : Nat} {prev : Option Byte} {b : Byte} {bs : List Byte} (h : ¬ (zc = 2 ∧ b = 3#8))
    (htrail : ¬ (bs = [] ∧ b = 3#8 ∧ prev = some 0#8)) :
    unescapeFrom zc prev (b :: bs) = b :: unescapeFrom (if b = 0#8 then zc + 1 else 0) (some b) bs := by
  rw [unescapeFrom, if_neg h, if_neg htrail]

/-- The de-escaper drops the trailing `03` that `Escape` puts after a zero. -/
theorem unescapeFrom_trailing (zc : Nat) (prev : Option Byte) :
    unescapeFrom zc prev (if prev = some 0#8 then [0x03#8] else []) = [] := by
  split_ifs with hzero
  · rw [unescapeFrom]
    split_ifs with hdrop hend
    · rfl
    · rfl
    · exact absurd ⟨rfl, rfl, hzero⟩ hend
  · rfl

/-- Both loops count the same zeros, so from any point the de-escaper reads back what is left of the input; `prev` is
the byte before that point. -/
theorem unescapeFrom_escapeFrom (zc : Nat) (prev : Option Byte) (bs : List Byte) (hz : zc ≤ 2)
    (hlast : bs.getLast? ≠ some 0x03#8) :
    unescapeFrom zc prev (escapeFrom zc bs ++ if bs.getLast?.or prev = some 0#8 then [0x03#8] else []) = bs := by
  induction bs generalizing zc prev with
  | nil => exact unescapeFrom_trailing zc prev
  | cons b bs ih =>
    have hrest : bs.getLast? ≠ some 0x03#8 := fun h => hlast (by rw [List.getLast?_cons, h]; rfl)
    rw [getLast?_cons_or]
    by_cases h : zc = 2 ∧ b.toNat < 4
    · obtain ⟨rfl, hb⟩ := h
      rw [escapeFrom_insert b bs hb, List.cons_append, List.cons_append, unescapeFrom_drop,
        unescapeFrom_keep (by simp) (by simp), ih _ _ (by split_ifs <;> omega) hrest]
    · have hcopied : ¬ (zc = 2 ∧ b = 3#8) := fun ⟨hzc, hb⟩ => h ⟨hzc, by rw [hb]; decide⟩
      have hinner (t : List Byte) :
          ¬ (escapeFrom (if b = 0#8 then zc + 1 else 0) bs ++ t = [] ∧ b = 3#8 ∧ prev = some 0#8) := by
        rintro ⟨hnil, rfl, -⟩
        have hout := escapeFrom_getLast? (if 3#8 = 0#8 then zc + 1 else 0) bs
        rw [(List.append_eq_nil_iff.1 hnil).1] at hout
        exact hlast (by rw [List.getLast?_cons, ← hout]; rfl)
      rw [escapeFrom_copy zc b bs h, List.cons_append, unescapeFrom_keep hcopied (hinner _),
        ih _ _ (zeroCount_le hz h) hrest]

/-- Settles O21: the loops undo each other from the first byte on; the collision is that of R152. -/
theorem escapeInverse : Obligations.EscapeInverse := by
  refine ⟨fun x hlast => ?_, by decide⟩
  have h := unescapeFrom_escapeFrom 0 none x (by omega) hlast
  rwa [Option.or_none] at h

/-! ### Zeros in a sequence -/

/-- The zeros that end a sequence read after `zc` zeros, counted as R150 counts them. -/
def zerosAfter (zc : Nat) (bs : List Byte) : Nat := bs.foldl (fun z b => if b = 0#8 then z + 1 else 0) zc

@[simp] theorem zerosAfter_cons (zc : Nat) (b : Byte) (bs : List Byte) :
    zerosAfter zc (b :: bs) = zerosAfter (if b = 0#8 then zc + 1 else 0) bs := rfl

theorem zerosAfter_two_zeros (zc : Nat) (bs : List Byte) : zerosAfter zc (bs ++ [0#8, 0#8]) = zerosAfter zc bs + 2 := by
  rw [zerosAfter, List.foldl_append]
  rfl

/-- No byte below `d` comes when two zeros are counted, of which `zc` before the sequence. -/
def bytesAtLeast (d : Nat) : Nat → List Byte → Prop
  | _, [] => True
  | zc, b :: bs => (zc = 2 → d ≤ b.toNat) ∧ bytesAtLeast d (if b = 0#8 then zc + 1 else 0) bs

theorem bytesAtLeast_append (d zc : Nat) (xs ys : List Byte) :
    bytesAtLeast d zc (xs ++ ys) ↔ bytesAtLeast d zc xs ∧ bytesAtLeast d (zerosAfter zc xs) ys := by
  induction xs generalizing zc with
  | nil => exact (iff_of_eq (true_and _)).symm
  | cons x xs ih => rw [List.cons_append, bytesAtLeast, ih, bytesAtLeast, zerosAfter_cons, and_assoc]

/-- A third zero in a row is a byte below `d`, so at most two are counted. -/
theorem zerosAfter_le {d zc : Nat} {bs : List Byte} (hd : 0 < d) (hz : zc ≤ 2) (h : bytesAtLeast d zc bs) :
    zerosAfter zc bs ≤ 2 := by
  induction bs generalizing zc with
  | nil => exact hz
  | cons b bs ih =>
    obtain ⟨hb, hrest⟩ := h
    refine ih (zc := if b = 0#8 then zc + 1 else 0) ?_ hrest
    split_ifs with hzero
    · have : zc ≠ 2 := fun hzc => absurd (hb hzc) (by rw [hzero]; exact Nat.not_le.2 hd)
      omega
    · omega

/-- No two zero bytes of `y` are followed by a byte below `d`. -/
def zerosGuarded (d : Nat) (y : List Byte) : Prop :=
  ∀ (k : Nat) (b : Byte), y[k]? = some 0#8 → y[k + 1]? = some 0#8 → y[k + 2]? = some b → d ≤ b.toNat

theorem zerosGuarded_cons (d : Nat) (a : Byte) (y : List Byte) :
    zerosGuarded d (a :: y) ↔
      (a = 0#8 → y[0]? = some 0#8 → ∀ b, y[1]? = some b → d ≤ b.toNat) ∧ zerosGuarded d y := by
  constructor
  · exact fun h => ⟨fun ha h1 b h2 => h 0 b (congrArg some ha) h1 h2, fun k b h0 h1 h2 => h (k + 1) b h0 h1 h2⟩
  · rintro ⟨hfirst, hrest⟩ k b h0 h1 h2
    cases k with
    | zero => exact hfirst (Option.some.inj h0) h1 b h2
    | succ k => exact hrest k b h0 h1 h2

theorem zerosGuarded_zeros (d : Nat) {n : Nat} (hn : n ≤ 2) : zerosGuarded d (List.replicate n 0#8) := by
  intro k b _ _ h2
  rw [List.getElem?_replicate, if_neg (by omega)] at h2
  cases h2

/-- A nonzero byte ends the zeros before it. -/
theorem zerosGuarded_zeros_cons {d zc : Nat} {b : Byte} (y : List Byte) (hz : zc ≤ 2) (hb : b ≠ 0#8) :
    zerosGuarded d (List.replicate zc 0#8 ++ b :: y) ↔ (zc = 2 → d ≤ b.toNat) ∧ zerosGuarded d y := by
  interval_cases zc <;> simp [List.replicate_succ, zerosGuarded_cons, hb]

/-- Counting zeros finds the places where two zeros stand. -/
theorem bytesAtLeast_iff {d zc : Nat} (y : List Byte) (hd : 0 < d) (hz : zc ≤ 2) :
    bytesAtLeast d zc y ↔ zerosGuarded d (List.replicate zc 0#8 ++ y) := by
  induction y generalizing zc with
  | nil => simp [bytesAtLeast, zerosGuarded_zeros d hz]
  | cons b y ih =>
    rw [bytesAtLeast]
    by_cases hb : b = 0#8
    · subst hb
      rw [if_pos rfl]
      rcases Nat.lt_or_ge zc 2 with hlt | hge
      · rw [ih (by omega), List.replicate_succ', List.append_assoc, List.singleton_append]
        exact and_iff_right (by omega)
      · obtain rfl : zc = 2 := by omega
        exact ⟨fun ⟨h, _⟩ => absurd (h rfl) (Nat.not_le.2 hd), fun h => absurd (h 0 0#8 rfl rfl rfl) (Nat.not_le.2 hd)⟩
    · rw [if_neg hb, ih (by omega), zerosGuarded_zeros_cons y hz hb]
      rfl

theorem bytesAtLeast_zero_iff {d : Nat} (y : List Byte) (hd : 0 < d) : bytesAtLeast d 0 y ↔ zerosGuarded d y :=
  bytesAtLeast_iff y hd (by omega)

theorem bytesAtLeast_of_nothingToEscape {x : List Byte} (h : nothingToEscape x) : bytesAtLeast 4 0 x :=
  (bytesAtLeast_zero_iff x (by decide)).2 h

/-! ### Where `03` is inserted -/

/-- After two counted zeros the loop delivers no byte below 3 (R150). -/
theorem bytesAtLeast_escapeFrom (zc : Nat) (bs : List Byte) : bytesAtLeast 3 zc (escapeFrom zc bs) := by
  induction bs generalizing zc with
  | nil => trivial
  | cons b bs ih =>
    by_cases h : zc = 2 ∧ b.toNat < 4
    · obtain ⟨rfl, hb⟩ := h
      rw [escapeFrom_insert b bs hb]
      exact ⟨fun _ => by decide, fun h0 => absurd h0 (by decide), ih _⟩
    · rw [escapeFrom_copy zc b bs h]
      exact ⟨fun hzc => by omega, ih _⟩

theorem zerosGuarded_escape (x : List Byte) : zerosGuarded 3 (escape x) := by
  rw [← bytesAtLeast_zero_iff _ (by decide), escape, bytesAtLeast_append]
  refine ⟨bytesAtLeast_escapeFrom 0 x, ?_⟩
  split_ifs
  · exact ⟨fun _ => by decide, trivial⟩
  · trivial

/-- Where no byte below 4 comes after two counted zeros, the loop copies and counts (R150). -/
theorem escapeFrom_append (zc : Nat) (xs ys : List Byte) (h : bytesAtLeast 4 zc xs) :
    escapeFrom zc (xs ++ ys) = xs ++ escapeFrom (zerosAfter zc xs) ys := by
  induction xs generalizing zc with
  | nil => rfl
  | cons x xs ih =>
    obtain ⟨hx, hxs⟩ := h
    have hcopied : ¬ (zc = 2 ∧ x.toNat < 4) := fun ⟨hzc, hlow⟩ => absurd (hx hzc) (Nat.not_le.2 hlow)
    rw [List.cons_append, escapeFrom_copy zc x _ hcopied, ih _ hxs, zerosAfter_cons, List.cons_append]

theorem escape_of_nothingToEscape {x : List Byte} (h : nothingToEscape x) :
    escape x = x ++ (if x.getLast? = some 0#8 then [0x03#8] else []) := by
  have hcopy := escapeFrom_append 0 x [] (bytesAtLeast_of_nothingToEscape h)
  rw [List.append_nil, escapeFrom_nil, List.append_nil] at hcopy
  rw [escape, hcopy]

/-- After an inserted `03` the loop stands where it stands with no zero counted (R150). -/
theorem escapeFrom_two {b : Byte} (v : List Byte) (hb : b.toNat < 4) :
    escapeFrom 2 (b :: v) = 0x03#8 :: escapeFrom 0 (b :: v) := by
  rw [escapeFrom_insert b v hb, escapeFrom_copy 0 b v (by omega)]

/-- Two zeros at the end of a sequence without such a place are the only ones counted there. -/
theorem zerosAfter_eq_two {u : List Byte} (h : bytesAtLeast 4 0 (u ++ [0#8, 0#8])) :
    zerosAfter 0 (u ++ [0#8, 0#8]) = 2 := by
  have hle := zerosAfter_le (by decide) (by decide) h
  rw [zerosAfter_two_zeros] at hle ⊢
  omega

theorem escape_first_insert {u : List Byte} (v : List Byte) {b : Byte} (h : nothingToEscape (u ++ [0#8, 0#8]))
    (hb : b.toNat < 4) : escape (u ++ [0#8, 0#8] ++ b :: v) = u ++ [0#8, 0#8, 0x03#8] ++ escape (b :: v) := by
  have hbytes := bytesAtLeast_of_nothingToEscape h
  have hlast : (u ++ [0#8, 0#8] ++ b :: v).getLast? = (b :: v).getLast? := by
    rw [List.getLast?_append, List.getLast?_cons]; rfl
  rw [escape, hlast, escapeFrom_append _ _ _ hbytes, zerosAfter_eq_two hbytes, escapeFrom_two v hb, escape]
  simp

/-- Settles O22: the loop leaves no low byte after two counted zeros, and copies up to the first one it finds. -/
theorem escapeHidesStartCodes : Obligations.EscapeHidesStartCodes :=
  ⟨fun x => ⟨escape_getLast?_ne_zero x, zerosGuarded_escape x⟩, fun _ => escape_of_nothingToEscape,
    fun _ v _ h hb => escape_first_insert v h hb⟩

end Sys2Proof.Machine

/-! SUPPORT. The copies `NS_ESCAPE` and `NS_NAL` (41_nal_synth.md R153 to R156) and the PPS (R174, R175). -/

namespace Sys2Proof.Machine

/-! ### The copies -/

/-- The checks of R153 and R156 are those of R69. -/
theorem copyChecks_false {a b : Word} {la lb : Nat} :
    (rangeWraps a la || rangeWraps b lb || rangesMeet a la b lb) = false ↔ ¬ rangesIllegal a la b lb := by
  simp only [Bool.or_eq_false_iff, rangeWraps_false, rangesMeet_false, rangesIllegal, memSize]
  omega

theorem copyChecks_true {a b : Word} {la lb : Nat} :
    (rangeWraps a la || rangeWraps b lb || rangesMeet a la b lb) = true ↔ rangesIllegal a la b lb := by
  rw [← Bool.not_eq_false, copyChecks_false, not_not]

/-- The copy ends in one of three ways, whatever bytes lead it (R153, R154, R156). -/
theorem escapeInto_ends (lead : List Byte) (s : State) :
    copyEnds s (lead ++ escape (memRead s.mem s.args.a0.toNat s.args.a1.toNat)) (escapeInto lead s) := by
  rcases escapeInto_cases lead s with ⟨hbad, e⟩ | ⟨hgood, hlong, e⟩ | ⟨hgood, hfits, e⟩ <;> rw [e]
  · have hillegal := copyChecks_true.1 hbad
    exact ⟨fun _ => rfl, fun h => absurd hillegal h, fun h => absurd hillegal h⟩
  · refine ⟨fun h => absurd h (copyChecks_false.1 hgood), fun _ h => absurd hlong (Nat.not_lt.2 h), fun _ _ => ?_⟩
    exact ⟨_, _, rfl, fun a ha => memByte_abortDest s _ _ a (by omega)⟩
  · refine ⟨fun h => absurd h (copyChecks_false.1 hgood), fun _ _ => ?_, fun _ h => absurd hfits (Nat.not_le.2 h)⟩
    exact ⟨_, rfl, memRead_putBytes _ _ _, fun a ha => by rw [memByte_putBytes, if_neg (by omega)]⟩

/-- Settles O23: a copy with nothing before it. -/
theorem nsEscapeDelivers : Obligations.NsEscapeDelivers := fun s => ⟨escapeInto_ends [] s, memRead_eq_map⟩

/-- The header byte as a number (R155). -/
theorem nalHeader_eq (t : BitVec 5) : nalHeader t = BitVec.ofNat 8 (0x60 + t.toNat) := by
  have ht := t.isLt
  refine BitVec.eq_of_toNat_eq ?_
  rw [nalHeader, BitVec.toNat_append, ← Nat.shiftLeft_add_eq_or_of_lt ht, BitVec.toNat_ofNat]
  simp only [Nat.shiftLeft_eq, BitVec.toNat_ofNat]
  omega

/-- Settles O24: a copy after the start code and the header byte. -/
theorem nsNalDelivers : Obligations.NsNalDelivers := by
  intro s t
  rw [← nalHeader_eq]
  exact escapeInto_ends (nalLead t) s

/-! ### The PPS -/

/-- Rows 1 to 18 of the PPS (R174). -/
def ppsRows (m : Memory) (blk : Word) : List Writer := (ppsWriters m blk).dropLast

theorem ppsWriters_eq (m : Memory) (blk : Word) : ppsWriters m blk = ppsRows m blk ++ [Writer.trail] := rfl

theorem writerBits_ppsRows (pos : Nat) (m : Memory) (blk : Word) :
    writerBits pos (ppsRows m blk) = ppsString (blockWord m blk) := by
  simp only [ppsRows, ppsWriters, List.dropLast, ppsString, writerBits_u, writerBits_ue, writerBits_se,
    writerBits_nil, List.append_assoc, List.append_nil]
  rfl

/-- The RBSP of `NS_PPS` is what its writers write from the buffer's first bit (R160, R174). -/
theorem ppsRbsp_eq (s : State) : s.ppsRbsp = writerBits 0 (ppsRows s.mem s.args.a3 ++ [Writer.trail]) := by
  rw [writerBits_withTrailing, writerBits_ppsRows]
  rfl

/-- Settles O26: the check is that of R175, and the writers spell the PPS row by row. -/
theorem nsPpsWrites : Obligations.NsPpsWrites := by
  refine fun s => ⟨fun hillegal => ?_, fun hok hlegal => ?_⟩
  · rcases execNsPps_cases s with ⟨_, e⟩ | ⟨hgood, _⟩
    · exact e
    · exact absurd (badBwSource_false.1 hgood) hillegal
  · rcases execNsPps_cases s with ⟨hbad, _⟩ | ⟨_, e⟩
    · rw [badBwSource_false.2 hlegal] at hbad; cases hbad
    · rw [show exec .nsPps s = execNsPps s from rfl, e, ppsRbsp_eq, ppsWriters_eq]
      exact emitRbsp_ends _ s hok

end Sys2Proof.Machine

/-! SUPPORT. The scanner as the table of R215 (42_framer.md R199 to R211): a step is a row of the table and at most
one event. -/

namespace Sys2Proof.Machine

/-! ### Classifier bytes -/

/-- The 6-bit mark of a short header, as a range of bytes (R202). -/
theorem isShortMark_iff (b : Byte) : isShortMark b = true ↔ 0x80 ≤ b.toNat ∧ b.toNat ≤ 0x83 := by
  rw [isShortMark, decide_eq_true_iff]
  omega

/-- Bit 7 of the slice header's first byte, as a bound (R210). -/
theorem getLsbD_seven_iff (b : Byte) : b.getLsbD 7 = true ↔ 0x80 ≤ b.toNat := by
  have hb := b.isLt
  rw [BitVec.getLsbD, Nat.testBit_eq_decide_div_mod_eq, decide_eq_true_iff]
  omega

/-- The tag of the event that a class of start code raises at once (R204). -/
def ScClass.tag : ScClass → Option Tag
  | .header => some .header
  | .picture => some .picture
  | .slice => none
  | .other => none

/-! ### One step as a row of the table -/

/-- The event, if there is one, goes through the boundary rule. -/
def Framer.raise (f : Framer) : Option (Nat × Tag) → Framer
  | none => f
  | some (off, tag) => onEvent off tag f

/-- A scanner step as its row of the table says it (R215). -/
def tableStep (codes : List Byte) (b : Byte) (f : Framer) : Framer :=
  { f.raise (stepEvent codes b f) with
    st := nextScan f.mode f.st b
    read := f.read + 1
    scStart := stepScStart b f
    shLead := stepShLead codes b f }

section

variable {codes : List Byte} {b : Byte} {f : Framer} {st : ScanState} {sc : Nat} {sh : Bool}

/-- A row without an event. -/
theorem tableStep_quiet (hevent : stepEvent codes b f = none) (hst : nextScan f.mode f.st b = st)
    (hsc : stepScStart b f = sc) (hsh : stepShLead codes b f = sh) :
    tableStep codes b f = { f.stepTo st with scStart := sc, shLead := sh } := by
  rw [tableStep, hevent, hst, hsc, hsh]
  rfl

/-- A row with an event: the boundary rule does not see the fields that the row itself sets. -/
theorem tableStep_event {off : Nat} {tag : Tag} (hevent : stepEvent codes b f = some (off, tag))
    (hst : nextScan f.mode f.st b = st) (hsc : stepScStart b f = sc) (hsh : stepShLead codes b f = sh) :
    tableStep codes b f = onEvent off tag { f.stepTo st with scStart := sc, shLead := sh } := by
  rw [tableStep, hevent, hst, hsc, hsh]
  exact (onEvent_with off tag f st (f.read + 1) sc sh).symm

end

/-! ### The rows, by scanner state -/

theorem stepEvent_saw2 {f : Framer} (codes : List Byte) (b : Byte) (hst : f.st = .saw0x2) :
    stepEvent codes b f = if f.mode = .mpeg4 ∧ isShortMark b = true
      then some (f.read - 2, if f.shLead then .picture else .header) else none := by
  simp only [isShortMark_iff]
  cases hm : f.mode <;> simp [stepEvent, hst, hm]

theorem stepShLead_saw2 {f : Framer} (codes : List Byte) (b : Byte) (hst : f.st = .saw0x2) :
    stepShLead codes b f = if f.mode = .mpeg4 ∧ isShortMark b = true then true else f.shLead := by
  simp only [isShortMark_iff]
  cases hm : f.mode <;> simp [stepShLead, hst, hm]

theorem nextScan_saw2_zero (m : Mode) : nextScan m .saw0x2 0#8 = if m = .h264 then .saw0x3 else .saw0x2 := by
  cases m <;> rfl

theorem stepSaw2_table (codes : List Byte) (b : Byte) {f : Framer} (hst : f.st = .saw0x2) :
    stepSaw2 b f = tableStep codes b f := by
  have hevent := stepEvent_saw2 codes b hst
  have hlead := stepShLead_saw2 codes b hst
  have hstart : stepScStart b f = if b = 1#8 then f.read - 2 else f.scStart := by rw [stepScStart, hst]
  have hnext : nextScan f.mode f.st b = if b = 1#8 then .sawStartCode else if b = 0#8 then
      if f.mode = .h264 then .saw0x3 else .saw0x2 else .idle := by
    rw [hst]
    cases f.mode <;> rfl
  unfold stepSaw2
  by_cases hshort : f.mode = .mpeg4 ∧ isShortMark b = true
  · have hone : b ≠ 1#8 := by rintro rfl; exact absurd hshort.2 (by decide)
    have hzero : b ≠ 0#8 := by rintro rfl; exact absurd hshort.2 (by decide)
    rw [if_pos hshort] at hevent hlead
    rw [if_neg hone] at hstart hnext
    rw [if_neg hzero] at hnext
    rw [if_neg hone, if_neg hzero, if_pos hshort]
    exact (tableStep_event hevent hnext hstart hlead).symm
  · rw [if_neg hshort] at hevent hlead
    rw [tableStep_quiet hevent hnext hstart hlead, if_neg hshort]
    split_ifs <;> rfl

theorem stepSaw3_table (codes : List Byte) (b : Byte) {f : Framer} (hst : f.st = .saw0x3) (hmode : f.mode = .h264) :
    stepSaw3 b f = tableStep codes b f := by
  have hevent : stepEvent codes b f = none := by rw [stepEvent, hst, hmode]
  have hlead : stepShLead codes b f = f.shLead := by rw [stepShLead, hst, hmode]
  have hstart : stepScStart b f = if b = 1#8 then f.read - 3 else f.scStart := by rw [stepScStart, hst]
  have hnext : nextScan f.mode f.st b = if b = 1#8 then .sawStartCode else if b = 0#8 then .saw0x3 else .idle := by
    rw [hst, nextScan]
  rw [tableStep_quiet hevent hnext hstart hlead, stepSaw3, if_pos hmode]
  split_ifs <;> rfl

theorem stepEvent_classify {f : Framer} (p : Config.Params) (b : Byte) (hst : f.st = .sawStartCode) :
    stepEvent p.mpeg4HeaderCodes b f = (classify p f.mode b).tag.map fun tag => (f.scStart, tag) := by
  cases hm : f.mode with
  | h264 =>
    simp only [stepEvent, hst, hm, classify, classifyH264]
    split_ifs <;> rfl
  | mpeg4 =>
    simp only [stepEvent, hst, hm, classify, classifyMpeg4]
    split_ifs <;> rfl
  | mpeg12 =>
    simp only [stepEvent, hst, hm, classify, classifyMpeg12]
    split_ifs <;> rfl

theorem stepShLead_classify {f : Framer} (p : Config.Params) (b : Byte) (hst : f.st = .sawStartCode) :
    stepShLead p.mpeg4HeaderCodes b f =
      if f.mode = .mpeg4 ∧ classify p f.mode b = .header then false else f.shLead := by
  cases hm : f.mode with
  | h264 => simp [stepShLead, hst, hm]
  | mpeg12 => simp [stepShLead, hst, hm]
  | mpeg4 =>
    simp only [stepShLead, hst, hm, classify, classifyMpeg4]
    split_ifs <;> simp_all

theorem classify_slice (p : Config.Params) (m : Mode) (b : Byte) :
    classify p m b = .slice ↔ m = .h264 ∧ (b.toNat % 32 = 1 ∨ b.toNat % 32 = 5) := by
  cases m with
  | h264 =>
    simp only [classify, classifyH264]
    split_ifs with hheader hslice
    · simp only [true_and, false_iff]
      omega
    · simp [hslice]
    · simp [hslice]
  | mpeg4 =>
    simp only [classify, classifyMpeg4]
    split_ifs <;> simp
  | mpeg12 =>
    simp only [classify, classifyMpeg12]
    split_ifs <;> simp

theorem nextScan_classify (p : Config.Params) (m : Mode) (b : Byte) :
    nextScan m .sawStartCode b = if classify p m b = .slice then .inSliceLookahead else rescan b := by
  simp only [classify_slice]
  cases m <;> simp [nextScan, rescanTo, rescan]

theorem stepClassify_table (p : Config.Params) (b : Byte) {f : Framer} (hst : f.st = .sawStartCode) :
    stepClassify p b f = tableStep p.mpeg4HeaderCodes b f := by
  have hevent := stepEvent_classify p b hst
  have hlead := stepShLead_classify p b hst
  have hstart : stepScStart b f = f.scStart := by rw [stepScStart, hst]
  have hnext := nextScan_classify p f.mode b
  rw [← hst] at hnext
  unfold stepClassify
  cases hclass : classify p f.mode b <;> rw [hclass] at hevent hlead hnext
  case slice | other =>
    exact (tableStep_quiet hevent hnext hstart (hlead.trans (if_neg (by simp)))).symm
  case picture =>
    exact (tableStep_event hevent hnext hstart (hlead.trans (if_neg (by simp)))).symm
  case header =>
    have hrescan := hnext.trans (if_neg (by simp))
    show onEvent f.scStart .header (f.stepTo (rescan b)).normalHeader = _
    by_cases hm : f.mode = .mpeg4
    · rw [show (f.stepTo (rescan b)).normalHeader = { f.stepTo (rescan b) with shLead := false } from if_pos hm]
      exact (tableStep_event hevent hrescan hstart (hlead.trans (if_pos ⟨hm, rfl⟩))).symm
    · rw [show (f.stepTo (rescan b)).normalHeader = f.stepTo (rescan b) from if_neg hm]
      exact (tableStep_event hevent hrescan hstart (hlead.trans (if_neg fun h => hm h.1))).symm

theorem stepLookahead_table (codes : List Byte) (b : Byte) {f : Framer} (hst : f.st = .inSliceLookahead)
    (hmode : f.mode = .h264) : stepLookahead b f = tableStep codes b f := by
  have hevent : stepEvent codes b f = if b.getLsbD 7 then some (f.scStart, .picture) else none := by
    simp only [stepEvent, hst, hmode, getLsbD_seven_iff]
  have hlead : stepShLead codes b f = f.shLead := by rw [stepShLead, hst, hmode]
  have hstart : stepScStart b f = f.scStart := by rw [stepScStart, hst]
  have hnext : nextScan f.mode f.st b = rescan b := by rw [hst]; rfl
  unfold stepLookahead
  cases hbit : b.getLsbD 7 <;> rw [hbit] at hevent
  · exact (tableStep_quiet hevent hnext hstart hlead).symm
  · exact (tableStep_event hevent hnext hstart hlead).symm

/-- A scanner step is its row of the table, in every state that the mode reaches (R215). -/
theorem scanStep_eq_tableStep (p : Config.Params) (b : Byte) (f : Framer)
    (hreach : f.mode ≠ .h264 → f.st ≠ .saw0x3 ∧ f.st ≠ .inSliceLookahead) :
    scanStep p b f = tableStep p.mpeg4HeaderCodes b f := by
  unfold scanStep
  cases hst : f.st with
  | idle | saw0x1 =>
    refine (tableStep_quiet ?_ (by rw [hst]; rfl) (by rw [stepScStart, hst]) ?_).symm
    · cases hm : f.mode <;> simp [stepEvent, hst, hm]
    · cases hm : f.mode <;> simp [stepShLead, hst, hm]
  | saw0x2 => exact stepSaw2_table _ b hst
  | saw0x3 => exact stepSaw3_table _ b hst (not_not.1 fun hm => (hreach hm).1 hst)
  | sawStartCode => exact stepClassify_table p b hst
  | inSliceLookahead => exact stepLookahead_table _ b hst (not_not.1 fun hm => (hreach hm).2 hst)

theorem raise_flow (f : Framer) (e : Option (Nat × Tag)) : SameFlow f (f.raise e) := by
  cases e with
  | none => exact SameFlow.refl f
  | some x => exact (onEvent_flow x.1 x.2 f).1

/-- A row changes neither what the host drives nor the mode. -/
theorem tableStep_flow (codes : List Byte) (b : Byte) (f : Framer) : SameFlow f (tableStep codes b f) := by
  obtain ⟨hvalid, hhead, htail, hmode, hgetHead, hring⟩ := raise_flow f (stepEvent codes b f)
  exact ⟨hvalid, hhead, htail, hmode, hgetHead, hring⟩

/-- Settles O31: a step is its row of the table. -/
theorem scannerTable : Obligations.ScannerTable := by
  intro p b f hreach
  rw [scanStep_eq_tableStep p b f hreach]
  obtain ⟨hvalid, hhead, htail, hmode, hgetHead, hring⟩ := tableStep_flow p.mpeg4HeaderCodes b f
  refine ⟨rfl, rfl, hhead, htail, hmode, hring, hvalid, hgetHead, rfl, rfl, fun hevent => ?_,
    fun off tag hevent => ?_⟩ <;> rw [tableStep, hevent] <;> rfl

/-! ### Start codes -/

/-- The state of a scanner that was idle before `n` zero bytes (R200 to R203). -/
def zeroRun (m : Mode) : Nat → ScanState
  | 0 => .idle
  | 1 => .saw0x1
  | 2 => .saw0x2
  | _ + 3 => if m = .h264 then .saw0x3 else .saw0x2

theorem zeroRun_succ (m : Mode) (n : Nat) : nextScan m (zeroRun m n) 0#8 = zeroRun m (n + 1) := by
  match n with
  | 0 | 1 => rfl
  | 2 => exact nextScan_saw2_zero m
  | n + 3 => cases m <;> rfl

theorem zeroRun_reach (m : Mode) (n : Nat) (hm : m ≠ .h264) :
    zeroRun m n ≠ .saw0x3 ∧ zeroRun m n ≠ .inSliceLookahead := by
  match n with
  | 0 | 1 | 2 => exact ⟨by simp [zeroRun], by simp [zeroRun]⟩
  | n + 3 => rw [zeroRun, if_neg hm]; exact ⟨by simp, by simp⟩

theorem zeroRun_long (m : Mode) {n : Nat} (hn : 2 ≤ n) :
    zeroRun m n = if m = .h264 ∧ 3 ≤ n then .saw0x3 else .saw0x2 := by
  match n with
  | 2 => rw [if_neg (by omega)]; rfl
  | n + 3 => simp [zeroRun]

theorem feed_append (p : Config.Params) (xs ys : List Byte) (f : Framer) :
    feed p (xs ++ ys) f = feed p ys (feed p xs f) := List.foldl_append

/-- Where a run of zeros leaves an idle scanner. -/
theorem feed_zeros (p : Config.Params) {f : Framer} (hst : f.st = .idle) (n : Nat) :
    (feed p (List.replicate n 0#8) f).st = zeroRun f.mode n ∧
    (feed p (List.replicate n 0#8) f).read = f.read + n ∧ (feed p (List.replicate n 0#8) f).mode = f.mode := by
  induction n with
  | zero => exact ⟨hst, rfl, rfl⟩
  | succ n ih =>
    obtain ⟨hrun, hread, hmode⟩ := ih
    rw [List.replicate_succ', feed_append]
    generalize feed p (List.replicate n 0#8) f = g at hrun hread hmode ⊢
    have hreach : g.mode ≠ .h264 → g.st ≠ .saw0x3 ∧ g.st ≠ .inSliceLookahead := by
      rw [hmode, hrun]
      exact zeroRun_reach f.mode n
    obtain ⟨hst', hread', _, _, hmode', _⟩ := scannerTable p 0#8 g hreach
    refine ⟨?_, ?_, hmode'.trans hmode⟩
    · exact hst'.trans (by rw [hmode, hrun, zeroRun_succ])
    · exact hread'.trans (by omega)

/-- Settles O33: the zeros lead to `Saw0x2` or `Saw0x3`, and the byte 1 from there to `SawStartCode`. -/
theorem startCodeRecognised : Obligations.StartCodeRecognised := by
  intro p f n hst hn
  obtain ⟨hrun, hread, hmode⟩ := feed_zeros p hst n
  rw [feed_append]
  generalize feed p (List.replicate n 0#8) f = g at hrun hread hmode ⊢
  have hreach : g.mode ≠ .h264 → g.st ≠ .saw0x3 ∧ g.st ≠ .inSliceLookahead := by
    rw [hmode, hrun]
    exact zeroRun_reach f.mode n
  obtain ⟨hst', hread', _, _, _, _, _, _, hstart', _⟩ := scannerTable p 1#8 g hreach
  rw [zeroRun_long f.mode hn] at hrun
  refine ⟨hst'.trans ?_, hread'.trans (by omega), hstart'.trans ?_⟩
  · rw [hrun]
    split_ifs <;> rfl
  · rw [stepScStart, hrun, hread]
    by_cases hlong : f.mode = .h264 ∧ 3 ≤ n
    · rw [if_pos hlong, if_pos hlong]
      rfl
    · rw [if_neg hlong, if_neg hlong]
      rfl

end Sys2Proof.Machine

/-! SUPPORT. Events and units (42_framer.md R209, R212): the boundary rule row by row, what a scan that finds a
boundary leaves, and what every command keeps of `FR.mode` and `FR.get_head`. -/

namespace Sys2Proof.Machine

/-! ### The boundary rule -/

theorem satInc_eq (c : Word) : satInc c = if c = 0xFFFFFFFF#32 then 0xFFFFFFFF#32 else c + 1 := by
  rw [satInc, show BitVec.allOnes 32 = 0xFFFFFFFF#32 from rfl]
  split_ifs with h
  · exact h
  · rfl

theorem startUnit_eq (f : Framer) (off : Nat) :
    f.startUnit off = { f with unitStart := if f.hdrCnt = 0 then off else f.unitStart } := by
  unfold Framer.startUnit
  split_ifs <;> rfl

theorem onEvent_head {f : Framer} (h : f.getHead = true) (off : Nat) (tag : Tag) :
    onEvent off tag f = onEventHead off tag { f with lastTag := tag } := if_pos h

theorem onEvent_normal {f : Framer} (h : f.getHead = false) (off : Nat) (tag : Tag) :
    onEvent off tag f = onEventNormal off tag { f with lastTag := tag } := if_neg (by rw [h]; simp)

/-- A HEADER event that ends no unit counts toward the unit being assembled. -/
theorem onEvent_header_counts {f : Framer} (h : f.getHead = true ∨ f.picCnt = 0) (off : Nat) :
    onEvent off .header f =
      { f with lastTag := .header, unitStart := if f.hdrCnt = 0 then off else f.unitStart,
               hdrCnt := satInc f.hdrCnt } := by
  rcases Bool.eq_false_or_eq_true f.getHead with hg | hg
  · rw [onEvent_head hg, onEventHead, if_pos rfl, startUnit_eq]
  · have hp : f.picCnt = 0 := h.resolve_left (by rw [hg]; simp)
    rw [onEvent_normal hg, onEventNormal, if_neg (not_not.2 hp), if_pos rfl, startUnit_eq]

/-- Settles O32: each clause takes the branches of `OnEvent` that its premises choose. -/
theorem boundaryRule : Obligations.BoundaryRule := by
  intro off f
  refine ⟨?headSkips, ?headEnds, ?headerCounts, ?pictureStarts, ?unitEnds⟩
  case headSkips =>
    rintro tag hg rfl hh
    rw [onEvent_head hg, onEventHead, if_neg (by simp), if_neg (not_not.2 hh)]
  case headEnds =>
    intro hg hh
    rw [onEvent_head hg, onEventHead, if_neg (by simp), if_pos hh]
    rfl
  case headerCounts =>
    intro h
    rw [onEvent_header_counts h, satInc_eq]
  case pictureStarts =>
    intro hg hp
    rw [onEvent_normal hg, onEventNormal, if_neg (not_not.2 hp), if_neg (by simp), startUnit_eq]
  case unitEnds =>
    intro hg hp
    constructor
    · rw [onEvent_normal hg, onEventNormal, if_pos hp, if_pos rfl]
      rfl
    · rw [onEvent_normal hg, onEventNormal, if_pos hp, if_neg (by simp)]
      rfl

/-! ### What a scan finds -/

/-- Whatever the bookkeeping of a step and every event keep, the scan keeps. -/
theorem frScan_induct_event (p : Config.Params) {Q : Framer → Prop}
    (hrow : ∀ f st sc sh, Q f → Q { f.stepTo st with scStart := sc, shLead := sh })
    (hevent : ∀ f off tag, (tag = .header ∨ tag = .picture) → f.pending = false → Q f → Q (onEvent off tag f))
    {f : Framer} (h : Q f) : Q (frScan p f) := by
  refine frScan_induct p Q (fun g b hp _ hQ => ?_) f h
  obtain ⟨st, sc, sh, e | ⟨off, tag, htag, e⟩⟩ := scanStep_cases p b g <;> rw [e]
  · exact hrow g st sc sh hQ
  · exact hevent _ off tag htag hp (hrow g st sc sh hQ)

/-- The next unit has begun: a HEADER or a PICTURE is counted toward it (R209). -/
def Framer.begun (f : Framer) : Prop := f.hdrCnt ≠ 0 ∨ f.picCnt ≠ 0

/-- A pending unit has the tag of its variant, and the event that ended it has begun the next one (R209, R212). -/
def Framer.foundUnit (f : Framer) : Prop :=
  f.pending = true → f.pendTag = (if f.getHead then .header else .picture) ∧ f.begun

theorem onEvent_foundUnit {f : Framer} {tag : Tag} (off : Nat) (htag : tag = .header ∨ tag = .picture)
    (hpend : f.pending = false) : (onEvent off tag f).foundUnit := by
  have hquiet : ∀ g : Framer, g.pending = f.pending → g.foundUnit := fun g hg hp => by
    rw [hg, hpend] at hp
    cases hp
  rcases onEvent_cases off tag f htag with ⟨_, _, _, e⟩ | ⟨_, _, e⟩ | ⟨_, _, _, e⟩ | ⟨_, h, c, hbegun, e⟩ <;> rw [e]
  · exact hquiet _ rfl
  · exact hquiet _ rfl
  · exact hquiet _ rfl
  · exact fun _ => ⟨rfl, hbegun⟩

theorem frScan_foundUnit (p : Config.Params) {f : Framer} (hpend : f.pending = false) : (frScan p f).foundUnit :=
  frScan_induct_event p (fun _ _ _ _ h => h) (fun _ off _ htag hp _ => onEvent_foundUnit off htag hp)
    fun hp => by rw [hpend] at hp; cases hp

/-- In normal mode, a unit that has begun at `u` (R209). -/
structure Framer.BegunAt (u : Nat) (f : Framer) : Prop where
  normal : f.getHead = false
  begun : f.begun
  start : f.unitStart = u

/-- No event moves the start of a unit that has begun. -/
theorem onEvent_begunAt {u : Nat} {f : Framer} {tag : Tag} (off : Nat) (htag : tag = .header ∨ tag = .picture)
    (h : f.BegunAt u) : (onEvent off tag f).BegunAt u := by
  obtain ⟨hnormal, hbegun, hstart⟩ := h
  have hkeep : f.picCnt = 0 → (if f.hdrCnt = 0 then off else f.unitStart) = u := fun hp => by
    rw [if_neg (hbegun.resolve_right (not_not.2 hp)), hstart]
  rcases onEvent_cases off tag f htag with ⟨hg, _⟩ | ⟨_, hgp, e⟩ | ⟨_, _, hp, e⟩ | ⟨_, h, c, hbegun', e⟩
  · rw [hnormal] at hg; cases hg
  · rw [e]
    exact ⟨hnormal, .inl (satInc_ne _), hkeep (hgp.resolve_left (by rw [hnormal]; simp))⟩
  · rw [e]
    exact ⟨hnormal, .inr (show (1 : Word) ≠ 0 by decide), hkeep hp⟩
  · rw [e]
    exact ⟨hnormal, hbegun', hstart⟩

/-- Settles O36: the event that ended the first unit has begun the next one at the same offset, and no event moves its
start. -/
theorem unitsContiguous : Obligations.UnitsContiguous := by
  intro p f bs hpend hfound _ _
  obtain ⟨_, hbegun⟩ := frScan_foundUnit p hpend hfound
  have hafter : (frPush p.ringCap bs (frScan p f).take).BegunAt (frScan p f).pendEnd := ⟨rfl, hbegun, rfl⟩
  exact (frScan_induct_event p (fun _ _ _ _ h => ⟨h.normal, h.begun, h.start⟩)
    (fun _ off _ htag _ h => onEvent_begunAt off htag h) hafter).start

/-! ### Mode and head variant -/

/-- The mode is kept, and the head variant is not entered. -/
structure VariantKept (f g : Framer) : Prop where
  mode : g.mode = f.mode
  getHead : g.getHead = true → f.getHead = true

theorem VariantKept.trans {f g h : Framer} (a : VariantKept f g) (b : VariantKept g h) : VariantKept f h :=
  ⟨b.mode.trans a.mode, a.getHead ∘ b.getHead⟩

theorem FramerMove.variantKept {p : Config.Params} {f g : Framer} (h : FramerMove p f g) : VariantKept f g := by
  cases h with
  | push => exact ⟨rfl, id⟩
  | scan => exact ⟨(frScan_same p f).mode, fun hg => (frScan_same p f).getHead ▸ hg⟩
  | take => exact ⟨rfl, fun hg => by cases hg⟩

theorem FramerMoves.variantKept {p : Config.Params} {f g : Framer} (h : FramerMoves p f g) : VariantKept f g := by
  induction h with
  | refl => exact ⟨rfl, id⟩
  | tail _ hlast ih => exact ih.trans hlast.variantKept

/-- Only `FR_INIT` and `SE_OPEN` choose the mode and the head variant (R191, R270). -/
theorem exec_variantKept {i : Instr} {s t : State} (h : exec i s = .next t) (hinit : ∀ m g, i ≠ .frInit m g)
    (hopen : i ≠ .seOpen) : VariantKept s.fr t.fr := by
  rcases ends_framer (exec_ends h) with hmoves | ⟨⟨m, g, hi⟩ | hi, _⟩ | ⟨_, _, hfr⟩
  · exact hmoves.variantKept
  · exact absurd hi (hinit m g)
  · exact absurd hi hopen
  · rw [hfr]; exact ⟨rfl, id⟩

/-- Settles O37: a pending unit has the tag of its variant, which the scan keeps and the take leaves. -/
theorem headVariant : Obligations.HeadVariant := by
  refine ⟨fun i s t hexec hinit hopen => (exec_variantKept hexec hinit hopen).getHead,
    fun p f hhead hpend hfound => ?_⟩
  have hkept : (frScan p f).getHead = true := (frScan_same p f).getHead.trans hhead
  obtain ⟨htag, _⟩ := frScan_foundUnit p hpend hfound
  exact ⟨htag.trans (if_pos hkept), hkept, rfl⟩

/-- Settles O27: the three ways in which `FR_INIT` ends, and the mode under every other command. -/
theorem frInitCreates : Obligations.FrInitCreates := by
  refine ⟨fun i s t hexec hinit hopen => (exec_variantKept hexec hinit hopen).mode, fun s m g => ?_⟩
  refine ⟨fun hlife => ?barred, fun hlife hm => ?noMode, fun hlife md hmd => ?creates⟩
  all_goals show execFrInit m g s = _
  case barred =>
    rw [execFrInit, if_pos hlife]
    rfl
  case noMode =>
    rw [execFrInit, if_neg (not_not.2 hlife), modeOfCode_none.2 hm]
    rfl
  case creates =>
    rw [execFrInit, if_neg (not_not.2 hlife), modeOfCode_some.2 hmd]
    rfl

end Sys2Proof.Machine

/-! SUPPORT. The FR commands (42_framer.md R192 to R197): what a push stores, which bytes a scan gives the scanner, what
a take delivers, and the fields of the state word. -/

namespace Sys2Proof.Machine

/-! ### The checks of a command that drives the framer -/

theorem not_framerBarred {s : State} (hvalid : s.fr.valid = true) (hlife : s.se.life = .closed) :
    ¬ s.framerBarred = true := by rw [framerBarred_false.2 ⟨hvalid, hlife⟩]; simp

theorem not_rangeWraps {a : Word} {len : Nat} (h : a.toNat + len ≤ memSize) : ¬ rangeWraps a len = true := by
  rw [rangeWraps_false.2 h]; simp

theorem hasRoom_iff {cap : Nat} {f : Framer} {n : Nat} : f.hasRoom cap n = true ↔ f.head - f.tail + n ≤ cap :=
  decide_eq_true_iff

/-! ### Pushes -/

/-- Settles O28: the ways in which `FR_PUSH` ends, and what the ring holds after a push that fits. -/
theorem frPushStores : Obligations.FrPushStores := by
  refine fun s => ⟨fun hbarred => ?barred, fun hvalid hlife => ⟨fun hwraps => ?wraps, fun hlegal =>
    ⟨fun hfull => ?full, fun hroom => ?stores⟩⟩⟩
  case barred =>
    show execFrPush s = _
    rw [execFrPush, if_pos (framerBarred_true.2 hbarred)]
    rfl
  case wraps =>
    show execFrPush s = _
    rw [execFrPush, if_neg (not_framerBarred hvalid hlife), if_pos (rangeWraps_true.2 hwraps)]
    rfl
  case full =>
    show execFrPush s = _
    rw [execFrPush, if_neg (not_framerBarred hvalid hlife), if_neg (not_rangeWraps hlegal),
      if_neg (mt hasRoom_iff.1 (Nat.not_le.2 hfull))]
    rfl
  case stores =>
    have hlen := memRead_length s.mem s.args.a0.toNat s.args.a1.toNat
    have hfits : s.fr.hasRoom s.params.ringCap
        (memRead s.mem s.args.a0.toNat s.args.a1.toNat).length = true := by rw [hlen]; exact hasRoom_iff.2 hroom
    refine ⟨_, ?_, fun k hk => ?_, fun c htail hhead => ringByte_frPush_old _ _ s.fr c hfits htail hhead⟩
    · show execFrPush s = _
      rw [execFrPush, if_neg (not_framerBarred hvalid hlife), if_neg (not_rangeWraps hlegal),
        if_pos (hasRoom_iff.2 hroom), frPush, hlen]
      rfl
    · exact (ringByte_frPush_new _ _ s.fr k hfits (by rwa [hlen])).trans (memRead_getElem _ _ _ _ _)

/-- A push after a scan, or after none, makes the stream longer and nothing else. -/
theorem frPush_eq_grown (cap : Nat) (bs : List Byte) {f g : Framer} (h : SameFlow f g) :
    frPush cap bs g = g.grown (frPush cap bs f).ring (frPush cap bs f).head := by
  rw [frPush, h.ring, h.head]
  rfl

theorem frPush_append (cap : Nat) (xs ys : List Byte) (f : Framer) :
    frPush cap (xs ++ ys) f = frPush cap ys (frPush cap xs f) := by
  simp only [frPush, ringPut_append, List.length_append, Nat.add_assoc]

/-- Settles O34: after the first push, the second only makes longer the stream that was scanned. -/
theorem chunkIndependence : Obligations.ChunkIndependence := by
  intro p f xs ys hok hroom
  have hroom' := hasRoom_iff.1 hroom
  obtain ⟨⟨hread, _, hheld, _⟩, _⟩ := id hok
  have hok' := frPush_ok p.ringCap xs f hok (hasRoom_iff.2 (by omega))
  obtain ⟨⟨hread', _, hheld', _⟩, _⟩ := hok'
  have hys : (frPush p.ringCap xs f).hasRoom p.ringCap ys.length = true := by
    rw [hasRoom_iff]
    show f.head + xs.length - f.tail + ys.length ≤ p.ringCap
    omega
  rw [frPush_append, frPush_eq_grown p.ringCap ys (frScan_same p (frPush p.ringCap xs f)),
    frPush_eq_grown p.ringCap ys (SameFlow.refl (frPush p.ringCap xs f))]
  exact frScan_grown p _ _ _ (Nat.le_add_right _ _) hread' fun c hc hhead =>
    ringByte_frPush_old _ _ _ c hys (by omega) hhead

/-! ### The bytes of a scan -/

/-- A scan gives the scanner the ring's bytes from `read` on, and no boundary was found before its last step (R194). -/
theorem scanN_feeds (p : Config.Params) (n : Nat) (f : Framer) : ∃ k,
    scanN p n f = feed p (ringBytes p.ringCap f.ring f.read k) f ∧
    (∀ j, j < k → (feed p (ringBytes p.ringCap f.ring f.read j) f).pending = false) ∧
    (scanN p n f).read = f.read + k ∧ f.read + k ≤ max f.read f.head := by
  induction n generalizing f with
  | zero => exact ⟨0, rfl, fun _ h => absurd h (Nat.not_lt_zero _), rfl, Nat.le_max_left _ _⟩
  | succ n ih =>
    rcases scanN_succ p n f with ⟨hpend, hread, e⟩ | ⟨_, e⟩
    · obtain ⟨hflow, hone⟩ := scanStep_flow p (ringByte p.ringCap f.ring f.read) f
      obtain ⟨k, hfeed, hquiet, hlast, hbound⟩ := ih (scanStep p (ringByte p.ringCap f.ring f.read) f)
      rw [hflow.ring, hone] at hfeed hquiet
      rw [hone] at hlast hbound
      rw [hflow.head] at hbound
      refine ⟨k + 1, e.trans hfeed, fun j hj => ?_, by rw [e, hlast]; omega, by omega⟩
      cases j with
      | zero => exact hpend
      | succ j => exact hquiet j (by omega)
    · exact ⟨0, e, fun _ h => absurd h (Nat.not_lt_zero _), by rw [e]; rfl, Nat.le_max_left _ _⟩

theorem frScan_feeds (p : Config.Params) (f : Framer) :
    frScan p f = feed p (ringBytes p.ringCap f.ring f.read ((frScan p f).read - f.read)) f ∧
    (∀ j, j < (frScan p f).read - f.read →
      (feed p (ringBytes p.ringCap f.ring f.read j) f).pending = false) ∧
    (frScan p f).read ≤ max f.read f.head := by
  obtain ⟨k, hfeed, hquiet, hlast, hbound⟩ := scanN_feeds p (f.head - f.read) f
  rw [show (frScan p f).read - f.read = k by rw [frScan, hlast]; omega]
  exact ⟨hfeed, hquiet, hlast.trans_le hbound⟩

/-! ### Extraction -/

/-- What a take delivers (R194, R195). -/
theorem memByte_unitBytes (m : Memory) (a : Nat) (p : Config.Params) (f : Framer) {k : Nat} (hk : k < f.unitLen) :
    memByte (m.putBytes a (f.unitBytes p)) (a + k) = ringByte p.ringCap f.ring (f.unitStart + k) := by
  have hk' : k < (f.unitBytes p).length := by rwa [unitBytes_length]
  rw [memByte_putBytes, if_pos (by omega), Nat.add_sub_cancel_left, List.getD_eq_getElem _ _ hk']
  exact ringBytes_getElem _ _ _ _ _ hk'

/-- Settles O29: the ways in which `FR_EXTRACT` ends, and the bytes its scan reads. -/
theorem frExtractReturns : Obligations.FrExtractReturns := by
  intro s
  have hsame := frScan_same s.params s.fr
  have hends := frScan_ends s.params s.fr
  refine ⟨?scan, fun hbarred => ?barred, fun hvalid hlife => ⟨fun hwraps => ?wraps, fun hlegal =>
    ⟨hends, fun hp => frScan_stays _ _ (.inl hp), ?outcome⟩⟩⟩
  case scan =>
    obtain ⟨hfeed, hquiet, hbound⟩ := frScan_feeds s.params s.fr
    simp only [ringBytes_eq_map] at hfeed hquiet
    exact ⟨hfeed, hquiet, hbound, hsame.head ▸ hends⟩
  case barred =>
    show execFrExtract s = _
    rw [execFrExtract, if_pos (framerBarred_true.2 hbarred)]
    rfl
  case wraps =>
    show execFrExtract s = _
    rw [execFrExtract, if_neg (not_framerBarred hvalid hlife), if_pos (rangeWraps_true.2 hwraps)]
    rfl
  case outcome =>
    have hexec : exec .frExtract s = extractScanned (frScan s.params s.fr) s := by
      show execFrExtract s = _
      rw [execFrExtract, if_neg (not_framerBarred hvalid hlife), if_neg (not_rangeWraps hlegal)]
    rw [hexec]
    refine ⟨fun hp => ?none, fun hp hshort => ?tooSmall, fun hp hfits =>
      ⟨s.mem.putBytes s.args.a0.toNat ((frScan s.params s.fr).unitBytes s.params), ?delivers, fun k hk => ?bytes,
        fun a ha => ?outside⟩⟩
    case none =>
      rw [extractScanned, if_neg (by rw [hp]; simp)]
      rfl
    case tooSmall =>
      rw [extractScanned, if_pos hp, Framer.unitLen, if_pos hshort]
      rfl
    case delivers =>
      rw [extractScanned, if_pos hp, Framer.unitLen, if_neg (Nat.not_lt.2 hfits)]
      rfl
    case bytes => rw [memByte_unitBytes _ _ _ _ hk, hsame.ring]
    case outside =>
      rw [memByte_putBytes, unitBytes_length, Framer.unitLen, if_neg (by omega)]

/-! ### The state word -/

theorem ScanState.code_lt (st : ScanState) : st.code < 8 := by cases st <;> decide

theorem Mode.code_lt (m : Mode) : m.code < 4 := by cases m <;> decide

theorem Tag.code_lt (t : Tag) : t.code < 4 := by cases t <;> decide

theorem bit_lt (b : Bool) : bit b < 2 := by cases b <;> decide

/-- The fields of R197 fill bits 13:0 and do not overlap. -/
theorem stateWord_toNat (f : Framer) : f.stateWord.toNat =
    f.st.code + f.mode.code * 2 ^ 3 + bit f.getHead * 2 ^ 5 + bit f.shLead * 2 ^ 6 + f.lastTag.code * 2 ^ 7
      + bit f.pending * 2 ^ 9 + f.pendTag.code * 2 ^ 10 + bit (f.hdrCnt != 0) * 2 ^ 12
      + bit (f.picCnt != 0) * 2 ^ 13 := by
  have hst := f.st.code_lt
  have hmode := f.mode.code_lt
  have hlast := f.lastTag.code_lt
  have hpend := f.pendTag.code_lt
  have hhead := bit_lt f.getHead
  have hlead := bit_lt f.shLead
  have hpending := bit_lt f.pending
  have hhdr := bit_lt (f.hdrCnt != 0)
  have hpic := bit_lt (f.picCnt != 0)
  rw [Framer.stateWord, BitVec.toNat_ofNat, Nat.mod_eq_of_lt (by omega)]

/-- A field of a word, read off its number. -/
theorem extractLsb'_of_toNat {w : Word} {start len v : Nat} (h : w.toNat / 2 ^ start % 2 ^ len = v) :
    w.extractLsb' start len = BitVec.ofNat len v := by
  refine BitVec.eq_of_toNat_eq ?_
  rw [BitVec.extractLsb'_toNat, Nat.shiftRight_eq_div_pow, BitVec.toNat_ofNat, ← h, Nat.mod_mod]

/-- A bit of a word, read off its number. -/
theorem getLsbD_of_toNat {w : Word} {i : Nat} {b : Bool} (h : w.toNat / 2 ^ i % 2 = bit b) : w.getLsbD i = b := by
  rw [BitVec.getLsbD, Nat.testBit_eq_decide_div_mod_eq, h]
  cases b <;> rfl

/-- Settles O30: the state word as a number, and each field by division. -/
theorem frStatReads : Obligations.FrStatReads := by
  refine fun s => ⟨fun hinvalid => ?_, fun hvalid => ⟨s.fr.stateWord, ?_, ?_⟩⟩
  · show execFrStat s = _
    rw [execFrStat, if_neg (by rw [hinvalid]; simp)]
    rfl
  · show execFrStat s = _
    rw [execFrStat, if_pos hvalid]
    rfl
  have hword := stateWord_toNat s.fr
  have hst := s.fr.st.code_lt
  have hmode := s.fr.mode.code_lt
  have hlast := s.fr.lastTag.code_lt
  have hpend := s.fr.pendTag.code_lt
  have hhead := bit_lt s.fr.getHead
  have hlead := bit_lt s.fr.shLead
  have hpending := bit_lt s.fr.pending
  have hhdr := bit_lt (s.fr.hdrCnt != 0)
  have hpic := bit_lt (s.fr.picCnt != 0)
  have hne : ∀ c : Word, (c != 0) = decide (c ≠ 0) := fun c => by simp [bne, Bool.beq_eq_decide_eq]
  rw [← hne, ← hne]
  refine ⟨extractLsb'_of_toNat ?_, extractLsb'_of_toNat ?_, getLsbD_of_toNat ?_, getLsbD_of_toNat ?_,
    extractLsb'_of_toNat ?_, getLsbD_of_toNat ?_, extractLsb'_of_toNat ?_, getLsbD_of_toNat ?_, getLsbD_of_toNat ?_,
    extractLsb'_of_toNat ?_⟩ <;> omega

end Sys2Proof.Machine

/-! SUPPORT. The session's refusals, its end (43_pipeline.md R288, R302, R309), and the hand-shakes with Dev (R250,
R251). -/

namespace Sys2Proof.Machine

/-! ### Closing and refusing -/

/-- Settles O40: the two cases of `execSeClose`, and in the second whether setup was done. -/
theorem seCloseCloses : Obligations.SeCloseCloses := by
  intro s
  rw [show exec .seClose s = execSeClose s from rfl]
  rcases execSeClose_cases s with ⟨hclosed, e⟩ | ⟨hopen, t, _, hearly, hdone, e⟩ <;> rw [e]
  · exact ⟨fun _ => rfl, fun h => absurd hclosed h⟩
  · refine ⟨fun h => absurd h hopen, fun _ => ?_⟩
    cases hd : s.pl.hdrDone
    · rw [hearly hd]; rfl
    · rw [hdone hd]; rfl

/-- Settles O41: a session that is closed or has failed refuses before it looks at the list, an open one looks at
the list, and `SE_GETPIC` then looks at the phase. -/
theorem sessionRefuses : Obligations.SessionRefuses := by
  intro s
  rw [show exec .seDecode s = execSeDecode s from rfl, show exec .seGetpic s = execSeGetpic s from rfl]
  refine ⟨fun hl => ?closed, fun hl => ?failed, fun hl hlist => ?list, fun hl hd => ?early⟩
  case closed => simp only [execSeDecode, execSeGetpic, hl]; exact ⟨rfl, rfl⟩
  case failed => simp only [execSeDecode, execSeGetpic, hl]; exact ⟨rfl, rfl⟩
  case list =>
    have hillegal : s.listIllegal = true := by
      rw [← Bool.not_eq_false, listIllegal_false]; exact hlist
    simp only [execSeDecode, hl, hillegal, if_true]; rfl
  case early => simp only [execSeGetpic, hl, hd]; rfl

/-! ### The hand-shakes -/

/-- Settles O49: the cases of `µENQ` and of `µDEQ`. -/
theorem handShakes : Obligations.HandShakes := by
  intro P q s
  refine ⟨fun i n hn => ?refused, fun i n sl hn hsl => ?taken, fun i hgot => ?got, fun hnone => ?none,
    fun i hn hsl => ?unknown⟩
  case refused =>
    rcases enq_cases P q i n s with ⟨hok, _⟩ | ⟨_, e⟩
    · exact absurd hok hn
    · rw [e]; exact ⟨rfl, rfl⟩
  case taken =>
    rcases enq_cases P q i n s with ⟨_, e⟩ | ⟨hno, _⟩
    · obtain ⟨hown, hplanes, hused, _, hholder⟩ := queuedOn_fields P q sl
      rw [e]
      refine ⟨rfl, sl.queuedOn P q, ?_, hown, hplanes, hused, fun hP => ?_, fun R hR => ?_⟩
      · simp only [State.onSlot, withPl_pl, withDev_pl, pool_setPool_same]
        exact modify_eq_set _ hsl
      · rw [hholder, if_pos hP]; rfl
      · exact pool_setPool_ne _ _ _ _ hR
    · exact absurd hn hno
  case got =>
    obtain ⟨sl, hn, ⟨hsl, hown, hholder⟩, _⟩ := deq_got hgot
    exact ⟨sl, hsl, hown, hholder, hn⟩
  case none =>
    obtain ⟨hstate, _⟩ := deq_noSlot hnone
    rw [hstate]; rfl
  case unknown =>
    rcases deq_cases P q s with ⟨j, sl, hn', hsl', _⟩ | ⟨hn', _⟩ | ⟨_, _, e⟩
    · rw [hn] at hn'; cases hn'
      rw [hsl] at hsl'; cases hsl'
    · rw [hn] at hn'; cases hn'
    · rw [e]

/-! ### What setup leaves -/

/-- Only the capture query stays when the record of a setup that succeeds is searched for it (R256 S4). -/
theorem SetupIssued.queries {s t : State} {j m : Nat} {f : Fmt} {c : Bool} (h : SetupIssued s t j f m c) :
    ∃ l, t.dev.log = s.dev.log ++ l ∧ (l.filter fun x => decide (x.call = .queryCapture)) =
      List.replicate j ⟨.queryCapture, some .notReady⟩ ++ [⟨.queryCapture, some (.capture f m c)⟩] := by
  obtain ⟨l, l', hl, hl', hlog⟩ := h.log
  have hplain : ∀ l : List DevTxn, (∀ x ∈ l, plainTxn x) →
      (l.filter fun x => decide (x.call = .queryCapture)) = [] := fun l hl =>
    List.filter_eq_nil_iff.2 fun x hx => by simpa using (hl x hx).1
  refine ⟨_, hlog, ?_⟩
  simp [List.filter_append, hplain l hl, hplain l' hl']

/-- Settles O43: `SetupDone` with no converter-output pool before, and what setup leaves alone. -/
theorem setupEstablishes : Obligations.SetupEstablishes := by
  intro s hconv hpool hnCout hs t
  have hdone : SetupDone s t := setup_true s hconv hs
  have honly : SetupOnly s t := setup_only s
  obtain ⟨j, m, c, hj, hissued, hnDout, hcv⟩ := hdone.asked
  obtain ⟨l, hlog, hqueries⟩ := hissued.queries
  obtain ⟨x, xs, hins, hown, hused, _, hroom, hbytes, hfree⟩ := hdone.inZero
  have hcout : t.pl.conv = false → t.pl.coutPool = [] := fun h => (hdone.coutLen.2 h).trans hpool
  refine ⟨hdone.done, hdone.fr, honly.mem, honly.bw, honly.se, honly.res, honly.events, hdone.nIn, hdone.inLen,
    ⟨l, j, m, c, hlog, hj, hqueries, hnDout, hcv⟩, hdone.doutLen, hnCout ▸ hdone.nCout, ?coutLen,
    ⟨x, xs, hins, hown, hused, hroom, fun k hk => (hbytes k hk).trans (unitBytes_getD _ _ _ hk), ?free⟩, ?dout,
    ?cout⟩
  case coutLen =>
    cases h : t.pl.conv
    · rw [hcout h, hdone.nCout, h, hnCout]; rfl
    · exact hdone.coutLen.1 h
  case free =>
    intro y hy
    obtain ⟨hown', _, hused', _⟩ := hfree y hy
    exact ⟨hown', hused'⟩
  case dout =>
    intro sl hsl
    obtain ⟨hown', hholder, _⟩ := hdone.dout sl hsl
    exact ⟨hown', hholder⟩
  case cout =>
    intro sl hsl
    cases h : t.pl.conv
    · rw [hcout h] at hsl; cases hsl
    · exact (hdone.cout h sl hsl).1

end Sys2Proof.Machine

/-! SUPPORT. The hand-shakes when Dev's answers are given by the script (log 9): what each leaves, as a state
(43_pipeline.md R250, R251). -/

namespace Sys2Proof.Machine

/-! ### One slot replaced -/

/-- `s` with `sl` in place of slot `i` of pool `P`. -/
def State.putSlot (s : State) (P : PoolId) (i : Nat) (sl : Slot) : State :=
  s.withPl (s.pl.setPool P ((s.pl.pool P).set i sl))

@[simp] theorem putSlot_dev (s : State) (P : PoolId) (i : Nat) (sl : Slot) : (s.putSlot P i sl).dev = s.dev := rfl

theorem onSlot_eq_putSlot {s : State} {P : PoolId} {i : Nat} {sl : Slot} (h : (s.pl.pool P)[i]? = some sl)
    (g : Slot → Slot) : s.onSlot P i g = s.putSlot P i (g sl) := by
  rw [State.onSlot, modify_eq_set g h]; rfl

theorem putSlot_self {s : State} {P : PoolId} {i : Nat} {sl : Slot} (h : (s.pl.pool P)[i]? = some sl) :
    s.putSlot P i sl = s := by
  obtain ⟨_, rfl⟩ := List.getElem?_eq_some_iff.1 h
  rw [State.putSlot, List.set_getElem_self, setPool_pool]; rfl

theorem putSlot_putSlot (s : State) (P : PoolId) (i : Nat) (x y : Slot) :
    (s.putSlot P i x).putSlot P i y = s.putSlot P i y := by
  simp only [State.putSlot, withPl_pl, pool_setPool_same, setPool_setPool, List.set_set]
  rfl

theorem putSlot_get {s : State} {P : PoolId} {i : Nat} {x : Slot} (sl : Slot) (h : (s.pl.pool P)[i]? = some x) :
    ((s.putSlot P i sl).pl.pool P)[i]? = some sl := by
  obtain ⟨hl, _⟩ := List.getElem?_eq_some_iff.1 h
  rw [State.putSlot, withPl_pl, pool_setPool_same, List.getElem?_set_self hl]

/-! ### A slot handed over and back -/

/-- A slot offered to Dev on queue `q`, with Dev's answer (R250). -/
def Slot.offered (P : PoolId) (q : QueueId) (a : DevAnswer) (sl : Slot) : Slot :=
  if a = .ok then sl.queuedOn P q else sl

/-- A slot that Dev has handed back, with the owner it then gets and contents of draw `g` (R251, R70). -/
def Slot.returned (g : Nat) (o : Own) (sl : Slot) : Slot := { sl.freshContents g with own := o }

theorem offered_own (P : PoolId) (q : QueueId) (a : DevAnswer) (sl : Slot) :
    (sl.offered P q a).own = if a = .ok then .queued else sl.own := by
  unfold Slot.offered
  split_ifs
  · exact (queuedOn_fields P q sl).1
  · rfl

theorem offered_holder (q : QueueId) (a : DevAnswer) (sl : Slot) :
    (sl.offered .dout q a).holder = if a = .ok then holderFor q else sl.holder := by
  unfold Slot.offered
  split_ifs <;> rfl

@[simp] theorem offered_shape (P : PoolId) (q : QueueId) (a : DevAnswer) (sl : Slot) :
    (sl.offered P q a).shape = sl.shape := by
  unfold Slot.offered
  split_ifs
  · exact queuedOn_shape P q sl
  · rfl

@[simp] theorem returned_holder (g : Nat) (o : Own) (sl : Slot) : (sl.returned g o).holder = sl.holder := rfl
@[simp] theorem returned_shape (g : Nat) (o : Own) (sl : Slot) : (sl.returned g o).shape = sl.shape :=
  fresh_shape g sl

/-! ### µENQ and µDEQ under a script -/

theorem enq_script {P : PoolId} {q : QueueId} {i n : Nat} {s : State} {sl : Slot} {a : DevAnswer}
    {rest : List DevAnswer} (hsl : (s.pl.pool P)[i]? = some sl) (h : s.dev.script = a :: rest) :
    enq P q i n s = (decide (a = .ok),
      (s.withDev (s.dev.after [(.enqueue q i n, a)] rest)).putSlot P i (sl.offered P q a)) := by
  have hnext := next_of_script h
  have hput : ∀ g : Slot → Slot, (s.withDev (s.dev.issue (.enqueue q i n))).onSlot P i g =
      (s.withDev (s.dev.after [(.enqueue q i n, a)] rest)).putSlot P i (g sl) := fun g => by
    rw [issue_of_script h]; 
    exact onSlot_eq_putSlot (s := s.withDev (s.dev.after [(.enqueue q i n, a)] rest)) hsl g
  rcases enq_cases P q i n s with ⟨hok, e⟩ | ⟨hno, e⟩ <;> rw [e]
  · rw [hnext] at hok
    rw [hput, Slot.offered, if_pos hok, decide_eq_true hok]
  · rw [hnext] at hno
    rw [Slot.offered, if_neg hno, decide_eq_false hno, issue_of_script h, putSlot_self]
    exact hsl

theorem deq_script_notReady {P : PoolId} {q : QueueId} {s : State} {rest : List DevAnswer}
    (h : s.dev.script = .notReady :: rest) :
    deq P q s = (.notReady, s.withDev (s.dev.after [(.dequeue q, .notReady)] rest)) := by
  have hnext := next_of_script h
  rcases deq_cases P q s with ⟨i, sl, hslot, _⟩ | ⟨_, e⟩ | ⟨hno, _⟩
  · rw [hnext] at hslot; cases hslot
  · rw [e, issue_of_script h]
  · exact absurd hnext hno

theorem deq_script_bad {P : PoolId} {q : QueueId} {s : State} {a : DevAnswer} {rest : List DevAnswer}
    (ha : a ≠ .notReady) (hbad : ∀ i sl, a = .slot i → ¬ s.mayReturn P q i sl) (h : s.dev.script = a :: rest) :
    deq P q s = (.fail, s.withDev (s.dev.after [(.dequeue q, a)] rest)) := by
  have hnext := next_of_script h
  rcases deq_cases P q s with ⟨i, sl, hslot, hsl, hown, hholder, _⟩ | ⟨hno, _⟩ | ⟨_, _, e⟩
  · exact absurd ⟨hsl, hown, hholder⟩ (hbad i sl (hnext.symm.trans hslot))
  · exact absurd (hnext.symm.trans hno) ha
  · rw [e, issue_of_script h]

theorem deq_script_slot {P : PoolId} {q : QueueId} {s : State} {i : Nat} {sl : Slot} {rest : List DevAnswer}
    (hsl : s.mayReturn P q i sl) (h : s.dev.script = .slot i :: rest) :
    (deq P q s).1 = .got i ∧ ∀ o, (deq P q s).2.setOwn P i o =
      ((s.withDev (s.dev.after [(.dequeue q, .slot i)] rest)).putSlot P i (sl.returned s.draws o)).withDraws
        (s.draws + 1) := by
  have hnext := next_of_script h
  have hgot : (deq P q s).1 = .got i := by
    cases hd : (deq P q s).1 with
    | got j =>
      obtain ⟨_, hslot, _⟩ := deq_got hd
      rw [hnext] at hslot; cases hslot; rfl
    | notReady => exact absurd hsl ((deq_noSlot (by simp [hd])).2.1 i sl hnext)
    | fail => exact absurd hsl ((deq_noSlot (by simp [hd])).2.1 i sl hnext)
  refine ⟨hgot, fun o => ?_⟩
  obtain ⟨sl', _, ⟨hget', _⟩, hset⟩ := deq_got hgot
  obtain rfl : sl = sl' := Option.some.inj (hsl.1.symm.trans hget')
  rw [hset o, ← issue_of_script h]
  rfl

end Sys2Proof.Machine

/-! SUPPORT. `SE_DECODE` in the steady state (43_pipeline.md R272 to R274): D1, then D3 and D4, each for the answers
that the script gives. -/

namespace Sys2Proof.Machine

/-! ### D1 -/

/-- An open session with a legal list goes on with D1 (R272). -/
theorem exec_seDecode_opened {s : State} (hl : s.se.life = .opened) (hlist : s.listLegal) :
    exec .seDecode s = decodeSteps (noteOf s.noRoom false false false false, s.withFr s.accepted) := by
  rw [show exec .seDecode s = execSeDecode s from rfl, execSeDecode, hl, decodePush_eq]
  exact if_neg (by rw [listIllegal_false.2 hlist]; simp)

/-- `SE_DECODE` in the steady state is D1, D3 and D4 (R272). -/
theorem exec_seDecode_steady {s : State} (hl : s.se.life = .opened) (hlist : s.listLegal)
    (hd : s.pl.hdrDone = true) :
    exec .seDecode s = decodeReport (decodePoll (decodeSubmit
      (noteOf s.noRoom false false false false, s.withFr s.accepted))) :=
  (exec_seDecode_opened hl hlist).trans (if_pos hd)

/-! ### D3 -/

/-- D3 without a unit or without a free input slot only scans (R272). -/
theorem decodeSubmit_stays {n : StepNote} {s : State}
    (h : (frScan s.params s.fr).pending = false ∨ ∀ sl ∈ s.pl.inPool, sl.own ≠ .free) :
    decodeSubmit (n, s) = (n, s.withFr (frScan s.params s.fr)) := by
  rcases h with hidle | hfull
  · exact decodeSubmit_idle hidle
  · have hnone : firstFree s.pl.inPool = none := by simpa [firstFree] using hfull
    unfold decodeSubmit
    simp only [hnone, ite_self]

/-- The slot that D3 takes: the unit fills its plane 0 and it is offered to Dev, whose answer is `a` (R257, R250). -/
structure TakesUnit (p : Config.Params) (f : Framer) (sl : Slot) (a : DevAnswer) (sl' : Slot) : Prop where
  own : sl'.own = if a = .ok then .queued else .free
  used : sl'.used = BitVec.ofNat 32 f.unitLen
  shape : sl'.shape = sl.shape
  bytes : ∀ k, k < f.unitLen → slotByte sl' 0 k = ringByte p.ringCap f.ring (f.unitStart + k)
  others : ∀ q k, q ≠ 0 ∨ f.unitLen ≤ k → slotByte sl' q k = slotByte sl q k

/-- D3 with a unit pending, `i` being the least index of a free slot: the slot is too small, or takes the unit (R272,
R273). -/
theorem submits_at {s t : State} {sub err : Bool} {i : Nat} {sl : Slot} (h : submits s t sub err)
    (hp : (frScan s.params s.fr).pending = true) (hsl : s.pl.inPool[i]? = some sl) (hfree : sl.own = .free)
    (hleast : ∀ (k : Nat) (x : Slot), k < i → s.pl.inPool[k]? = some x → x.own ≠ .free) :
    (sl.room < (frScan s.params s.fr).unitLen ∧ t = s.withFr (frScan s.params s.fr) ∧ sub = false ∧ err = true) ∨
    ((frScan s.params s.fr).unitLen ≤ sl.room ∧ sub = decide (s.dev.next = .ok) ∧ err = !sub ∧
      ∃ sl', TakesUnit s.params (frScan s.params s.fr) sl s.dev.next sl' ∧
        t = ((s.withFr (frScan s.params s.fr).take).withDev
          (s.dev.issue (.enqueue .inp i (frScan s.params s.fr).unitLen))).putSlot .inp i sl') := by
  rcases h with ⟨hidle | hfull, _⟩ | ⟨_, j, sl', hsl', hfree', hleast', hcase⟩
  · rw [hp] at hidle; cases hidle
  · exact absurd hfree (hfull sl (List.mem_of_getElem? hsl))
  · obtain rfl : i = j := by
      rcases Nat.lt_trichotomy i j with hlt | heq | hgt
      · exact absurd hfree (hleast' i sl hlt hsl)
      · exact heq
      · exact absurd hfree' (hleast j sl' hgt hsl')
    obtain rfl : sl = sl' := Option.some.inj (hsl.symm.trans hsl')
    rcases hcase with hsmall | ⟨hfits, hsub, herr, x, hown, hused, hshape, hbytes, hothers, ht⟩
    · exact .inl hsmall
    · exact .inr ⟨hfits, hsub, herr, x, ⟨hown, hused, hshape, hbytes, hothers⟩, ht⟩

/-- D3 when the unit is larger than plane 0 of the free slot with the least index: it stays pending (R273). -/
theorem decodeSubmit_small {full ran : Bool} {s : State} {i : Nat} {sl : Slot}
    (hp : (frScan s.params s.fr).pending = true) (hsl : s.pl.inPool[i]? = some sl) (hfree : sl.own = .free)
    (hleast : ∀ (k : Nat) (x : Slot), k < i → s.pl.inPool[k]? = some x → x.own ≠ .free)
    (hroom : sl.room < (frScan s.params s.fr).unitLen) :
    decodeSubmit (noteOf full ran false false false, s) =
      (noteOf full ran false false true, s.withFr (frScan s.params s.fr)) := by
  obtain ⟨sub, err, hsub, hnote⟩ := decodeSubmit_submits full ran s
  rcases submits_at hsub hp hsl hfree hleast with ⟨_, ht, rfl, rfl⟩ | ⟨hfits, _⟩
  · exact Prod.ext hnote ht
  · exact absurd hroom (Nat.not_lt.2 hfits)

/-- D3 when the unit fits: it is copied into the free slot with the least index, which is then enqueued (R257,
R272). -/
theorem decodeSubmit_fits {full ran : Bool} {s : State} {i : Nat} {sl : Slot} {a : DevAnswer}
    {rest : List DevAnswer} (hp : (frScan s.params s.fr).pending = true) (hsl : s.pl.inPool[i]? = some sl)
    (hfree : sl.own = .free) (hleast : ∀ (k : Nat) (x : Slot), k < i → s.pl.inPool[k]? = some x → x.own ≠ .free)
    (hroom : (frScan s.params s.fr).unitLen ≤ sl.room) (hscript : s.dev.script = a :: rest) :
    ∃ sl', TakesUnit s.params (frScan s.params s.fr) sl a sl' ∧
      decodeSubmit (noteOf full ran false false false, s) =
        (noteOf full ran (decide (a = .ok)) false (!decide (a = .ok)),
          ((s.withFr (frScan s.params s.fr).take).withDev
            (s.dev.after [(.enqueue .inp i (frScan s.params s.fr).unitLen, a)] rest)).putSlot .inp i sl') := by
  obtain ⟨sub, err, hsub, hnote⟩ := decodeSubmit_submits full ran s
  rcases submits_at hsub hp hsl hfree hleast with ⟨hsmall, _⟩ | ⟨_, rfl, rfl, sl', htakes, ht⟩
  · exact absurd hroom (Nat.not_le.2 hsmall)
  · rw [next_of_script hscript] at hnote htakes
    rw [issue_of_script hscript] at ht
    exact ⟨sl', htakes, Prod.ext hnote ht⟩

/-! ### D4 -/

/-- Without a queued input slot D4 does nothing (R272). -/
theorem decodePoll_quiet {r : StepNote × State} (h : ∀ sl ∈ r.2.pl.inPool, sl.own ≠ .queued) : decodePoll r = r :=
  if_neg (by simpa using h)

section Polled

variable {n : StepNote} (s : State) {rest : List DevAnswer}

theorem decodePoll_script_timeout (hq : ∃ sl ∈ s.pl.inPool, sl.own = .queued) (h : s.dev.script = .timeout :: rest) :
    decodePoll (n, s) = (n, s.withDev (s.dev.after [(.poll (pollMs s.pl.inPool), .timeout)] rest)) := by
  rw [← issue_of_script h]
  exact decodePoll_timeout hq (next_of_script h)

theorem decodePoll_script_fail (hq : ∃ sl ∈ s.pl.inPool, sl.own = .queued) (h : s.dev.script = .fail :: rest) :
    decodePoll (n, s) =
      (n.decodeError, s.withDev (s.dev.after [(.poll (pollMs s.pl.inPool), .fail)] rest)) := by
  have hany : (s.pl.inPool.any fun sl => decide (sl.own = .queued)) = true := by simpa using hq
  unfold decodePoll
  simp only [hany, if_true, ask_fst, ask_snd, next_of_script h, issue_of_script h, readPoll, pollTimeout_eq]

theorem decodePoll_script_ready (hq : ∃ sl ∈ s.pl.inPool, sl.own = .queued) (h : s.dev.script = .ready :: rest) :
    decodePoll (n, s) =
      reclaimInput (n, s.withDev (s.dev.after [(.poll (pollMs s.pl.inPool), .ready)] rest)) := by
  have hany : (s.pl.inPool.any fun sl => decide (sl.own = .queued)) = true := by simpa using hq
  unfold decodePoll
  simp only [hany, if_true, ask_fst, ask_snd, next_of_script h, issue_of_script h, readPoll, pollTimeout_eq]

theorem decodePoll_script_notReady (hq : ∃ sl ∈ s.pl.inPool, sl.own = .queued)
    (h : s.dev.script = .ready :: .notReady :: rest) :
    decodePoll (n, s) = (n, s.withDev
      (s.dev.after [(.poll (pollMs s.pl.inPool), .ready), (.dequeue .inp, .notReady)] rest)) := by
  rw [decodePoll_script_ready s hq h, reclaimInput,
    deq_script_notReady (s := s.withDev (s.dev.after _ (.notReady :: rest))) rfl]
  simp only [withDev_dev, after_after]
  rfl

theorem decodePoll_script_bad {a : DevAnswer} (hq : ∃ sl ∈ s.pl.inPool, sl.own = .queued) (ha : a ≠ .notReady)
    (hbad : ∀ i sl, a = .slot i → ¬ s.mayReturn .inp .inp i sl) (h : s.dev.script = .ready :: a :: rest) :
    decodePoll (n, s) = (n.decodeError, s.withDev
      (s.dev.after [(.poll (pollMs s.pl.inPool), .ready), (.dequeue .inp, a)] rest)) := by
  rw [decodePoll_script_ready s hq h, reclaimInput,
    deq_script_bad (s := s.withDev (s.dev.after _ (a :: rest))) ha hbad rfl]
  simp only [withDev_dev, after_after]
  rfl

theorem decodePoll_script_slot {j : Nat} {sl : Slot} (hsl : s.mayReturn .inp .inp j sl)
    (h : s.dev.script = .ready :: .slot j :: rest) :
    decodePoll (n, s) = ({ n with reclaimed := true },
      ((s.withDev (s.dev.after [(.poll (pollMs s.pl.inPool), .ready), (.dequeue .inp, .slot j)] rest)).putSlot .inp j
        (sl.returned s.draws .free)).withDraws (s.draws + 1)) := by
  have hq : ∃ sl ∈ s.pl.inPool, sl.own = .queued := by
    obtain ⟨hget, hown, _⟩ := hsl
    exact ⟨sl, List.mem_of_getElem? hget, hown⟩
  rw [decodePoll_script_ready s hq h]
  obtain ⟨hgot, hset⟩ := deq_script_slot (sl := sl) (P := .inp) (q := .inp)
    (s := s.withDev (s.dev.after [(.poll (pollMs s.pl.inPool), .ready)] (.slot j :: rest))) hsl rfl
  unfold reclaimInput
  simp only [hgot, hset, withDev_dev, after_after]
  rfl

end Polled

/-- A poll with no free input slot waits (R274). -/
theorem pollMs_full {xs : List Slot} (h : ∀ sl ∈ xs, sl.own ≠ .free) : pollMs xs = 1000 :=
  if_neg fun ⟨sl, hsl, hfree⟩ => h sl hsl hfree

/-! ### The statements -/

/-- `SE_DECODE` in the steady state with nothing to submit: D4 alone (R272). -/
theorem exec_seDecode_polls {s : State} (hl : s.se.life = .opened) (hlist : s.listLegal) (hd : s.pl.hdrDone = true)
    (h : s.acceptedScanned.pending = false ∨ ∀ sl ∈ s.pl.inPool, sl.own ≠ .free) :
    exec .seDecode s =
      decodeReport (decodePoll (noteOf s.noRoom false false false false, s.withFr s.acceptedScanned)) := by
  rw [exec_seDecode_steady hl hlist hd, decodeSubmit_stays (s := s.withFr s.accepted) h]
  rfl

/-- The same with a unit larger than plane 0 of the free slot with the least index: D4 alone, and an error (R273). -/
theorem exec_seDecode_small {s : State} {i : Nat} {sl : Slot} (hl : s.se.life = .opened) (hlist : s.listLegal)
    (hd : s.pl.hdrDone = true) (hp : s.acceptedScanned.pending = true) (hsl : s.pl.inPool[i]? = some sl)
    (hfree : sl.own = .free) (hleast : ∀ (k : Nat) (x : Slot), k < i → s.pl.inPool[k]? = some x → x.own ≠ .free)
    (hroom : sl.room < s.acceptedScanned.unitLen) :
    exec .seDecode s =
      decodeReport (decodePoll (noteOf s.noRoom false false false true, s.withFr s.acceptedScanned)) := by
  rw [exec_seDecode_steady hl hlist hd, decodeSubmit_small (s := s.withFr s.accepted) hp hsl hfree hleast hroom]
  rfl

/-- Settles O46: D3 does nothing, and D4 takes each answer of the script in turn. -/
theorem seDecodeReclaims : Obligations.SeDecodeReclaims := by
  intro s rest hl hlist hd hroom hidle poll
  obtain ⟨hnoRoom, hscan⟩ := acceptedScanned_of_room hroom
  have hexec := exec_seDecode_polls hl hlist hd (.inl (hscan ▸ hidle))
  rw [hnoRoom, hscan] at hexec
  rw [hexec]
  refine ⟨fun hnone => ?none, fun hq h => ?timeout, fun hq h => ?fail, fun j sl hsl hown h => ?slot,
    fun hq h => ?notReady, fun a hq ha hbad h => ?bad⟩
  case none =>
    rw [decodePoll_quiet hnone, decodeReport_noteOf]
    rfl
  case timeout =>
    rw [decodePoll_script_timeout (s.withFr s.pushedScanned) hq h, decodeReport_noteOf]
    rfl
  case fail =>
    rw [decodePoll_script_fail (s.withFr s.pushedScanned) hq h, noteOf_decodeError, decodeReport_noteOf]
    rfl
  case slot =>
    refine ⟨sl.returned s.draws .free, rfl, rfl, returned_shape _ _ _, ?_⟩
    rw [decodePoll_script_slot (s.withFr s.pushedScanned) ⟨hsl, hown, fun h => by cases h⟩ h]
    exact decodeReport_noteOf false false false true false _
  case notReady =>
    rw [decodePoll_script_notReady (s.withFr s.pushedScanned) hq h, decodeReport_noteOf]
    rfl
  case bad =>
    rw [decodePoll_script_bad (s.withFr s.pushedScanned) hq ha
      (fun i sl hi ⟨hsl, hown, _⟩ => hbad i sl hi hsl hown) h, noteOf_decodeError, decodeReport_noteOf]
    rfl

/-- `SE_DECODE` in the steady state with a unit that fits the free slot with the least index: the slot takes it, and
D4 follows (R257, R272). -/
theorem exec_seDecode_fits {s : State} {i : Nat} {sl : Slot} {a : DevAnswer} {rest : List DevAnswer}
    (hl : s.se.life = .opened) (hlist : s.listLegal) (hd : s.pl.hdrDone = true)
    (hp : s.acceptedScanned.pending = true) (hsl : s.pl.inPool[i]? = some sl) (hfree : sl.own = .free)
    (hleast : ∀ (k : Nat) (x : Slot), k < i → s.pl.inPool[k]? = some x → x.own ≠ .free)
    (hroom : s.acceptedScanned.unitLen ≤ sl.room) (hscript : s.dev.script = a :: rest) :
    ∃ sl', TakesUnit s.params s.acceptedScanned sl a sl' ∧
      exec .seDecode s = decodeReport (decodePoll
        (noteOf s.noRoom false (decide (a = .ok)) false (!decide (a = .ok)),
          ((s.withFr s.acceptedScanned.take).withDev
            (s.dev.after [(.enqueue .inp i s.acceptedScanned.unitLen, a)] rest)).putSlot .inp i sl')) := by
  obtain ⟨sl', htakes, e⟩ := decodeSubmit_fits (full := s.noRoom) (ran := false) (s := s.withFr s.accepted) hp hsl
    hfree hleast hroom hscript
  exact ⟨sl', htakes, by rw [exec_seDecode_steady hl hlist hd, e]; rfl⟩

/-- The same, Dev taking the slot and the poll running into its timeout. -/
theorem exec_seDecode_fits_timeout {s : State} {i : Nat} {sl : Slot} {rest : List DevAnswer}
    (hl : s.se.life = .opened) (hlist : s.listLegal) (hd : s.pl.hdrDone = true)
    (hp : s.acceptedScanned.pending = true) (hsl : s.pl.inPool[i]? = some sl) (hfree : sl.own = .free)
    (hleast : ∀ (k : Nat) (x : Slot), k < i → s.pl.inPool[k]? = some x → x.own ≠ .free)
    (hroom : s.acceptedScanned.unitLen ≤ sl.room) (hscript : s.dev.script = .ok :: .timeout :: rest) :
    ∃ sl', TakesUnit s.params s.acceptedScanned sl .ok sl' ∧
      exec .seDecode s = .next (State.decodeEnds
        { s with
          fr := s.acceptedScanned.take
          pl := { s.pl with inPool := s.pl.inPool.set i sl' }
          dev := s.dev.after [(.enqueue .inp i s.acceptedScanned.unitLen, .ok),
            (.poll (pollMs (s.pl.inPool.set i sl')), .timeout)] rest } s.noRoom false true false false) := by
  obtain ⟨sl', htakes, e⟩ := exec_seDecode_fits hl hlist hd hp hsl hfree hleast hroom hscript
  refine ⟨sl', htakes, ?_⟩
  have hset : sl' ∈ s.pl.inPool.set i sl' := List.mem_set (List.getElem?_eq_some_iff.1 hsl).1 _
  rw [e, decodePoll_script_timeout _ ⟨sl', hset, htakes.own⟩ rfl]
  refine (decodeReport_noteOf _ false true false false _).trans ?_
  rw [State.putSlot, withPl_dev, withDev_dev, after_after]
  rfl

/-- Settles O47: the steps as relations; then D3 fills the slot, and D4 polls or has nothing to poll for. -/
theorem seDecodeSubmits : Obligations.SeDecodeSubmits := by
  refine ⟨fun s hl hlist hd => ?steps, fun s rest i sl hl hlist hd hroom hp hsl hfree hleast _ hfits => ?fits⟩
  case steps =>
    rw [exec_seDecode_steady hl hlist hd]
    exact decodeReport_submits_reclaims s.noRoom false _
  case fits =>
    obtain ⟨hnoRoom, hscan⟩ := acceptedScanned_of_room hroom
    refine ⟨fun hscript => ?ok, fun hscript hnone => ?fail⟩
    case ok =>
      obtain ⟨sl', htakes, e⟩ := exec_seDecode_fits_timeout hl hlist hd (by rw [hscan]; exact hp) hsl hfree hleast
        (by rw [hscan]; exact hfits) hscript
      rw [hnoRoom, hscan] at e
      rw [hscan] at htakes
      exact ⟨sl', htakes.own, htakes.used, htakes.shape, htakes.bytes, htakes.others, e⟩
    case fail =>
      obtain ⟨sl', htakes, e⟩ := exec_seDecode_fits hl hlist hd (by rw [hscan]; exact hp) hsl hfree hleast
        (by rw [hscan]; exact hfits) hscript
      rw [hnoRoom, hscan] at e
      refine ⟨sl', htakes.own, htakes.shape, ?_⟩
      rw [e, decodePoll_quiet fun x hx => ?unqueued]
      case unqueued =>
        rcases List.mem_or_eq_of_mem_set hx with hx | rfl
        · exact hnone x hx
        · rw [htakes.own]; simp
      exact decodeReport_noteOf false false false false true _

/-- Settles O48: without room D3 and D4 still run; with no slot for the unit, or too small a slot, D3 keeps it. -/
theorem seDecodeRetains : Obligations.SeDecodeRetains := by
  intro s rest hl hlist hd f
  refine ⟨fun hfull hp hqueued hne hscript => ?noSlot,
    fun i sl hfull hp hsl hfree hleast hfits hscript => ?submits,
    fun hroom hp hsmall hne => ?allSmall,
    fun i sl hp hsl hfree hleast hsmall hq hscript => ?small⟩
  case noSlot =>
    obtain ⟨hnoRoom, hscan⟩ := acceptedScanned_of_noRoom hfull
    have hnone : ∀ sl ∈ s.pl.inPool, sl.own ≠ .free := fun sl hsl => by rw [hqueued sl hsl]; simp
    obtain ⟨x, hx⟩ := List.exists_mem_of_ne_nil _ hne
    rw [exec_seDecode_polls hl hlist hd (.inr hnone), hnoRoom, hscan,
      decodePoll_script_timeout (s.withFr (frScan s.params s.fr)) ⟨x, hx, hqueued x hx⟩ hscript, withFr_pl,
      pollMs_full hnone, decodeReport_noteOf]
    rfl
  case submits =>
    obtain ⟨hnoRoom, hscan⟩ := acceptedScanned_of_noRoom hfull
    obtain ⟨sl', htakes, e⟩ := exec_seDecode_fits_timeout hl hlist hd (by rw [hscan]; exact hp) hsl hfree hleast
      (by rw [hscan]; exact hfits) hscript
    rw [hnoRoom, hscan] at e
    rw [hscan] at htakes
    exact ⟨sl', htakes.own, htakes.used, htakes.shape, htakes.bytes, e⟩
  case allSmall =>
    obtain ⟨hnoRoom, hscan⟩ := acceptedScanned_of_room hroom
    obtain ⟨x, xs, hpool⟩ := List.exists_cons_of_ne_nil hne
    have hsl : s.pl.inPool[0]? = some x := by rw [hpool]; rfl
    obtain ⟨hfree, hlt⟩ := hsmall x (List.mem_of_getElem? hsl)
    rw [← hscan] at hp hlt ⊢
    have hleast : ∀ (k : Nat) (y : Slot), k < 0 → s.pl.inPool[k]? = some y → y.own ≠ .free :=
      fun k _ hk => absurd hk (Nat.not_lt_zero k)
    rw [exec_seDecode_small hl hlist hd hp hsl hfree hleast hlt, hnoRoom,
      decodePoll_quiet fun sl hsl => by rw [(hsmall sl hsl).1]; simp]
    exact decodeReport_noteOf false false false false true _
  case small =>
    rw [exec_seDecode_small hl hlist hd hp hsl hfree hleast hsmall,
      decodePoll_script_timeout (s.withFr s.acceptedScanned) hq hscript, withFr_pl,
      pollMs_free ⟨sl, List.mem_of_getElem? hsl, hfree⟩, decodeReport_noteOf]
    cases s.noRoom <;> rfl

end Sys2Proof.Machine

/-! SUPPORT. `SE_GETPIC` (43_pipeline.md R280 to R282): its hand-offs for every answer of Dev as relations, and for the
answers that the script gives, as states. -/

namespace Sys2Proof.Machine

/-! ### SE_GETPIC as relations -/

/-- `SE_GETPIC` after setup clears the result registers, does its hand-offs, and reports (R280). -/
theorem exec_seGetpic_done {s : State} (hl : s.se.life = .opened) (hd : s.pl.hdrDone = true) :
    exec .seGetpic s = .next ((getPicture (s.withRes ⟨s.res.r0, 0, 0, 0⟩)).2.withStatus
      (getPicture (s.withRes ⟨s.res.r0, 0, 0, 0⟩)).1.status.code) := by
  rw [show exec .seGetpic s = execSeGetpic s from rfl]
  rcases execSeGetpic_cases s with ⟨hl', _⟩ | ⟨hl', _⟩ | ⟨_, hd', _⟩ | ⟨_, _, e⟩
  · rw [hl] at hl'; cases hl'
  · rw [hl] at hl'; cases hl'
  · rw [hd] at hd'; cases hd'
  · exact e

/-- What `SE_GETPIC` reports, as a number (R280). -/
theorem PicNote.status_code (n : PicNote) :
    n.status.code = if n.err then -7 else if n.shown then 0 else -5 := by
  obtain ⟨err, shown⟩ := n
  cases err <;> cases shown <;> rfl

/-- `GetPicDirect` as relations (R281). -/
theorem getPicture_direct {s : State} (hc : s.pl.conv = false) :
    ∃ u e e' shown, resubmits .dout .dout (indicesOf .free s.pl.nDout s.pl.doutPool) s u e ∧
      shows .dout u (getPicture s).2 e' shown ∧ (getPicture s).1 = ⟨e || e', shown⟩ := by
  rw [getPicture, hc]
  obtain ⟨e, hretry, hnote⟩ := resubmit_all .dout .free .dout s.pl.nDout (⟨false, false⟩, s) s.pl.doutPool fun _ => rfl
  obtain ⟨e', shown, hshows, hnote'⟩ := showNext_shows (P := .dout) (by simp)
    (resubmit .dout .free .dout 0 s.pl.nDout (⟨false, false⟩, s))
  exact ⟨_, e, e', shown, hretry, hshows, hnote'.trans (by rw [hnote]; simp)⟩

/-- `GetPicConv` as relations (R282). -/
theorem getPicture_conv {s : State} (hc : s.pl.conv = true) :
    ∃ u1 u2 u3 u4 u5 e1 e2 e3 e4 e5 e6 shown,
      resubmits .dout .dout (indicesOf .free s.pl.nDout s.pl.doutPool) s u1 e1 ∧
      resubmits .dout .cin (indicesOf .done s.pl.nDout s.pl.doutPool) u1 u2 e2 ∧
      resubmits .cout .cout (indicesOf .free s.pl.nCout s.pl.coutPool) u2 u3 e3 ∧
      passesOn .cin .free .dout u3 u4 e4 ∧ passesOn .dout .done .cin u4 u5 e5 ∧
      shows .cout u5 (getPicture s).2 e6 shown ∧
      (getPicture s).1 = ⟨e1 || e2 || e3 || e4 || e5 || e6, shown⟩ := by
  rw [getPicture, hc]
  obtain ⟨u1, u2, e1, e2, e3, h1, h2, h3, hretry⟩ := getPicConvRetry_resubmits s
  obtain ⟨e4, h4, hnote4⟩ := passOn_passesOn .cin .free .dout (getPicConvRetry (⟨false, false⟩, s))
  obtain ⟨e5, h5, hnote5⟩ := passOn_passesOn .dout .done .cin
    (passOn .cin .free .dout (getPicConvRetry (⟨false, false⟩, s)))
  obtain ⟨e6, shown, h6, hnote6⟩ := showNext_shows (P := .cout) (by simp)
    (passOn .dout .done .cin (passOn .cin .free .dout (getPicConvRetry (⟨false, false⟩, s))))
  exact ⟨u1, u2, _, _, _, e1, e2, e3, e4, e5, e6, shown, h1, h2, h3, h4, h5, h6,
    hnote6.trans (by rw [hnote5, hnote4, hretry]; simp)⟩

/-! ### The steps under a script -/

/-- `s` with slot `i` of `P`, which is `sl`, presented: the event, and the result registers that name it (R262,
R280). -/
def State.showing (s : State) (P : PoolId) (i : Nat) (sl : Slot) : State :=
  { s with
    events := s.events ++ [⟨P, i, sl.planes.map fun p => (p.ptr, p.size), s.pl.fmt⟩]
    res := ⟨s.res.r0, indexWord i, 1, if P = .dout then 1 else 2⟩ }

section Scripts

variable {n : PicNote} {s : State} {rest : List DevAnswer}

theorem enqNote_script {P : PoolId} {q : QueueId} {i : Nat} {sl : Slot} {a : DevAnswer}
    (hsl : (s.pl.pool P)[i]? = some sl) (h : s.dev.script = a :: rest) :
    enqNote P q i (n, s) = (⟨n.err || !decide (a = .ok), n.shown⟩,
      (s.withDev (s.dev.after [(.enqueue q i 0, a)] rest)).putSlot P i (sl.offered P q a)) := by
  refine Prod.ext ?_ ?_
  · rw [enqNote_fst, enq_script hsl h]
  · rw [enqNote_snd, enq_script hsl h]

/-- The enqueue of a slot that has just been put into its table (R282). -/
theorem enqNote_putSlot {P : PoolId} {q : QueueId} {i : Nat} {x sl : Slot} {a : DevAnswer}
    (hsl : (s.pl.pool P)[i]? = some sl) (h : s.dev.script = a :: rest) :
    enqNote P q i (n, s.putSlot P i x) = (⟨n.err || !decide (a = .ok), n.shown⟩,
      (s.withDev (s.dev.after [(.enqueue q i 0, a)] rest)).putSlot P i (x.offered P q a)) := by
  rw [enqNote_script (s := s.putSlot P i x) (putSlot_get x hsl) h]
  exact congrArg (Prod.mk _) (putSlot_putSlot (s.withDev (s.dev.after [(.enqueue q i 0, a)] rest)) P i x _)

/-- Presenting a slot that has just been put into its table, and then changing its owner (R262). -/
theorem present_putSlot {P : PoolId} (hP : P ≠ .inp) {i : Nat} {sl : Slot} (hsl : (s.pl.pool P)[i]? = some sl)
    (x : Slot) (o : Own) :
    (present P i (s.putSlot P i x)).setOwn P i o = (s.showing P i x).putSlot P i { x with own := o } := by
  have hown : (s.putSlot P i x).setOwn P i o = s.putSlot P i { x with own := o } := by
    rw [State.setOwn, onSlot_eq_putSlot (putSlot_get x hsl), putSlot_putSlot]
  have hplanes : presentPlanes ((s.putSlot P i x).pl.pool P) i = x.planes.map fun p => (p.ptr, p.size) := by
    rw [presentPlanes, putSlot_get x hsl]
  have hfmt : (s.putSlot P i x).pl.fmt = s.pl.fmt := (setPool_rest _ _ _).1
  rw [present_setOwn, hown, hplanes, hfmt, code_pool hP]
  rfl

/-- G0 passes over a pool none of whose slots has the owner it looks for (R281, R282). -/
theorem resubmit_none {P : PoolId} {o : Own} {q : QueueId} (h : ∀ sl ∈ s.pl.pool P, sl.own ≠ o) (i k : Nat) :
    resubmit P o q i k (n, s) = (n, s) := by
  induction k generalizing i with
  | zero => rfl
  | succ k ih =>
    have hi : ownIs o (s.pl.pool P) i = false := by
      rw [ownIs_iff, decide_eq_false_iff_not, Option.map_eq_some_iff]
      rintro ⟨sl, hsl, hown⟩
      exact h sl (List.mem_of_getElem? hsl) hown
    rw [resubmit, hi]
    exact ih (i + 1)

/-- The relation leaves no choice: it is what `µENQ` does (R250). -/
theorem enqueues_eq {P : PoolId} {q : QueueId} {i : Nat} {t : State} {err : Bool} (h : enqueues P q i s t err) :
    t = (enq P q i 0 s).2 ∧ err = !(enq P q i 0 s).1 := by
  rcases h with ⟨hok, herr, ht⟩ | ⟨hno, herr, ht⟩ <;>
    rcases enq_enqueues P q i s with ⟨hok', herr', ht'⟩ | ⟨hno', herr', ht'⟩
  · exact ⟨ht.trans ht'.symm, herr.trans herr'.symm⟩
  · exact absurd hok hno'
  · exact absurd hok' hno
  · exact ⟨ht.trans ht'.symm, herr.trans herr'.symm⟩

/-- G0 over a pool with one slot to enqueue again (R281, R282). -/
theorem resubmit_single {P : PoolId} {o : Own} {q : QueueId} {i k : Nat} {sl : Slot} (hi : i < k)
    (hsl : (s.pl.pool P)[i]? = some sl) (hown : sl.own = o)
    (hothers : ∀ j x, j ≠ i → (s.pl.pool P)[j]? = some x → x.own ≠ o) :
    resubmit P o q 0 k (n, s) = enqNote P q i (n, s) := by
  have hidx : indicesOf o k (s.pl.pool P) = [i] := by
    have hsingle : ∀ j, decide ((s.pl.pool P)[j]?.map Slot.own = some o) = (j == i) := fun j => by
      rw [beq_eq_decide, decide_eq_decide, Option.map_eq_some_iff]
      refine ⟨fun ⟨x, hx, hxo⟩ => by_contra fun hj => hothers j x hj hx hxo, ?_⟩
      rintro rfl
      exact ⟨sl, hsl, hown⟩
    rw [indicesOf, List.filter_congr fun j _ => hsingle j, List.filter_beq, List.count_range]
    simp [hi]
  obtain ⟨err, hre, hnote⟩ := resubmit_all P o q k (n, s) (s.pl.pool P) fun _ => rfl
  rw [hidx] at hre
  obtain ⟨u, e, e', henq, ⟨ht, rfl⟩, rfl⟩ := hre
  obtain ⟨hu, rfl⟩ := enqueues_eq henq
  refine Prod.ext ?_ (ht.trans hu)
  rw [hnote, enqNote_fst, Bool.or_false]

theorem passOn_script_notReady {q q2 : QueueId} {o : Own} (h : s.dev.script = .notReady :: rest) :
    passOn q o q2 (n, s) = (n, s.withDev (s.dev.after [(.dequeue q, .notReady)] rest)) := by
  unfold passOn
  simp only [deq_script_notReady h]

/-- A hand-off of G1 or G2, Dev answering the enqueue with `a` (R282). -/
theorem passOn_script_slot {q q2 : QueueId} {o : Own} {i : Nat} {sl : Slot} {a : DevAnswer}
    (hsl : s.mayReturn .dout q i sl) (h : s.dev.script = .slot i :: a :: rest) :
    passOn q o q2 (n, s) = (⟨n.err || !decide (a = .ok), n.shown⟩,
      ((s.withDev (s.dev.after [(.dequeue q, .slot i), (.enqueue q2 i 0, a)] rest)).putSlot .dout i
        ((sl.returned s.draws o).offered .dout q2 a)).withDraws (s.draws + 1)) := by
  obtain ⟨hgot, hset⟩ := deq_script_slot hsl h
  unfold passOn
  simp only [hgot, hset]
  obtain ⟨hget, _⟩ := hsl
  refine (enqNote_putSlot (s := (s.withDev (s.dev.after [(.dequeue q, .slot i)] (a :: rest))).withDraws (s.draws + 1))
    hget rfl).trans ?_
  simp only [withDraws_dev, withDev_dev, after_after]
  rfl

theorem showNext_script_notReady {P : PoolId} (h : s.dev.script = .notReady :: rest) :
    showNext P (n, s) = (n, s.withDev (s.dev.after [(.dequeue P.queue, .notReady)] rest)) := by
  unfold showNext
  simp only [deq_script_notReady h]

theorem showNext_script_bad {P : PoolId} {a : DevAnswer} (ha : a ≠ .notReady)
    (hbad : ∀ i sl, a = .slot i → ¬ s.mayReturn P P.queue i sl) (h : s.dev.script = a :: rest) :
    showNext P (n, s) =
      ({ n with err := true }, s.withDev (s.dev.after [(.dequeue P.queue, a)] rest)) := by
  unfold showNext
  simp only [deq_script_bad ha hbad h]

/-- A picture is presented, Dev answering the enqueue with `a` (R281 G2, R282 G3). -/
theorem showNext_script_slot {P : PoolId} (hP : P ≠ .inp) {i : Nat} {sl : Slot} {a : DevAnswer}
    (hsl : s.mayReturn P P.queue i sl) (h : s.dev.script = .slot i :: a :: rest) :
    showNext P (n, s) = (⟨n.err || !decide (a = .ok), true⟩,
      (((s.withDev (s.dev.after [(.dequeue P.queue, .slot i), (.enqueue P.queue i 0, a)] rest)).withDraws
        (s.draws + 1)).showing P i sl).putSlot P i ((sl.returned s.draws .free).offered P P.queue a)) := by
  obtain ⟨hgot, hset⟩ := deq_script_slot hsl h
  obtain ⟨hget, _⟩ := hsl
  unfold showNext
  simp only [hgot, hset]
  set u := (s.withDev (s.dev.after [(.dequeue P.queue, .slot i)] (a :: rest))).withDraws (s.draws + 1) with hu
  have hpresent := present_putSlot (s := u) hP (show (u.pl.pool P)[i]? = some sl from hget)
    (sl.returned s.draws .done) .free
  have hshow : u.showing P i (sl.returned s.draws .done) = u.showing P i sl := by
    simp [State.showing, Slot.returned, Slot.freshContents]
  rw [hshow] at hpresent
  refine (congrArg (fun v => enqNote P P.queue i (_, v)) hpresent).trans ?_
  refine (enqNote_putSlot (s := u.showing P i sl) hget rfl).trans ?_
  refine congrArg (Prod.mk _) ?_
  rw [show (u.showing P i sl).dev = s.dev.after [(.dequeue P.queue, .slot i)] (a :: rest) from rfl, after_after]
  rfl

end Scripts

/-! ### SE_GETPIC without conversion -/

theorem PicOnly.state_eq {s t : State} (h : PicOnly s t) :
    t = { s with res := t.res, pl := t.pl, events := t.events, dev := t.dev, draws := t.draws } := by
  obtain ⟨hparams, hargs, hmem, hbw, hfr, hse, hport⟩ := h
  rw [← hparams, ← hargs, ← hmem, ← hbw, ← hfr, ← hse, ← hport]

/-- How `SE_GETPIC` completes when the hand-offs note `n` and leave `u`; they touch the slots, the port, the event
trace and the result registers only (R280). -/
theorem exec_seGetpic_of_eq {s u : State} {n : PicNote} (hl : s.se.life = .opened) (hd : s.pl.hdrDone = true)
    (h : getPicture (s.withRes ⟨s.res.r0, 0, 0, 0⟩) = (n, u)) :
    exec .seGetpic s = .next { s with
      res := { u.res with r0 := BitVec.ofInt 32 n.status.code }
      pl := u.pl, events := u.events, dev := u.dev, draws := u.draws } := by
  have honly := (getPicture_step (s.withRes ⟨s.res.r0, 0, 0, 0⟩)).only
  rw [h] at honly
  rw [exec_seGetpic_done hl hd, h, honly.state_eq]
  rfl

/-- With no slot to enqueue again only G2 of R281 is left. -/
theorem getPicture_direct_shows {s : State} (hc : s.pl.conv = false) (hfree : ∀ sl ∈ s.pl.doutPool, sl.own ≠ .free) :
    getPicture s = showNext .dout (⟨false, false⟩, s) := by
  rw [getPicture, hc]
  exact congrArg (showNext .dout) (resubmit_none (P := .dout) (s := s) hfree 0 s.pl.nDout)

/-- Settles O50: the steps as relations; then G2 alone, and G0 of one slot. -/
theorem seGetpicDirect : Obligations.SeGetpicDirect := by
  intro s hl hd hc
  set w := s.withRes ⟨s.res.r0, 0, 0, 0⟩ with hw
  refine ⟨?steps, fun rest hfree => ⟨fun h => ?notReady, fun i sl a hsl hown hholder ha h => ?slot,
    fun a ha hbad h => ?bad⟩, fun rest i sl a hi hsl hown hothers ha h => ?retry⟩
  case steps =>
    obtain ⟨u, e, e', shown, hretry, hshows, hnote⟩ := getPicture_direct (s := w) hc
    refine ⟨u, _, e, e', shown, hretry, hshows, ?_⟩
    rw [exec_seGetpic_done hl hd, PicNote.status_code, hnote]
  case notReady =>
    have hpic := getPicture_direct_shows (s := w) hc hfree
    rw [showNext_script_notReady (s := w) h] at hpic
    rw [exec_seGetpic_of_eq hl hd hpic]
    rfl
  case slot =>
    have hpic := getPicture_direct_shows (s := w) hc hfree
    rw [showNext_script_slot (s := w) (P := .dout) (by simp) ⟨hsl, hown, fun _ => hholder⟩ h] at hpic
    refine ⟨(sl.returned s.draws .free).offered .dout .dout a, indexWord i, offered_own .dout .dout a _, ?_,
      by simp, indexWord_of_lt, ?_⟩
    · rw [offered_holder, returned_holder, hholder]
      exact ite_self _
    · rw [exec_seGetpic_of_eq hl hd hpic]
      rcases ha with rfl | rfl <;> rfl
  case bad =>
    have hbad' : ∀ i sl, a = .slot i → ¬ w.mayReturn .dout .dout i sl :=
      fun i sl hi ⟨hsl, hown, hholder⟩ => hbad i sl hi hsl ⟨hown, hholder rfl⟩
    have hpic := getPicture_direct_shows (s := w) hc hfree
    rw [showNext_script_bad (s := w) (P := .dout) ha hbad' h] at hpic
    rw [exec_seGetpic_of_eq hl hd hpic]
    rfl
  case retry =>
    have hpic : getPicture w = showNext .dout (enqNote .dout .dout i (⟨false, false⟩, w)) := by
      rw [getPicture, show w.pl.conv = false from hc]
      exact congrArg (showNext .dout) (resubmit_single hi hsl hown hothers)
    rw [enqNote_script (s := w) hsl h, showNext_script_notReady (s := State.putSlot _ _ _ _) rfl] at hpic
    simp only [putSlot_dev, withDev_dev, after_after] at hpic
    refine ⟨sl.offered .dout .dout a, ?_, fun hok => ?_, offered_shape _ _ _ _, ?_⟩
    · rw [offered_own, hown]
    · rw [offered_holder, if_pos hok]; rfl
    · rw [exec_seGetpic_of_eq hl hd hpic]
      rcases ha with rfl | rfl <;> rfl

/-! ### SE_GETPIC with conversion -/

/-- With no slot left over only G1 to G3 of R282 are left. -/
theorem getPicture_conv_passes {s : State} (hc : s.pl.conv = true) (hdout : ∀ sl ∈ s.pl.doutPool, sl.own = .queued)
    (hcout : ∀ sl ∈ s.pl.coutPool, sl.own = .queued) :
    getPicture s = showNext .cout (passOn .dout .done .cin (passOn .cin .free .dout (⟨false, false⟩, s))) := by
  have hretry : getPicConvRetry (⟨false, false⟩, s) = (⟨false, false⟩, s) := by
    have hfree : ∀ sl ∈ s.pl.pool .dout, sl.own ≠ .free := fun sl hsl => by rw [hdout sl hsl]; simp
    have hdone : ∀ sl ∈ s.pl.pool .dout, sl.own ≠ .done := fun sl hsl => by rw [hdout sl hsl]; simp
    have hcfree : ∀ sl ∈ s.pl.pool .cout, sl.own ≠ .free := fun sl hsl => by rw [hcout sl hsl]; simp
    simp only [getPicConvRetry, resubmit_none hfree, resubmit_none hdone, resubmit_none hcfree]
  rw [getPicture, hc, if_pos rfl, getPicConv, hretry]

/-- Settles O51: the steps as relations; then each hand-off with no slot left over. -/
theorem seGetpicConv : Obligations.SeGetpicConv := by
  intro s hl hd hc
  set w := s.withRes ⟨s.res.r0, 0, 0, 0⟩ with hw
  refine ⟨?steps, fun rest hdout hcout => ?cases⟩
  case steps =>
    obtain ⟨u1, u2, u3, u4, u5, e1, e2, e3, e4, e5, e6, shown, h1, h2, h3, h4, h5, h6, hnote⟩ :=
      getPicture_conv (s := w) hc
    refine ⟨u1, u2, u3, u4, u5, _, e1, e2, e3, e4, e5, e6, shown, h1, h2, h3, h4, h5, h6, ?_⟩
    rw [exec_seGetpic_done hl hd, PicNote.status_code, hnote]
  have hpic := getPicture_conv_passes (s := w) hc hdout hcout
  have hqueued : ∀ {i : Nat} {sl : Slot}, s.pl.doutPool[i]? = some sl → sl.own = .queued :=
    fun h => hdout _ (List.mem_of_getElem? h)
  refine ⟨fun i sl hsl hholder h => ?back, fun i sl a hsl hholder ha h => ?onward, fun j sl hsl h => ?shown,
    fun i k j x y z a b c hx hxh hy hyh hz ha hb hc h => ?all⟩
  case back =>
    rw [passOn_script_slot (q := .cin) (s := w) ⟨hsl, hqueued hsl, fun _ => hholder⟩ h,
      passOn_script_notReady (s := State.withDraws _ _) rfl,
      showNext_script_notReady (s := State.withDev _ _) rfl] at hpic
    simp only [withDraws_dev, putSlot_dev, withDev_dev, after_after] at hpic
    refine ⟨(sl.returned s.draws .free).offered .dout .dout .ok, rfl, rfl, by simp, ?_⟩
    rw [exec_seGetpic_of_eq hl hd hpic]
    rfl
  case onward =>
    rw [passOn_script_notReady (s := w) h,
      passOn_script_slot (q := .dout) (s := w.withDev _) ⟨hsl, hqueued hsl, fun _ => hholder⟩ rfl,
      showNext_script_notReady (s := State.withDraws _ _) rfl] at hpic
    simp only [withDraws_dev, putSlot_dev, withDev_dev, after_after] at hpic
    refine ⟨(sl.returned s.draws .done).offered .dout .cin a, offered_own _ _ _ _, fun hok => ?_, by simp, ?_⟩
    · rw [offered_holder, if_pos hok]; rfl
    · rw [exec_seGetpic_of_eq hl hd hpic]
      rcases ha with rfl | rfl <;> rfl
  case shown =>
    have hown := hcout sl (List.mem_of_getElem? hsl)
    rw [passOn_script_notReady (s := w) h, passOn_script_notReady (s := w.withDev _) rfl,
      showNext_script_slot (P := .cout) (s := (w.withDev _).withDev _) (by simp) ⟨hsl, hown, by simp⟩ rfl] at hpic
    simp only [withDev_dev, after_after] at hpic
    refine ⟨(sl.returned s.draws .free).offered .cout .cout .ok, indexWord j, rfl, by simp, indexWord_of_lt, ?_⟩
    rw [exec_seGetpic_of_eq hl hd hpic]
    rfl
  case all =>
    have hne : i ≠ k := by
      rintro rfl
      obtain rfl : x = y := Option.some.inj (hx.symm.trans hy)
      rw [hxh] at hyh; cases hyh
    have hzown := hcout z (List.mem_of_getElem? hz)
    rw [passOn_script_slot (q := .cin) (s := w) ⟨hx, hqueued hx, fun _ => hxh⟩ h,
      passOn_script_slot (q := .dout) (sl := y) (s := State.withDraws _ _)
        ⟨(List.getElem?_set_ne hne).trans hy, hqueued hy, fun _ => hyh⟩ rfl,
      showNext_script_slot (P := .cout) (i := j) (sl := z) (a := c) (rest := rest) (by simp) ?returns ?answers] at hpic
    case returns => exact ⟨hz, hzown, by simp⟩
    case answers => rfl
    simp only [withDraws_dev, putSlot_dev, withDev_dev, after_after] at hpic
    refine ⟨(x.returned s.draws .free).offered .dout .dout a, (y.returned (s.draws + 1) .done).offered .dout .cin b,
      (z.returned (s.draws + 2) .free).offered .cout .cout c, indexWord j, offered_own _ _ _ _, fun hok => ?_,
      offered_own _ _ _ _, fun hok => ?_, offered_own _ _ _ _, by simp, by simp, by simp, indexWord_of_lt, ?_⟩
    · rw [offered_holder, if_pos hok]; rfl
    · rw [offered_holder, if_pos hok]; rfl
    · rw [exec_seGetpic_of_eq hl hd hpic, Host.Outcome.next.injEq, State.mk.injEq]
      refine ⟨rfl, rfl, ?_, rfl, rfl, rfl, rfl, rfl, rfl, rfl, rfl, rfl⟩
      rcases ha with rfl | rfl <;> rcases hb with rfl | rfl <;> rcases hc with rfl | rfl <;> rfl

end Sys2Proof.Machine

/-! SUPPORT. A setup that fails (43_pipeline.md R256, R258, R259): what `SE_DECODE` leaves, and where setup fails under
a script. -/

namespace Sys2Proof.Machine

/-! ### What is left -/

/-- `SE_DECODE` ends at once after a setup that fails (R258). -/
theorem exec_seDecode_setup_fails {s : State} (hl : s.se.life = .opened) (hlist : s.listLegal)
    (hd : s.pl.hdrDone = false) (hp : s.acceptedScanned.pending = true)
    (hs : (setup (s.withFr s.acceptedScanned)).1 = false) :
    exec .seDecode s = .next ((setupFailed (setup (s.withFr s.acceptedScanned)).2).withStatus (-6)) := by
  have hfirst : exec .seDecode s = decodeFirst (noteOf s.noRoom false false false false, s.withFr s.accepted) :=
    (exec_seDecode_opened hl hlist).trans (if_neg (by rw [withFr_pl, hd]; simp))
  refine hfirst.trans ((if_pos hp).trans (if_neg ?_))
  rw [Bool.not_eq_true]
  exact hs

/-! ### Where setup fails -/

theorem setup_fails_first {s : State} (h : s.dev.next = .fail) : (setup s).1 = false := by
  have hs : (setupNegotiate s).1 = false := by rw [setupNegotiate, askOk_eq, h]; rfl
  rw [setup, thenStep_of_false _ hs, hs]

/-- What setup has issued when it succeeds holds no `FAIL`, and no more `NOT_READY` than are tolerated (R256, R259). -/
theorem SetupIssued.tolerated {s t : State} {j m : Nat} {f : Fmt} {c : Bool} (h : SetupIssued s t j f m c)
    {l : List DevTxn} (hl : t.dev.log = s.dev.log ++ l) :
    (∀ x ∈ l, x.answer ≠ some .fail) ∧ (l.filter fun x => decide (x.answer = some .notReady)).length = j := by
  obtain ⟨l1, l2, hl1, hl2, hlog⟩ := h.log
  obtain rfl := List.append_cancel_left (hl.symm.trans hlog)
  have hplain : ∀ l : List DevTxn, (∀ x ∈ l, plainTxn x) →
      (l.filter fun x => decide (x.answer = some .notReady)) = [] := fun l hl =>
    List.filter_eq_nil_iff.2 fun x hx => by
      obtain ⟨_, _, hready⟩ := hl x hx
      simpa using hready
  refine ⟨fun x hx => ?_, by simp [List.filter_append, hplain l1 hl1, hplain l2 hl2]⟩
  simp only [List.mem_append, List.mem_cons, List.mem_replicate] at hx
  have hnofail : plainTxn x → x.answer ≠ some .fail := fun ⟨_, hne, _⟩ => hne
  rcases hx with hx | ⟨_, rfl⟩ | rfl | hx
  · exact hnofail (hl1 x hx)
  · simp
  · simp
  · exact hnofail (hl2 x hx)

/-- A setup with a `FAIL` among its answers, or more `NOT_READY` than are tolerated, has failed (R256, R259). -/
theorem setup_fails_of_answers {s : State} {l : List DevTxn} (hl : (setup s).2.dev.log = s.dev.log ++ l)
    (h : (∃ x ∈ l, x.answer = some .fail) ∨
      s.params.hdrRetryMax < (l.filter fun x => decide (x.answer = some .notReady)).length) :
    (setup s).1 = false := by
  rw [← Bool.not_eq_true]
  intro hs
  obtain ⟨j, f, m, c, hj, hissued⟩ := setup_issued s hs
  obtain ⟨hnofail, hcount⟩ := hissued.tolerated hl
  rcases h with ⟨x, hx, hfail⟩ | hmany
  · exact hnofail x hx hfail
  · omega

/-! ### Failures under a script -/

/-- S1 and S2 (R256). -/
def setupBegin (s : State) : Bool × State := thenStep (setupNegotiate s) setupInput

theorem thenStep_assoc (r : Bool × State) (k k' : State → Bool × State) :
    thenStep (thenStep r k) k' = thenStep r fun t => thenStep (k t) k' := by
  cases h : r.1
  · rw [thenStep_of_false _ h, thenStep_of_false _ h, thenStep_of_false _ h]
  · rw [thenStep_of_true _ h, thenStep_of_true _ h]

theorem setup_eq_begin (s : State) :
    setup s = thenStep (setupBegin s) fun t => thenStep (setupHeader t) setupRest :=
  (thenStep_assoc _ _ _).symm

/-- The transactions of S1 and S2 (R256). -/
def State.beginTxns (s : State) (ps : PoolId → Nat → List PlaneInfo) : List (DevCall × DevAnswer) :=
  [(.negotiateInput s.fr.mode s.se.width s.se.height, .ok)] ++
    ((.alloc .inp s.params.nIn, .ok) :: mapTxns .inp s.params.nIn (ps .inp))

theorem headerTxns_eq (s : State) (ps : PoolId → Nat → List PlaneInfo) (k : Nat) :
    s.headerTxns ps k = s.beginTxns ps ++
      ([(.enqueue .inp 0 s.fr.unitLen, .ok)] ++ List.replicate k (.queryCapture, .notReady)) := by
  simp [State.headerTxns, State.beginTxns]

theorem beginTxns_length (s : State) (ps : PoolId → Nat → List PlaneInfo) :
    (s.beginTxns ps).length = 2 + s.params.nIn := by
  simp [State.beginTxns, mapTxns]; omega

section Fails

variable {ps : PoolId → Nat → List PlaneInfo} {p0 : PlaneInfo} {s : State} {rest : List DevAnswer}

/-- What S1 and S2 leave: the input slots with the planes Dev answered (R256). -/
theorem setupBegin_scripted (hps : ∀ P i, ps P i ≠ []) (h0 : (ps .inp 0).head? = some p0) :
    Scripted setupBegin (s.beginTxns ps) (fun t => PipeOnly s t ∧ t.inRoom 0 = p0.size.toNat) s := by
  refine (setupNegotiate_scripted s).append fun t1 ⟨o1, _⟩ => ?_
  have h2 := setupInput_scripted (ps .inp) (hps .inp) t1
  rw [o1.params] at h2
  refine h2.imp fun t2 ⟨o2, hmapped, _⟩ => ⟨o1.trans o2, ?_⟩
  have hpos : 0 < t2.pl.inPool.length := by
    have hlen := congrArg List.length hmapped
    simp only [List.length_map, List.length_range] at hlen
    exact hlen ▸ nIn_pos s.params
  have hget := List.getElem?_eq_getElem hpos
  rw [State.inRoom, hget]
  exact mappedAs_room (mapped_get hmapped hget) h0

/-- The head cluster is larger than plane 0 of input slot 0: setup fails at S3 (R256). -/
theorem setup_fails_small (hps : ∀ P i, ps P i ≠ []) (h0 : (ps .inp 0).head? = some p0)
    (hsmall : p0.size.toNat < s.fr.unitLen) (hscript : s.dev.script = answersOf (s.beginTxns ps) ++ rest) :
    (setup s).1 = false ∧ (setup s).2.dev = s.dev.after (s.beginTxns ps) rest := by
  obtain ⟨hok, hdev, honly, hroom⟩ := (setupBegin_scripted hps h0).goes rest hscript
  have hfail : setupHeader (setupBegin s).2 = (false, (setupBegin s).2) := by
    rw [setupHeader, if_pos]
    rw [hroom, honly.fr]; exact hsmall
  rw [setup_eq_begin, thenStep_of_true _ hok, thenStep_of_false _ (by rw [hfail]), hfail]
  exact ⟨rfl, hdev⟩

/-- One `NOT_READY` more than is tolerated ends setup at S4 (R256, R259). -/
theorem setup_fails_tired (hps : ∀ P i, ps P i ≠ []) (h0 : (ps .inp 0).head? = some p0)
    (hfits : s.fr.unitLen ≤ p0.size.toNat)
    (hscript : s.dev.script = answersOf (s.headerTxns ps (s.params.hdrRetryMax + 1)) ++ rest) :
    (setup s).1 = false ∧ (setup s).2.dev = s.dev.after (s.headerTxns ps (s.params.hdrRetryMax + 1)) rest := by
  have hheader : Scripted (fun s => thenStep (setupBegin s) setupHeader)
      (s.beginTxns ps ++ [(.enqueue .inp 0 s.fr.unitLen, .ok)]) (fun t => t.params = s.params) s := by
    refine (setupBegin_scripted hps h0).append fun t ⟨honly, hroom⟩ => ?_
    have hs := setupHeader_scripted t (by rw [hroom, honly.fr]; exact hfits)
    rw [honly.fr] at hs
    exact hs.imp fun u ⟨honly', _⟩ => honly'.params.trans honly.params
  rw [headerTxns_eq, ← List.append_assoc, List.replicate_succ'] at hscript ⊢
  rw [answersOf_append, List.append_assoc] at hscript
  obtain ⟨hok, hdev, hparams⟩ := hheader.goes _ hscript
  rw [setup_eq_begin, ← thenStep_assoc, thenStep_of_true _ hok]
  have hstop := queryLoop_stops s.params.hdrRetryMax s.params.hdrRetryMax .notReady (.inr ⟨rfl, rfl⟩) _ rest
    (by rw [hdev]; simp [answersOf])
  rw [setupRest, hparams, hstop, withDev_dev, hdev, after_after]
  exact ⟨rfl, rfl⟩

end Fails

/-! ### The statement -/

/-- Settles O45: what a failed setup leaves; then what has been answered when setup succeeds, and the scripts under
which it fails. -/
theorem setupFails : Obligations.SetupFails := by
  intro s hl hlist hd hp w
  refine ⟨fun hs => ?left, setup_fails_first (s := w), fun l hlog h => setup_fails_of_answers hlog h,
    fun ps p0 k fmt m c rest hconv hps h0 => ⟨fun hsmall hscript => ?small,
      fun hfits hscript => ?tired, fun hfits hk n call a hn hscript => ?stops⟩⟩
  case left =>
    have honly := setup_only w
    refine ⟨(setup w).2.fr, honly.fr, (exec_seDecode_setup_fails hl hlist hd hp hs).trans ?_⟩
    rw [show setup (s.withFr s.acceptedScanned) = setup w from rfl]
    generalize (setup w).2 = u at honly ⊢
    rw [honly.state_eq]
    rfl
  case small =>
    have htake : (w.headerTxns ps 0).take (2 + s.params.nIn) = w.beginTxns ps := by
      rw [headerTxns_eq]
      exact List.take_left' (beginTxns_length w ps)
    rw [htake] at hscript ⊢
    exact setup_fails_small hps h0 hsmall hscript
  case tired => exact setup_fails_tired hps h0 hfits hscript
  case stops => exact (setup_scripted ps hps p0 k fmt m c w hconv hk h0 hfits).stops n call a rest hn hscript

end Sys2Proof.Machine

/-! SUPPORT. How many transactions the SE commands issue, and what they present (43_pipeline.md R262, R280, R365),
by the relations of their steps. -/

namespace Sys2Proof.Machine

/-! ### Counting transactions -/

theorem issuedAtMost_of_dev {s t : State} (n : Nat) (h : t.dev = s.dev) : issuedAtMost n s t :=
  ⟨[], by rw [h, List.append_nil], Nat.zero_le n⟩

theorem issuedAtMost_one {s t : State} {c : DevCall} (h : t.dev = s.dev.issue c) : issuedAtMost 1 s t :=
  ⟨[⟨c, some s.dev.next⟩], by rw [h]; rfl, le_refl 1⟩

theorem issuedAtMost.trans {s t u : State} {m n : Nat} (a : issuedAtMost m s t) (b : issuedAtMost n t u) :
    issuedAtMost (m + n) s u := by
  obtain ⟨l, hl, hm⟩ := a
  obtain ⟨l', hl', hn⟩ := b
  exact ⟨l ++ l', by rw [hl', hl, List.append_assoc], by rw [List.length_append]; omega⟩

theorem issuedAtMost.mono {s t : State} {m n : Nat} (a : issuedAtMost m s t) (h : m ≤ n) : issuedAtMost n s t := by
  obtain ⟨l, hl, hm⟩ := a
  exact ⟨l, hl, hm.trans h⟩

/-- The count rests on the record only. -/
theorem issuedAtMost.source {s s' t : State} {n : Nat} (a : issuedAtMost n s t) (hs : s.dev = s'.dev) :
    issuedAtMost n s' t := by
  obtain ⟨l, hl, hn⟩ := a
  exact ⟨l, by rw [hl, hs], hn⟩

/-! ### The steps of SE_GETPIC and SE_DECODE -/

theorem enqueues_issued {P : PoolId} {q : QueueId} {i : Nat} {s t : State} {err : Bool}
    (h : enqueues P q i s t err) : issuedAtMost 1 s t := by
  rcases h with ⟨_, _, rfl⟩ | ⟨_, _, rfl⟩ <;> exact issuedAtMost_one rfl

theorem dequeues_issued {P : PoolId} {q : QueueId} {i : Nat} {o : Own} {s t : State}
    (h : dequeues P q i o s t) : issuedAtMost 1 s t := by
  obtain ⟨_, _, _, _, _, _, _, _, _, rfl⟩ := h
  exact issuedAtMost_one rfl

theorem noSlot_issued {P : PoolId} {q : QueueId} {s t : State} {err : Bool} (h : noSlot P q s t err) :
    issuedAtMost 1 s t := by
  obtain ⟨rfl, _⟩ := h
  exact issuedAtMost_one rfl

theorem resubmits_issued {P : PoolId} {q : QueueId} {is : List Nat} {s t : State} {err : Bool}
    (h : resubmits P q is s t err) : issuedAtMost is.length s t := by
  induction is generalizing s err with
  | nil =>
    obtain ⟨rfl, _⟩ := h
    exact issuedAtMost_of_dev 0 rfl
  | cons i is ih =>
    obtain ⟨u, e, e', henq, hrest, _⟩ := h
    exact ((enqueues_issued henq).trans (ih hrest)).mono (by rw [List.length_cons]; omega)

theorem passesOn_issued {q q2 : QueueId} {o : Own} {s t : State} {err : Bool} (h : passesOn q o q2 s t err) :
    issuedAtMost 2 s t := by
  rcases h with hno | ⟨i, u, hdeq, henq⟩
  · exact (noSlot_issued hno).mono (by omega)
  · exact (dequeues_issued hdeq).trans (enqueues_issued henq)

theorem shows_issued {P : PoolId} {s t : State} {err shown : Bool} (h : shows P s t err shown) :
    issuedAtMost 2 s t := by
  rcases h with ⟨hno, _⟩ | ⟨i, sl, u, r1, hdeq, _, _, _, henq⟩
  · exact (noSlot_issued hno).mono (by omega)
  · exact (dequeues_issued hdeq).trans ((enqueues_issued henq).source rfl)

theorem submits_issued {s t : State} {sub err : Bool} (h : submits s t sub err) : issuedAtMost 1 s t := by
  rcases h with ⟨_, rfl, _⟩ | ⟨_, i, sl, _, _, _, ⟨_, rfl, _⟩ | ⟨_, _, _, sl', _, _, _, _, _, rfl⟩⟩
  · exact issuedAtMost_of_dev 1 rfl
  · exact issuedAtMost_of_dev 1 rfl
  · exact issuedAtMost_one rfl

theorem reclaims_issued {s t : State} {got err : Bool} (h : reclaims s t got err) : issuedAtMost 2 s t := by
  rcases h with ⟨_, rfl, _⟩ | ⟨_, ⟨_, rfl, _⟩ | ⟨_, ⟨hno, _⟩ | ⟨j, hdeq, _⟩⟩⟩
  · exact issuedAtMost_of_dev 2 rfl
  · exact (issuedAtMost_one rfl).mono (by omega)
  · exact (issuedAtMost_one rfl).trans (noSlot_issued hno)
  · exact (issuedAtMost_one rfl).trans (dequeues_issued hdeq)

/-- The slots with one owner and those with another are different slots of the pool (R35). -/
theorem indicesOf_length_le (n : Nat) (xs : List Slot) :
    (indicesOf .free n xs).length + (indicesOf .done n xs).length ≤ n := by
  have hdisjoint : (List.range n).countP (fun k => decide (xs[k]?.map Slot.own = some .done)) ≤
      (List.range n).countP (fun k => decide ¬ decide (xs[k]?.map Slot.own = some .free) = true) :=
    List.countP_mono_left fun k _ hdone => by
      rw [decide_eq_true_eq] at hdone
      simp [hdone]
  have htotal := List.length_eq_countP_add_countP (l := List.range n)
    (fun k => decide (xs[k]?.map Slot.own = some .free))
  rw [List.length_range] at htotal
  rw [indicesOf, indicesOf, ← List.countP_eq_length_filter, ← List.countP_eq_length_filter]
  omega

theorem indicesOf_length (o : Own) (n : Nat) (xs : List Slot) : (indicesOf o n xs).length ≤ n :=
  (List.length_filter_le _ _).trans List.length_range.le

/-- The hand-offs of `SE_GETPIC` (R281, R282, R365). -/
theorem getPicture_issued (s : State) : issuedAtMost (6 + s.pl.nDout + s.pl.nCout) s (getPicture s).2 := by
  cases hc : s.pl.conv
  · obtain ⟨u, e, e', shown, hretry, hshows, _⟩ := getPicture_direct hc
    have hlen := indicesOf_length .free s.pl.nDout s.pl.doutPool
    exact ((resubmits_issued hretry).trans (shows_issued hshows)).mono (by omega)
  · obtain ⟨u1, u2, u3, u4, u5, _, _, _, _, _, _, _, h1, h2, h3, h4, h5, h6, _⟩ := getPicture_conv hc
    have hdout := indicesOf_length_le s.pl.nDout s.pl.doutPool
    have hcout := indicesOf_length .free s.pl.nCout s.pl.coutPool
    exact ((((((resubmits_issued h1).trans (resubmits_issued h2)).trans (resubmits_issued h3)).trans
      (passesOn_issued h4)).trans (passesOn_issued h5)).trans (shows_issued h6)).mono (by omega)

/-- D3 and D4 as relations, and the report (R272). -/
theorem decodeRest_relations (full ran : Bool) (s : State) :
    ∃ u v sub got e e', submits s u sub e ∧ reclaims u v got e' ∧ TablesKept s.pl v.pl ∧
      decodeReport (decodePoll (decodeSubmit (noteOf full ran false false false, s))) =
        .next (v.decodeEnds full ran sub got (e || e')) := by
  obtain ⟨_, _, _, hkept⟩ := decodeRest_moves (noteOf full ran false false false, s)
  obtain ⟨sub, e, hsub, hnote⟩ := decodeSubmit_submits full ran s
  generalize decodeSubmit (noteOf full ran false false false, s) = r at hsub hnote hkept ⊢
  obtain ⟨n, u⟩ := r
  obtain rfl : n = noteOf full ran sub false e := hnote
  obtain ⟨got, e', hrec, hnote'⟩ := decodePoll_reclaims full ran sub e u
  generalize decodePoll (noteOf full ran sub false e, u) = r at hrec hnote' hkept ⊢
  obtain ⟨n, v⟩ := r
  obtain rfl : n = noteOf full ran sub got (e || e') := hnote'
  exact ⟨u, v, sub, got, e, e', hsub, hrec, hkept, decodeReport_noteOf _ _ _ _ _ _⟩

/-! ### The steps of setup -/

theorem enq_count (P : PoolId) (q : QueueId) (i n : Nat) (s : State) : issuedAtMost 1 s (enq P q i n s).2 := by
  rcases enq_cases P q i n s with ⟨_, e⟩ | ⟨_, e⟩ <;> rw [e] <;> exact issuedAtMost_one rfl

theorem askOk_count (c : DevCall) (s : State) : issuedAtMost 1 s (askOk c s).2 := issuedAtMost_one rfl

theorem thenStep_count {r : Bool × State} {k : State → Bool × State} {s : State} {m n : Nat}
    (h1 : issuedAtMost m s r.2) (h2 : issuedAtMost n r.2 (k r.2).2) : issuedAtMost (m + n) s (thenStep r k).2 :=
  thenStep_induct (Q := fun t => issuedAtMost (m + n) s t) r k (h1.mono (by omega)) fun _ => h1.trans h2

theorem mapSlots_count (P : PoolId) (n i : Nat) (s : State) : issuedAtMost n s (mapSlots P i n s).2 := by
  induction n generalizing i s with
  | zero => exact issuedAtMost_of_dev 0 rfl
  | succ n ih =>
    rcases mapSlots_succ P i n s with ⟨ps, _, _, e⟩ | ⟨_, e⟩ <;> rw [e]
    · have hone : issuedAtMost 1 s (mappedOne P i ps s) := issuedAtMost_one rfl
      exact (hone.trans (ih (i + 1) (mappedOne P i ps s))).mono (by omega)
    · exact (issuedAtMost_one rfl).mono (by omega)

theorem enqAll_count (P : PoolId) (n i : Nat) (s : State) : issuedAtMost n s (enqAll P i n s).2 := by
  induction n generalizing i s with
  | zero => exact issuedAtMost_of_dev 0 rfl
  | succ n ih =>
    rw [enqAll_succ]
    exact (thenStep_count (enq_count P P.queue i 0 s) (ih (i + 1) _)).mono (by omega)

theorem queryLoop_count (k : Nat) (s : State) : issuedAtMost (k + 1) s (queryLoop k s).2 := by
  have hone : issuedAtMost 1 s (s.withDev (s.dev.issue .queryCapture)) := issuedAtMost_one rfl
  induction k generalizing s with
  | zero => simp only [queryLoop, ask_fst, ask_snd]; split <;> exact hone
  | succ k ih =>
    simp only [queryLoop, ask_fst, ask_snd]
    split
    · exact hone.mono (by omega)
    · exact (hone.trans (ih (s.withDev (s.dev.issue .queryCapture)) (issuedAtMost_one rfl))).mono (by omega)
    · exact hone.mono (by omega)

theorem setupInput_count (s : State) : issuedAtMost (1 + s.params.nIn) s (setupInput s).2 :=
  thenStep_count (askOk_count _ s) ((mapSlots_count .inp _ 0 _).source rfl)

theorem setupHeader_count (s : State) : issuedAtMost 1 s (setupHeader s).2 := by
  unfold setupHeader
  split
  · exact issuedAtMost_of_dev 1 rfl
  · exact (enq_count .inp .inp 0 s.fr.unitLen (loaded 0 s)).source rfl

theorem setupOutput_count (m : Nat) (s : State) :
    issuedAtMost (1 + (m + s.params.pipelineDepth)) s (setupOutput m s).2 :=
  thenStep_count ((askOk_count _ _).source rfl) (mapSlots_count .dout _ 0 _)

theorem setupConvert_count (c : Bool) (s : State) :
    issuedAtMost (if c then 0 else 1 + (1 + s.params.nCout)) s (setupConvert c s).2 := by
  unfold setupConvert
  cases c
  · rw [if_neg (by simp), if_neg (by simp)]
    refine thenStep_count (n := 1 + s.params.nCout) ((askOk_count _ _).source rfl) ?_
    exact thenStep_count ((askOk_count _ _).source rfl) (mapSlots_count .cout _ 0 _)
  · exact issuedAtMost_of_dev 0 rfl

theorem setupQueueAll_count (s : State) :
    issuedAtMost (s.pl.nDout + if s.pl.conv then s.pl.nCout else 0) s (setupQueueAll s).2 := by
  refine thenStep_count (enqAll_count .dout _ 0 s) ?_
  obtain ⟨_, _, _, hnCout, hconv, _⟩ := (enqAll_only .dout s.pl.nDout 0 s).2
  rw [hconv, hnCout]
  cases s.pl.conv
  · exact issuedAtMost_of_dev 0 rfl
  · exact enqAll_count .cout _ 0 _

/-- S4 to S7 that succeed (R256, R365). -/
theorem setupRest_count {s : State} (hconv : s.pl.conv = false) (h : (setupRest s).1 = true) :
    issuedAtMost (4 + s.params.hdrRetryMax + 2 * (setupRest s).2.pl.nDout + 2 * (setupRest s).2.pl.nCout) s
      (setupRest s).2 := by
  have hcount := queryLoop_count s.params.hdrRetryMax s
  obtain ⟨honly, hpl⟩ := queryLoop_only s.params.hdrRetryMax s
  unfold setupRest at h ⊢
  split at h
  · cases h
  · next f m c _ =>
    generalize (queryLoop s.params.hdrRetryMax s).2 = s4 at h hcount honly hpl ⊢
    dsimp only at h ⊢
    have c5 : issuedAtMost (1 + (m + s4.params.pipelineDepth)) s4
        (setupOutput m (s4.withPl { s4.pl with fmt := f })).2 :=
      (setupOutput_count m _).source rfl
    obtain ⟨h5, e5⟩ := thenStep_true h
    rw [e5] at h ⊢
    obtain ⟨_, _, _, p5⟩ := setupOutput_true m _ h5
    generalize (setupOutput m (s4.withPl { s4.pl with fmt := f })).2 = s5 at h c5 p5 ⊢
    have c6 := setupConvert_count c s5
    obtain ⟨h6, e6⟩ := thenStep_true h
    rw [e6] at h ⊢
    have p6 := setupConvert_true c s5 h6
    generalize (setupConvert c s5).2 = s6 at h c6 p6 ⊢
    have c7 := setupQueueAll_count s6
    obtain ⟨h7, e7⟩ := thenStep_true h
    rw [e7]
    have p7 := setupQueueAll_true s6 h7
    generalize (setupQueueAll s6).2 = s7 at h c7 p7 ⊢
    have hall := ((hcount.trans c5).trans c6).trans (c7.trans (issuedAtMost_of_dev 0
      (t := s7.withPl { s7.pl with hdrDone := true }) rfl))
    have hdout : s7.pl.nDout = s6.pl.nDout := by rw [p7]
    have hcout : s7.pl.nCout = s6.pl.nCout := by rw [p7]
    have hdout5 : s5.pl.nDout = m + s4.params.pipelineDepth := by rw [p5]; rfl
    have hconv5 : s5.pl.conv = false := by rw [p5]; exact (congrArg Pipeline.conv hpl).trans hconv
    show issuedAtMost (4 + s.params.hdrRetryMax + 2 * s7.pl.nDout + 2 * s7.pl.nCout) s _
    rcases p6 with ⟨rfl, p6⟩ | ⟨rfl, _, _, _, p6⟩
    · rw [p6, hconv5] at hall
      rw [p6] at hdout
      exact hall.mono (by simp only [if_true, Bool.false_eq_true, if_false]; omega)
    · have hdout6 : s6.pl.nDout = s5.pl.nDout := by rw [p6]
      have hcout6 : s6.pl.nCout = s5.params.nCout := by rw [p6]
      have hconv6 : s6.pl.conv = true := by rw [p6]
      rw [hconv6] at hall
      exact hall.mono (by simp only [if_true, Bool.false_eq_true, if_false]; omega)

/-- Setup that succeeds (R256, R365). -/
theorem setup_count {s : State} (hconv : s.pl.conv = false) (h : (setup s).1 = true) :
    issuedAtMost (7 + s.params.hdrRetryMax + (setup s).2.pl.nIn + 2 * (setup s).2.pl.nDout
      + 2 * (setup s).2.pl.nCout) s (setup s).2 := by
  have hdone := (setup_true s hconv h).nIn
  unfold setup at h hdone ⊢
  have c1 : issuedAtMost 1 s (setupNegotiate s).2 := askOk_count _ s
  obtain ⟨o1, p1⟩ := setupNegotiate_only s
  obtain ⟨_, e1⟩ := thenStep_true h
  rw [e1] at h hdone ⊢
  generalize (setupNegotiate s).2 = s1 at h hdone c1 o1 p1 ⊢
  have c2 := setupInput_count s1
  have o2 := setupInput_only s1
  obtain ⟨h2, e2⟩ := thenStep_true h
  rw [e2] at h hdone ⊢
  obtain ⟨_, _, _, p2⟩ := setupInput_true s1 h2
  generalize (setupInput s1).2 = s2 at h hdone c2 o2 p2 ⊢
  have c3 := setupHeader_count s2
  have o3 := setupHeader_only s2
  obtain ⟨h3, e3⟩ := thenStep_true h
  rw [e3] at h hdone ⊢
  obtain ⟨_, _, p3⟩ := setupHeader_true s2 h3
  generalize (setupHeader s2).2 = s3 at h hdone c3 o3 p3 ⊢
  have hparams : s3.params = s.params := o3.params.trans (o2.params.trans o1.params)
  have c4 := setupRest_count (s := s3) (by rw [p3, p2, p1]; exact hconv) h
  rw [hparams] at c4
  rw [o1.params] at c2
  exact (((c1.trans c2).trans c3).trans c4).mono (by omega)

/-! ### The commands -/

theorem exec_seGetpic_issued {s t : State} (h : exec .seGetpic s = .next t) :
    issuedAtMost (6 + s.pl.nDout + s.pl.nCout) s t := by
  rw [show exec .seGetpic s = execSeGetpic s from rfl] at h
  rcases execSeGetpic_cases s with ⟨_, e⟩ | ⟨_, e⟩ | ⟨_, _, e⟩ | ⟨_, _, e⟩ <;> rw [e] at h <;> rw [finish_next h]
  · exact issuedAtMost_of_dev _ rfl
  · exact issuedAtMost_of_dev _ rfl
  · exact issuedAtMost_of_dev _ rfl
  · exact getPicture_issued (((s.setR1 0).setR2 0).setR3 0)

theorem exec_seClose_issued {s t : State} (h : exec .seClose s = .next t) : issuedAtMost 1 s t := by
  rw [show exec .seClose s = execSeClose s from rfl] at h
  rcases execSeClose_cases s with ⟨_, e⟩ | ⟨_, u, hu, _, _, e⟩ <;> rw [e] at h <;> rw [finish_next h]
  · exact issuedAtMost_of_dev _ rfl
  · rcases hu with rfl | rfl
    · exact issuedAtMost_of_dev _ rfl
    · exact ⟨[⟨.teardown, none⟩], rfl, le_refl 1⟩

/-- Only `SE_DECODE`, `SE_GETPIC` and `SE_CLOSE` use the device port, and the last presents nothing (R262, R365). -/
theorem ends_outputs {s t : State} {i : Instr} (h : Ends s i t) (h1 : i ≠ .seDecode) (h2 : i ≠ .seGetpic) :
    t.events = s.events ∧ (i ≠ .seClose → t.dev = s.dev) := by
  have hunit := ends_unitOnly h
  have hbit : BitOnly s t → t.events = s.events ∧ (i ≠ .seClose → t.dev = s.dev) :=
    fun hb => ⟨hb.events, fun _ => hb.dev⟩
  cases h with
  | badOperand | badState | failed | seOpen => exact ⟨rfl, fun _ => rfl⟩
  | bwInit | bwStat | bytes | bytesLost => exact hbit hunit
  | wrote i w hw | lost i w hw => rw [(writerOf_isWrite hw).2] at hunit; exact hbit hunit
  | copied i lead hi | copyAborted i lead hi =>
    rcases leadOf_copies hi with rfl | ⟨y, rfl⟩ <;> exact hbit hunit
  | rbsp i ws hi | rbspLost i ws hi => rcases fieldsOf_rbsp hi with rfl | rfl <;> exact hbit hunit
  | frInit | frPush | frPushFull | extractNone | extractLong | extract | frStat =>
    exact ⟨hunit.events, fun _ => hunit.dev⟩
  | seClose _ u hu => rcases hu with rfl | rfl <;> exact ⟨rfl, fun hne => absurd rfl hne⟩
  | getpicEarly | getpic => exact absurd rfl h2
  | decodeSteady | decodeWaits | decodeSetup | decodeFails => exact absurd rfl h1

/-- The ways `SE_DECODE` ends, as far as the port, the event trace and the slot tables go (R272). -/
inductive DecodeEnd (s t : State) : Prop
  | quiet (hdev : t.dev = s.dev) (hevents : t.events = s.events) (hpl : t.pl = s.pl)
  | steady (hd : s.pl.hdrDone = true) (u v : State) (sub got e e' : Bool)
      (hsub : submits (s.withFr s.accepted) u sub e) (hrec : reclaims u v got e') (hdev : t.dev = v.dev)
      (hevents : t.events = v.events)
  | first (hd : s.pl.hdrDone = false) (hs : (setup (s.withFr s.acceptedScanned)).1 = true) (u v : State)
      (sub got e e' : Bool) (hsub : submits (setup (s.withFr s.acceptedScanned)).2 u sub e)
      (hrec : reclaims u v got e') (hdev : t.dev = v.dev) (hevents : t.events = v.events)
      (hpl : TablesKept (setup (s.withFr s.acceptedScanned)).2.pl t.pl)
  | failed (hd : s.pl.hdrDone = false) (hevents : t.events = s.events) (hpl : t.pl.hdrDone = false)

theorem exec_seDecode_end {s t : State} (h : exec .seDecode s = .next t) : DecodeEnd s t := by
  rcases execSeDecode_cases s with ⟨_, e⟩ | ⟨_, e⟩ | ⟨_, _, e⟩ | ⟨hl, hlist, _⟩
  · rw [finish_next (e.symm.trans h)]; exact .quiet rfl rfl rfl
  · rw [finish_next (e.symm.trans h)]; exact .quiet rfl rfl rfl
  · rw [finish_next (e.symm.trans h)]; exact .quiet rfl rfl rfl
  cases hd : s.pl.hdrDone
  case true =>
    obtain ⟨u, v, sub, got, e, e', hsub, hrec, _, hreport⟩ :=
      decodeRest_relations s.noRoom false (s.withFr s.accepted)
    rw [exec_seDecode_steady hl hlist hd, hreport] at h
    cases h
    exact .steady hd u v sub got e e' hsub hrec rfl rfl
  case false =>
    cases hp : s.acceptedScanned.pending
    case false =>
      rw [exec_seDecode_waits hl hlist hd hp] at h
      cases h
      exact .quiet rfl rfl rfl
    case true =>
      have honly := setup_only (s.withFr s.acceptedScanned)
      cases hs : (setup (s.withFr s.acceptedScanned)).1
      case false =>
        rw [exec_seDecode_setup_fails hl hlist hd hp hs] at h
        cases h
        exact .failed hd honly.events rfl
      case true =>
        obtain ⟨u, v, sub, got, e, e', hsub, hrec, hkept, hreport⟩ :=
          decodeRest_relations s.noRoom true (setup (s.withFr s.acceptedScanned)).2
        rw [execSeDecode_setup hl hlist hd hp hs, hreport] at h
        cases h
        exact .first hd hs u v sub got e e' hsub hrec rfl rfl hkept

/-- Settles O53: the counts of the steps, added up. -/
theorem transactionBounds : Obligations.TransactionBounds := by
  intro i s t h
  refine ⟨fun h1 h2 => (ends_outputs (exec_ends h) h1 h2).2, ?close, ?getpic, ?steady, ?first⟩
  case close =>
    rintro rfl
    exact exec_seClose_issued h
  case getpic =>
    rintro rfl
    exact exec_seGetpic_issued h
  case steady =>
    rintro rfl hd
    cases exec_seDecode_end h with
    | quiet hdev => exact issuedAtMost_of_dev 3 hdev
    | steady _ u v _ _ _ _ hsub hrec hdev =>
      have hsteps : issuedAtMost 3 s v := ((submits_issued hsub).trans (reclaims_issued hrec)).source rfl
      exact hsteps.trans (issuedAtMost_of_dev 0 hdev)
    | first hd' => rw [hd] at hd'; cases hd'
    | failed hd' => rw [hd] at hd'; cases hd'
  case first =>
    rintro rfl hd hconv _ ht
    cases exec_seDecode_end h with
    | quiet _ _ hpl => rw [hpl, hd] at ht; cases ht
    | steady hd' => rw [hd] at hd'; cases hd'
    | first _ hs u v _ _ _ _ hsub hrec hdev _ hpl =>
      obtain ⟨_, hin, hdout, hcout, _⟩ := hpl.plan
      have hsetup := setup_count (s := s.withFr s.acceptedScanned) hconv hs
      have hsteps := (hsetup.trans ((submits_issued hsub).trans (reclaims_issued hrec))).source (s' := s) rfl
      rw [hin, hdout, hcout]
      exact (hsteps.trans (issuedAtMost_of_dev 0 hdev)).mono (by simp only [withFr_params]; omega)
    | failed _ _ hpl => rw [hpl] at ht; cases ht

/-! ### Presented pictures -/

/-- From `s` to `t` nothing is presented and the format stays (R262). -/
structure Unshown (s t : State) : Prop where
  events : t.events = s.events
  fmt : t.pl.fmt = s.pl.fmt

theorem Unshown.trans {s t u : State} (a : Unshown s t) (b : Unshown t u) : Unshown s u :=
  ⟨b.events.trans a.events, b.fmt.trans a.fmt⟩

theorem enqueues_unshown {P : PoolId} {q : QueueId} {i : Nat} {s t : State} {err : Bool}
    (h : enqueues P q i s t err) : Unshown s t ∧ t.res = s.res := by
  rcases h with ⟨_, _, rfl⟩ | ⟨_, _, rfl⟩
  · exact ⟨⟨rfl, (setPool_rest _ _ _).1⟩, rfl⟩
  · exact ⟨⟨rfl, rfl⟩, rfl⟩

theorem dequeues_unshown {P : PoolId} {q : QueueId} {i : Nat} {o : Own} {s t : State}
    (h : dequeues P q i o s t) : Unshown s t := by
  obtain ⟨_, _, _, _, _, _, _, _, _, rfl⟩ := h
  exact ⟨rfl, (setPool_rest _ _ _).1⟩

theorem noSlot_unshown {P : PoolId} {q : QueueId} {s t : State} {err : Bool} (h : noSlot P q s t err) :
    Unshown s t := by
  obtain ⟨rfl, _⟩ := h
  exact ⟨rfl, rfl⟩

theorem resubmits_unshown {P : PoolId} {q : QueueId} {is : List Nat} {s t : State} {err : Bool}
    (h : resubmits P q is s t err) : Unshown s t := by
  induction is generalizing s err with
  | nil =>
    obtain ⟨rfl, _⟩ := h
    exact ⟨rfl, rfl⟩
  | cons i is ih =>
    obtain ⟨u, e, e', henq, hrest, _⟩ := h
    exact (enqueues_unshown henq).1.trans (ih hrest)

theorem passesOn_unshown {q q2 : QueueId} {o : Own} {s t : State} {err : Bool} (h : passesOn q o q2 s t err) :
    Unshown s t := by
  rcases h with hno | ⟨i, u, hdeq, henq⟩
  · exact noSlot_unshown hno
  · exact (dequeues_unshown hdeq).trans (enqueues_unshown henq).1

theorem submits_unshown {s t : State} {sub err : Bool} (h : submits s t sub err) : Unshown s t := by
  rcases h with ⟨_, rfl, _⟩ | ⟨_, i, sl, _, _, _, ⟨_, rfl, _⟩ | ⟨_, _, _, sl', _, _, _, _, _, rfl⟩⟩ <;>
    exact ⟨rfl, rfl⟩

theorem reclaims_unshown {s t : State} {got err : Bool} (h : reclaims s t got err) : Unshown s t := by
  rcases h with ⟨_, rfl, _⟩ | ⟨_, ⟨_, rfl, _⟩ | ⟨_, ⟨hno, _⟩ | ⟨j, hdeq, _⟩⟩⟩
  · exact ⟨rfl, rfl⟩
  · exact ⟨rfl, rfl⟩
  · have hpolled := noSlot_unshown hno
    exact ⟨hpolled.events, hpolled.fmt⟩
  · have hpolled := dequeues_unshown hdeq
    exact ⟨hpolled.events, hpolled.fmt⟩

/-- From `s` to `t` one picture of pool `P` is presented, which the result registers name (R262, R280). -/
def presentsFrom (P : PoolId) (s t : State) : Prop :=
  ∃ e : Present, t.events = s.events ++ [e] ∧ e.fmt = s.pl.fmt ∧ e.pool = P ∧
    (e.slot < 2 ^ 32 → t.res.r1 = BitVec.ofNat 32 e.slot) ∧ t.res.r2 = 1 ∧ t.res.r3 = if P = .dout then 1 else 2

theorem Unshown.presentsFrom {P : PoolId} {s t u : State} (a : Unshown s t) (b : presentsFrom P t u) :
    Machine.presentsFrom P s u := by
  obtain ⟨e, hevents, hfmt, hrest⟩ := b
  exact ⟨e, by rw [hevents, a.events], hfmt.trans a.fmt, hrest⟩

theorem shows_presents {P : PoolId} {s t : State} {err shown : Bool} (h : shows P s t err shown) :
    t.events = s.events ∨ presentsFrom P s t := by
  rcases h with ⟨hno, _⟩ | ⟨i, sl, u, r1, hdeq, _, hr1, _, henq⟩
  · exact .inl (noSlot_unshown hno).events
  · obtain ⟨⟨hevents, _⟩, hres⟩ := enqueues_unshown henq
    refine .inr ⟨_, hevents, rfl, rfl, fun hi => ?_, ?_, ?_⟩ <;> rw [hres]
    exact hr1 hi

/-- `SE_GETPIC` presents at most one picture, from the pool at the end of the pipeline (R281, R282). -/
theorem getPicture_presents (s : State) : (getPicture s).2.events = s.events ∨
    presentsFrom (if s.pl.conv then .cout else .dout) s (getPicture s).2 := by
  cases hc : s.pl.conv
  · obtain ⟨u, _, _, _, hretry, hshows, _⟩ := getPicture_direct hc
    have hquiet := resubmits_unshown hretry
    exact (shows_presents hshows).imp (fun h => h.trans hquiet.events) hquiet.presentsFrom
  · obtain ⟨u1, u2, u3, u4, u5, _, _, _, _, _, _, _, h1, h2, h3, h4, h5, h6, _⟩ := getPicture_conv hc
    have hquiet := ((((resubmits_unshown h1).trans (resubmits_unshown h2)).trans (resubmits_unshown h3)).trans
      (passesOn_unshown h4)).trans (passesOn_unshown h5)
    exact (shows_presents h6).imp (fun h => h.trans hquiet.events) hquiet.presentsFrom

theorem exec_seDecode_events {s t : State} (h : exec .seDecode s = .next t) : t.events = s.events := by
  cases exec_seDecode_end h with
  | quiet _ hevents => exact hevents
  | steady _ u v _ _ _ _ hsub hrec _ hevents =>
    exact hevents.trans ((submits_unshown hsub).trans (reclaims_unshown hrec)).events
  | first _ _ u v _ _ _ _ hsub hrec _ hevents =>
    exact (hevents.trans ((submits_unshown hsub).trans (reclaims_unshown hrec)).events).trans
      (setup_only (s.withFr s.acceptedScanned)).events
  | failed _ hevents => exact hevents

/-- Settles O54: `SE_GETPIC` ends with a hand-off that presents at most once; nothing else presents. -/
theorem onlyGetpicPresents : Obligations.OnlyGetpicPresents := by
  intro i s t h
  by_cases hdecode : i = .seDecode
  · subst hdecode
    exact .inl (exec_seDecode_events h)
  by_cases hgetpic : i = .seGetpic
  · subst hgetpic
    rw [show exec .seGetpic s = execSeGetpic s from rfl] at h
    rcases execSeGetpic_cases s with ⟨_, e⟩ | ⟨_, e⟩ | ⟨_, _, e⟩ | ⟨hl, hd, e⟩ <;> rw [e] at h <;> rw [finish_next h]
    · exact .inl rfl
    · exact .inl rfl
    · exact .inl rfl
    · rcases getPicture_presents (((s.setR1 0).setR2 0).setR3 0) with hnone | ⟨e, hevents, hfmt, hpool, hr1, hr2, hr3⟩
      · exact .inl hnone
      · refine .inr ⟨rfl, hl, hd, e, hevents, hfmt, hpool, hr1, hr2, hr3.trans ?_⟩
        cases hc : s.pl.conv <;> simp [hc]
  · exact .inl (ends_outputs (exec_ends h) hdecode hgetpic).1

end Sys2Proof.Machine

/-! SUPPORT. Completion (60_exceptions.md R300, R301, R308 to R310, R320, R321): every command ends with a status, what
that status says of the state, and which commands the lifecycle bars. -/

namespace Sys2Proof.Machine

/-! ### Statuses -/

/-- The statuses of R300. -/
def Status.all : List Status :=
  [.ok, .frameReady, .outTooSmall, .bufferFull, .bufferTooSmall, .bitOverflow, .notReady, .protocolError, .decodeError,
    .illegalCommand, .illegalOperand, .illegalState]

theorem Status.mem_all (st : Status) : st ∈ Status.all := by cases st <;> simp [Status.all]

/-- The codes of R300 stay apart in `r0`. -/
theorem Status.word_injective : Function.Injective Status.word := by
  have hall : ∀ a ∈ Status.all, ∀ b ∈ Status.all, a.word = b.word → a = b := by decide
  exact fun a b => hall a a.mem_all b b.mem_all

/-! ### Every command completes (R300, R359) -/

theorem finishWrite_completes (w : Writer) (s : State) : ∃ t, finishWrite (putWriter w s) = .next t := by
  rcases finishWrite_cases w s with ⟨_, e⟩ | ⟨_, e⟩ <;> exact ⟨_, e⟩

theorem escapeInto_completes (lead : List Byte) (s : State) : ∃ t, escapeInto lead s = .next t := by
  rcases escapeInto_cases lead s with ⟨_, e⟩ | ⟨_, _, e⟩ | ⟨_, _, e⟩ <;> exact ⟨_, e⟩

theorem extractScanned_completes (f : Framer) (s : State) : ∃ t, extractScanned f s = .next t := by
  rcases extractScanned_cases f s with ⟨_, e⟩ | ⟨_, _, e⟩ | ⟨_, _, e⟩ <;> exact ⟨_, e⟩

theorem execSeDecode_completes (s : State) : ∃ t, execSeDecode s = .next t := by
  rcases execSeDecode_cases s with ⟨_, e⟩ | ⟨_, e⟩ | ⟨_, _, e⟩ |
    ⟨_, _, ⟨_, e⟩ | ⟨_, _, e⟩ | ⟨_, _, _, e⟩ | ⟨_, _, _, e⟩⟩ <;> exact ⟨_, e⟩

theorem exec_completes (i : Instr) (s : State) : ∃ t, exec i s = .next t := by
  cases i with
  | bwInit => rcases execBwInit_cases s with ⟨_, e⟩ | ⟨_, _, e⟩ <;> exact ⟨_, e⟩
  | bwBit | bwUe | bwSe | bwAlign => exact finishWrite_completes _ s
  | bwFixed n =>
    rcases execBwFixed_cases n s with ⟨_, e⟩ | ⟨_, e⟩
    · exact ⟨_, e⟩
    · exact (finishWrite_completes _ s).imp fun _ => e.trans
  | bwBytes => rcases execBwBytes_cases s with ⟨_, e⟩ | ⟨_, _, e⟩ | ⟨_, _, e⟩ <;> exact ⟨_, e⟩
  | bwStat => exact ⟨_, rfl⟩
  | nsEscape | nsNal => exact escapeInto_completes _ s
  | nsSps => rcases execNsSps_cases s with ⟨_, e⟩ | ⟨_, e⟩ <;> exact ⟨_, e⟩
  | nsPps => rcases execNsPps_cases s with ⟨_, e⟩ | ⟨_, e⟩ <;> exact ⟨_, e⟩
  | frInit m g => rcases execFrInit_cases m g s with ⟨_, e⟩ | ⟨_, _, e⟩ | ⟨_, _, _, e⟩ <;> exact ⟨_, e⟩
  | frPush =>
    rcases execFrPush_cases s with ⟨_, e⟩ | ⟨_, _, ⟨_, e⟩ | ⟨_, ⟨_, e⟩ | ⟨_, e⟩⟩⟩ <;> exact ⟨_, e⟩
  | frExtract =>
    rcases execFrExtract_cases s with ⟨_, e⟩ | ⟨_, _, ⟨_, e⟩ | ⟨_, e⟩⟩
    · exact ⟨_, e⟩
    · exact ⟨_, e⟩
    · exact (extractScanned_completes _ s).imp fun _ => e.trans
  | frStat => rcases execFrStat_cases s with ⟨_, e⟩ | ⟨_, _, _, _, e⟩ <;> exact ⟨_, e⟩
  | seOpen => rcases execSeOpen_cases s with ⟨_, e⟩ | ⟨_, _, e⟩ | ⟨_, _, _, _, e⟩ <;> exact ⟨_, e⟩
  | seDecode => exact execSeDecode_completes s
  | seGetpic => rcases execSeGetpic_cases s with ⟨_, e⟩ | ⟨_, e⟩ | ⟨_, _, e⟩ | ⟨_, _, e⟩ <;> exact ⟨_, e⟩
  | seClose => rcases execSeClose_cases s with ⟨_, e⟩ | ⟨_, _, _, _, _, e⟩ <;> exact ⟨_, e⟩

/-! ### What the lifecycle bars (R320, R321) -/

/-- The command is not legal in the state: a session owns the framer or is open, the framer is not valid, or there is
no session (R320). -/
def State.bars (s : State) (i : Instr) : Prop :=
  (s.se.life ≠ .closed ∧ (movesFramer i = true ∨ i = .seOpen)) ∨
  (s.fr.valid = false ∧ (i = .frPush ∨ i = .frExtract ∨ i = .frStat)) ∨
  (s.se.life = .closed ∧ (i = .seDecode ∨ i = .seGetpic ∨ i = .seClose))

theorem movesFramer_iff {i : Instr} :
    movesFramer i = true ↔ (∃ m g, i = .frInit m g) ∨ i = .frPush ∨ i = .frExtract := by
  cases i <;> simp [movesFramer]

/-- A barred command raises `IllegalState`: the claims of the commands, put together. -/
theorem exec_barred {s : State} {i : Instr} (h : s.bars i) : exec i s = .next (s.withStatus (-10)) := by
  rcases h with ⟨hlife, hi⟩ | ⟨hvalid, hi⟩ | ⟨hlife, hi⟩
  · rw [movesFramer_iff] at hi
    rcases hi with (⟨m, g, rfl⟩ | rfl | rfl) | rfl
    · exact (frInitCreates.2 s m g).1 hlife
    · exact (frPushStores s).1 (.inr hlife)
    · exact (frExtractReturns s).2.1 (.inr hlife)
    · exact (seOpenOpens s).1 hlife
  · rcases hi with rfl | rfl | rfl
    · exact (frPushStores s).1 (.inl hvalid)
    · exact (frExtractReturns s).2.1 (.inl hvalid)
    · exact (frStatReads s).1 hvalid
  · rcases hi with rfl | rfl | rfl
    · exact ((sessionRefuses s).1 hlife).1
    · exact ((sessionRefuses s).1 hlife).2
    · exact (seCloseCloses s).1 hlife

/-- Only FR and SE commands are ever barred (R308). -/
theorem bars_unit {s : State} {i : Instr} (h : s.bars i) : unitOf i = .fr ∨ unitOf i = .se := by
  rcases h with ⟨_, hi⟩ | ⟨_, rfl | rfl | rfl⟩ | ⟨_, rfl | rfl | rfl⟩
  · rw [movesFramer_iff] at hi
    rcases hi with (⟨m, g, rfl⟩ | rfl | rfl) | rfl <;> simp [unitOf]
  all_goals simp [unitOf]

/-- The legal entries of the table of R320 are not barred. -/
theorem not_bars {s : State} {i : Instr} (h : unitOf i = .bw ∨ unitOf i = .ns ∨
      (s.se.life = .closed ∧ ((∃ m g, i = .frInit m g) ∨ i = .seOpen ∨
        (s.fr.valid = true ∧ (i = .frPush ∨ i = .frExtract)))) ∨
      (s.fr.valid = true ∧ i = .frStat) ∨
      (s.se.life ≠ .closed ∧ (i = .seDecode ∨ i = .seGetpic ∨ i = .seClose))) : ¬ s.bars i := by
  rcases h with hbw | hns | ⟨hlife, ⟨m, g, rfl⟩ | rfl | ⟨hvalid, rfl | rfl⟩⟩ | ⟨hvalid, rfl⟩ | ⟨hlife, rfl | rfl | rfl⟩
  · exact fun hb => by simpa [hbw] using bars_unit hb
  · exact fun hb => by simpa [hns] using bars_unit hb
  · simp [State.bars, hlife]
  · simp [State.bars, hlife]
  · simp [State.bars, hlife, hvalid]
  · simp [State.bars, hlife, hvalid]
  · simp [State.bars, movesFramer, hvalid]
  · simp [State.bars, movesFramer, hlife]
  · simp [State.bars, movesFramer, hlife]
  · simp [State.bars, movesFramer, hlife]

/-! ### What a status says (R308, R310) -/

/-- What the statuses that R310 calls precise say of the next state; the others say nothing here. -/
def statusSays (s : State) (i : Instr) (t : State) : Status → Prop
  | .illegalOperand => t = s.withStatus (-9)
  | .illegalState => t = s.withStatus (-10) ∧ s.bars i
  | .bufferFull => i = .frPush → t = s.withStatus (-2)
  | .bitOverflow => isWrite i = true →
      t = { s with bw := { s.bw with ovf := true }, res := { s.res with r0 := t.res.r0, r1 := t.res.r1 } } ∧
      (i ≠ .bwBytes → t.res.r1 = s.res.r1)
  | _ => True

/-- A command completes with the status `st`: its row of the matrix allows it, and the state is as it says. -/
structure EndsWith (s : State) (i : Instr) (t : State) (st : Status) : Prop where
  r0 : t.res.r0 = st.word
  allowed : st.code ∈ mayEnd i
  meaning : statusSays s i t st

theorem ok_mayEnd (i : Instr) : 0 ∈ mayEnd i := by cases i <;> simp [mayEnd]

theorem isWrite_mayEnd {i : Instr} (h : isWrite i = true) : -4 ∈ mayEnd i := by
  cases i with
  | bwBit | bwFixed | bwUe | bwSe | bwAlign | bwBytes => simp [mayEnd]
  | _ => cases h

theorem ns_mayEnd {i : Instr} (h : unitOf i = .ns) : -9 ∈ mayEnd i := by
  cases i with
  | nsEscape | nsNal | nsSps | nsPps => simp [mayEnd]
  | _ => cases h

theorem bars_mayEnd {s : State} {i : Instr} (h : s.bars i) : -10 ∈ mayEnd i := by
  have hunit := bars_unit h
  cases i with
  | frInit | frPush | frExtract | frStat | seOpen | seDecode | seGetpic | seClose => simp [mayEnd]
  | _ => simp [unitOf] at hunit

/-- What the steps of `SE_DECODE` may have noted (R272). -/
theorem noteOf_st (full ran sub got err : Bool) : (noteOf full ran sub got err).st = .ok ∨
    (noteOf full ran sub got err).st = .bufferFull ∨ (noteOf full ran sub got err).st = .decodeError := by
  cases full <;> cases err <;> simp [noteOf]

/-- D3 and D4 add to what was noted (R272). -/
theorem decodeRest_note (full ran : Bool) (s : State) : ∃ sub got err,
    (decodePoll (decodeSubmit (noteOf full ran false false false, s))).1 = noteOf full ran sub got err := by
  obtain ⟨sub, e, _, hnote⟩ := decodeSubmit_submits full ran s
  generalize decodeSubmit (noteOf full ran false false false, s) = r at hnote ⊢
  obtain ⟨n, u⟩ := r
  obtain rfl : n = noteOf full ran sub false e := hnote
  obtain ⟨got, e', _, hnote'⟩ := decodePoll_reclaims full ran sub e u
  exact ⟨sub, got, e || e', hnote'⟩

theorem endsWith_ok {s t : State} {i : Instr} (h : t.res.r0 = Status.ok.word) : EndsWith s i t .ok :=
  ⟨h, ok_mayEnd i, trivial⟩

theorem endsWith_note {s t : State} {n : StepNote} {full ran sub got err : Bool}
    (hn : n = noteOf full ran sub got err) : EndsWith s .seDecode ((t.setR1 n.mask).setR0 n.st.word) n.st := by
  subst hn
  have hst := noteOf_st full ran sub got err
  refine ⟨rfl, ?_, ?_⟩
  · rcases hst with h | h | h <;> rw [h] <;> simp [mayEnd, Status.code]
  · rcases hst with h | h | h <;> rw [h] <;> simp [statusSays]

/-- Every command ends with a status of its row, which says what R310 says it does. -/
theorem ends_status {s t : State} {i : Instr} (h : Ends s i t) : ∃ st, EndsWith s i t st := by
  cases h with
  | bwInit | wrote | bytes | bwStat | copied | rbsp | frInit | frPush | extractNone | frStat | seOpen | seClose =>
    exact ⟨.ok, endsWith_ok rfl⟩
  | badOperand i h =>
    refine ⟨.illegalOperand, rfl, ?_, rfl⟩
    rcases h with rfl | ⟨n, rfl⟩ | rfl | hns | ⟨_, ⟨m, g, rfl⟩ | rfl | ⟨_, rfl | rfl⟩⟩ | ⟨_, rfl⟩
    case inr.inr.inr.inl => exact ns_mayEnd hns
    all_goals simp [mayEnd, Status.code]
  | badState i h => exact ⟨.illegalState, rfl, bars_mayEnd h, rfl, h⟩
  | failed i _ hi =>
    refine ⟨.protocolError, rfl, ?_, trivial⟩
    rcases hi with rfl | rfl <;> simp [mayEnd, Status.code]
  | lost i w hw => exact ⟨.bitOverflow, rfl, isWrite_mayEnd (writerOf_isWrite hw).1, fun _ => ⟨rfl, fun _ => rfl⟩⟩
  | bytesLost => exact ⟨.bitOverflow, rfl, isWrite_mayEnd rfl, fun _ => ⟨rfl, fun hne => absurd rfl hne⟩⟩
  | copyAborted i lead hi =>
    refine ⟨.bufferTooSmall, rfl, ?_, trivial⟩
    rcases leadOf_copies hi with rfl | ⟨y, rfl⟩ <;> simp [mayEnd, Status.code]
  | rbspLost i ws hi =>
    refine ⟨.bitOverflow, rfl, ?_, fun hw => ?_⟩ <;> rcases fieldsOf_rbsp hi with rfl | rfl
    · simp [mayEnd, Status.code]
    · simp [mayEnd, Status.code]
    · cases hw
    · cases hw
  | frPushFull => exact ⟨.bufferFull, rfl, by simp [mayEnd, Status.code], fun _ => rfl⟩
  | extractLong => exact ⟨.outTooSmall, rfl, by simp [mayEnd, Status.code], trivial⟩
  | extract => exact ⟨.frameReady, rfl, by simp [mayEnd, Status.code], trivial⟩
  | getpicEarly => exact ⟨.notReady, rfl, by simp [mayEnd, Status.code], trivial⟩
  | getpic _ _ r =>
    obtain ⟨⟨err, shown⟩, u⟩ := r
    refine ⟨_, rfl, ?_, ?_⟩ <;> cases err <;> cases shown <;> simp [PicNote.status, statusSays, mayEnd, Status.code]
  | decodeSteady _ _ _ r hr =>
    rw [decodePush_eq] at hr
    obtain ⟨_, _, _, hn⟩ := decodeRest_note s.noRoom false { s with fr := s.accepted }
    exact ⟨_, endsWith_note ((congrArg Prod.fst hr).trans hn)⟩
  | decodeWaits => exact ⟨_, endsWith_note (congrArg Prod.fst (decodePush_eq s))⟩
  | decodeSetup _ _ _ u _ _ _ r hr =>
    rw [decodePush_eq] at hr
    obtain ⟨_, _, _, hn⟩ := decodeRest_note s.noRoom true (setup u).2
    exact ⟨_, endsWith_note ((congrArg Prod.fst hr).trans hn)⟩
  | decodeFails => exact ⟨.protocolError, rfl, by simp [mayEnd, Status.code], trivial⟩

/-- What a command that ends with a status has done, read off `r0` (R301). -/
theorem exec_says {s t : State} {i : Instr} {st : Status} (h : exec i s = .next t) (hr0 : t.res.r0 = st.word) :
    statusSays s i t st := by
  obtain ⟨st', hends⟩ := ends_status (exec_ends h)
  rw [Status.word_injective (hr0.symm.trans hends.r0)]
  exact hends.meaning

/-- Settles O58: every branch of every command completes, and each way to end has a status of the command's row. -/
theorem statusMatrix : Obligations.StatusMatrix := by
  intro i s
  obtain ⟨t, h⟩ := exec_completes i s
  obtain ⟨st, hends⟩ := ends_status (exec_ends h)
  exact ⟨t, h, st.code, hends.allowed, hends.r0⟩

/-- Settles O59: the status in `r0` names the way the command ended, and that way says what has changed. -/
theorem preciseStatuses : Obligations.PreciseStatuses := by
  intro i s t h
  refine ⟨fun hr0 => ?operand, fun hr0 => ?state, fun hi hr0 => ?full, fun hi hr0 => ?overflow⟩
  case operand => exact exec_says (st := .illegalOperand) h hr0
  case state => exact (exec_says (st := .illegalState) h hr0).1
  case full => exact exec_says (st := .bufferFull) h hr0 hi
  case overflow => exact exec_says (st := .bitOverflow) h hr0 hi

/-! ### The moves of the session (R320) -/

theorem unitOnly_se {u : UnitId} {s t : State} (hu : u ≠ .se) (h : unitOnly u s t) : t.se = s.se := by
  cases u with
  | bw => exact h.se
  | ns => exact h.se
  | fr => exact h.se
  | se => exact absurd rfl hu

/-- D3 and D4 leave the session alone (R272). -/
theorem decodeRest_se (r : StepNote × State) : (decodePoll (decodeSubmit r)).2.se = r.2.se := by
  obtain ⟨_, _, honly, _⟩ := decodeRest_moves r
  exact honly.se

/-- Only a setup that fails moves the session in `SE_DECODE`, and from open to failed (R258). -/
theorem exec_seDecode_life {s t : State} (h : exec .seDecode s = .next t) :
    t.se = s.se ∨ (s.se.life = .opened ∧ t.se.life = .failed) := by
  rw [show exec .seDecode s = execSeDecode s from rfl] at h
  have hpush : (decodePush s).2.se = s.se := by rw [decodePush_snd]; rfl
  rcases execSeDecode_cases s with ⟨_, e⟩ | ⟨_, e⟩ | ⟨_, _, e⟩ |
    ⟨hl, _, ⟨_, e⟩ | ⟨_, _, e⟩ | ⟨_, _, _, e⟩ | ⟨_, _, _, e⟩⟩ <;> rw [e] at h <;> rw [finish_next h]
  · exact .inl rfl
  · exact .inl rfl
  · exact .inl rfl
  · rw [setR0_se, setR1_se, decodeRest_se]
    exact .inl hpush
  · rw [setR0_se, setR1_se]
    exact .inl hpush
  · rw [setR0_se, setR1_se, decodeRest_se, (setup_only _).se]
    exact .inl hpush
  · exact .inr ⟨hl, rfl⟩

theorem exec_seGetpic_se {s t : State} (h : exec .seGetpic s = .next t) : t.se = s.se := by
  rw [show exec .seGetpic s = execSeGetpic s from rfl] at h
  rcases execSeGetpic_cases s with ⟨_, e⟩ | ⟨_, e⟩ | ⟨_, _, e⟩ | ⟨_, _, e⟩ <;> rw [e] at h <;> rw [finish_next h]
  · rfl
  · rfl
  · rfl
  · exact (getPicture_step (((s.setR1 0).setR2 0).setR3 0)).only.se

/-- The session moves only as the lifecycle says (R320). -/
theorem exec_lifeMove {s t : State} {i : Instr} (h : exec i s = .next t) : lifeMove i s.se.life t.se.life := by
  by_cases hunit : unitOf i = .se
  case neg => exact .inl (congrArg Session.life (unitOnly_se hunit (ends_unitOnly (exec_ends h)))).symm
  cases i with
  | seOpen =>
    rcases execSeOpen_cases s with ⟨_, e⟩ | ⟨_, _, e⟩ | ⟨hl, _, _, _, e⟩ <;> rw [finish_next (e.symm.trans h)]
    · exact .inl rfl
    · exact .inl rfl
    · exact .inr (.inl ⟨rfl, hl, rfl⟩)
  | seDecode =>
    rcases exec_seDecode_life h with hse | hfailed
    · exact .inl (congrArg Session.life hse).symm
    · exact .inr (.inr (.inl ⟨rfl, hfailed⟩))
  | seGetpic => exact .inl (congrArg Session.life (exec_seGetpic_se h)).symm
  | seClose =>
    rcases execSeClose_cases s with ⟨_, e⟩ | ⟨hl, _, _, _, _, e⟩ <;> rw [finish_next (e.symm.trans h)]
    · exact .inl rfl
    · exact .inr (.inr (.inr ⟨rfl, hl, rfl⟩))
  | _ => cases hunit

/-- Settles O60: the moves, the commands that are barred, a failed session, and that `IllegalState` is raised for a
barred command only. -/
theorem lifecycle : Obligations.Lifecycle := by
  intro i s t h
  have hbarred : s.bars i → t = s.withStatus (-10) := fun hb => by
    rw [exec_barred hb] at h
    cases h
    rfl
  refine ⟨exec_lifeMove h, fun hl hi => ?owned, fun hl hi => ?none, fun hl hi => ?failed, fun hv hi => ?invalid,
    fun hlegal hr0 => ?legal⟩
  case owned =>
    refine hbarred (.inl ⟨hl, ?_⟩)
    rw [movesFramer_iff]
    simpa only [or_assoc] using hi
  case none => exact hbarred (.inr (.inr ⟨hl, hi⟩))
  case failed =>
    obtain ⟨hdecode, hgetpic⟩ := (sessionRefuses s).2.1 hl
    rcases hi with rfl | rfl
    · rw [hdecode] at h; cases h; rfl
    · rw [hgetpic] at h; cases h; rfl
  case invalid => exact hbarred (.inr (.inl ⟨hv, hi⟩))
  case legal => exact not_bars hlegal (exec_says (st := .illegalState) h hr0).2

end Sys2Proof.Machine

/-! SUPPORT. The hardware reset (70_reset_and_hazards.md R340): what it leaves in the registers, and that the state it
starts from is sound. -/

namespace Sys2Proof.Machine

/-- The host's reset leaves the port, and the block is reset (R340). -/
theorem step_reset {s : State} {rest : List HostInput} (hp : s.port = .reset :: rest) :
    step s = .next (s.withPort rest).hardReset := step_port_cons hp

/-- Settles O7: the hardware reset takes every register from `State.reset`, and keeps MEM and Dev. -/
theorem resetLeaves : Obligations.ResetLeaves := by
  intro s rest hp
  refine ⟨(s.withPort rest).hardReset, step_reset hp, ?_⟩
  simp [State.hardReset, State.reset]

/-- Settles O55: MEM and the ring are empty, the framer stands as after `FR_INIT` but for `FR.valid`, the pools as after
a close, and the session is closed. -/
theorem resetSound : Obligations.ResetSound := by
  have hmem : State.reset.memOk := ⟨rfl, rfl⟩
  have hbw : State.reset.bw.ok := ⟨by decide, by decide, by decide⟩
  have hfr : State.reset.fr.ok State.reset.params.ringCap := frInit_ok _ .h264 false State.reset.fr
  have hpl : State.reset.pl.ok State.reset.params := emptied_ok _ State.reset.pl
  have hlife : State.reset.lifeOk := ⟨fun _ => rfl, fun hopen => absurd rfl hopen⟩
  exact ⟨hmem, hbw, hfr, hpl, hlife⟩

end Sys2Proof.Machine
